-- ==== Sys2Proof/Word.lean ====
section
/-! DEFINITION. The word types of HTB and nothing else: every value is unsigned (R13). -/

namespace Sys2Proof

/-- One byte of a stream memory (R50). -/
abbrev Byte := BitVec 8

/-- A 32-bit register, a command word, a count or a weight (R5, R6 `CNT_W`, R30). -/
abbrev Word := BitVec 32

/-- A node index, `IDX_W` = 10 bits (R6). -/
abbrev NodeIdx := BitVec 10

/-- A symbol as a leaf holds it, 9 bits (R61, R89). -/
abbrev Symbol := BitVec 9

end Sys2Proof
end

