-- ==== Sys2Proof/Config.lean ====
section
/-! DEFINITION. What is fixed for the machine: the constants of R5, R6 and R33, the open parameters of R7 as
one plain record, and the free values (no body: nothing can evaluate them). -/

namespace Sys2Proof

namespace Config

/-- R5 `SYM_BITS`. -/
def symBits : Nat := 8
/-- R5 `EOS_SYM`, the end-of-stream symbol. -/
def eosSym : Nat := 256
/-- R5 `NSYM`, entries of the frequency table and of the code table. -/
def nsym : Nat := 257
/-- R5 `LEAF_BITS`. -/
def leafBits : Nat := 9
/-- R5 `MAGIC_BITS`. -/
def magicBits : Nat := 32
/-- R5 `NBITS_MIN`. -/
def nbitsMin : Nat := 1
/-- R5 `NBITS_MAX`. -/
def nbitsMax : Nat := 32
/-- R6 `NODE_CAP` = 2 * `NSYM` - 1. -/
def nodeCap : Nat := 513
/-- R6 `NIL`, "no child". -/
def nil : NodeIdx := 1023#10
/-- R6 `PQ_CAP`. -/
def pqCap : Nat := 257
/-- R6 `MAX_CODE_LEN` = `NSYM` - 1. -/
def maxCodeLen : Nat := 256
/-- R6 `STK_CAP` = `NODE_CAP`. -/
def stkCap : Nat := 513
/-- The largest capacity R7 allows for `IBUF` and `OBUF`. -/
def capMax : Nat := 2 ^ 28
/-- R33: the constant `ID` reads as. -/
def idValue : Word := 0x48544201#32
/-- R7, R87: the suggested default of the open parameter `MAGIC`. -/
def defaultMagic : Word := 0xFACE8201#32

/-- FREE VALUE (log 7): the data of a host read that the spec leaves open (R74, R30, R51, R31), the k-th drawn. -/
opaque freeWord : Nat → Word

/-- FREE VALUE (log 6): what `STK` holds after a command that uses it (R29, R67). -/
opaque freeStk : Nat → List (NodeIdx × Bool)

/-- FREE VALUE (log 6): what `SP` holds after a command that uses it (R29). -/
opaque freeSp : Nat → NodeIdx

end Config

/-- The open parameters of R7. `in_err` and `out_err` are given as the list of byte indices at which an access
fails (log 3). A state carries them (log 1), so a claim over all states is a claim over all their values. -/
structure Params where
  /-- `MAGIC`, 32 bits, no constraint. -/
  magic   : Word
  /-- `IBUF_CAP`, bytes of the input memory. -/
  ibufCap : Nat
  /-- `OBUF_CAP`, bytes of the output memory. -/
  obufCap : Nat
  /-- `in_err(i)` is true exactly for the listed i. -/
  inErr   : List Nat
  /-- `out_err(i)` is true exactly for the listed i. -/
  outErr  : List Nat
  deriving DecidableEq, Repr

/-- The constraint R7 puts on the capacities. -/
abbrev Params.Ok (p : Params) : Prop :=
  1 ≤ p.ibufCap ∧ p.ibufCap ≤ Config.capMax ∧ 1 ≤ p.obufCap ∧ p.obufCap ≤ Config.capMax

/-- DESIGN CHOICE (log 2), for `State.reset` only: the suggested `MAGIC`, no access error, the largest memories. -/
def Params.default : Params where
  magic := Config.defaultMagic
  ibufCap := Config.capMax
  obufCap := Config.capMax
  inErr := []
  outErr := []

end Sys2Proof
end

