-- ==== Sys2Proof/Machine/Store.lean ====
section
/-! DEFINITION. A memory as a list of (index, entry) pairs in one canonical form: indices strictly rising and no
entry equal to what an unlisted index reads as. -/

namespace Sys2Proof.Machine

namespace Store

variable {α : Type}

/-- The entry listed at index i. -/
def get? : List (Nat × α) → Nat → Option α
  | [], _ => none
  | (k, v) :: m, i => if k = i then some v else get? m i

/-- List v at index i, replacing what was listed there. -/
def put : List (Nat × α) → Nat → α → List (Nat × α)
  | [], i, v => [(i, v)]
  | (k, w) :: m, i, v =>
    if i < k then (i, v) :: (k, w) :: m
    else if i = k then (i, v) :: m
    else (k, w) :: put m i v

/-- List nothing at index i. -/
def erase : List (Nat × α) → Nat → List (Nat × α)
  | [], _ => []
  | (k, w) :: m, i => if k = i then erase m i else (k, w) :: erase m i

/-- Read index i; an unlisted index reads d. -/
def read (d : α) (m : List (Nat × α)) (i : Nat) : α := (get? m i).getD d

/-- Write v at index i of a memory whose unlisted indices read d. -/
def write [DecidableEq α] (d : α) (m : List (Nat × α)) (i : Nat) (v : α) : List (Nat × α) :=
  if v = d then erase m i else put m i v

/-- Indices strictly rising. -/
abbrev Rising (m : List (Nat × α)) : Prop := m.Pairwise (fun a b => a.1 < b.1)

/-- The canonical form of a memory whose unlisted indices read d. -/
abbrev Canonical (d : α) (m : List (Nat × α)) : Prop := Rising m ∧ ∀ c ∈ m, c.2 ≠ d

/-- The canonical memory with the given entries below `cap`, a later entry winning. -/
def ofEntries [DecidableEq α] (d : α) (cap : Nat) (es : List (Nat × α)) : List (Nat × α) :=
  es.foldl (fun m e => if e.1 < cap then write d m e.1 e.2 else m) []

/-- The rising list with the given entries below `cap`, a later entry winning, none dropped for its value. -/
def ofRecords (cap : Nat) (es : List (Nat × α)) : List (Nat × α) :=
  es.foldl (fun m e => if e.1 < cap then put m e.1 e.2 else m) []

end Store

/-- A byte memory (`IBUF`, `OBUF`, R50). -/
abbrev Memory := List Host.Cell

/-- DESIGN CHOICE (log 4): what an unlisted byte of `IBUF` or `OBUF` reads as. -/
def Memory.fill : Byte := 0#8

/-- The canonical form of a byte memory. -/
abbrev Memory.wf (m : Memory) : Prop := Store.Canonical Memory.fill m

/-- Read one byte. -/
def Memory.read (m : Memory) (i : Nat) : Byte := Store.read Memory.fill m i

/-- Write one byte. -/
def Memory.write (m : Memory) (i : Nat) (b : Byte) : Memory := Store.write Memory.fill m i b

end Sys2Proof.Machine
end

