-- ==== Sys2Proof/Machine/State.lean ====
section
/-! DEFINITION. The state of HTB (10_state.md, 20_memory.md) as plain data, the reasons a step can stop, and the
state after reset (R40). Widths are the spec's; INVENTORY.md lists every field with its rule. -/

namespace Sys2Proof.Machine

/-- The fault kinds of R200. -/
inductive FaultKind where
  | badMagic
  | truncated
  | io
  | malformed
  | contract
  | overflow
  | illCmd
  deriving DecidableEq, Repr

/-- An entry of `NODE` (R61). -/
structure Node where
  leaf   : Bool
  sym    : Symbol
  weight : Word
  left   : NodeIdx
  right  : NodeIdx
  deriving DecidableEq, Repr

/-- An entry of `PQ` (R65). -/
structure PqEntry where
  weight : Word
  seq    : BitVec 10
  node   : NodeIdx
  deriving DecidableEq, Repr

/-- An entry of `CODE` (R66). -/
structure CodeEntry where
  valid : Bool
  len   : BitVec 9
  val   : BitVec 256
  deriving DecidableEq, Repr

/-- R66: "If valid = 0, len and val are 0". What an unlisted entry of `CODE` reads as. -/
def CodeEntry.invalid : CodeEntry := { valid := false, len := 0#9, val := 0#256 }

/-- An entry of `STK` (R67): a node index and the marker bit "left child already attached" (R164). -/
abbrev StkEntry := NodeIdx × Bool

/-- The phases of `SSTATE` while a command runs (R26), with the registers a unit holds only inside the phase:
`u*` UNPACK (R113), `p*` PACK (R116), `t*` TB (R140), `d*` DEC (R178); `h*` are the model's for HDRR (R164, log 14). -/
inductive Phase where
  /-- `U_CHECK`: compare `UPOS + N` with `8 * IN_LEN`. -/
  | uCheck (n : BitVec 6)
  /-- `U_SHIFT`: take bit k into v. -/
  | uShift (n : BitVec 6) (k : Nat) (v : Word)
  /-- `U_DONE`: advance `UPOS`. -/
  | uDone (n : BitVec 6) (v : Word)
  /-- `U_IDLE` after the read: the result is delivered. -/
  | uIdle (r : Option Word)
  /-- `P_SHIFT`: k bits of v are still to be written. -/
  | pShift (k : Nat) (v : Word)
  /-- `P_EMIT`: `PACC` is full. -/
  | pEmit (k : Nat) (v : Word)
  /-- `P_IDLE` after the write. -/
  | pIdle
  /-- `T_CLEAR`. -/
  | tClear
  /-- `T_SCAN` at symbol s. -/
  | tScan (s : Nat)
  /-- `T_CHECK`. -/
  | tCheck
  /-- `T_POP1`. -/
  | tPop1
  /-- `T_POP2` with the first removed entry. -/
  | tPop2 (a : PqEntry)
  /-- `T_MERGE` with both removed entries. -/
  | tMerge (a b : PqEntry)
  /-- `T_DONE`. -/
  | tDone
  /-- Before the magic value of HDRR. -/
  | hMagic
  /-- Before a token of the serialized tree. -/
  | hTree
  /-- The tree of HDRR is complete. -/
  | hDone
  /-- `D_START`. -/
  | dStart
  /-- `D_TEST`. -/
  | dTest
  /-- `D_BIT`. -/
  | dBit
  /-- `D_EMIT`. -/
  | dEmit
  /-- `D_DONE`. -/
  | dDone
  deriving DecidableEq, Repr

/-- `SSTATE` (R26). `BUSY` = 1 exactly in `run` (log 9). -/
inductive SState where
  /-- `S_IDLE`. -/
  | idle
  /-- `S_FAULT`. -/
  | fault
  /-- A command executes. -/
  | run (p : Phase)
  deriving DecidableEq, Repr

/-- The size of a host access (R30, R51). -/
inductive AccessSize where
  | byte
  | half
  | word
  deriving DecidableEq, Repr

/-- The pseudo-instructions of R98. -/
inductive Pseudo where
  | compress
  | decompress
  deriving DecidableEq, Repr

/-- What R40 leaves unspecified after reset, given as data: the content of the memories, `STK` and `SP` (log 5). -/
structure Contents where
  ibuf : List Host.Cell
  obuf : List Host.Cell
  node : List (Nat × Node)
  pq   : List PqEntry
  code : List (Nat × CodeEntry)
  stk  : List StkEntry
  sp   : NodeIdx
  deriving DecidableEq, Repr

/-- Nothing listed (log 5). -/
def Contents.empty : Contents :=
  { ibuf := [], obuf := [], node := [], pq := [], code := [], stk := [], sp := 0#10 }

/-- An access the host has still to make (R8, R41, R230). -/
inductive HostOp where
  /-- A read at a byte offset from the base of HTB. -/
  | read (size : AccessSize) (off : Nat)
  /-- A write at a byte offset; a word at offset 0 is a command (R30). -/
  | write (size : AccessSize) (off : Nat) (data : Word)
  /-- The command words of a pseudo-instruction, with no other access between them (R98, log 13). -/
  | pseudo (p : Pseudo)
  /-- Hardware reset (R230) and what the unspecified contents become. -/
  | reset (c : Contents)
  deriving DecidableEq, Repr

/-- The machine. `FREQ` is listed sparsely (an unlisted count is 0), `NODE` by allocated index, `CODE` by symbol (an
unlisted entry is invalid), `PQ` in ascending key order, `STK` from the top down. -/
structure State where
  -- sequencer and STATUS
  sstate    : SState
  done      : Bool
  err       : Bool
  eos       : Bool
  treeValid : Bool
  codeValid : Bool
  oclosed   : Bool
  errCode   : BitVec 3
  -- stream registers
  inLen     : BitVec 29
  upos      : Word
  outLen    : BitVec 29
  pacc      : Byte
  pcnt      : BitVec 3
  wdata     : Word
  rdata     : Word
  -- tree registers
  root      : NodeIdx
  nnodes    : BitVec 10
  cur       : NodeIdx
  seq       : BitVec 10
  pqLen     : BitVec 9
  sp        : NodeIdx
  -- memories
  ibuf      : Memory
  obuf      : Memory
  freq      : List (Nat × Word)
  node      : List (Nat × Node)
  pq        : List PqEntry
  code      : List (Nat × CodeEntry)
  stk       : List StkEntry
  -- the model's own: parameters (log 1), the host's side (log 8), free values drawn (logs 6, 7)
  params    : Params
  hostOps   : List HostOp
  hostData  : Word
  freeCtr   : Nat
  deriving DecidableEq, Repr

/-- Why the model stops. Every fault of the SPEC is a next state (R210); these stops are only for states that no run
from reset reaches (R64, R68; log 15), so they are safe. -/
inductive Fault where
  /-- A command or token reads an entry of `NODE` that nothing has written (U7 "refuse"). Safe. -/
  | nodeNotWritten
  /-- A branch token at a leaf, which has no child (R62, R176). Safe. -/
  | noChild
  /-- CTGEN or HDRW walks deeper than 256 levels or meets a symbol above 256: `NODE` holds no tree (R64). Safe. -/
  | notATree
  /-- `PQpopmin` with no entry, which R65 says is never called. Safe. -/
  | emptyPq
  /-- A loop passes the bound R11 gives it. No state does this. Safe. -/
  | loopBound
  deriving DecidableEq, Repr

/-- Why the model gives an instruction no meaning. -/
inductive Refusal where
  /-- Raised by `exec` for an instruction without a meaning (none is left). Safe. -/
  | notModelled (mnemonic : String)
  deriving DecidableEq, Repr

/-- R40: the state after hardware reset, for given parameters and unspecified contents. -/
def State.resetWith (p : Params) (c : Contents) : State where
  sstate := .idle
  done := false
  err := false
  eos := false
  treeValid := false
  codeValid := false
  oclosed := false
  errCode := 0#3
  inLen := 0#29
  upos := 0#32
  outLen := 0#29
  pacc := 0#8
  pcnt := 0#3
  wdata := 0#32
  rdata := 0#32
  root := 0#10
  nnodes := 0#10
  cur := 0#10
  seq := 0#10
  pqLen := 0#9
  sp := c.sp
  ibuf := Store.ofEntries Memory.fill p.ibufCap c.ibuf
  obuf := Store.ofEntries Memory.fill p.obufCap c.obuf
  freq := []
  node := Store.ofRecords Config.nodeCap c.node
  pq := c.pq.take Config.pqCap
  code := Store.ofEntries CodeEntry.invalid Config.nsym c.code
  stk := c.stk.take Config.stkCap
  params := p
  hostOps := []
  hostData := 0#32
  freeCtr := 0

/-- The machine right after reset, with the default parameters (log 2) and nothing listed (logs 4, 5). -/
def State.reset : State := State.resetWith Params.default Contents.empty

end Sys2Proof.Machine
end

