-- ==== Sys2Proof/Machine/Flags.lean ====
section
/-! DEFINITION. The fault codes (R200), the flags (R34 to R36) and the words in which the host reads them (R30). -/

namespace Sys2Proof.Machine

/-- R200: the value a fault leaves in `ERRCODE.CODE`. -/
def FaultKind.code : FaultKind → BitVec 3
  | .badMagic => 1#3
  | .truncated => 2#3
  | .io => 3#3
  | .malformed => 4#3
  | .contract => 5#3
  | .overflow => 6#3
  | .illCmd => 7#3

/-- R34: `STATUS.BUSY`, 1 while a command executes (log 9). -/
def SState.busy : SState → Bool
  | .idle => false
  | .fault => false
  | .run _ => true

/-- R34: `STATUS.BUSY`. -/
def State.busy (s : State) : Bool := s.sstate.busy

/-- A flag at bit position k of a word. -/
def flagBit (b : Bool) (k : Nat) : Word := (BitVec.ofBool b).setWidth 32 <<< k

/-- R30: the word of `STATUS`. -/
def State.statusWord (s : State) : Word :=
  flagBit s.busy 0 ||| flagBit s.done 1 ||| flagBit s.err 2 ||| flagBit s.eos 3 |||
    flagBit s.treeValid 4 ||| flagBit s.codeValid 5 ||| flagBit s.oclosed 6

/-- R30: the word of `PSTATE`, `PACC` in 7:0 and `PCNT` in 10:8. -/
def State.pstateWord (s : State) : Word := s.pacc.setWidth 32 ||| (s.pcnt.setWidth 32 <<< 8)

/-- R34, R191: acceptance of a command clears `DONE`. -/
def State.begin (s : State) : State := { s with done := false }

/-- R34, R191: a command that completes sets `DONE`, clears `BUSY`. -/
def State.complete (s : State) : State := { s with done := true, sstate := .idle }

/-- R36: TBUILD and HDRR clear both flags at their start. -/
def State.clearValid (s : State) : State := { s with treeValid := false, codeValid := false }

/-- R36: a tree stands in `NODE` with this root. -/
def State.setTree (s : State) (r : NodeIdx) : State := { s with root := r, treeValid := true }

/-- R35: RDBITS writes `EOS`. -/
def State.setEos (s : State) (b : Bool) : State := { s with eos := b }

/-- R142, R207: the sum of two weights, with its 33rd bit. -/
def weightSum (a b : Word) : Nat := a.toNat + b.toNat

/-- R131, R137, R207: a count or weight that does not fit in 32 bits. -/
def tooHeavy (n : Nat) : Bool := 2 ^ 32 ≤ n

end Sys2Proof.Machine
end

