-- ==== Sys2Proof/Syntax.lean ====
section
/-! DEFINITION. The instructions: one constructor per row of spec/opcode_table.json. -/

namespace Sys2Proof

/-- The twelve commands (R83), the five stream tokens (R87 to R89, R93) and the two pseudo-instructions (R98). -/
inductive Instr where
  /-- R131: count the symbols of the input. -/
  | fcount
  /-- R134: build the code tree from the counts. -/
  | tbuild
  /-- R151: derive the code table from the tree. -/
  | ctgen
  /-- R155: write the magic value and the tree. -/
  | hdrw
  /-- R172: write the codes of the input and the terminator. -/
  | encode
  /-- R160: read the magic value and the tree. -/
  | hdrr
  /-- R175: walk the tree bit by bit and emit bytes. -/
  | decode
  /-- R119: read n bits into `RDATA`. -/
  | rdbits (n : BitVec 6)
  /-- R120: write the low n bits of `WDATA`. -/
  | wrbits (n : BitVec 6)
  /-- R121: close the output stream. -/
  | flush
  /-- R122: reset the unpacker to the start of the input. -/
  | rewind
  /-- R190: start a new operation. -/
  | init
  /-- R87, R158: the 32 bits in front of a compressed stream. -/
  | magic (m : Word)
  /-- R88: an internal node of the serialized tree. -/
  | tInternal
  /-- R89: a leaf of the serialized tree and its 9-bit symbol field. -/
  | tLeaf (v : Symbol)
  /-- R93: decoder branch bit 0. -/
  | bLeft
  /-- R93: decoder branch bit 1. -/
  | bRight
  /-- R193: the command sequence of a compression. -/
  | compress
  /-- R194: the command sequence of a decompression. -/
  | decompress
  deriving DecidableEq, Repr

end Sys2Proof
end

