-- ==== Sys2Proof/WellFormed.lean ====
section
/-! DEFINITION. Which instructions are legal: the bit count of RDBITS and WRBITS (R84, R85) and the symbol field
of a leaf token (R91). -/

namespace Sys2Proof

/-- R84: "N in the range this format uses (1 to 32)". -/
def countOk (n : BitVec 6) : Bool := Config.nbitsMin ≤ n.toNat && n.toNat ≤ Config.nbitsMax

/-- R91: a leaf field of 257 to 511 is reserved. -/
def symbolOk (v : Symbol) : Bool := v.toNat ≤ Config.eosSym

/-- A legal instruction. Every 32-bit value can stand in front of a stream (R87 leaves `MAGIC` open). -/
def Instr.wf : Instr → Bool
  | .fcount => true
  | .tbuild => true
  | .ctgen => true
  | .hdrw => true
  | .encode => true
  | .hdrr => true
  | .decode => true
  | .rdbits n => countOk n
  | .wrbits n => countOk n
  | .flush => true
  | .rewind => true
  | .init => true
  | .magic _ => true
  | .tInternal => true
  | .tLeaf v => symbolOk v
  | .bLeft => true
  | .bRight => true
  | .compress => true
  | .decompress => true

end Sys2Proof
end

