-- ==== Sys2Proof/Decode.lean ====
section
/-! DEFINITION. Bit sequences (R14), the decoder (total, refusing by name) and after it the encoder, both from the
encoding tables R82 to R94, R97, R98. The decoder reads a bit sequence in a context, because the same bits mean
different things at `CMD`, in front of a stream, in a serialized tree and in the code stream (R80). -/

namespace Sys2Proof

/-! ## Bit sequences -/

/-- R14: `bits_N(v)`, the low N bits of v, most significant first. -/
def bitsN : Nat → Nat → List Bool
  | 0, _ => []
  | n + 1, v => v.testBit n :: bitsN n v

/-- The value of a bit sequence read after the value `a`. -/
def valFrom (a : Nat) : List Bool → Nat
  | [] => a
  | b :: s => valFrom (2 * a + b.toNat) s

/-- R14: `val(s)`, most significant bit first. -/
def val (s : List Bool) : Nat := valFrom 0 s

/-! ## Decoder -/

/-- Why a bit sequence is no instruction. -/
inductive Reject where
  /-- R85: `OP` is 0, 13, 14 or 15. -/
  | reservedOp
  /-- R85: bits 31:10 are not all 0. -/
  | reservedBits
  /-- R85: `N` is not 0 and the command takes no count. -/
  | countNotAllowed
  /-- R85: `N` is 0 or above 32 for RDBITS or WRBITS. -/
  | countOutOfRange
  /-- R91: a leaf field of 257 to 511. -/
  | reservedLeaf
  /-- Fewer bits than the token has. -/
  | tooShort
  /-- R98: the words are not the expansion of a pseudo-instruction. -/
  | notPseudo
  deriving DecidableEq, Repr

/-- R82: field `OP`, bits 3:0. -/
def opField (w : Word) : BitVec 4 := w.extractLsb' 0 4

/-- R82: field `N`, bits 9:4. -/
def countField (w : Word) : BitVec 6 := w.extractLsb' 4 6

/-- R82: reserved bits 31:10. -/
def reservedField (w : Word) : BitVec 22 := w.extractLsb' 10 22

/-- R85: a command without operand, legal only with `N` = 0. -/
def plainCommand (n : BitVec 6) (i : Instr) : Except Reject Instr :=
  if n = 0 then .ok i else .error .countNotAllowed

/-- R85: a command with a bit count, legal only with `N` in 1 to 32. -/
def countedCommand (n : BitVec 6) (i : Instr) : Except Reject Instr :=
  if countOk n then .ok i else .error .countOutOfRange

/-- The operation map R83 with the checks of R85. -/
def decodeWord (w : Word) : Except Reject Instr :=
  if reservedField w ≠ 0 then .error .reservedBits
  else
    let n := countField w
    match (opField w).toNat with
    | 1 => plainCommand n .fcount
    | 2 => plainCommand n .tbuild
    | 3 => plainCommand n .ctgen
    | 4 => plainCommand n .hdrw
    | 5 => plainCommand n .encode
    | 6 => plainCommand n .hdrr
    | 7 => plainCommand n .decode
    | 8 => countedCommand n (.rdbits n)
    | 9 => countedCommand n (.wrbits n)
    | 10 => plainCommand n .flush
    | 11 => plainCommand n .rewind
    | 12 => plainCommand n .init
    | _ => .error .reservedOp

/-- Where a bit sequence is read (R80). -/
inductive Context where
  /-- A 32-bit value written to `CMD` (R82). -/
  | command
  /-- The first 32 bits of a compressed stream (R87). -/
  | header
  /-- The serialized tree (R88 to R90). -/
  | tree
  /-- The code stream, at an internal node (R93). -/
  | branch
  /-- A sequence of command words given as one pseudo-instruction (R98). -/
  | script
  deriving DecidableEq, Repr

/-- R193: the words of COMPRESS. -/
def compressWords : List Word :=
  [0x0C#32, 0x01#32, 0x02#32, 0x03#32, 0x0B#32, 0x04#32, 0x05#32, 0x0A#32]

/-- R194: the words of DECOMPRESS. -/
def decompressWords : List Word := [0x0C#32, 0x06#32, 0x07#32, 0x0A#32]

/-- The bits of a sequence of words, the first word first. -/
def wordsBits : List Word → List Bool
  | [] => []
  | w :: ws => bitsN 32 w.toNat ++ wordsBits ws

/-- R88, R89: a token of the serialized tree. -/
def decodeTree : List Bool → Except Reject (Instr × List Bool)
  | [] => .error .tooShort
  | false :: rest => .ok (.tInternal, rest)
  | true :: rest =>
    if rest.length < Config.leafBits then .error .tooShort
    else if symbolOk (BitVec.ofNat 9 (val (rest.take 9))) then
      .ok (.tLeaf (BitVec.ofNat 9 (val (rest.take 9))), rest.drop 9)
    else .error .reservedLeaf

/-- R93: a branch bit. -/
def decodeBranch : List Bool → Except Reject (Instr × List Bool)
  | [] => .error .tooShort
  | false :: rest => .ok (.bLeft, rest)
  | true :: rest => .ok (.bRight, rest)

/-- The decoder: the instruction at the head of a bit sequence and the bits after it. -/
def decode (c : Context) (bs : List Bool) : Except Reject (Instr × List Bool) :=
  match c with
  | .command =>
    if bs.length < 32 then .error .tooShort
    else
      match decodeWord (BitVec.ofNat 32 (val (bs.take 32))) with
      | .ok i => .ok (i, bs.drop 32)
      | .error r => .error r
  | .header =>
    if bs.length < 32 then .error .tooShort
    else .ok (.magic (BitVec.ofNat 32 (val (bs.take 32))), bs.drop 32)
  | .tree => decodeTree bs
  | .branch => decodeBranch bs
  | .script =>
    if bs.take 256 = wordsBits compressWords then .ok (.compress, bs.drop 256)
    else if bs.take 128 = wordsBits decompressWords then .ok (.decompress, bs.drop 128)
    else .error .notPseudo

/-! ## Encoder -/

/-- R97: the command word `OP + 16*N`. -/
def commandWord (op : Nat) (n : BitVec 6) : Word := BitVec.ofNat 32 (op + 16 * n.toNat)

/-- The command word of a command (R83); a token or a pseudo-instruction has none. -/
def encodeWord : Instr → Option Word
  | .fcount => some (commandWord 1 0)
  | .tbuild => some (commandWord 2 0)
  | .ctgen => some (commandWord 3 0)
  | .hdrw => some (commandWord 4 0)
  | .encode => some (commandWord 5 0)
  | .hdrr => some (commandWord 6 0)
  | .decode => some (commandWord 7 0)
  | .rdbits n => some (commandWord 8 n)
  | .wrbits n => some (commandWord 9 n)
  | .flush => some (commandWord 10 0)
  | .rewind => some (commandWord 11 0)
  | .init => some (commandWord 12 0)
  | .magic _ => none
  | .tInternal => none
  | .tLeaf _ => none
  | .bLeft => none
  | .bRight => none
  | .compress => none
  | .decompress => none

/-- Where an instruction is read. -/
def Instr.context : Instr → Context
  | .fcount => .command
  | .tbuild => .command
  | .ctgen => .command
  | .hdrw => .command
  | .encode => .command
  | .hdrr => .command
  | .decode => .command
  | .rdbits _ => .command
  | .wrbits _ => .command
  | .flush => .command
  | .rewind => .command
  | .init => .command
  | .magic _ => .header
  | .tInternal => .tree
  | .tLeaf _ => .tree
  | .bLeft => .branch
  | .bRight => .branch
  | .compress => .script
  | .decompress => .script

/-- The bits of a command word, `bits_32` of it. -/
def encodeCommand (i : Instr) : List Bool :=
  match encodeWord i with
  | some w => bitsN 32 w.toNat
  | none => []

/-- The encoder: the bits of an instruction in the order they travel. -/
def encode (i : Instr) : List Bool :=
  match i with
  | .fcount => encodeCommand i
  | .tbuild => encodeCommand i
  | .ctgen => encodeCommand i
  | .hdrw => encodeCommand i
  | .encode => encodeCommand i
  | .hdrr => encodeCommand i
  | .decode => encodeCommand i
  | .rdbits _ => encodeCommand i
  | .wrbits _ => encodeCommand i
  | .flush => encodeCommand i
  | .rewind => encodeCommand i
  | .init => encodeCommand i
  | .magic m => bitsN 32 m.toNat
  | .tInternal => [false]
  | .tLeaf v => true :: bitsN 9 v.toNat
  | .bLeft => [false]
  | .bRight => [true]
  | .compress => wordsBits compressWords
  | .decompress => wordsBits decompressWords

/-! ## The opcode table's numbering -/

/-- The words of a table word, the first word in the low bits. -/
def tableWords : Nat → Nat → List Word
  | 0, _ => []
  | n + 1, w => BitVec.ofNat 32 w :: tableWords n (w / 2 ^ 32)

/-- Where the 32 bits of a table word are read (log 12): a word of the operation map R83, with a legal count or not, at
`CMD`; any other 32 bits can only be the magic value in front of a stream (R87 leaves its value open). -/
def wordContext (w : Word) : Context :=
  match decodeWord w with
  | .ok _ => .command
  | .error .countNotAllowed => .command
  | .error .countOutOfRange => .command
  | .error _ => .header

/-- Where the instruction of a table word is read, and its bits (log 12). One byte is a branch bit, two bytes a leaf
token, four bytes a command word or the magic value, more a sequence of words. -/
def tableBits (nbits w : Nat) : Option (Context × List Bool) :=
  if nbits ≤ 8 then if w < 2 then some (.branch, bitsN 1 w) else none
  else if nbits ≤ 16 then if w < 1024 then some (.tree, bitsN 10 w) else none
  else if nbits ≤ 32 then
    if w < 2 ^ 32 then some (wordContext (BitVec.ofNat 32 w), bitsN 32 w) else none
  else if w < 2 ^ nbits then some (.script, wordsBits (tableWords (nbits / 32) w))
  else none

/-- The instruction the decoder reads from an instruction whose bits the opcode table numbers as w. -/
def decodeTableWord (nbits w : Nat) : Option Instr :=
  match tableBits nbits w with
  | none => none
  | some (c, bs) =>
    match decode c bs with
    | .ok (i, []) => some i
    | .ok (_, _ :: _) => none
    | .error _ => none

/-! ## Assembler text (R97) -/

/-- The mnemonics of R83, R88, R89, R93, R98. -/
def Instr.mnemonic : Instr → String
  | .fcount => "FCOUNT"
  | .tbuild => "TBUILD"
  | .ctgen => "CTGEN"
  | .hdrw => "HDRW"
  | .encode => "ENCODE"
  | .hdrr => "HDRR"
  | .decode => "DECODE"
  | .rdbits _ => "RDBITS"
  | .wrbits _ => "WRBITS"
  | .flush => "FLUSH"
  | .rewind => "REWIND"
  | .init => "INIT"
  | .magic _ => "MAGIC"
  | .tInternal => "T_INTERNAL"
  | .tLeaf _ => "T_LEAF"
  | .bLeft => "B_LEFT"
  | .bRight => "B_RIGHT"
  | .compress => "COMPRESS"
  | .decompress => "DECOMPRESS"

/-- R97: one line of a host command sequence; RDBITS and WRBITS are followed by N in decimal. -/
def Instr.asm (i : Instr) : String :=
  match i with
  | .rdbits n => i.mnemonic ++ " " ++ toString n.toNat
  | .wrbits n => i.mnemonic ++ " " ++ toString n.toNat
  | .fcount | .tbuild | .ctgen | .hdrw | .encode | .hdrr | .decode | .flush | .rewind | .init
  | .magic _ | .tInternal | .tLeaf _ | .bLeft | .bRight | .compress | .decompress => i.mnemonic

end Sys2Proof
end

