-- ==== Sys2Proof/Machine/Operands.lean ====
section
/-! DEFINITION. The operands of the commands (R21, R84) and the bits of the streams (R54, R111). -/

namespace Sys2Proof.Machine

/-- R84: the bit count, the unsigned value of bits 9:4 of the command word. -/
def countOf (n : BitVec 6) : Nat := n.toNat

/-- R84, R120: the value operand of WRBITS is `WDATA`, of which only `WDATA[N-1:0]` matters. -/
def State.writeValue (s : State) : Word := s.wdata

/-- R84: the result of an N-bit read in `RDATA`, already held zero-extended to 32 bits. -/
def State.putResult (s : State) (v : Word) : State := { s with rdata := v }

/-- One more bit joins v as its least significant bit (R112). -/
def shiftIn (v : Word) (b : Bool) : Word := (v <<< 1) ||| (BitVec.ofBool b).setWidth 32

/-- R111: the bit number inside its byte of stream position p. -/
def bitInByte (p : Nat) : Nat := 7 - p % 8

/-- R115: one more bit joins `PACC`, whose bits above the low eight are dropped. -/
def shiftInByte (acc : Byte) (b : Bool) : Byte := (acc <<< 1) ||| (BitVec.ofBool b).setWidth 8

/-- R118, R210: the `PCNT` pending bits at the top of a byte, zeros below. -/
def padded (acc : Byte) (cnt : BitVec 3) : Byte := acc <<< (8 - cnt.toNat)

/-- The bytes from index i on, as bits in stream order (R54). -/
def byteBits (m : Memory) (i : Nat) : List Bool := bitsN 8 (m.read i).toNat

/-- The valid input as a bit sequence (R52, R111). -/
def State.inBits (s : State) : List Bool := (List.range s.inLen.toNat).flatMap (byteBits s.ibuf)

/-- The bits written so far: the bytes of `OBUF[0 .. OUT_LEN-1]`, then the `PCNT` pending bits (R117). -/
def State.outBits (s : State) : List Bool :=
  (List.range s.outLen.toNat).flatMap (byteBits s.obuf) ++ bitsN s.pcnt.toNat s.pacc.toNat

/-- The output bytes `OBUF[0 .. OUT_LEN-1]` (R12). -/
def State.output (s : State) : List Byte := (List.range s.outLen.toNat).map s.obuf.read

/-- The input bytes `IBUF[0 .. IN_LEN-1]` (R28). -/
def State.input (s : State) : List Byte := (List.range s.inLen.toNat).map s.ibuf.read

end Sys2Proof.Machine
end

