-- ==== Sys2Proof/Machine/Ops.lean ====
section
/-! DEFINITION. The operations every command is written over: the stream primitives (R55, R58, R111, R112, R115,
R118), fault entry (R210), acceptance and completion of a command (R191), node allocation (R63), the priority
structure (R65), the code table (R66), the traversal stack (R67). -/

namespace Sys2Proof.Machine

/-- How a part of a command ends: with a value, by `raise` (R17), or stuck in a state no run reaches (log 15). -/
inductive Res (α : Type) where
  | ok (a : α) (s : State)
  | raise (k : FaultKind) (s : State)
  | stuck (f : Fault)
  deriving DecidableEq, Repr

/-- One part after another; a `raise` ends the command at once and keeps what was written (R17, R211). -/
def Res.bind {α β : Type} (r : Res α) (f : α → State → Res β) : Res β :=
  match r with
  | .ok a s => f a s
  | .raise k s => .raise k s
  | .stuck e => .stuck e

/-! ## The input stream -/

/-- R55 `GetByte(i)`. -/
def getByte (s : State) (i : Nat) : Except FaultKind Byte :=
  if i ∈ s.params.inErr then .error .io else .ok (s.ibuf.read i)

/-- R111 `InBit(p)`. -/
def inBit (s : State) (p : Nat) : Except FaultKind Bool :=
  match getByte s (p / 8) with
  | .ok b => .ok (b.getLsbD (bitInByte p))
  | .error k => .error k

/-- The loop of R112: k more bits from position p join v, the first read the most significant. -/
def readLoop (s : State) : Nat → Nat → Word → Except FaultKind Word
  | 0, _, v => .ok v
  | k + 1, p, v =>
    match inBit s p with
    | .ok b => readLoop s k (p + 1) (shiftIn v b)
    | .error e => .error e

/-- R24: `UPOS` is advanced by n. -/
def State.advance (s : State) (n : Nat) : State := { s with upos := s.upos + BitVec.ofNat 32 n }

/-- R112 `RdBits(N)`: the value, or `none` for `EOS` (R114: out of band). -/
def rdBits (n : Nat) (s : State) : Res (Option Word) :=
  if s.upos.toNat + n > 8 * s.inLen.toNat then .ok none s
  else
    match readLoop s n s.upos.toNat 0#32 with
    | .ok v => .ok (some v) (s.advance n)
    | .error k => .raise k s

/-! ## The output stream -/

/-- R58: `OBUF[OUT_LEN] <- b; OUT_LEN <- OUT_LEN + 1`. -/
def State.append (s : State) (b : Byte) : State :=
  { s with obuf := s.obuf.write s.outLen.toNat b, outLen := s.outLen + 1#29 }

/-- R58, R203: the condition under which the next byte cannot be written. -/
def State.outBlocked (s : State) : Bool :=
  s.outLen.toNat = s.params.obufCap || s.params.outErr.contains s.outLen.toNat

/-- R58 `PutByte(b)`. -/
def putByte (b : Byte) (s : State) : Res Unit :=
  if s.outBlocked then .raise .io s else .ok () (s.append b)

/-- R115: `PACC <- 0; PCNT <- 0`. -/
def State.clearAcc (s : State) : State := { s with pacc := 0#8, pcnt := 0#3 }

/-- R115: the new bit in `PACC`, `PCNT` one higher. -/
def State.shiftAcc (s : State) (b : Bool) : State :=
  { s with pacc := shiftInByte s.pacc b, pcnt := s.pcnt + 1#3 }

/-- The body of the loop of R115 for one bit. At the eighth bit the full byte is taken out before `PutByte`. -/
def wrBit (b : Bool) (s : State) : Res Unit :=
  if s.pcnt.toNat + 1 = 8 then putByte (shiftInByte s.pacc b) s.clearAcc
  else .ok () (s.shiftAcc b)

/-- The loop of R115 over the low k bits of v, most significant first. -/
def wrLoop (v : Word) : Nat → State → Res Unit
  | 0, s => .ok () s
  | k + 1, s => (wrBit (v.getLsbD k) s).bind fun _ s => wrLoop v k s

/-- R115 `WrBits(N, v)`. -/
def wrBits (n : Nat) (v : Word) (s : State) : Res Unit :=
  if s.oclosed then .raise .contract s else wrLoop v n s

/-- R36: the output stream is closed. -/
def State.close (s : State) : State := { s with oclosed := true }

/-- R118 `Flush()`. -/
def flushOut (s : State) : Res Unit :=
  if s.oclosed then .ok () s
  else if s.pcnt.toNat = 0 then .ok () s.close
  else putByte (padded s.pacc s.pcnt) s.clearAcc.close

/-! ## Fault entry -/

/-- R210: close the output without raising again; a byte that cannot be written is dropped. -/
def State.closeQuietly (s : State) : State :=
  if s.oclosed then s
  else if s.pcnt.toNat = 0 then s.close
  else if s.outBlocked then s.clearAcc.close
  else (s.clearAcc.append (padded s.pacc s.pcnt)).close

/-- R210: the kind is recorded, `ERR` set, `DONE` and `BUSY` cleared, the sequencer in `S_FAULT`. -/
def State.markFault (s : State) (k : FaultKind) : State :=
  { s with errCode := k.code, err := true, done := false, sstate := .fault }

/-- R210 `FaultEntry(K)`. There is no return beside it: only INIT and reset leave `S_FAULT` (R215). -/
def faultEntry (k : FaultKind) (s : State) : State := s.closeQuietly.markFault k

/-! ## Acceptance and completion of commands -/

/-- The end of a command (R191): complete, fault entry, or the model stops. -/
def finish (r : Res Unit) : Host.Outcome State Fault Refusal :=
  match r with
  | .ok _ s => .next s.complete
  | .raise k s => .next (faultEntry k s)
  | .stuck f => .fault f

/-- R31: an access made while `BUSY` = 1 stays the host's next access (log 10). -/
def State.hold (s : State) (op : HostOp) : State := { s with hostOps := op :: s.hostOps }

/-- The write of an instruction's command word to `CMD`. -/
def cmdWrite (i : Instr) : HostOp := .write .word 0 ((encodeWord i).getD 0#32)

/-- R191: a legal command other than INIT written to `CMD`. -/
def command (i : Instr) (body : State → Res Unit) (s : State) : Host.Outcome State Fault Refusal :=
  match s.sstate with
  | .idle => finish (body s.begin)
  | .fault => .next s
  | .run _ => .next (s.hold (cmdWrite i))

/-- R191, R195: an illegal word written to `CMD`; `op` is that write. -/
def illegalCommand (op : HostOp) (s : State) : Host.Outcome State Fault Refusal :=
  match s.sstate with
  | .idle => .next (faultEntry .illCmd s)
  | .fault => .next s
  | .run _ => .next (s.hold op)

/-- A stream token: its effect on the unit that reads it, or fault entry. Acceptance is not its business: a token is
read only while HDRR or DECODE runs (R72, log 11). -/
def token (r : Res Unit) : Host.Outcome State Fault Refusal :=
  match r with
  | .ok _ s => .next s
  | .raise k s => .next (faultEntry k s)
  | .stuck f => .fault f

/-! ## Node memory -/

/-- A leaf record (R61, R62). -/
def leafNode (sym : Symbol) (weight : Word) : Node :=
  { leaf := true, sym := sym, weight := weight, left := Config.nil, right := Config.nil }

/-- An internal record (R61, R62). -/
def internalNode (weight : Word) (left right : NodeIdx) : Node :=
  { leaf := false, sym := 0#9, weight := weight, left := left, right := right }

/-- `NODE[i] <- nd`. -/
def State.setNode (s : State) (i : Nat) (nd : Node) : State := { s with node := Store.put s.node i nd }

/-- R63: `NNODES` grows by 1; the new node's index is the old `NNODES`. -/
def State.alloc (s : State) : State := { s with nnodes := s.nnodes + 1#10 }

/-- Read `NODE[i]` for a command (U7: an entry nothing has written is refused). -/
def getNode (s : State) (i : NodeIdx) : Option Node := Store.get? s.node i.toNat

/-- R160: `NODE` is full. -/
def State.nodesFull (s : State) : Bool := s.nnodes.toNat = Config.nodeCap

/-! ## Priority structure -/

/-- R18, R65: the key order, weight then sequence number, unsigned. -/
def keyLt (a b : PqEntry) : Bool := a.weight < b.weight || (a.weight == b.weight && a.seq < b.seq)

/-- The entries in use, `PQ[0 .. PQ_LEN-1]`. -/
def State.pqLive (s : State) : List PqEntry := s.pq.take s.pqLen.toNat

/-- R65: place e so that the entries stay ascending by key. -/
def pqPlace (e : PqEntry) : List PqEntry → List PqEntry
  | [] => [e]
  | x :: xs => if keyLt e x then e :: x :: xs else x :: pqPlace e xs

/-- R65 `PQinsert(e)`. -/
def State.pqInsert (s : State) (e : PqEntry) : State :=
  { s with pq := pqPlace e s.pqLive, pqLen := s.pqLen + 1#9 }

/-- R65 `PQpopmin()`. -/
def pqPopMin (s : State) : Option (PqEntry × State) :=
  match s.pqLive with
  | [] => none
  | e :: rest => some (e, { s with pq := rest, pqLen := s.pqLen - 1#9 })

/-- R135, R137: insert a node of this weight and index under the next sequence number. -/
def State.enqueue (s : State) (weight : Word) (i : NodeIdx) : State :=
  let t := s.pqInsert { weight := weight, seq := s.seq, node := i }
  { t with seq := t.seq + 1#10 }

/-! ## Counts and codes -/

/-- `FREQ[i]` (R60). -/
def State.freqAt (s : State) (i : Nat) : Word := Store.read 0#32 s.freq i

/-- `FREQ[i] <- v`. -/
def State.setFreq (s : State) (i : Nat) (v : Word) : State := { s with freq := Store.write 0#32 s.freq i v }

/-- R131, R190: all 257 entries 0. -/
def State.clearFreq (s : State) : State := { s with freq := [] }

/-- `CODE[i]` (R66). -/
def codeAt (t : List (Nat × CodeEntry)) (i : Nat) : CodeEntry := Store.read CodeEntry.invalid t i

/-- `CODE[i] <- e`. -/
def setCode (t : List (Nat × CodeEntry)) (i : Nat) (e : CodeEntry) : List (Nat × CodeEntry) :=
  Store.write CodeEntry.invalid t i e

/-! ## Traversal stack -/

/-- The entries in use, the newest first. -/
def State.stkLive (s : State) : List StkEntry := s.stk.take s.sp.toNat

/-- An empty stack. -/
def State.stkInit (s : State) : State := { s with stk := [], sp := 0#10 }

/-- The stack holds exactly l. -/
def State.stkSet (s : State) (l : List StkEntry) : State := { s with stk := l, sp := BitVec.ofNat 10 l.length }

/-- R29, U6: after a command that uses them `STK` and `SP` hold free values in their ranges (log 6). -/
def State.stkFree (s : State) : State :=
  { s with
    stk := (Config.freeStk s.freeCtr).take Config.stkCap
    sp := BitVec.ofNat 10 ((Config.freeSp s.freeCtr).toNat % (Config.stkCap + 1))
    freeCtr := s.freeCtr + 1 }

end Sys2Proof.Machine
end

