-- ==== Sys2Proof/Machine/BitIO.lean ====
section
/-! DEFINITION. RDBITS, WRBITS, FLUSH, REWIND (40_bitio.md R119 to R122). -/

namespace Sys2Proof.Machine

/-- R119: the result of RDBITS in `RDATA` and `STATUS.EOS`; `RDATA` keeps its value on `EOS`. -/
def deliver (r : Option Word) (s : State) : State :=
  match r with
  | none => s.setEos true
  | some v => (s.setEos false).putResult v

/-- R119, after the check of N. -/
def rdbitsBody (n : BitVec 6) (s : State) : Res Unit :=
  (rdBits (countOf n) s).bind fun r s => .ok () (deliver r s)

/-- R119 `RDBITS n`; with N outside 1 to 32 the word is illegal (R85). -/
def execRdbits (n : BitVec 6) (s : State) : Host.Outcome State Fault Refusal :=
  if countOk n then command (.rdbits n) (rdbitsBody n) s else illegalCommand (cmdWrite (.rdbits n)) s

/-- R120, after the check of N. -/
def wrbitsBody (n : BitVec 6) (s : State) : Res Unit := wrBits (countOf n) s.writeValue s

/-- R120 `WRBITS n`; with N outside 1 to 32 the word is illegal (R85). -/
def execWrbits (n : BitVec 6) (s : State) : Host.Outcome State Fault Refusal :=
  if countOk n then command (.wrbits n) (wrbitsBody n) s else illegalCommand (cmdWrite (.wrbits n)) s

/-- R121 `FLUSH`. -/
def execFlush (s : State) : Host.Outcome State Fault Refusal := command .flush flushOut s

/-- R122: `UPOS <- 0`. -/
def rewindBody (s : State) : Res Unit := .ok () { s with upos := 0#32 }

/-- R122 `REWIND`. -/
def execRewind (s : State) : Host.Outcome State Fault Refusal := command .rewind rewindBody s

end Sys2Proof.Machine
end

