-- ==== Sys2Proof/Machine/CodesHeader.lean ====
section
/-! DEFINITION. CTGEN, HDRW, HDRR (42_codes_header.md R151, R155, R160), in the recursive form the spec makes the
definition (R164). Recursion is on a bound of the depth: 257 levels for a well-formed tree (R64 item 4), 514 for HDRR,
which allocates a node at every level and stops at 513. -/

namespace Sys2Proof.Machine

/-- Levels of the deepest well-formed tree: depth 0 to `MAX_CODE_LEN` (R64 item 4). -/
def walkLevels : Nat := Config.maxCodeLen + 1

/-- Nested calls HDRR can reach: one per node and the one that finds `NODE` full (R160). -/
def deserLevels : Nat := Config.nodeCap + 1

/-! ## Code table generator -/

/-- R151 `Walk(i, len, val)` over the code table; `none` if `NODE` holds no tree (log 15). -/
def walk (nodes : List (Nat × Node)) :
    Nat → NodeIdx → BitVec 9 → BitVec 256 → List (Nat × CodeEntry) → Option (List (Nat × CodeEntry))
  | 0, _, _, _, _ => none
  | f + 1, i, len, v, t =>
    match Store.get? nodes i.toNat with
    | none => none
    | some nd =>
      if nd.leaf then
        if Config.eosSym < nd.sym.toNat then none
        else some (setCode t nd.sym.toNat { valid := true, len := len, val := v })
      else
        match walk nodes f nd.left (len + 1#9) (v <<< 1) t with
        | none => none
        | some t => walk nodes f nd.right (len + 1#9) ((v <<< 1) ||| 1#256) t

/-- R151: `CODE_VALID <- 0` and every entry invalid. -/
def State.clearCode (s : State) : State := { s with codeValid := false, code := [] }

/-- R151: the finished table and `CODE_VALID <- 1`. -/
def State.setCodeTable (s : State) (t : List (Nat × CodeEntry)) : State := { s with codeValid := true, code := t }

/-- R151; `STK` and `SP` are scratch (R29, log 6). -/
def ctgenBody (s : State) : Res Unit :=
  if s.treeValid then
    match walk s.node walkLevels s.root 0#9 0#256 [] with
    | none => .stuck .notATree
    | some t => .ok () (s.stkFree.clearCode.setCodeTable t)
  else .raise .contract s.stkFree

/-- R151 `CTGEN`. -/
def execCtgen (s : State) : Host.Outcome State Fault Refusal := command .ctgen ctgenBody s

/-! ## Header write -/

/-- R155: a leaf token (R89). -/
def writeLeaf (sym : Symbol) (s : State) : Res Unit :=
  (wrBits 1 1#32 s).bind fun _ s => wrBits Config.leafBits (sym.setWidth 32) s

/-- R155 `SerTree(i)`. -/
def serTree : Nat → NodeIdx → State → Res Unit
  | 0, _, _ => .stuck .notATree
  | f + 1, i, s =>
    match getNode s i with
    | none => .stuck .nodeNotWritten
    | some nd =>
      if nd.leaf then writeLeaf nd.sym s
      else
        (wrBits 1 0#32 s).bind fun _ s =>
          (serTree f nd.left s).bind fun _ s => serTree f nd.right s

/-- R155; `STK` and `SP` are scratch (R29, log 6). -/
def hdrwBody (s : State) : Res Unit :=
  if s.treeValid then
    (wrBits Config.magicBits s.params.magic s.stkFree).bind fun _ s => serTree walkLevels s.root s
  else .raise .contract s.stkFree

/-- R155 `HDRW`. -/
def execHdrw (s : State) : Host.Outcome State Fault Refusal := command .hdrw hdrwBody s

/-! ## Header read -/

/-- A read in which `EOS` is `E_TRUNCATED` (R160, R202). -/
def needBits (n : Nat) (s : State) : Res Word :=
  (rdBits n s).bind fun r s =>
    match r with
    | none => .raise .truncated s
    | some v => .ok v s

/-- R160: room is checked, then `i <- NNODES; NNODES <- NNODES + 1`. -/
def allocNode (s : State) : Res NodeIdx :=
  if s.nodesFull then .raise .malformed s else .ok s.nnodes s.alloc

/-- R160: the leaf record of a symbol field, or `E_MALFORMED` (R91). -/
def recordLeaf (i : NodeIdx) (v : Symbol) (s : State) : Res Unit :=
  if symbolOk v then .ok () (s.setNode i.toNat (leafNode v 0#32)) else .raise .malformed s

/-- R160: the internal record. -/
def recordInternal (i l r : NodeIdx) (s : State) : State := s.setNode i.toNat (internalNode 0#32 l r)

/-- R158: the 32 bits in front of the stream against `MAGIC`. -/
def checkMagic (m : Word) (s : State) : Res Unit :=
  if m = s.params.magic then .ok () s else .raise .badMagic s

/-- R160 `DeserTree()`: the index of the node it built. -/
def deserTree : Nat → State → Res NodeIdx
  | 0, _ => .stuck .loopBound
  | f + 1, s =>
    (needBits 1 s).bind fun b s =>
      (allocNode s).bind fun i s =>
        if b = 0#32 then
          (deserTree f s).bind fun l s =>
            (deserTree f s).bind fun r s => .ok i (recordInternal i l r s)
        else
          (needBits Config.leafBits s).bind fun v s =>
            (recordLeaf i (v.setWidth 9) s).bind fun _ s => .ok i s

/-- R160: the flags and `NNODES` at the start; `STK` and `SP` are scratch (R29, log 6). -/
def State.hdrrStart (s : State) : State := { s.clearValid.stkFree with nnodes := 0#10 }

/-- R160. -/
def hdrrBody (s : State) : Res Unit :=
  (needBits Config.magicBits s.hdrrStart).bind fun m s =>
    (checkMagic m s).bind fun _ s =>
      (deserTree deserLevels s).bind fun r s => .ok () (s.setTree r)

/-- R160 `HDRR`. -/
def execHdrr (s : State) : Host.Outcome State Fault Refusal := command .hdrr hdrrBody s

end Sys2Proof.Machine
end

