-- ==== Sys2Proof/Machine/Stream.lean ====
section
/-! DEFINITION. ENCODE and DECODE (43_stream.md R172, R173, R175 to R179). -/

namespace Sys2Proof.Machine

/-! ## Stream encoder -/

/-- R173 `WrCode(len, val)`: bit by bit, most significant first, any length. -/
def wrCode (v : BitVec 256) : Nat → State → Res Unit
  | 0, s => .ok () s
  | k + 1, s => (wrBits 1 ((BitVec.ofBool (v.getLsbD k)).setWidth 32) s).bind fun _ s => wrCode v k s

/-- R172: the code of a symbol, or `E_CONTRACT` if it has none. -/
def writeSymbol (sym : Nat) (s : State) : Res Unit :=
  if (codeAt s.code sym).valid then wrCode (codeAt s.code sym).val (codeAt s.code sym).len.toNat s
  else .raise .contract s

/-- The reading loop of R172. Each pass but the last consumes 8 bits, so `IN_LEN + 1` passes are enough (R11). -/
def encodeLoop : Nat → State → Res Unit
  | 0, _ => .stuck .loopBound
  | k + 1, s =>
    (rdBits Config.symBits s).bind fun r s =>
      match r with
      | none => .ok () s
      | some v => (writeSymbol v.toNat s).bind fun _ s => encodeLoop k s

/-- R172: the codes of the input, then the terminator. -/
def encodeBody (s : State) : Res Unit :=
  if s.codeValid then
    (encodeLoop (s.inLen.toNat + 1) s).bind fun _ s => writeSymbol Config.eosSym s
  else .raise .contract s

/-- R172 `ENCODE`. -/
def execEncode (s : State) : Host.Outcome State Fault Refusal := command .encode encodeBody s

/-! ## Stream decoder -/

/-- `CUR <- i`. -/
def State.setCur (s : State) (i : NodeIdx) : State := { s with cur := i }

/-- R93, R175: `CUR` moves to the left child on 0, to the right child on 1. -/
def moveToChild (b : Bool) (s : State) : Res Unit :=
  match getNode s s.cur with
  | none => .stuck .nodeNotWritten
  | some nd =>
    if nd.leaf then .stuck .noChild else .ok () (s.setCur (if b then nd.right else nd.left))

/-- R175: one bit is read and the walk moves one level down (phase `D_BIT`). -/
def branchStep (s : State) : Res Unit :=
  (needBits 1 s).bind fun b s => moveToChild (b != 0#32) s

/-- R175: a leaf's symbol as one byte, then back to the root (phase `D_EMIT`). -/
def emitStep (sym : Symbol) (s : State) : Res Unit :=
  (wrBits Config.symBits (sym.setWidth 32) s).bind fun _ s => .ok () (s.setCur s.root)

/-- The loop of R175, a leaf tested before a bit is read (R177). -/
def decodeLoop : Nat → State → Res Unit
  | 0, _ => .stuck .loopBound
  | k + 1, s =>
    match getNode s s.cur with
    | none => .stuck .nodeNotWritten
    | some nd =>
      if nd.leaf then
        if nd.sym.toNat = Config.eosSym then .ok () s
        else (emitStep nd.sym s).bind fun _ s => decodeLoop k s
      else (branchStep s).bind fun _ s => decodeLoop k s

/-- R175, R176: the checks before the loop (phase `D_START`). -/
def decodeStart (s : State) : Res Unit :=
  if s.treeValid then
    match getNode s s.root with
    | none => .stuck .nodeNotWritten
    | some nd =>
      if nd.leaf && nd.sym.toNat != Config.eosSym then .raise .malformed s else .ok () (s.setCur s.root)
  else .raise .contract s

/-- R179: "the loop runs at most `2 * (8 * IN_LEN + 1) + 1` passes". -/
def decodePasses (s : State) : Nat := 2 * (8 * s.inLen.toNat + 1) + 1

/-- R175. -/
def decodeBody (s : State) : Res Unit := (decodeStart s).bind fun _ s => decodeLoop (decodePasses s) s

/-- R175 `DECODE`. -/
def execDecode (s : State) : Host.Outcome State Fault Refusal := command .decode decodeBody s

end Sys2Proof.Machine
end

