-- ==== Sys2Proof/Machine/Tokens.lean ====
section
/-! DEFINITION. The stream tokens as instructions (R87 to R89, R93): what the unit that reads a token does with it
once its bits are consumed (log 11). HDRR's tree tokens act on the explicit stack of R164; DECODE's branch tokens move
`CUR`. -/

namespace Sys2Proof.Machine

/-- R158: the 32 bits in front of a stream, `E_BADMAGIC` unless they equal `MAGIC`. -/
def execMagic (m : Word) (s : State) : Host.Outcome State Fault Refusal := token (checkMagic m s)

/-- R164: "a finished subtree is attached to the entry on top, and an entry with both children is popped and attached
in turn". The left child of node i is node i + 1 (R64 item 6, log 14). -/
def attach : List StkEntry → NodeIdx → State → State
  | [], _, s => s.stkSet []
  | (i, false) :: rest, _, s => s.stkSet ((i, true) :: rest)
  | (i, true) :: rest, r, s => attach rest i (recordInternal i (i + 1#10) r s)

/-- R160, R164: an internal node is allocated in preorder and waits on the stack for its children. -/
def internalStep (s : State) : Res Unit :=
  (allocNode s).bind fun i s => .ok () (s.stkSet ((i, false) :: s.stkLive))

/-- R88 `T_INTERNAL`. -/
def execTInternal (s : State) : Host.Outcome State Fault Refusal := token (internalStep s)

/-- R160, R164: a leaf is allocated in preorder, checked, recorded and attached. -/
def leafTokenStep (v : Symbol) (s : State) : Res Unit :=
  (allocNode s).bind fun i s =>
    (recordLeaf i v s).bind fun _ s => .ok () (attach s.stkLive i s)

/-- R89 `T_LEAF v`. -/
def execTLeaf (v : Symbol) (s : State) : Host.Outcome State Fault Refusal := token (leafTokenStep v s)

/-- R93 `B_LEFT`. -/
def execBLeft (s : State) : Host.Outcome State Fault Refusal := token (moveToChild false s)

/-- R93 `B_RIGHT`. -/
def execBRight (s : State) : Host.Outcome State Fault Refusal := token (moveToChild true s)

end Sys2Proof.Machine
end

