-- ==== Sys2Proof/Machine/TreeBuilder.lean ====
section
/-! DEFINITION. FCOUNT and TBUILD (41_tree_builder.md R131, R134 to R138). -/

namespace Sys2Proof.Machine

/-! ## Frequency counter -/

/-- R131: `FREQ[b] <- FREQ[b] + 1`, or `E_OVERFLOW`. -/
def countSymbol (b : Nat) (s : State) : Res Unit :=
  if tooHeavy ((s.freqAt b).toNat + 1) then .raise .overflow s
  else .ok () (s.setFreq b (s.freqAt b + 1#32))

/-- The reading loop of R131. Each pass but the last consumes 8 bits, so `IN_LEN + 1` passes are enough (R11). -/
def fcountLoop : Nat → State → Res Unit
  | 0, _ => .stuck .loopBound
  | k + 1, s =>
    (rdBits Config.symBits s).bind fun r s =>
      match r with
      | none => .ok () s
      | some v => (countSymbol v.toNat s).bind fun _ s => fcountLoop k s

/-- R131. -/
def fcountBody (s : State) : Res Unit :=
  (fcountLoop (s.inLen.toNat + 1) s.clearFreq).bind fun _ s => .ok () (s.setFreq Config.eosSym 1#32)

/-- R131 `FCOUNT`. -/
def execFcount (s : State) : Host.Outcome State Fault Refusal := command .fcount fcountBody s

/-! ## Tree builder -/

/-- R134: the flags and counters at the start. -/
def State.treeStart (s : State) : State :=
  { s.clearValid with nnodes := 0#10, seq := 0#10, pqLen := 0#9 }

/-- R135, one symbol of the scan. -/
def leafStep (s : State) (sym : Nat) : State :=
  if s.freqAt sym = 0#32 then s
  else
    ((s.setNode s.nnodes.toNat (leafNode (BitVec.ofNat 9 sym) (s.freqAt sym))).alloc).enqueue
      (s.freqAt sym) s.nnodes

/-- R135: the symbols 0 to 256 in ascending order. -/
def leafPhase (s : State) : State := (List.range Config.nsym).foldl leafStep s

/-- R137: the merge of two removed entries, a the first removed. -/
def mergePair (a b : PqEntry) (s : State) : Res Unit :=
  if tooHeavy (weightSum a.weight b.weight) then .raise .overflow s
  else
    .ok () (((s.setNode s.nnodes.toNat
      (internalNode (a.weight + b.weight) a.node b.node)).alloc).enqueue (a.weight + b.weight) s.nnodes)

/-- R65: `PQpopmin` as a part of a command. -/
def popMin (s : State) : Res PqEntry :=
  match pqPopMin s with
  | none => .stuck .emptyPq
  | some (e, s) => .ok e s

/-- One pass of the loop of R137. -/
def mergeStep (s : State) : Res Unit :=
  (popMin s).bind fun a s => (popMin s).bind fun b s => mergePair a b s

/-- The loop of R137; each pass lowers `PQ_LEN` by 1, so `PQ_LEN` passes are enough (R139). -/
def mergeLoop : Nat → State → Res Unit
  | 0, s => if 1 < s.pqLen.toNat then .stuck .loopBound else .ok () s
  | k + 1, s => if 1 < s.pqLen.toNat then (mergeStep s).bind fun _ s => mergeLoop k s else .ok () s

/-- R138: the one node that remains is the root; its entry stays in `PQ`. -/
def treeFinish (s : State) : Res Unit :=
  match s.pqLive with
  | [] => .stuck .emptyPq
  | e :: _ => .ok () (s.setTree e.node)

/-- R134 from the leaf phase on. -/
def treeMerge (s : State) : Res Unit :=
  if s.pqLen = 0#9 then .raise .contract s
  else (mergeLoop s.pqLen.toNat s).bind fun _ s => treeFinish s

/-- R134. -/
def tbuildBody (s : State) : Res Unit := treeMerge (leafPhase s.treeStart)

/-- R134 `TBUILD`. -/
def execTbuild (s : State) : Host.Outcome State Fault Refusal := command .tbuild tbuildBody s

end Sys2Proof.Machine
end

