-- ==== Sys2Proof/Machine/System.lean ====
section
/-! DEFINITION. INIT and the pseudo-instructions (44_system.md R190, R193, R194). -/

namespace Sys2Proof.Machine

/-- R190. `IN_LEN`, `WDATA`, `IBUF` are kept; `NODE`, `CODE`, `PQ`, `STK`, `OBUF` are not cleared. -/
def initState (s : State) : State :=
  { s with
    err := false, errCode := 0#3, eos := false
    treeValid := false, codeValid := false, oclosed := false
    upos := 0#32, outLen := 0#29, pacc := 0#8, pcnt := 0#3, rdata := 0#32
    root := 0#10, nnodes := 0#10, cur := 0#10, seq := 0#10, pqLen := 0#9
    freq := []
    sstate := .idle, done := true }

/-- R190 `INIT`, accepted in `S_IDLE` and in `S_FAULT` (R191). -/
def execInit (s : State) : Host.Outcome State Fault Refusal :=
  match s.sstate with
  | .idle => .next (initState s)
  | .fault => .next (initState s)
  | .run _ => .next (s.hold (cmdWrite .init))

/-- One command after another; a fault of the spec is a next state, so the later commands are still offered and are
ignored there (R191). -/
def andThen (o : Host.Outcome State Fault Refusal) (f : State → Host.Outcome State Fault Refusal) :
    Host.Outcome State Fault Refusal :=
  match o with
  | .next s => f s
  | .fault r => .fault r
  | .refused r => .refused r

/-- R193: INIT; FCOUNT; TBUILD; CTGEN; REWIND; HDRW; ENCODE; FLUSH. -/
def compressSeq (s : State) : Host.Outcome State Fault Refusal :=
  andThen (execInit s) fun s => andThen (execFcount s) fun s => andThen (execTbuild s) fun s =>
  andThen (execCtgen s) fun s => andThen (execRewind s) fun s => andThen (execHdrw s) fun s =>
  andThen (execEncode s) fun s => execFlush s

/-- R194: INIT; HDRR; DECODE; FLUSH. -/
def decompressSeq (s : State) : Host.Outcome State Fault Refusal :=
  andThen (execInit s) fun s => andThen (execHdrr s) fun s => andThen (execDecode s) fun s => execFlush s

/-- R193 `COMPRESS`, the whole sequence as one step (log 13). -/
def execCompress (s : State) : Host.Outcome State Fault Refusal :=
  if s.busy then .next (s.hold (.pseudo .compress)) else compressSeq s

/-- R194 `DECOMPRESS`, the whole sequence as one step (log 13). -/
def execDecompress (s : State) : Host.Outcome State Fault Refusal :=
  if s.busy then .next (s.hold (.pseudo .decompress)) else decompressSeq s

end Sys2Proof.Machine
end

