-- ==== Sys2Proof/Machine/Dispatch.lean ====
section
/-! DEFINITION. One arm per instruction, each one direct call of its meaning. -/

namespace Sys2Proof.Machine

def exec (i : Instr) (s : State) : Host.Outcome State Fault Refusal :=
  match i with
  | .fcount => Sys2Proof.Machine.execFcount s
  | .tbuild => Sys2Proof.Machine.execTbuild s
  | .ctgen => Sys2Proof.Machine.execCtgen s
  | .hdrw => Sys2Proof.Machine.execHdrw s
  | .encode => Sys2Proof.Machine.execEncode s
  | .hdrr => Sys2Proof.Machine.execHdrr s
  | .decode => Sys2Proof.Machine.execDecode s
  | .rdbits n => Sys2Proof.Machine.execRdbits n s
  | .wrbits n => Sys2Proof.Machine.execWrbits n s
  | .flush => Sys2Proof.Machine.execFlush s
  | .rewind => Sys2Proof.Machine.execRewind s
  | .init => Sys2Proof.Machine.execInit s
  -- stream tokens
  | .magic m => Sys2Proof.Machine.execMagic m s
  | .tInternal => Sys2Proof.Machine.execTInternal s
  | .tLeaf v => Sys2Proof.Machine.execTLeaf v s
  | .bLeft => Sys2Proof.Machine.execBLeft s
  | .bRight => Sys2Proof.Machine.execBRight s
  -- pseudo-instructions
  | .compress => Sys2Proof.Machine.execCompress s
  | .decompress => Sys2Proof.Machine.execDecompress s

end Sys2Proof.Machine
end

