-- ==== Sys2Proof/Machine/HostPort.lean ====
section
/-! DEFINITION. What the host can do beside commands: the register map (R30), the memory windows (R51), the access
rights (R41), the reads the spec leaves open (R74), hardware reset (R230), the `set` items of R97. -/

namespace Sys2Proof.Machine

/-! ## Layout -/

/-- R51: word offsets of the windows. -/
def freqBase : Nat := 0x0400
def nodeBase : Nat := 0x1000
def pqBase : Nat := 0x3000
def codeBase : Nat := 0x4000
def ibufBase : Nat := 0x10000000
def obufBase : Nat := 0x20000000

/-- What a host access at an offset reaches. -/
inductive Place where
  /-- A register or a reserved offset below 0x400 (R30). -/
  | reg (off : Nat)
  | freq (i : Nat)
  | node (i : Nat) (upper : Bool)
  | pq (i : Nat) (upper : Bool)
  | code (i : Nat) (k : Nat)
  | ibuf (i : Nat)
  | obuf (i : Nat)
  /-- An access that is not performed (R30, R51). -/
  | nothing
  deriving DecidableEq, Repr

/-- R30, R51: aligned words reach registers and the `FREQ`, `NODE`, `PQ`, `CODE` windows. -/
def wordPlace (off : Nat) : Place :=
  if off % 4 ≠ 0 then .nothing
  else if off < freqBase then .reg off
  else if off < freqBase + 4 * Config.nsym then .freq ((off - freqBase) / 4)
  else if nodeBase ≤ off && off < nodeBase + 8 * Config.nodeCap then
    .node ((off - nodeBase) / 8) ((off - nodeBase) % 8 == 4)
  else if pqBase ≤ off && off < pqBase + 8 * Config.pqCap then
    .pq ((off - pqBase) / 8) ((off - pqBase) % 8 == 4)
  else if codeBase ≤ off && off < codeBase + 64 * Config.nsym then
    .code ((off - codeBase) / 64) ((off - codeBase) % 64 / 4)
  else .nothing

/-- R51: bytes reach `IBUF` and `OBUF`, up to their capacities. -/
def bytePlace (p : Params) (off : Nat) : Place :=
  if ibufBase ≤ off && off < ibufBase + p.ibufCap then .ibuf (off - ibufBase)
  else if obufBase ≤ off && off < obufBase + p.obufCap then .obuf (off - obufBase)
  else .nothing

/-- Where an access goes. -/
def place (p : Params) (size : AccessSize) (off : Nat) : Place :=
  match size with
  | .byte => bytePlace p off
  | .half => .nothing
  | .word => wordPlace off

/-! ## Reads -/

/-- R30: the registers; a reserved offset and `CMD` read 0. -/
def regWord (s : State) (off : Nat) : Word :=
  match off with
  | 0x04 => s.statusWord
  | 0x08 => s.errCode.setWidth 32
  | 0x0C => Config.idValue
  | 0x10 => s.inLen.setWidth 32
  | 0x14 => s.upos
  | 0x18 => s.outLen.setWidth 32
  | 0x1C => s.pstateWord
  | 0x20 => s.wdata
  | 0x24 => s.rdata
  | 0x28 => s.root.setWidth 32
  | 0x2C => s.nnodes.setWidth 32
  | 0x30 => s.cur.setWidth 32
  | 0x34 => s.seq.setWidth 32
  | 0x38 => s.pqLen.setWidth 32
  | _ => 0#32

/-- R51: the two words of a node entry. -/
def nodeWord (nd : Node) (upper : Bool) : Word :=
  if upper then
    flagBit nd.leaf 31 ||| (nd.sym.setWidth 32 <<< 20) ||| (nd.left.setWidth 32 <<< 10) ||| nd.right.setWidth 32
  else nd.weight

/-- R51: the two words of a `PQ` entry. -/
def pqWord (e : PqEntry) (upper : Bool) : Word :=
  if upper then (e.seq.setWidth 32 <<< 10) ||| e.node.setWidth 32 else e.weight

/-- R51: the sixteen words of a `CODE` entry. -/
def codeWord (e : CodeEntry) (k : Nat) : Word :=
  if k = 0 then flagBit e.valid 31 ||| e.len.setWidth 32
  else if k ≤ 8 then e.val.extractLsb' (32 * (k - 1)) 32
  else 0#32

/-- Whether a host read of `PQ[i]` is defined: R138 says what one entry holds, the root's in `PQ[0]` after a TBUILD that
completes; R74 and U10 leave the rest of `PQ` open, after a TBUILD that faulted all of it. A TBUILD that faulted with
`PQ_LEN` not 0 left `E_OVERFLOW` in `ERRCODE`; INIT and reset set `PQ_LEN` to 0 (log 18). -/
def State.pqDefined (s : State) (i : Nat) : Bool :=
  i == 0 && s.pqLen == 1#9 && s.errCode != FaultKind.overflow.code

/-- What a host read delivers while `BUSY` = 0; `none` where the spec leaves the data open (R74, U7 to U10, U13). -/
def hostValue (s : State) : Place → Option Word
  | .reg off => some (regWord s off)
  | .freq i => some (s.freqAt i)
  | .node i u =>
    if s.treeValid && i < s.nnodes.toNat then (Store.get? s.node i).map (nodeWord · u) else none
  | .pq i u => if s.pqDefined i then (s.pq[i]?).map (pqWord · u) else none
  | .code i k => if s.codeValid then some (codeWord (codeAt s.code i) k) else none
  | .ibuf i => some ((s.ibuf.read i).setWidth 32)
  | .obuf i => if i < s.outLen.toNat then some ((s.obuf.read i).setWidth 32) else none
  | .nothing => none

/-- The host receives a word. -/
def State.deliverData (s : State) (v : Word) : State := { s with hostData := v }

/-- The host receives a free value (log 7). -/
def State.deliverFree (s : State) : State :=
  { s with hostData := Config.freeWord s.freeCtr, freeCtr := s.freeCtr + 1 }

/-- A host read while `BUSY` = 0 (R41); nothing but the delivered word changes (R59). -/
def hostRead (size : AccessSize) (off : Nat) (s : State) : State :=
  match hostValue s (place s.params size off) with
  | some v => s.deliverData v
  | none => s.deliverFree

/-- R31: `STATUS` read while a command executes: `BUSY` = 1, all other bits free. -/
def statusReadBusy (s : State) : State :=
  { s.deliverFree with hostData := Config.freeWord s.freeCtr ||| 1#32 }

/-- R31: the one access that completes while a command executes. -/
def isStatusRead : HostOp → Bool
  | .read .word 0x04 => true
  | .read _ _ => false
  | .write _ _ _ => false
  | .pseudo _ => false
  | .reset _ => false

/-! ## Writes -/

/-- R28: a value above `IBUF_CAP` is ignored; `UPOS` is not changed (log 16). -/
def writeInLen (v : Word) (s : State) : State :=
  if v.toNat ≤ s.params.ibufCap then { s with inLen := v.setWidth 29 } else s

/-- A host write other than to `CMD` while `BUSY` = 0: only `IN_LEN`, `WDATA`, `FREQ` and `IBUF` can be written, any
other write is ignored (R41). -/
def hostWrite (size : AccessSize) (off : Nat) (data : Word) (s : State) : State :=
  match place s.params size off with
  | .reg 0x10 => writeInLen data s
  | .reg 0x20 => { s with wdata := data }
  | .reg _ => s
  | .freq i => s.setFreq i data
  | .node _ _ => s
  | .pq _ _ => s
  | .code _ _ => s
  | .ibuf i => { s with ibuf := s.ibuf.write i (data.setWidth 8) }
  | .obuf _ => s
  | .nothing => s

/-! ## Reset and the `set` items of R97 -/

/-- R230: every piece of state at the value of R40; c is what the unspecified contents become (log 5). The host's own
side is not part of HTB. -/
def hardReset (c : Contents) (s : State) : State :=
  { State.resetWith s.params c with hostOps := s.hostOps, hostData := s.hostData, freeCtr := s.freeCtr }

/-- The byte writes of `set IN` from index i on. -/
def loadBytes : List Byte → Nat → State → State
  | [], _, s => s
  | b :: bs, i, s => loadBytes bs (i + 1) (hostWrite .byte (ibufBase + i) (b.setWidth 32) s)

/-- R97 `set IN = …`: the bytes to `IBUF[0..]` and their number to `IN_LEN`. -/
def State.loadInput (s : State) (bs : List Byte) : State :=
  hostWrite .word 0x10 (BitVec.ofNat 32 bs.length) (loadBytes bs 0 s)

/-- R97 `set IN <- OUT`. -/
def State.copyOutputToInput (s : State) : State := s.loadInput s.output

/-- R97 `set WDATA = v`. -/
def State.loadWdata (s : State) (v : Word) : State := hostWrite .word 0x20 v s

/-- R97 `set FREQ[i] = v`. -/
def State.loadFreq (s : State) (i : Nat) (v : Word) : State := hostWrite .word (freqBase + 4 * i) v s

end Sys2Proof.Machine
end

