-- ==== Sys2Proof/Machine/Sequencer.lean ====
section
/-! DEFINITION. What one step does: a host access (R8, R31, R191) or one step of a phase machine (R113, R116, R140,
R178; HDRR by R161, R164). Commands are one transition (R10); a state in a phase is one in which a command is executed
by the unit's state machine, and every state machine ends where the command does (log 14). -/

namespace Sys2Proof.Machine

/-! ## Phase machines -/

/-- The sequencer goes to a phase. -/
def State.goto (s : State) (p : Phase) : State := { s with sstate := .run p }

/-- The end of a phase: the next phase, fault entry, or the model stops. -/
def thenPhase {α : Type} (r : Res α) (f : α → State → State) : Host.Outcome State Fault Refusal :=
  match r with
  | .ok a s => .next (f a s)
  | .raise k s => .next (faultEntry k s)
  | .stuck e => .fault e

/-- After a token: the next phase, unless the token faulted. -/
def afterToken (o : Host.Outcome State Fault Refusal) (p : State → Phase) : Host.Outcome State Fault Refusal :=
  match o with
  | .next s => if s.sstate = .fault then .next s else .next (s.goto (p s))
  | .fault e => .fault e
  | .refused r => .refused r

/-- R72: the instruction that the bits of a token are, run by `exec`; bits that are no instruction raise k. -/
def runToken (c : Context) (bs : List Bool) (k : FaultKind) (bad : State → State) (s : State) :
    Host.Outcome State Fault Refusal :=
  match decode c bs with
  | .ok (i, _) => exec i s
  | .error _ => .next (faultEntry k (bad s))

/-- R161: the bits of the next tree token, checked in the order marker bit, room, field. Where the field fails the node is
already allocated (R160). -/
def fetchTreeToken (s : State) : Res (List Bool) :=
  (needBits 1 s).bind fun b s =>
    if s.nodesFull then .raise .malformed s
    else if b = 0#32 then .ok [false] s
    else
      match rdBits Config.leafBits s with
      | .ok none s => .raise .truncated s.alloc
      | .ok (some v) s => .ok (true :: bitsN 9 v.toNat) s
      | .raise k s => .raise k s.alloc
      | .stuck e => .stuck e

/-- R164: the tree is complete when the stack is empty. -/
def treePhase (s : State) : Phase := if s.sp = 0#10 then .hDone else .hTree

/-- One step of the phase machines. -/
def tick (p : Phase) (s : State) : Host.Outcome State Fault Refusal :=
  match p with
  | .uCheck n =>
    if s.upos.toNat + countOf n > 8 * s.inLen.toNat then .next (s.goto (.uIdle none))
    else .next (s.goto (.uShift n 0 0#32))
  | .uShift n k v =>
    match inBit s (s.upos.toNat + k) with
    | .error e => .next (faultEntry e s)
    | .ok b =>
      if countOf n ≤ k + 1 then .next (s.goto (.uDone n (shiftIn v b)))
      else .next (s.goto (.uShift n (k + 1) (shiftIn v b)))
  | .uDone n v => .next ((s.advance (countOf n)).goto (.uIdle (some v)))
  | .uIdle r => .next (deliver r s).complete
  | .pShift 0 _ => .next (s.goto .pIdle)
  | .pShift (k + 1) v =>
    if s.pcnt.toNat + 1 = 8 then .next ((s.shiftAcc (v.getLsbD k)).goto (.pEmit k v))
    else if k = 0 then .next ((s.shiftAcc (v.getLsbD k)).goto .pIdle)
    else .next ((s.shiftAcc (v.getLsbD k)).goto (.pShift k v))
  | .pEmit k v =>
    thenPhase (putByte s.pacc s.clearAcc) fun _ s => s.goto (if k = 0 then .pIdle else .pShift k v)
  | .pIdle => .next s.complete
  | .tClear => .next (s.treeStart.goto (.tScan 0))
  | .tScan i => .next ((leafStep s i).goto (if Config.eosSym ≤ i then .tCheck else .tScan (i + 1)))
  | .tCheck =>
    if s.pqLen = 0#9 then .next (faultEntry .contract s)
    else if s.pqLen = 1#9 then .next (s.goto .tDone)
    else .next (s.goto .tPop1)
  | .tPop1 => thenPhase (popMin s) fun a s => s.goto (.tPop2 a)
  | .tPop2 a => thenPhase (popMin s) fun b s => s.goto (.tMerge a b)
  | .tMerge a b => thenPhase (mergePair a b s) fun _ s => s.goto .tCheck
  | .tDone => thenPhase (treeFinish s) fun _ s => s.complete
  | .hMagic =>
    match needBits Config.magicBits s with
    | .ok m s => afterToken (runToken .header (bitsN 32 m.toNat) .badMagic id s) fun _ => .hTree
    | .raise k s => .next (faultEntry k s)
    | .stuck e => .fault e
  | .hTree =>
    match fetchTreeToken s with
    | .ok bs s => afterToken (runToken .tree bs .malformed State.alloc s) treePhase
    | .raise k s => .next (faultEntry k s)
    | .stuck e => .fault e
  | .hDone => .next (s.stkFree.setTree 0#10).complete
  | .dStart => thenPhase (decodeStart s) fun _ s => s.goto .dTest
  | .dTest =>
    match getNode s s.cur with
    | none => .fault .nodeNotWritten
    | some nd =>
      if nd.leaf then .next (s.goto (if nd.sym.toNat = Config.eosSym then .dDone else .dEmit))
      else .next (s.goto .dBit)
  | .dBit =>
    match needBits 1 s with
    | .ok b s => afterToken (runToken .branch [b != 0#32] .malformed id s) fun _ => .dTest
    | .raise k s => .next (faultEntry k s)
    | .stuck e => .fault e
  | .dEmit =>
    match getNode s s.cur with
    | none => .fault .nodeNotWritten
    | some nd => thenPhase (emitStep nd.sym s) fun _ s => s.goto .dTest
  | .dDone => .next s.complete

/-- The first state of a command run by its unit's state machine; `none` for the commands the spec gives no phases. -/
def startPhases (i : Instr) (s : State) : Option State :=
  match i with
  | .rdbits n => some (s.begin.goto (.uCheck n))
  | .wrbits n =>
    some (if s.oclosed then faultEntry .contract s.begin
      else s.begin.goto (.pShift (countOf n) s.writeValue))
  | .tbuild => some (s.begin.goto .tClear)
  | .hdrr => some ({ s.begin.clearValid.stkInit with nnodes := 0#10 }.goto .hMagic)
  | .decode => some (s.begin.goto .dStart)
  | .fcount | .ctgen | .hdrw | .encode | .flush | .rewind | .init | .magic _ | .tInternal | .tLeaf _
  | .bLeft | .bRight | .compress | .decompress => none

/-- At most k steps of the phase machines, until no command runs. -/
def runPhases : Nat → State → Host.Outcome State Fault Refusal
  | 0, s => .next s
  | k + 1, s =>
    match s.sstate with
    | .idle => .next s
    | .fault => .next s
    | .run p => andThen (tick p s) (runPhases k)

/-! ## Host accesses -/

/-- R191, R195: a word written to `CMD`. -/
def issue (w : Word) (s : State) : Host.Outcome State Fault Refusal :=
  match decodeWord w with
  | .ok i => exec i s
  | .error _ => illegalCommand (.write .word 0 w) s

/-- The instruction of a pseudo-instruction. -/
def Pseudo.instr : Pseudo → Instr
  | .compress => .compress
  | .decompress => .decompress

/-- A host access while `BUSY` = 0. -/
def perform (op : HostOp) (s : State) : Host.Outcome State Fault Refusal :=
  match op with
  | .read size off => .next (hostRead size off s)
  | .write size off data =>
    if size = .word && off = 0 then issue data s else .next (hostWrite size off data s)
  | .pseudo p => exec p.instr s
  | .reset c => .next (hardReset c s)

/-- Hardware reset can come at any time (R230). -/
def isReset : HostOp → Bool
  | .read _ _ => false
  | .write _ _ _ => false
  | .pseudo _ => false
  | .reset _ => true

/-- One step. With no access pending, a machine in which no command runs waits (R231). While a command runs, a reset
and a read of `STATUS` take effect at once and every other access is held (R31, R230). -/
def sequencerStep (s : State) : Host.Outcome State Fault Refusal :=
  match s.sstate, s.hostOps with
  | .run p, [] => tick p s
  | .run p, op :: rest =>
    if isReset op then perform op { s with hostOps := rest }
    else if isStatusRead op then .next (statusReadBusy { s with hostOps := rest })
    else tick p s
  | .idle, [] => .next s
  | .fault, [] => .next s
  | .idle, op :: rest => perform op { s with hostOps := rest }
  | .fault, op :: rest => perform op { s with hostOps := rest }

/-! ## Placing an instruction where the next step fetches it -/

/-- Put one bit at a stream position of the input (R111). -/
def setStreamBit (m : Memory) (p : Nat) (b : Bool) : Memory :=
  m.write (p / 8)
    ((m.read (p / 8) &&& ~~~(1#8 <<< bitInByte p)) ||| ((BitVec.ofBool b).setWidth 8 <<< bitInByte p))

/-- Put a bit sequence into the input from a stream position on. -/
def setStreamBits : List Bool → Nat → Memory → Memory
  | [], _, m => m
  | b :: bs, p, m => setStreamBits bs (p + 1) (setStreamBit m p b)

/-- The bits of a token at `UPOS`, `IN_LEN` long enough to hold them, the unit in the phase that reads it, no access
pending that would take effect before it. -/
def placeToken (p : Phase) (bs : List Bool) (s : State) : State :=
  { s with
    ibuf := setStreamBits bs s.upos.toNat s.ibuf
    inLen := BitVec.ofNat 29 (max s.inLen.toNat ((s.upos.toNat + bs.length + 7) / 8))
    sstate := .run p
    hostOps := s.hostOps.dropWhile fun op => isReset op || isStatusRead op }

/-- DEC reads a branch bit only at an internal node (R177): where `NODE[CUR]` is none, make it one. -/
def placeInternal (s : State) : State :=
  match getNode s s.cur with
  | some nd =>
    if nd.leaf then s.setNode s.cur.toNat (internalNode 0#32 (s.cur + 1#10) (s.cur + 2#10)) else s
  | none => s.setNode s.cur.toNat (internalNode 0#32 (s.cur + 1#10) (s.cur + 2#10))

/-- No command runs. -/
def SState.settled : SState → SState
  | .idle => .idle
  | .fault => .fault
  | .run _ => .idle

/-- The host's next access. -/
def placeAccess (op : HostOp) (s : State) : State :=
  { s with sstate := s.sstate.settled, hostOps := op :: s.hostOps }

/-- The next step runs the instruction of the table word (log 12). -/
def placeTableWord (nbits w : Nat) (s : State) : State :=
  match tableBits nbits w with
  | some (.header, bs) => placeToken .hMagic bs s
  | some (.tree, bs) => placeToken .hTree bs s
  | some (.branch, bs) => placeInternal (placeToken .dBit bs s)
  | some (.command, _) => placeAccess (.write .word 0 (BitVec.ofNat 32 w)) s
  | some (.script, _) =>
    placeAccess (.pseudo (if decodeTableWord nbits w = some .decompress then .decompress else .compress)) s
  | none => placeAccess (.write .word 0 (BitVec.ofNat 32 w)) s

end Sys2Proof.Machine
end

