-- ==== Sys2Proof/Machine/Step.lean ====
section
/-! DEFINITION. The step of the machine and the placing of an instruction for it. -/

namespace Sys2Proof.Machine

/-- One step (log 8). -/
def step (s : State) : Host.Outcome State Fault Refusal := sequencerStep s

/-- s with the instruction of a table word placed where the next step takes it (logs 8, 12). -/
def State.withFetchWord (s : State) (nbits w : Nat) : State := placeTableWord nbits w s

end Sys2Proof.Machine
end

