-- ==== Sys2Proof/Machine/Trees.lean ====
section
/-! DEFINITION. Code trees as terms (R19), their serialization and codes (R90, R92), and the tree that `NODE` holds
(R64): the terms in which statements about the commands speak. No meaning of an instruction uses them. -/

namespace Sys2Proof.Machine

/-- R19: `L(s)` and `N(a, b)`. -/
inductive Tree where
  | leaf (sym : Nat)
  | node (l r : Tree)
  deriving DecidableEq, Repr

namespace Tree

/-- R90: `ser(L(s)) = 1 ++ bits_9(s)`, `ser(N(a, b)) = 0 ++ ser(a) ++ ser(b)`. -/
def ser : Tree → List Bool
  | .leaf s => true :: bitsN 9 s
  | .node l r => false :: (l.ser ++ r.ser)

/-- The symbols of the leaves, left to right. -/
def symbols : Tree → List Nat
  | .leaf s => [s]
  | .node l r => l.symbols ++ r.symbols

/-- R92: each leaf's symbol with its path, 0 for left and 1 for right, in preorder. -/
def codes : Tree → List (Nat × List Bool)
  | .leaf s => [(s, [])]
  | .node l r => (l.codes.map fun c => (c.1, false :: c.2)) ++ (r.codes.map fun c => (c.1, true :: c.2))

/-- Number of nodes. -/
def size : Tree → Nat
  | .leaf _ => 1
  | .node l r => l.size + r.size + 1

/-- Number of leaves. -/
def leaves (t : Tree) : Nat := t.symbols.length

/-- R152: the code of a symbol, of the last leaf in preorder that holds it. -/
def codeOf (t : Tree) (sym : Nat) : Option (List Bool) :=
  ((t.codes.filter fun c => c.1 == sym).getLast?).map Prod.snd

end Tree

/-! ## Serialized trees token by token (R88 to R91) -/

/-- A token of a serialized tree: `none` is `T_INTERNAL`, `some v` is `T_LEAF v`. -/
abbrev TreeToken := Option Nat

/-- R88, R89: the bits of a token. -/
def tokenBits : TreeToken → List Bool
  | none => [false]
  | some v => true :: bitsN 9 v

/-- The subtrees still to come after the tokens, n of them before: an internal node asks for one more, a leaf is one. -/
def openTrees : Nat → List TreeToken → Nat
  | n, [] => n
  | 0, _ :: _ => 0
  | n + 1, none :: ts => openTrees (n + 2) ts
  | n + 1, some _ :: ts => openTrees n ts

/-- The tokens begin a tree in preorder that is not yet complete, and every leaf field is a symbol (R91). -/
abbrev TreePrefix (ts : List TreeToken) : Prop := 0 < openTrees 1 ts ∧ ∀ c ∈ ts, ∀ v ∈ c, v ≤ Config.eosSym

/-! ## Trees in `NODE` -/

/-- The tree below node i, if `NODE` holds one of at most this many levels. -/
def treeAt (nodes : List (Nat × Node)) : Nat → NodeIdx → Option Tree
  | 0, _ => none
  | f + 1, i =>
    match Store.get? nodes i.toNat with
    | none => none
    | some nd =>
      if nd.leaf then some (.leaf nd.sym.toNat)
      else
        match treeAt nodes f nd.left, treeAt nodes f nd.right with
        | some l, some r => some (.node l r)
        | some _, none => none
        | none, _ => none

/-- The current code tree. -/
def State.tree (s : State) : Option Tree := treeAt s.node walkLevels s.root

/-- R64 item 2 for one entry. -/
def nodeOk (n : Nat) : Option Node → Bool
  | none => false
  | some nd =>
    if nd.leaf then nd.sym.toNat ≤ Config.eosSym && nd.left = Config.nil && nd.right = Config.nil
    else nd.sym = 0#9 && nd.left.toNat < n && nd.right.toNat < n && nd.left ≠ nd.right

/-- All `left` and `right` fields of the internal nodes below n. -/
def childIndices (nodes : List (Nat × Node)) (n : Nat) : List Nat :=
  (List.range n).flatMap fun i =>
    match Store.get? nodes i with
    | none => []
    | some nd => if nd.leaf then [] else [nd.left.toNat, nd.right.toNat]

/-- R136: the key (weight, seq) of node i is below that of node j. The `seq` of an entry is its node index. -/
abbrev NodeKeyLt (nodes : List (Nat × Node)) (i j : Nat) : Prop :=
  ∃ a b, Store.get? nodes i = some a ∧ Store.get? nodes j = some b ∧
    (a.weight.toNat < b.weight.toNat ∨ (a.weight = b.weight ∧ i < j))

/-- R64 items 1 to 4: a strict tree, every allocated node reached from the root, at most 257 levels. -/
abbrev WfTree (nodes : List (Nat × Node)) (n : Nat) (root : NodeIdx) : Prop :=
  (n % 2 = 1 ∧ n ≤ Config.nodeCap ∧ root.toNat < n) ∧
  (∀ i, i < n → nodeOk n (Store.get? nodes i) = true) ∧
  (∀ i, i < n → (childIndices nodes n).count i = if i = root.toNat then 0 else 1) ∧
  (treeAt nodes walkLevels root).map Tree.size = some n

/-- The code a table entry stands for (R66): `bits_len(val)`. -/
def codeBits (e : CodeEntry) : List Bool := bitsN e.len.toNat e.val.toNat

/-- The code table entry of a path (R151), or the invalid entry. -/
def entryOf : Option (List Bool) → CodeEntry
  | none => CodeEntry.invalid
  | some p => { valid := true, len := BitVec.ofNat 9 p.length, val := BitVec.ofNat 256 (val p) }

/-- The first k 8-bit symbols of a bit sequence. -/
def symbolsN : Nat → List Bool → List Nat
  | 0, _ => []
  | k + 1, bs => val (bs.take 8) :: symbolsN k (bs.drop 8)

/-- The 8-bit symbols a bit sequence holds from its start on, a remainder of 1 to 7 bits left out (R57). -/
def symbolsOf (bs : List Bool) : List Nat := symbolsN (bs.length / 8) bs

/-- The input not yet consumed (R24). -/
def State.restBits (s : State) : List Bool := s.inBits.drop s.upos.toNat

/-- The symbols FCOUNT and ENCODE read from the current position (R131, R172). -/
def State.restSymbols (s : State) : List Nat := symbolsOf s.restBits

/-- The nonzero counts in symbol order (R135). -/
def State.counted (s : State) : List Nat := (List.range Config.nsym).filter fun i => s.freqAt i ≠ 0#32

/-- The sum of all counts (R138). -/
def State.totalCount (s : State) : Nat := ((List.range Config.nsym).map fun i => (s.freqAt i).toNat).sum

end Sys2Proof.Machine
end

