-- ==== Sys2Proof/Safety.lean ====
section
/-! DEFINITION. What a good state is (R42, R64, R66 and the canonical form of the memories) and the conditions in
whose terms the statements speak. -/

namespace Sys2Proof.Machine

/-! ## Conditions on a state -/

/-- No command executes and none has faulted. -/
abbrev Ready (s : State) : Prop := s.sstate = .idle

/-- No byte of the valid input fails to read (R55). -/
abbrev Readable (s : State) : Prop := ∀ i, i < s.inLen.toNat → i ∉ s.params.inErr

/-- The output stream is open and its pending bits are as R27 says. -/
abbrev OutputOpen (s : State) : Prop := s.oclosed = false ∧ s.pacc.toNat < 2 ^ s.pcnt.toNat

/-- The whole bytes that k more output bits complete can be written (R58). -/
abbrev Room (s : State) (k : Nat) : Prop :=
  s.params.Ok ∧ s.outLen.toNat + (s.pcnt.toNat + k) / 8 ≤ s.params.obufCap ∧
  ∀ j, j < (s.pcnt.toNat + k) / 8 → s.outLen.toNat + j ∉ s.params.outErr

/-- The n input bits from stream position p on can be read (R55, R111). -/
abbrev BitsReadable (s : State) (p n : Nat) : Prop := ∀ k, k < n → (p + k) / 8 ∉ s.params.inErr

/-- One of the n input bits from stream position p on cannot be read (R55, R203). -/
abbrev BitsUnreadable (s : State) (p n : Nat) : Prop := ∃ k, k < n ∧ (p + k) / 8 ∈ s.params.inErr

/-- Of the whole bytes that k more output bits complete, the j-th (from 0) is the first that cannot be written (R58,
R203). -/
abbrev WriteBlocked (s : State) (j k : Nat) : Prop :=
  s.params.Ok ∧ j < (s.pcnt.toNat + k) / 8 ∧ s.outLen.toNat + j ≤ s.params.obufCap ∧
  (∀ i, i < j → s.outLen.toNat + i ∉ s.params.outErr) ∧
  (s.outLen.toNat + j = s.params.obufCap ∨ s.outLen.toNat + j ∈ s.params.outErr)

/-- The host's next access is none that takes effect while a command executes (R31, R230). -/
abbrev NothingUrgent (s : State) : Prop :=
  ∀ op, s.hostOps.head? = some op → isReset op = false ∧ isStatusRead op = false

/-- `NODE`, `NNODES`, `ROOT` hold a well-formed tree that reads as tr (R64). -/
abbrev HoldsTree (s : State) (tr : Tree) : Prop :=
  s.treeValid = true ∧ WfTree s.node s.nnodes.toNat s.root ∧ s.tree = some tr

/-! ## Frames -/

/-- Only the output stream may differ: `PACC`, `PCNT`, `OBUF`, `OUT_LEN` (and `DONE` is set). -/
abbrev OnlyOutput (s t : State) : Prop :=
  t = { s with pacc := t.pacc, pcnt := t.pcnt, obuf := t.obuf, outLen := t.outLen, done := true } ∧
  s.outLen.toNat ≤ t.outLen.toNat ∧
  ∀ a, (a < s.outLen.toNat ∨ t.outLen.toNat ≤ a) → t.obuf.read a = s.obuf.read a

/-- Every byte of `OBUF` outside `OUT_LEN` before to `OUT_LEN` after reads as before (R53). -/
abbrev ObufAppended (s t : State) : Prop :=
  s.outLen.toNat ≤ t.outLen.toNat ∧
  ∀ a, (a < s.outLen.toNat ∨ t.outLen.toNat ≤ a) → t.obuf.read a = s.obuf.read a

/-- The fields a host can tell apart, without `STK`, `SP` (R29) and the count of free values drawn. -/
def State.visible (s : State) : State := { s with stk := [], sp := 0#10, freeCtr := 0 }

/-- R37: what command i may write when it completes: s with the listed state taken from t (`DONE` as R34; `STK`, `SP`
with the count of free values, log 6). -/
def frameOf (i : Instr) (s t : State) : State :=
  match i with
  | .fcount => { s with freq := t.freq, upos := t.upos, done := true }
  | .tbuild =>
    { s with
      node := t.node, nnodes := t.nnodes, root := t.root, pq := t.pq, pqLen := t.pqLen, seq := t.seq
      treeValid := t.treeValid, codeValid := t.codeValid, done := true }
  | .ctgen =>
    { s with
      code := t.code, codeValid := t.codeValid, stk := t.stk, sp := t.sp, freeCtr := t.freeCtr, done := true }
  | .hdrw =>
    { s with
      pacc := t.pacc, pcnt := t.pcnt, obuf := t.obuf, outLen := t.outLen
      stk := t.stk, sp := t.sp, freeCtr := t.freeCtr, done := true }
  | .encode =>
    { s with
      upos := t.upos, pacc := t.pacc, pcnt := t.pcnt, obuf := t.obuf, outLen := t.outLen, done := true }
  | .hdrr =>
    { s with
      upos := t.upos, node := t.node, nnodes := t.nnodes, root := t.root
      treeValid := t.treeValid, codeValid := t.codeValid
      stk := t.stk, sp := t.sp, freeCtr := t.freeCtr, done := true }
  | .decode =>
    { s with
      upos := t.upos, cur := t.cur, pacc := t.pacc, pcnt := t.pcnt, obuf := t.obuf, outLen := t.outLen
      done := true }
  | .rdbits _ => { s with rdata := t.rdata, eos := t.eos, upos := t.upos, done := true }
  | .wrbits _ =>
    { s with pacc := t.pacc, pcnt := t.pcnt, obuf := t.obuf, outLen := t.outLen, done := true }
  | .flush =>
    { s with
      pacc := t.pacc, pcnt := t.pcnt, obuf := t.obuf, outLen := t.outLen, oclosed := t.oclosed, done := true }
  | .rewind => { s with upos := t.upos, done := true }
  | .init =>
    { t with
      inLen := s.inLen, wdata := s.wdata, ibuf := s.ibuf, obuf := s.obuf, node := s.node, pq := s.pq
      code := s.code, stk := s.stk, sp := s.sp, params := s.params, hostOps := s.hostOps
      hostData := s.hostData, freeCtr := s.freeCtr, done := true }
  | .magic _ | .tInternal | .tLeaf _ | .bLeft | .bRight | .compress | .decompress => t

/-! ## States at a fault -/

/-- R210, R211 after an `E_IO` of `PutByte`: the byte and the bits after it are lost, the bytes of `OBUF` up to `OUT_LEN`
are taken from t, all else is s. -/
def State.lostOutput (s t : State) : State :=
  { s with
    obuf := t.obuf, outLen := t.outLen, pacc := 0#8, pcnt := 0#3, oclosed := true
    errCode := FaultKind.io.code, err := true, done := false, sstate := .fault }

/-- R212: of the bits written after s, t holds the j whole bytes that could be written. -/
abbrev OutputCut (s t : State) (j : Nat) (bits : List Bool) : Prop :=
  t.outLen.toNat = s.outLen.toNat + j ∧ ObufAppended s t ∧
  t.outBits = (s.outBits ++ bits).take (8 * (s.outLen.toNat + j))

/-- R211, R213 for HDRR: kind k after `UPOS` advanced by a and n nodes were allocated. What `NODE` holds below n is taken
from t; `STK` and `SP` are free (log 6). -/
abbrev HeaderFault (k : FaultKind) (s t : State) (a n : Nat) : Prop :=
  t.visible =
    (faultEntry k
      { s with
        upos := s.upos + BitVec.ofNat 32 a, node := t.node, nnodes := BitVec.ofNat 10 n
        treeValid := false, codeValid := false, done := false }).visible ∧
  ∀ i, n ≤ i → Store.get? t.node i = Store.get? s.node i

/-- R211, R213: what command i may have written when it faults: what its row of R37 lists, and what fault entry writes
(R210). -/
def faultFrameOf (i : Instr) (s t : State) : State :=
  { frameOf i s t with
    pacc := t.pacc, pcnt := t.pcnt, obuf := t.obuf, outLen := t.outLen, oclosed := true
    errCode := t.errCode, err := true, done := false, sstate := .fault }

/-- R209: the kinds a command can raise. -/
def raisable : Instr → List FaultKind
  | .fcount => [.io, .overflow]
  | .tbuild => [.contract, .overflow]
  | .ctgen => [.contract]
  | .hdrw => [.io, .contract]
  | .encode => [.io, .contract]
  | .hdrr => [.badMagic, .truncated, .io, .malformed]
  | .decode => [.truncated, .io, .malformed, .contract]
  | .rdbits _ => [.io]
  | .wrbits _ => [.io, .contract]
  | .flush => [.io]
  | .rewind => []
  | .init => []
  | .magic _ => [.badMagic]
  | .tInternal => [.malformed]
  | .tLeaf _ => [.malformed]
  | .bLeft => []
  | .bRight => []
  | .compress => [.io]
  | .decompress => [.badMagic, .truncated, .io, .malformed]

/-- R85: a word that is none of the twelve commands. -/
abbrev IllegalWord (w : Word) : Prop :=
  (w.toNat % 16 = 0 ∨ 13 ≤ w.toNat % 16) ∨
  1024 ≤ w.toNat ∨
  ((w.toNat % 16 = 8 ∨ w.toNat % 16 = 9) ∧ (w.toNat / 16 % 64 = 0 ∨ 32 < w.toNat / 16 % 64)) ∨
  (((1 ≤ w.toNat % 16 ∧ w.toNat % 16 ≤ 7) ∨ (10 ≤ w.toNat % 16 ∧ w.toNat % 16 ≤ 12)) ∧
    w.toNat / 16 % 64 ≠ 0)

/-! ## The invariant -/

/-- R42 item 1. -/
abbrev PackerOk (s : State) : Prop := s.pacc.toNat < 2 ^ s.pcnt.toNat

/-- R42 item 2. -/
abbrev LengthsOk (s : State) : Prop :=
  s.outLen.toNat ≤ s.params.obufCap ∧ s.inLen.toNat ≤ s.params.ibufCap

/-- R42 item 3 and R34. -/
abbrev FlagsOk (s : State) : Prop :=
  (s.err = true ↔ s.errCode ≠ 0#3) ∧ (s.err = true ↔ s.sstate = .fault) ∧ ¬(s.done = true ∧ s.err = true)

/-- R42 items 4 and 7. -/
abbrev ClosedOk (s : State) : Prop :=
  (s.err = true → s.oclosed = true) ∧ (s.oclosed = true → s.pcnt = 0#3)

/-- R42 item 5. -/
abbrev TreeOk (s : State) : Prop := s.treeValid = true → WfTree s.node s.nnodes.toNat s.root

/-- R42 item 6. -/
abbrev CodeOk (s : State) : Prop :=
  s.codeValid = true →
    s.treeValid = true ∧ walk s.node walkLevels s.root 0#9 0#256 [] = some s.code

/-- The memories are in canonical form and list nothing outside their index ranges (R50). -/
abbrev MemoriesOk (s : State) : Prop :=
  (s.ibuf.wf ∧ ∀ c ∈ s.ibuf, c.1 < s.params.ibufCap) ∧
  (s.obuf.wf ∧ ∀ c ∈ s.obuf, c.1 < s.params.obufCap) ∧
  (Store.Canonical 0#32 s.freq ∧ ∀ c ∈ s.freq, c.1 < Config.nsym) ∧
  (Store.Rising s.node ∧ ∀ c ∈ s.node, c.1 < Config.nodeCap) ∧
  (Store.Canonical CodeEntry.invalid s.code ∧ ∀ c ∈ s.code, c.1 < Config.nsym)

/-- What holds whenever `BUSY` = 0 (R42). -/
abbrev Inv (s : State) : Prop :=
  s.busy = false ∧ s.params.Ok ∧ PackerOk s ∧ LengthsOk s ∧ FlagsOk s ∧ ClosedOk s ∧ TreeOk s ∧ CodeOk s ∧
  MemoriesOk s

/-- A run is safe as long as no fault is on record (R12, R246). -/
abbrev NoFault (s : State) : Prop := s.err = false

end Sys2Proof.Machine
end

