-- ==== Sys2Proof/Certificates/Slice0/Obligations.lean ====
section
/-! DEFINITION. The statements about the machine, for the provers. Each docstring names the rule of spec/ it comes
from; OBLIGATIONS.json lists them in the same order. -/

open Sys2Proof Sys2Proof.Machine

/-! ## Encodings -/

/-- R83, R89, R93 (30_encoding.md): words and tokens written out from the tables decode to what they stand for. -/
def Obligations.ListedWordsDecode : Prop :=
  decodeWord 0x00000001#32 = .ok .fcount ∧ decodeWord 0x00000002#32 = .ok .tbuild ∧
  decodeWord 0x00000003#32 = .ok .ctgen ∧ decodeWord 0x00000004#32 = .ok .hdrw ∧
  decodeWord 0x00000005#32 = .ok .encode ∧ decodeWord 0x00000006#32 = .ok .hdrr ∧
  decodeWord 0x00000007#32 = .ok .decode ∧ decodeWord 0x00000208#32 = .ok (.rdbits 32#6) ∧
  decodeWord 0x00000099#32 = .ok (.wrbits 9#6) ∧ decodeWord 0x0000000A#32 = .ok .flush ∧
  decodeWord 0x0000000B#32 = .ok .rewind ∧ decodeWord 0x0000000C#32 = .ok .init ∧
  decode .tree [false] = .ok (.tInternal, []) ∧
  decode .tree [true, false, false, true, false, false, false, false, false, true] = .ok (.tLeaf 65#9, []) ∧
  decode .branch [false] = .ok (.bLeft, []) ∧ decode .branch [true] = .ok (.bRight, [])

/-- R82 to R93, R97, R98 (30_encoding.md): the decoder reads back every legal instruction, with every operand, and
leaves the bits after it. -/
def Obligations.DecodeReadsBackEncode : Prop :=
  ∀ (i : Instr) (rest : List Bool), i.wf = true → decode i.context (encode i ++ rest) = .ok (i, rest)

/-- R82, R83, R97 (30_encoding.md): a command word has one meaning, and that instruction is legal and encodes to it. -/
def Obligations.EncodeGivesBackWord : Prop :=
  ∀ (w : Word) (i : Instr), decodeWord w = .ok i →
    encodeWord i = some w ∧ i.wf = true ∧ i.context = .command

/-- R85, R195 (30_encoding.md, 44_system.md): the illegal words are exactly those of R85; written in `S_IDLE` one executes
nothing and enters the fault state with `E_ILLCMD` through fault entry. -/
def Obligations.IllegalWordsRaiseIllcmd : Prop :=
  ∀ (w : Word),
    (IllegalWord w ↔ ∀ i, decodeWord w ≠ .ok i) ∧
    ∀ (s : State), Ready s → IllegalWord w → issue w s = .next (faultEntry .illCmd s)

/-! ## The step -/

/-- R30, R41, R191, R230, R231: what a step does when no command runs. The host's next access writes a word to `CMD`: what
that write does, and for a word that decodes to i it is `exec` of i; a pseudo-instruction likewise; a read, a write other
than to `CMD`, a reset: the host port's read, write, reset. Each acts on the state without that access, and with no access
a step changes nothing. The queue of accesses and the one step of a pseudo-instruction are the model's choice (logs 8,
13). -/
def Obligations.StepRunsDecodedCommand : Prop :=
  (∀ (s : State) (w : Word) (rest : List HostOp), s.busy = false → s.hostOps = .write .word 0 w :: rest →
    step s = issue w { s with hostOps := rest } ∧
    ∀ i, decodeWord w = .ok i → step s = exec i { s with hostOps := rest }) ∧
  (∀ (s : State) (p : Pseudo) (rest : List HostOp),
    s.busy = false → s.hostOps = .pseudo p :: rest → step s = exec p.instr { s with hostOps := rest }) ∧
  (∀ (s : State) (size : AccessSize) (off : Nat) (rest : List HostOp),
    s.busy = false → s.hostOps = .read size off :: rest →
    step s = .next (hostRead size off { s with hostOps := rest })) ∧
  (∀ (s : State) (size : AccessSize) (off : Nat) (data : Word) (rest : List HostOp),
    s.busy = false → s.hostOps = .write size off data :: rest → ¬(size = .word ∧ off = 0) →
    step s = .next (hostWrite size off data { s with hostOps := rest })) ∧
  (∀ (s : State) (c : Contents) (rest : List HostOp),
    s.busy = false → s.hostOps = .reset c :: rest →
    step s = .next (hardReset c { s with hostOps := rest })) ∧
  (∀ (s : State), s.busy = false → s.hostOps = [] → step s = .next s)

/-- R72, R93, R161: in a phase that reads a token, a step consumes the token's bits at `UPOS` and is `exec` of the token
they decode to, followed by the change of phase, unless the host's next access is one that takes effect at once.
Tokens as instructions, and the phases of HDRR, are the model's choice (logs 11, 14). -/
def Obligations.StepRunsDecodedToken : Prop :=
  (∀ (s t : State) (b : Word) (i : Instr),
    s.sstate = .run .dBit → NothingUrgent s → needBits 1 s = .ok b t →
    decode .branch [b != 0#32] = .ok (i, []) → step s = afterToken (exec i t) (fun _ => .dTest)) ∧
  (∀ (s t : State) (bs : List Bool) (i : Instr),
    s.sstate = .run .hTree → NothingUrgent s → fetchTreeToken s = .ok bs t →
    decode .tree bs = .ok (i, []) → step s = afterToken (exec i t) treePhase) ∧
  (∀ (s t : State) (m : Word) (i : Instr),
    s.sstate = .run .hMagic → NothingUrgent s → needBits 32 s = .ok m t →
    decode .header (bitsN 32 m.toNat) = .ok (i, []) → step s = afterToken (exec i t) (fun _ => .hTree))

/-- R191 (44_system.md): the four rows of the acceptance table, for a word written to `CMD`: in `S_IDLE` a legal word
executes and ends with `BUSY` = 0 and `DONE` = 1 or in fault entry, an illegal one enters the fault state with `E_ILLCMD`;
in `S_FAULT` INIT executes and every other word changes nothing. -/
def Obligations.AcceptanceOfCommandWrites : Prop :=
  ∀ (s : State) (w : Word),
    (Ready s → ∀ i, decodeWord w = .ok i → issue w s = exec i s ∧
      ∀ t, exec i s = .next t →
        t.busy = false ∧
        ((t.sstate = .idle ∧ t.done = true) ∨ (t.sstate = .fault ∧ t.done = false ∧ t.err = true))) ∧
    (Ready s → (∀ i, decodeWord w ≠ .ok i) → issue w s = .next (faultEntry .illCmd s)) ∧
    (s.sstate = .fault → decodeWord w = .ok .init → issue w s = .next (initState s)) ∧
    (s.sstate = .fault → decodeWord w ≠ .ok .init → issue w s = .next s)

/-- R31, R230 (10_state.md, 70_reset_and_hazards.md): while a command executes, every access but a read of `STATUS` and
a reset stays pending; the read of `STATUS` completes with `BUSY` = 1 and changes nothing in HTB; a reset abandons the
command. The queue, and a held access staying at its head, are the model's choice (logs 8, 10). -/
def Obligations.AccessesHeldWhileBusy : Prop :=
  (∀ (s t : State) (op : HostOp) (rest : List HostOp),
    s.busy = true → s.hostOps = op :: rest → isReset op = false → isStatusRead op = false →
    step s = .next t → t.hostOps = s.hostOps) ∧
  (∀ (s : State) (rest : List HostOp),
    s.busy = true → s.hostOps = .read .word 0x04 :: rest →
    ∃ t, step s = .next t ∧ t.hostData.getLsbD 0 = true ∧
      t = { s with hostOps := rest, hostData := t.hostData, freeCtr := t.freeCtr }) ∧
  (∀ (s : State) (c : Contents) (rest : List HostOp),
    s.busy = true → s.hostOps = .reset c :: rest →
    step s = .next (hardReset c { s with hostOps := rest }))

/-! ## Reset and INIT -/

/-- R40, R33 (10_state.md): the values after reset, whatever the parameters and the unspecified contents. Parameters and
contents as data are the model's choice (logs 1, 5). -/
def Obligations.ResetLeavesListedValues : Prop :=
  ∀ (p : Params) (c : Contents),
    let s := State.resetWith p c
    s.sstate = .idle ∧ s.statusWord = 0#32 ∧ s.errCode = 0#3 ∧ regWord s 0x0C = 0x48544201#32 ∧
    s.inLen = 0#29 ∧ s.upos = 0#32 ∧ s.outLen = 0#29 ∧ s.pacc = 0#8 ∧ s.pcnt = 0#3 ∧
    s.wdata = 0#32 ∧ s.rdata = 0#32 ∧ s.root = 0#10 ∧ s.nnodes = 0#10 ∧ s.cur = 0#10 ∧
    s.seq = 0#10 ∧ s.pqLen = 0#9 ∧ (∀ i, s.freqAt i = 0#32) ∧ s.params = p

/-- R42 (10_state.md): the invariant holds after reset, for all parameters R7 allows and all unspecified contents.
`State.reset` takes the model's default parameters (log 2). -/
def Obligations.ResetMeetsInvariant : Prop :=
  (∀ (p : Params) (c : Contents), p.Ok → Inv (State.resetWith p c)) ∧ Inv State.reset

/-- R190 (44_system.md): INIT completes in `S_IDLE` and in `S_FAULT` with exactly this state. -/
def Obligations.InitStartsNewOperation : Prop :=
  ∀ (s : State), s.busy = false →
    exec .init s = .next
      { s with
        err := false, errCode := 0#3, eos := false
        treeValid := false, codeValid := false, oclosed := false
        upos := 0#32, outLen := 0#29, pacc := 0#8, pcnt := 0#3, rdata := 0#32
        root := 0#10, nnodes := 0#10, cur := 0#10, seq := 0#10, pqLen := 0#9
        freq := [], sstate := .idle, done := true }

/-- R232 (70_reset_and_hazards.md): INIT leaves the state of reset except `IN_LEN`, `WDATA`, the content of `IBUF` and
`DONE`; what R40 calls unspecified keeps its old bits. The unspecified contents of reset are an argument, any at all
(log 5). -/
def Obligations.InitAgainstReset : Prop :=
  ∀ (s : State) (c : Contents), s.busy = false →
    exec .init s = .next
      { hardReset c s with
        inLen := s.inLen, wdata := s.wdata, ibuf := s.ibuf, done := true
        obuf := s.obuf, node := s.node, pq := s.pq, code := s.code, stk := s.stk, sp := s.sp }

/-- R190, R191, R215 (44_system.md, 60_exceptions.md): in `S_FAULT` every command but INIT changes nothing, and a step
leaves `S_FAULT` only by INIT, by a pseudo-instruction (which begins with INIT) or by reset. The queue and the
pseudo-instructions' one step are the model's choice (logs 8, 13). -/
def Obligations.OnlyInitLeavesFault : Prop :=
  (∀ (i : Instr) (s : State), i.context = .command → i ≠ .init → s.sstate = .fault → exec i s = .next s) ∧
  (∀ (s t : State), s.sstate = .fault → step s = .next t → t.sstate ≠ .fault →
    ∃ op rest, s.hostOps = op :: rest ∧
      ((op = .write .word 0 0x0000000C#32) ∨ (∃ p, op = .pseudo p) ∨ isReset op = true))

/-! ## Bit unpacker and bit packer -/

/-- R119 (40_bitio.md): RDBITS delivers the value of the next N stream bits; `EOS` when fewer remain, `RDATA` unchanged;
`E_IO` with `UPOS` unchanged if a byte read fails; `E_ILLCMD` if N is illegal. -/
def Obligations.RdbitsReadsStreamBits : Prop :=
  ∀ (n : BitVec 6) (s : State), Ready s →
    (countOk n = true → s.restBits.length < n.toNat →
      exec (.rdbits n) s = .next { s with eos := true, done := true }) ∧
    (countOk n = true → n.toNat ≤ s.restBits.length →
      (∀ k, k < n.toNat → (s.upos.toNat + k) / 8 ∉ s.params.inErr) →
      exec (.rdbits n) s = .next
        { s with
          upos := s.upos + BitVec.ofNat 32 n.toNat
          rdata := BitVec.ofNat 32 (val (s.restBits.take n.toNat)), eos := false, done := true }) ∧
    (countOk n = true → n.toNat ≤ s.restBits.length →
      (∃ k, k < n.toNat ∧ (s.upos.toNat + k) / 8 ∈ s.params.inErr) →
      exec (.rdbits n) s = .next (faultEntry .io { s with done := false })) ∧
    (countOk n = false → exec (.rdbits n) s = .next (faultEntry .illCmd s))

/-- R115, R120 (40_bitio.md): WRBITS adds the low N bits of `WDATA`, most significant first, to the output stream and
writes nothing else; on a closed stream it raises `E_CONTRACT`, with an illegal N `E_ILLCMD`. Where the j-th whole byte is
the first that cannot be written, the bytes before it stay, the rest is lost and the fault is `E_IO`. -/
def Obligations.WrbitsAppendsBits : Prop :=
  ∀ (n : BitVec 6) (s : State), Ready s →
    (countOk n = true → OutputOpen s → Room s n.toNat →
      ∃ t, exec (.wrbits n) s = .next t ∧ OnlyOutput s t ∧
        t.outBits = s.outBits ++ bitsN n.toNat s.wdata.toNat ∧
        t.outLen.toNat = s.outLen.toNat + (s.pcnt.toNat + n.toNat) / 8 ∧
        t.pcnt.toNat = (s.pcnt.toNat + n.toNat) % 8 ∧ PackerOk t) ∧
    (∀ j, countOk n = true → OutputOpen s → s.params.Ok →
      s.outLen.toNat + j ≤ s.params.obufCap → j < (s.pcnt.toNat + n.toNat) / 8 →
      (∀ i, i < j → s.outLen.toNat + i ∉ s.params.outErr) →
      (s.outLen.toNat + j = s.params.obufCap ∨ s.outLen.toNat + j ∈ s.params.outErr) →
      ∃ t, exec (.wrbits n) s = .next t ∧
        t = { s with
              obuf := t.obuf, outLen := t.outLen, pacc := 0#8, pcnt := 0#3, oclosed := true
              errCode := 3#3, err := true, done := false, sstate := .fault } ∧
        t.outLen.toNat = s.outLen.toNat + j ∧ ObufAppended s t ∧
        t.outBits = (s.outBits ++ bitsN n.toNat s.wdata.toNat).take (8 * (s.outLen.toNat + j))) ∧
    (countOk n = true → s.oclosed = true →
      exec (.wrbits n) s = .next (faultEntry .contract { s with done := false })) ∧
    (countOk n = false → exec (.wrbits n) s = .next (faultEntry .illCmd s))

/-- R118, R121 (40_bitio.md): the four cases of FLUSH. -/
def Obligations.FlushClosesOutput : Prop :=
  ∀ (s : State), Ready s →
    (s.oclosed = true → exec .flush s = .next { s with done := true }) ∧
    (s.oclosed = false → s.pcnt = 0#3 → exec .flush s = .next { s with oclosed := true, done := true }) ∧
    (s.oclosed = false → s.pcnt ≠ 0#3 → s.outLen.toNat ≠ s.params.obufCap →
      s.outLen.toNat ∉ s.params.outErr →
      exec .flush s = .next
        { s with
          obuf := s.obuf.write s.outLen.toNat (s.pacc <<< (8 - s.pcnt.toNat)), outLen := s.outLen + 1#29
          pacc := 0#8, pcnt := 0#3, oclosed := true, done := true }) ∧
    (s.oclosed = false → s.pcnt ≠ 0#3 →
      (s.outLen.toNat = s.params.obufCap ∨ s.outLen.toNat ∈ s.params.outErr) →
      exec .flush s = .next
        (faultEntry .io { s with pacc := 0#8, pcnt := 0#3, oclosed := true, done := false }))

/-- R94, R117, R118 (30_encoding.md, 40_bitio.md): FLUSH fills the last byte with zero bits and changes no bit written
before; every byte of `OBUF` but the last appended one reads as before. -/
def Obligations.FlushPadsWithZeros : Prop :=
  ∀ (s : State), Ready s → OutputOpen s → s.pcnt ≠ 0#3 → Room s (8 - s.pcnt.toNat) →
    ∃ t, exec .flush s = .next t ∧
      t.outBits = s.outBits ++ List.replicate (8 - s.pcnt.toNat) false ∧
      t.outLen.toNat = s.outLen.toNat + 1 ∧ t.oclosed = true ∧ ObufAppended s t

/-- R122 (40_bitio.md): REWIND sets `UPOS` to 0 and touches nothing else. -/
def Obligations.RewindResetsPosition : Prop :=
  ∀ (s : State), Ready s → exec .rewind s = .next { s with upos := 0#32, done := true }

/-! ## Frequency counter and tree builder -/

/-- R131 (41_tree_builder.md): FCOUNT counts the 8-bit symbols from the current position on, forces `FREQ[256]` to 1
and writes nothing but `FREQ` and `UPOS`. Where the symbol after the first k touches a byte that fails to read, it raises
`E_IO` with the counts of those k symbols in `FREQ`, `FREQ[256]` = 0 and `UPOS` after them. (A count cannot pass
2^32 - 1: the input has fewer than 2^29 bytes.) -/
def Obligations.FcountCountsSymbols : Prop :=
  ∀ (s : State), Ready s →
    (Readable s →
      ∃ t, exec .fcount s = .next t ∧
        t = { s with freq := t.freq, upos := t.upos, done := true } ∧
        t.upos.toNat = s.upos.toNat + 8 * s.restSymbols.length ∧
        (∀ b, b < 256 → (t.freqAt b).toNat = s.restSymbols.count b) ∧
        t.freqAt 256 = 1#32 ∧ (∀ b, 256 < b → t.freqAt b = 0#32)) ∧
    (∀ k, k < s.restSymbols.length →
      (∀ p, s.upos.toNat ≤ p → p < s.upos.toNat + 8 * k → p / 8 ∉ s.params.inErr) →
      (∃ p, s.upos.toNat + 8 * k ≤ p ∧ p < s.upos.toNat + 8 * (k + 1) ∧ p / 8 ∈ s.params.inErr) →
      ∃ f u, exec .fcount s = .next (faultEntry .io { s with freq := f, upos := u, done := false }) ∧
        u.toNat = s.upos.toNat + 8 * k ∧
        (∀ b, b < 256 → (Store.read 0#32 f b).toNat = (s.restSymbols.take k).count b) ∧
        (∀ b, 256 ≤ b → Store.read 0#32 f b = 0#32))

/-- R132 (41_tree_builder.md): after an FCOUNT started at `UPOS` = 0 completes, the counts are those of the input
bytes, they sum to `IN_LEN`, and the whole input is consumed. -/
def Obligations.FcountFromStartCountsBytes : Prop :=
  ∀ (s t : State), Ready s → s.upos = 0#32 → exec .fcount s = .next t → t.sstate = .idle →
    (∀ b : Byte, (t.freqAt b.toNat).toNat = s.input.count b) ∧
    ((List.range 256).map fun b => (t.freqAt b).toNat).sum = s.inLen.toNat ∧
    t.freqAt 256 = 1#32 ∧ t.upos.toNat = 8 * s.inLen.toNat

/-- R134 to R139, R64 (41_tree_builder.md, 20_memory.md): with at least one nonzero count and a total below 2^32, TBUILD
completes with a well-formed tree over exactly the counted symbols, of 2L - 1 nodes, whose root is the last node and
weighs the total; it writes only what R37 lists and no entry of `NODE` at or above `NNODES`. -/
def Obligations.TbuildBuildsWellFormedTree : Prop :=
  ∀ (s : State), Ready s → s.counted ≠ [] → s.totalCount < 2 ^ 32 →
    ∃ t tr, exec .tbuild s = .next t ∧ HoldsTree t tr ∧ t.codeValid = false ∧
      tr.symbols.Perm s.counted ∧
      t.nnodes.toNat = 2 * s.counted.length - 1 ∧ t.seq = t.nnodes ∧ t.pqLen = 1#9 ∧
      t.root.toNat = t.nnodes.toNat - 1 ∧
      ((Store.get? t.node t.root.toNat).map fun nd => nd.weight.toNat) = some s.totalCount ∧
      t = { s with
            node := t.node, nnodes := t.nnodes, root := t.root, pq := t.pq, pqLen := t.pqLen, seq := t.seq
            treeValid := true, codeValid := false, done := true } ∧
      ∀ i, t.nnodes.toNat ≤ i → Store.get? t.node i = Store.get? s.node i

/-- R135 to R138, R61, R64 item 5: the leaves come first, in ascending symbol order with their counts as weights; every
later node is internal, with two children of smaller index, and weighs their sum. The children, listed left then right
of each merged node in the order the nodes were made, are all nodes but the root, and their keys (weight, seq) strictly
ascend: each merge takes the two least keys and puts the first removed on the left. The entry of the root stays in
`PQ`. -/
def Obligations.TbuildNodeLayout : Prop :=
  ∀ (s t : State), Ready s → exec .tbuild s = .next t → t.sstate = .idle →
    (∀ k sym, s.counted[k]? = some sym →
      Store.get? t.node k = some (leafNode (BitVec.ofNat 9 sym) (s.freqAt sym))) ∧
    (∀ i, s.counted.length ≤ i → i < t.nnodes.toNat →
      ∃ l r ln rn w, Store.get? t.node i = some (internalNode w l r) ∧ l.toNat < i ∧ r.toNat < i ∧
        Store.get? t.node l.toNat = some ln ∧ Store.get? t.node r.toNat = some rn ∧
        w.toNat = ln.weight.toNat + rn.weight.toNat) ∧
    (childIndices t.node t.nnodes.toNat).Perm (List.range (t.nnodes.toNat - 1)) ∧
    (childIndices t.node t.nnodes.toNat).Pairwise (NodeKeyLt t.node) ∧
    ∃ nd, Store.get? t.node t.root.toNat = some nd ∧
      t.pqLive = [{ weight := nd.weight, seq := t.root, node := t.root }]

/-- R134, R137, R207 (41_tree_builder.md, 60_exceptions.md): an all-zero table raises `E_CONTRACT` with no node
allocated, a total of 2^32 or more raises `E_OVERFLOW`; the valid flags stay 0. -/
def Obligations.TbuildFaults : Prop :=
  ∀ (s : State), Ready s →
    (s.counted = [] →
      ∃ t, exec .tbuild s = .next t ∧ t.sstate = .fault ∧ t.errCode = 5#3 ∧
        t.treeValid = false ∧ t.codeValid = false ∧ t.nnodes = 0#10 ∧ t.freq = s.freq) ∧
    (2 ^ 32 ≤ s.totalCount →
      ∃ t, exec .tbuild s = .next t ∧ t.sstate = .fault ∧ t.errCode = 6#3 ∧
        t.treeValid = false ∧ t.codeValid = false ∧ t.freq = s.freq)

/-- R136, R141 (41_tree_builder.md): one counted symbol gives its leaf; of two, the lighter goes left, and at equal
weight the smaller symbol. -/
def Obligations.TbuildSmallTables : Prop :=
  ∀ (s : State), Ready s → s.totalCount < 2 ^ 32 →
    (∀ a, s.counted = [a] →
      ∃ t, exec .tbuild s = .next t ∧ t.tree = some (.leaf a) ∧ t.nnodes = 1#10 ∧ t.root = 0#10) ∧
    (∀ a b, s.counted = [a, b] →
      ∃ t, exec .tbuild s = .next t ∧ t.nnodes = 3#10 ∧ t.root = 2#10 ∧
        t.tree = some (if s.freqAt b < s.freqAt a then .node (.leaf b) (.leaf a)
          else .node (.leaf a) (.leaf b)))

/-- R134, R136 (41_tree_builder.md): the tree is a function of the counts alone, and a second TBUILD changes nothing. -/
def Obligations.TbuildDependsOnCountsOnly : Prop :=
  (∀ (s s' t t' : State), Ready s → Ready s' → (∀ i, i < 257 → s.freqAt i = s'.freqAt i) →
    exec .tbuild s = .next t → exec .tbuild s' = .next t' →
    t.sstate = t'.sstate ∧ t.nnodes = t'.nnodes ∧ (t.sstate = .idle → t.root = t'.root) ∧
    ∀ i, i < t.nnodes.toNat → Store.get? t.node i = Store.get? t'.node i) ∧
  (∀ (s t : State), Ready s → exec .tbuild s = .next t → t.sstate = .idle → exec .tbuild t = .next t)

/-! ## Code table generator and header codec -/

/-- R151, R152, R153 (42_codes_header.md): CTGEN gives every symbol the path of its last leaf in preorder, the empty path in
a one-leaf tree, and every other symbol the invalid entry; apart from `STK` and `SP` (free, log 6) it writes
only `CODE` and its flag. With no valid tree it raises `E_CONTRACT`. -/
def Obligations.CtgenAssignsPaths : Prop :=
  ∀ (s : State), Ready s →
    (∀ tr, HoldsTree s tr →
      ∃ t, exec .ctgen s = .next t ∧
        t.visible = { s with code := t.code, codeValid := true, done := true }.visible ∧
        ∀ sym, codeAt t.code sym = entryOf (tr.codeOf sym)) ∧
    (s.treeValid = false →
      ∃ t, exec .ctgen s = .next t ∧ t.visible = (faultEntry .contract { s with done := false }).visible)

/-- R92, R152 (30_encoding.md, 42_codes_header.md): no valid code is a prefix of another symbol's valid code. -/
def Obligations.CodesArePrefixFree : Prop :=
  ∀ (s : State), Inv s → s.codeValid = true → ∀ a b, a ≠ b →
    (codeAt s.code a).valid = true → (codeAt s.code b).valid = true →
    ¬ (codeBits (codeAt s.code a) <+: codeBits (codeAt s.code b))

/-- R155, R156, R203, R212 (42_codes_header.md, 60_exceptions.md): HDRW writes the magic value and the serialized tree,
32 + 11L - 1 bits, and nothing but the output stream, `STK` and `SP`; on a closed stream it raises `E_CONTRACT`. Where
the j-th whole byte is the first that cannot be written it raises `E_IO`: the bytes before it stay, the rest is lost. -/
def Obligations.HdrwWritesHeader : Prop :=
  ∀ (s : State) (tr : Tree), Ready s → HoldsTree s tr →
    (OutputOpen s → Room s (32 + tr.ser.length) →
      ∃ t, exec .hdrw s = .next t ∧ OnlyOutput s.visible t.visible ∧
        t.outBits = s.outBits ++ bitsN 32 s.params.magic.toNat ++ tr.ser ∧
        tr.ser.length = 11 * tr.leaves - 1) ∧
    (s.oclosed = true →
      ∃ t, exec .hdrw s = .next t ∧
        t.visible = (faultEntry .contract { s with done := false }).visible) ∧
    (∀ j, OutputOpen s → WriteBlocked s j (32 + tr.ser.length) →
      ∃ t, exec .hdrw s = .next t ∧ t.visible = (s.lostOutput t).visible ∧
        OutputCut s t j (bitsN 32 s.params.magic.toNat ++ tr.ser))

/-- R160, R161, R162, R64, R203, R211 (42_codes_header.md, 20_memory.md, 60_exceptions.md): HDRR accepts every serialized
tree of at most 513 nodes with symbols up to 256, stops right after it, numbers the nodes in preorder from root 0 with
weight 0, and writes only what R37 lists and no entry of `NODE` at or above `NNODES`. A byte that cannot be read raises
`E_IO` where it is needed: in the magic value with nothing consumed; at a marker bit, after any tokens that begin a tree,
with those tokens consumed; in a leaf field with the marker bit consumed and the node allocated. -/
def Obligations.HdrrReadsHeader : Prop :=
  (∀ (s : State) (tr : Tree) (rest : List Bool), Ready s → Readable s →
    tr.size ≤ 513 → (∀ x ∈ tr.symbols, x ≤ 256) →
    s.restBits = bitsN 32 s.params.magic.toNat ++ tr.ser ++ rest →
    ∃ t, exec .hdrr s = .next t ∧ HoldsTree t tr ∧ t.codeValid = false ∧
      t.root = 0#10 ∧ t.nnodes.toNat = tr.size ∧
      t.upos.toNat = s.upos.toNat + 32 + tr.ser.length ∧
      t.visible = { s with
        upos := t.upos, node := t.node, nnodes := t.nnodes, root := 0#10
        treeValid := true, codeValid := false, done := true }.visible ∧
      (∀ i nd, i < t.nnodes.toNat → Store.get? t.node i = some nd →
        nd.weight = 0#32 ∧ (nd.leaf = false → nd.left.toNat = i + 1)) ∧
      ∀ i, t.nnodes.toNat ≤ i → Store.get? t.node i = Store.get? s.node i) ∧
  (∀ (s : State), Ready s → 32 ≤ s.restBits.length → BitsUnreadable s s.upos.toNat 32 →
    ∃ t, exec .hdrr s = .next t ∧ HeaderFault .io s t 0 0) ∧
  (∀ (s : State) (ts : List TreeToken) (b : Bool) (rest : List Bool), Ready s → TreePrefix ts → ts.length ≤ 513 →
    s.restBits = bitsN 32 s.params.magic.toNat ++ ts.flatMap tokenBits ++ b :: rest →
    BitsReadable s s.upos.toNat (32 + (ts.flatMap tokenBits).length) →
    (s.upos.toNat + 32 + (ts.flatMap tokenBits).length) / 8 ∈ s.params.inErr →
    ∃ t, exec .hdrr s = .next t ∧ HeaderFault .io s t (32 + (ts.flatMap tokenBits).length) ts.length) ∧
  (∀ (s : State) (ts : List TreeToken) (v : Symbol) (rest : List Bool), Ready s → TreePrefix ts → ts.length < 513 →
    s.restBits = bitsN 32 s.params.magic.toNat ++ ts.flatMap tokenBits ++ true :: bitsN 9 v.toNat ++ rest →
    BitsReadable s s.upos.toNat (32 + (ts.flatMap tokenBits).length + 1) →
    BitsUnreadable s (s.upos.toNat + 32 + (ts.flatMap tokenBits).length + 1) 9 →
    ∃ t, exec .hdrr s = .next t ∧
      HeaderFault .io s t (32 + (ts.flatMap tokenBits).length + 1) (ts.length + 1))

/-- R158, R201 (42_codes_header.md, 60_exceptions.md): with fewer than 32 bits left HDRR raises `E_TRUNCATED` and
consumes nothing; with 32 bits other than `MAGIC` it raises `E_BADMAGIC` and no bit after them is read. -/
def Obligations.HdrrChecksMagic : Prop :=
  ∀ (s : State), Ready s → Readable s →
    (s.restBits.length < 32 →
      ∃ t, exec .hdrr s = .next t ∧ t.sstate = .fault ∧ t.errCode = 2#3 ∧ t.upos = s.upos ∧
        t.nnodes = 0#10 ∧ t.treeValid = false ∧ t.codeValid = false) ∧
    (32 ≤ s.restBits.length → s.restBits.take 32 ≠ bitsN 32 s.params.magic.toNat →
      ∃ t, exec .hdrr s = .next t ∧ t.sstate = .fault ∧ t.errCode = 1#3 ∧
        t.upos.toNat = s.upos.toNat + 32 ∧ t.nnodes = 0#10 ∧ t.treeValid = false ∧ t.codeValid = false)

/-- R160, R161, R202 (42_codes_header.md, 60_exceptions.md): input that ends inside a header HDRR would accept raises
`E_TRUNCATED` and leaves no valid tree. After any tokens that begin a tree of at most 513 nodes: where the next marker bit
is missing, those tokens are consumed and each has its node; where the leaf field is, the marker bit is consumed too and
the leaf's node allocated. -/
def Obligations.HdrrCutHeaderIsTruncated : Prop :=
  (∀ (s : State) (tr : Tree), Ready s → Readable s →
    tr.size ≤ 513 → (∀ x ∈ tr.symbols, x ≤ 256) →
    s.restBits <+: bitsN 32 s.params.magic.toNat ++ tr.ser →
    s.restBits ≠ bitsN 32 s.params.magic.toNat ++ tr.ser →
    ∃ t, exec .hdrr s = .next t ∧ t.sstate = .fault ∧ t.errCode = 2#3 ∧
      t.treeValid = false ∧ t.codeValid = false) ∧
  (∀ (s : State) (ts : List TreeToken), Ready s → Readable s → TreePrefix ts → ts.length ≤ 513 →
    s.restBits = bitsN 32 s.params.magic.toNat ++ ts.flatMap tokenBits →
    ∃ t, exec .hdrr s = .next t ∧
      HeaderFault .truncated s t (32 + (ts.flatMap tokenBits).length) ts.length) ∧
  (∀ (s : State) (ts : List TreeToken) (f : List Bool), Ready s → Readable s → TreePrefix ts → ts.length < 513 →
    f.length < 9 → s.restBits = bitsN 32 s.params.magic.toNat ++ ts.flatMap tokenBits ++ true :: f →
    ∃ t, exec .hdrr s = .next t ∧
      HeaderFault .truncated s t (32 + (ts.flatMap tokenBits).length + 1) (ts.length + 1))

/-- R159, R91, R161, R204 (30_encoding.md, 42_codes_header.md, 60_exceptions.md): a leaf field of 257 to 511, after any
tokens that begin a tree of at most 512 nodes, raises `E_MALFORMED` with the field consumed and the leaf's node
allocated; a 514th node, after any 513 tokens that begin a tree, raises it when its first bit has been read, whatever
that bit is. -/
def Obligations.HdrrRefusesMalformed : Prop :=
  ∀ (s : State), Ready s → Readable s →
    (∀ (ts : List TreeToken) (v : Symbol) (rest : List Bool), TreePrefix ts → ts.length < 513 → 256 < v.toNat →
      s.restBits = bitsN 32 s.params.magic.toNat ++ ts.flatMap tokenBits ++ true :: bitsN 9 v.toNat ++ rest →
      ∃ t, exec .hdrr s = .next t ∧ t.sstate = .fault ∧ t.errCode = 4#3 ∧ t.treeValid = false ∧
        t.upos.toNat = s.upos.toNat + 32 + (ts.flatMap tokenBits).length + 10 ∧
        t.nnodes.toNat = ts.length + 1 ∧
        HeaderFault .malformed s t (32 + (ts.flatMap tokenBits).length + 10) (ts.length + 1)) ∧
    (∀ (ts : List TreeToken) (b : Bool) (rest : List Bool), TreePrefix ts → ts.length = 513 →
      s.restBits = bitsN 32 s.params.magic.toNat ++ ts.flatMap tokenBits ++ b :: rest →
      ∃ t, exec .hdrr s = .next t ∧ t.sstate = .fault ∧ t.errCode = 4#3 ∧ t.treeValid = false ∧
        t.upos.toNat = s.upos.toNat + 32 + (ts.flatMap tokenBits).length + 1 ∧ t.nnodes = 513#10 ∧
        HeaderFault .malformed s t (32 + (ts.flatMap tokenBits).length + 1) 513)

/-- R163 (42_codes_header.md): a header HDRW wrote of a tree, read back by HDRR, gives a tree of the same shape and leaf
symbols, and CTGEN on it the same code table. -/
def Obligations.HeaderDescribesItsTree : Prop :=
  ∀ (s w r r' : State) (tr : Tree) (rest : List Bool),
    Ready s → HoldsTree s tr → OutputOpen s → s.params.Ok → LengthsOk s →
    exec .hdrw s = .next w → w.sstate = .idle →
    Ready r → Readable r → r.params.magic = s.params.magic →
    r.restBits = w.outBits.drop s.outBits.length ++ rest → exec .hdrr r = .next r' →
    r'.treeValid = true ∧ r'.tree = some tr ∧
    ∃ c c', exec .ctgen s = .next c ∧ exec .ctgen r' = .next c' ∧ c.code = c'.code

/-! ## Stream encoder and decoder -/

/-- R172 to R174, R192, R203, R211, R212 (43_stream.md, 44_system.md, 60_exceptions.md): ENCODE writes the codes of the
symbols from the current position on and the terminator once, whatever their lengths, and writes nothing but `UPOS` and
the output stream. On a closed stream it raises `E_CONTRACT` at the first symbol with a code that is not empty, that
symbol read. Where the symbol after the first k cannot be read it raises `E_IO` with the k codes written; where the j-th
whole byte is the first that cannot be written it raises `E_IO` at the symbol whose code completes that byte: the bytes
before it stay, the rest is lost. -/
def Obligations.EncodeWritesCodes : Prop :=
  ∀ (s : State), Ready s → s.codeValid = true → PackerOk s →
    let code := fun x => codeBits (codeAt s.code x)
    let read := fun n => s.upos + BitVec.ofNat 32 (8 * min n s.restSymbols.length)
    (Readable s → (∀ x ∈ s.restSymbols ++ [256], (codeAt s.code x).valid = true) →
      (s.oclosed = false ∨ (s.restSymbols ++ [256]).flatMap code = []) →
      Room s ((s.restSymbols ++ [256]).flatMap code).length →
      ∃ t, exec .encode s = .next t ∧
        t.outBits = s.outBits ++ (s.restSymbols ++ [256]).flatMap code ∧
        t.upos.toNat = s.upos.toNat + 8 * s.restSymbols.length ∧
        t = { s with
              upos := t.upos, pacc := t.pacc, pcnt := t.pcnt, obuf := t.obuf, outLen := t.outLen, done := true } ∧
        ObufAppended s t) ∧
    (∀ (pre post : List Nat) (x : Nat), s.oclosed = true → s.restSymbols ++ [256] = pre ++ x :: post →
      (∀ y ∈ pre, (codeAt s.code y).valid = true ∧ code y = []) → (codeAt s.code x).valid = true → code x ≠ [] →
      BitsReadable s s.upos.toNat (8 * min (pre.length + 1) s.restSymbols.length) →
      exec .encode s = .next (faultEntry .contract { s with upos := read (pre.length + 1), done := false })) ∧
    (∀ k, k < s.restSymbols.length → BitsReadable s s.upos.toNat (8 * k) →
      BitsUnreadable s (s.upos.toNat + 8 * k) 8 →
      (∀ y ∈ s.restSymbols.take k, (codeAt s.code y).valid = true) →
      (s.oclosed = false ∨ (s.restSymbols.take k).flatMap code = []) →
      Room s ((s.restSymbols.take k).flatMap code).length →
      ∃ t m, exec .encode s = .next t ∧ t = faultEntry .io m ∧
        m = { s with
              upos := read k, pacc := m.pacc, pcnt := m.pcnt, obuf := m.obuf, outLen := m.outLen, done := false } ∧
        m.outBits = s.outBits ++ (s.restSymbols.take k).flatMap code ∧ ObufAppended s m) ∧
    (∀ (pre post : List Nat) (x j : Nat), s.oclosed = false → s.restSymbols ++ [256] = pre ++ x :: post →
      (∀ y ∈ pre ++ [x], (codeAt s.code y).valid = true) →
      BitsReadable s s.upos.toNat (8 * min (pre.length + 1) s.restSymbols.length) →
      (s.pcnt.toNat + (pre.flatMap code).length) / 8 ≤ j → WriteBlocked s j ((pre ++ [x]).flatMap code).length →
      ∃ t, exec .encode s = .next t ∧ t = { s with upos := read (pre.length + 1) }.lostOutput t ∧
        OutputCut s t j ((pre ++ [x]).flatMap code))

/-- R172, R206, R211 (43_stream.md, 60_exceptions.md): at the first symbol without a code, the terminator included, ENCODE
raises `E_CONTRACT` after having written the codes before it, and nothing else but `UPOS`. -/
def Obligations.EncodeWithoutCodeFaults : Prop :=
  ∀ (s : State) (pre post : List Nat) (x : Nat), Ready s → Readable s → s.codeValid = true → OutputOpen s →
    s.restSymbols ++ [256] = pre ++ x :: post →
    (∀ y ∈ pre, (codeAt s.code y).valid = true) → (codeAt s.code x).valid = false →
    Room s (pre.flatMap fun y => codeBits (codeAt s.code y)).length →
    ∃ t, exec .encode s = .next t ∧ t.sstate = .fault ∧ t.errCode = 5#3 ∧
      t.upos.toNat = s.upos.toNat + 8 * min (pre.length + 1) s.restSymbols.length ∧
      ∃ m, m.sstate = .idle ∧ t = faultEntry .contract m ∧
        m = { s with
              upos := t.upos, pacc := m.pacc, pcnt := m.pcnt, obuf := m.obuf, outLen := m.outLen, done := false } ∧
        m.outBits = s.outBits ++ pre.flatMap fun y => codeBits (codeAt s.code y)

/-- R175, R177, R182, R192, R203, R211, R212 (43_stream.md, 44_system.md, 60_exceptions.md): from codes of symbols, then a
code of 256, DECODE emits the symbols as bytes, stops right after the terminator with `CUR` on an end-of-stream leaf,
never looks at the bits after it, and writes nothing but `UPOS`, `CUR` and the output stream. On a closed stream it raises
`E_CONTRACT` at the first symbol to emit, its code read and `CUR` at its leaf. A bit of a code that cannot be read raises
`E_IO` at an internal node with the symbols before it emitted; a byte that cannot be written raises `E_IO` with the bytes
before it kept and `CUR` at the leaf. -/
def Obligations.DecodeEmitsSymbols : Prop :=
  ∀ (s : State) (tr : Tree) (cs : List (Nat × List Bool)), Ready s → HoldsTree s tr → PackerOk s →
    (∀ c ∈ cs, c ∈ tr.codes ∧ c.1 ≠ 256) →
    let read := fun n => s.upos + BitVec.ofNat 32 n
    (∀ (e rest : List Bool), Readable s → (256, e) ∈ tr.codes →
      s.restBits = (cs.flatMap Prod.snd) ++ e ++ rest →
      (s.oclosed = false ∨ cs = []) → Room s (8 * cs.length) →
      ∃ t, exec .decode s = .next t ∧
        t.outBits = s.outBits ++ cs.flatMap (fun c => bitsN 8 c.1) ∧
        t.outLen.toNat = s.outLen.toNat + cs.length ∧ t.pcnt = s.pcnt ∧
        t.upos.toNat = s.upos.toNat + (cs.flatMap Prod.snd).length + e.length ∧
        (Store.get? t.node t.cur.toNat).map (fun nd => (nd.leaf, nd.sym)) = some (true, 256#9) ∧
        t = { s with
              upos := t.upos, cur := t.cur, pacc := t.pacc, pcnt := t.pcnt, obuf := t.obuf, outLen := t.outLen
              done := true } ∧
        ObufAppended s t) ∧
    (∀ (x : Nat) (p rest : List Bool), s.oclosed = true → (x, p) ∈ tr.codes → x ≠ 256 → p ≠ [] →
      s.restBits = p ++ rest → BitsReadable s s.upos.toNat p.length →
      ∃ c, exec .decode s = .next (faultEntry .contract { s with upos := read p.length, cur := c, done := false }) ∧
        (Store.get? s.node c.toNat).map (fun nd => (nd.leaf, nd.sym.toNat)) = some (true, x)) ∧
    (∀ (p : Nat × List Bool) (q rest : List Bool) (b : Bool), p ∈ tr.codes → q <+: p.2 → q ≠ p.2 →
      s.restBits = (cs.flatMap Prod.snd) ++ q ++ b :: rest →
      BitsReadable s s.upos.toNat ((cs.flatMap Prod.snd) ++ q).length →
      (s.upos.toNat + ((cs.flatMap Prod.snd) ++ q).length) / 8 ∈ s.params.inErr →
      (s.oclosed = false ∨ cs = []) → Room s (8 * cs.length) →
      ∃ t m, exec .decode s = .next t ∧ t = faultEntry .io m ∧
        m = { s with
              upos := read ((cs.flatMap Prod.snd) ++ q).length, cur := m.cur
              pacc := m.pacc, pcnt := m.pcnt, obuf := m.obuf, outLen := m.outLen, done := false } ∧
        m.outBits = s.outBits ++ cs.flatMap (fun c => bitsN 8 c.1) ∧ ObufAppended s m ∧
        (Store.get? s.node m.cur.toNat).map (fun nd => nd.leaf) = some false) ∧
    (∀ (x : Nat) (p rest : List Bool), s.oclosed = false → (x, p) ∈ tr.codes → x ≠ 256 → p ≠ [] →
      s.restBits = (cs.flatMap Prod.snd) ++ p ++ rest →
      BitsReadable s s.upos.toNat ((cs.flatMap Prod.snd) ++ p).length →
      WriteBlocked s cs.length (8 * (cs.length + 1)) →
      ∃ t, exec .decode s = .next t ∧
        t = { s with upos := read ((cs.flatMap Prod.snd) ++ p).length, cur := t.cur }.lostOutput t ∧
        OutputCut s t cs.length ((cs ++ [(x, p)]).flatMap (fun c => bitsN 8 c.1)) ∧
        (Store.get? s.node t.cur.toNat).map (fun nd => (nd.leaf, nd.sym.toNat)) = some (true, x))

/-- R182 (43_stream.md): a DECODE that completes has read codes of symbols and then a code of 256, and nothing after it;
`UPOS` is right after that terminator, `CUR` the index of an end-of-stream leaf, `PCNT` what it was, `OUT_LEN` grew by the
number of symbols, which are the bytes appended. -/
def Obligations.CompletedDecodeReadTerminator : Prop :=
  ∀ (s t : State) (tr : Tree), Ready s → HoldsTree s tr → PackerOk s → s.params.Ok → LengthsOk s →
    exec .decode s = .next t → t.sstate = .idle →
    ∃ (cs : List (Nat × List Bool)) (e rest : List Bool),
      (∀ c ∈ cs, c ∈ tr.codes ∧ c.1 ≠ 256) ∧ (256, e) ∈ tr.codes ∧
      s.restBits = (cs.flatMap Prod.snd) ++ e ++ rest ∧
      t.upos.toNat = s.upos.toNat + (cs.flatMap Prod.snd).length + e.length ∧
      (Store.get? t.node t.cur.toNat).map (fun nd => (nd.leaf, nd.sym)) = some (true, 256#9) ∧
      t.pcnt = s.pcnt ∧ t.outLen.toNat = s.outLen.toNat + cs.length ∧
      t.outBits = s.outBits ++ cs.flatMap (fun c => bitsN 8 c.1)

/-- R175, R180, R202, R212 (43_stream.md, 60_exceptions.md): input that ends inside a code raises `E_TRUNCATED` at the
missing bit; the bytes emitted before are the decoding of the complete codes before the cut. -/
def Obligations.DecodeCutCodeIsTruncated : Prop :=
  ∀ (s : State) (tr : Tree) (cs : List (Nat × List Bool)) (p : Nat × List Bool) (q : List Bool),
    Ready s → Readable s → HoldsTree s tr → s.oclosed = false → s.pcnt = 0#3 → s.pacc = 0#8 →
    (∀ c ∈ cs, c ∈ tr.codes ∧ c.1 ≠ 256) → p ∈ tr.codes → q <+: p.2 → q ≠ p.2 →
    s.restBits = (cs.flatMap Prod.snd) ++ q → Room s (8 * cs.length) →
    ∃ t, exec .decode s = .next t ∧ t.sstate = .fault ∧ t.errCode = 2#3 ∧
      t.upos.toNat = s.upos.toNat + s.restBits.length ∧
      t.output = s.output ++ cs.map (fun c => BitVec.ofNat 8 c.1) ∧ ObufAppended s t

/-- R176 (43_stream.md): a root that is the end-of-stream leaf ends DECODE with no bit read and no byte written; a root
that is another leaf raises `E_MALFORMED` before the loop. -/
def Obligations.DecodeAtLeafRoot : Prop :=
  ∀ (s : State) (sym : Nat), Ready s → HoldsTree s (.leaf sym) →
    (sym = 256 → exec .decode s = .next { s with cur := s.root, done := true }) ∧
    (sym ≠ 256 → exec .decode s = .next (faultEntry .malformed { s with done := false }))

/-! ## Faults -/

/-- R192, R206, R214 (44_system.md, 60_exceptions.md): a command that needs a flag and finds it 0 raises `E_CONTRACT`
before it reads or writes anything else (`STK` and `SP` aside). What `STK` and `SP` hold is free (log 6). -/
def Obligations.MissingFlagsRaiseContract : Prop :=
  ∀ (s : State), Ready s →
    (s.treeValid = false → ∀ i ∈ [Instr.ctgen, .hdrw, .decode],
      ∃ t, exec i s = .next t ∧ t.visible = (faultEntry .contract { s with done := false }).visible) ∧
    (s.codeValid = false → exec .encode s = .next (faultEntry .contract { s with done := false }))

/-- R210, R200 (60_exceptions.md): fault entry records the kind's code, pads and appends the pending bits where a byte
can be written and drops them where not, closes the output and enters `S_FAULT`. -/
def Obligations.FaultEntryRecordsAndCloses : Prop :=
  (∀ (k : FaultKind) (s : State),
    (s.oclosed = true → faultEntry k s =
      { s with errCode := k.code, err := true, done := false, sstate := .fault }) ∧
    (s.oclosed = false → s.pcnt = 0#3 → faultEntry k s =
      { s with oclosed := true, errCode := k.code, err := true, done := false, sstate := .fault }) ∧
    (s.oclosed = false → s.pcnt ≠ 0#3 → s.outLen.toNat ≠ s.params.obufCap →
      s.outLen.toNat ∉ s.params.outErr → faultEntry k s =
      { s with
        obuf := s.obuf.write s.outLen.toNat (s.pacc <<< (8 - s.pcnt.toNat)), outLen := s.outLen + 1#29
        pacc := 0#8, pcnt := 0#3, oclosed := true
        errCode := k.code, err := true, done := false, sstate := .fault }) ∧
    (s.oclosed = false → s.pcnt ≠ 0#3 →
      (s.outLen.toNat = s.params.obufCap ∨ s.outLen.toNat ∈ s.params.outErr) → faultEntry k s =
      { s with
        pacc := 0#8, pcnt := 0#3, oclosed := true
        errCode := k.code, err := true, done := false, sstate := .fault })) ∧
  FaultKind.badMagic.code = 1#3 ∧ FaultKind.truncated.code = 2#3 ∧ FaultKind.io.code = 3#3 ∧
  FaultKind.malformed.code = 4#3 ∧ FaultKind.contract.code = 5#3 ∧ FaultKind.overflow.code = 6#3 ∧
  FaultKind.illCmd.code = 7#3

/-- R209 (60_exceptions.md): a legal command raises only the kinds of its row, and DECOMPRESS only those of R194. -/
def Obligations.FaultKindsPerCommand : Prop :=
  (∀ (i : Instr) (s t : State), i.context = .command → i.wf = true → Ready s →
    exec i s = .next t → t.sstate = .fault → ∃ k ∈ raisable i, t.errCode = k.code) ∧
  (∀ (s t : State), Inv s → exec .decompress s = .next t → t.sstate = .fault →
    ∃ k ∈ raisable .decompress, t.errCode = k.code)

/-- R34, R210, R211, R213 (10_state.md, 60_exceptions.md): every fault leaves `ERR` = 1, `DONE` = 0, a code other than 0, the
output closed and nothing pending; the builders leave their valid flags 0. A command that faults has written only what
its row of R37 lists and what fault entry writes: `ROOT` keeps its value in the builders, `RDATA`, `EOS` and `UPOS` in
RDBITS, and a command that writes no output leaves the output as fault entry does. -/
def Obligations.FaultsCloseAndInvalidate : Prop :=
  ∀ (i : Instr) (s t : State), i.context = .command → Inv s → Ready s →
    exec i s = .next t → t.sstate = .fault →
    t.err = true ∧ t.done = false ∧ t.errCode ≠ 0#3 ∧ t.oclosed = true ∧ t.pcnt = 0#3 ∧
    ((i = .tbuild ∨ i = .hdrr) → t.treeValid = false ∧ t.codeValid = false) ∧
    (i = .ctgen → t.codeValid = false) ∧
    t = faultFrameOf i s t ∧
    ((i = .tbuild ∨ i = .hdrr) → t.root = s.root) ∧
    (i = .ctgen → t.code = s.code) ∧
    (∀ n, i = .rdbits n → t.rdata = s.rdata ∧ t.eos = s.eos ∧ t.upos = s.upos) ∧
    ((i = .fcount ∨ i = .tbuild ∨ i = .ctgen ∨ i = .hdrr ∨ ∃ n, i = .rdbits n) →
      t.obuf = s.closeQuietly.obuf ∧ t.outLen = s.closeQuietly.outLen)

/-! ## Frames and invariants -/

/-- R37 (10_state.md): a command that completes has written only what its row lists. -/
def Obligations.CommandsWriteOnlyListedState : Prop :=
  ∀ (i : Instr) (s t : State), i.context = .command → Ready s → exec i s = .next t → t.sstate = .idle →
    t = frameOf i s t

/-- R52, R53, R28, R211 (20_memory.md, 10_state.md): no instruction, completing or faulting, changes `IBUF`, `IN_LEN`,
`WDATA` or the parameters; none but INIT takes back a byte of the output. -/
def Obligations.InputKeptOutputAppended : Prop :=
  (∀ (i : Instr) (s t : State), exec i s = .next t →
    t.ibuf = s.ibuf ∧ t.inLen = s.inLen ∧ t.wdata = s.wdata ∧ t.params = s.params) ∧
  (∀ (i : Instr) (s t : State), i ≠ .init → i ≠ .compress → i ≠ .decompress →
    Inv s → exec i s = .next t → ObufAppended s t)

/-- R36, R118, R115 (10_state.md, 40_bitio.md): once the output stream is closed no instruction but INIT opens it or adds to
it. -/
def Obligations.ClosedOutputStaysClosed : Prop :=
  ∀ (i : Instr) (s t : State), i ≠ .init → i ≠ .compress → i ≠ .decompress → s.oclosed = true →
    exec i s = .next t →
    t.oclosed = true ∧ t.obuf = s.obuf ∧ t.outLen = s.outLen ∧ t.pacc = s.pacc ∧ t.pcnt = s.pcnt

/-- R42 (10_state.md): every step from a state that meets the invariant ends in one that meets it. The steps are those
of the model's queue (log 8). -/
def Obligations.StepKeepsInvariant : Prop :=
  ∀ (s t : State), Inv s → step s = .next t → Inv t

/-- R11, R64, R68 (00_scope.md, 20_memory.md): from a state that meets the invariant a step always answers a next state:
no command runs into a missing node, an endless walk or a loop bound. The stops are the model's (log 15). -/
def Obligations.InvariantStatesNeverStop : Prop :=
  ∀ (s : State), Inv s → ∃ t, step s = .next t

/-! ## Host port -/

/-- R28, R41, R51 (10_state.md, 20_memory.md): what a host write other than a command changes, and that every other
write changes nothing. That `IN_LEN` compares all 32 bits written (log 16) and that a byte written at or beyond `IBUF_CAP`
is not performed (log 17) are the model's readings. -/
def Obligations.HostWritesOnlyGrantedState : Prop :=
  ∀ (s : State) (v : Word),
    (hostWrite .word 0x10 v s =
      if v.toNat ≤ s.params.ibufCap then { s with inLen := v.setWidth 29 } else s) ∧
    (hostWrite .word 0x20 v s = { s with wdata := v }) ∧
    (∀ i, i ≤ 256 →
      { hostWrite .word (0x400 + 4 * i) v s with freq := s.freq } = s ∧
      ∀ j, (hostWrite .word (0x400 + 4 * i) v s).freqAt j = if j = i then v else s.freqAt j) ∧
    (∀ i, i < s.params.ibufCap → s.params.Ok →
      { hostWrite .byte (0x10000000 + i) v s with ibuf := s.ibuf } = s ∧
      ∀ j, (hostWrite .byte (0x10000000 + i) v s).ibuf.read j =
        if j = i then v.setWidth 8 else s.ibuf.read j) ∧
    (∀ size off,
      ¬(size = .word ∧ (off = 0x10 ∨ off = 0x20 ∨ (off % 4 = 0 ∧ 0x400 ≤ off ∧ off ≤ 0x400 + 4 * 256))) →
      ¬(size = .byte ∧ 0x10000000 ≤ off ∧ off < 0x10000000 + s.params.ibufCap) →
      hostWrite size off v s = s)

/-- R30, R33, R41, R51, R59, R74 (10_state.md, 20_memory.md): the host reads each register at its offset, `STATUS` and
`PSTATE` with their fields in place, a reserved offset as 0, the entries of `FREQ`, `NODE`, `PQ`, `CODE`, `IBUF` and `OBUF`
through their windows where R74 defines them, and a read changes nothing in HTB. `BUSY` as a view of `SSTATE`, windows that
end at the capacities and the one entry of `PQ` that is defined are the model's readings (logs 9, 17, 18). -/
def Obligations.HostReadsRegisterMap : Prop :=
  ∀ (s : State), s.busy = false →
    (∀ size off, hostRead size off s =
      { s with hostData := (hostRead size off s).hostData, freeCtr := (hostRead size off s).freeCtr }) ∧
    (∀ k, (hostRead .word 0x04 s).hostData.getLsbD k =
      ([false, s.done, s.err, s.eos, s.treeValid, s.codeValid, s.oclosed][k]?).getD false) ∧
    (hostRead .word 0x1C s).hostData.toNat = s.pacc.toNat + 256 * s.pcnt.toNat ∧
    (∀ off v, (off, v) ∈
      [(0x00, 0), (0x08, s.errCode.toNat), (0x0C, 0x48544201), (0x10, s.inLen.toNat), (0x14, s.upos.toNat),
       (0x18, s.outLen.toNat), (0x20, s.wdata.toNat), (0x24, s.rdata.toNat), (0x28, s.root.toNat),
       (0x2C, s.nnodes.toNat), (0x30, s.cur.toNat), (0x34, s.seq.toNat), (0x38, s.pqLen.toNat)] →
      (hostRead .word off s).hostData.toNat = v) ∧
    (∀ off, 0x3C ≤ off → off ≤ 0x3FC → off % 4 = 0 → (hostRead .word off s).hostData = 0#32) ∧
    (∀ i, i ≤ 256 → (hostRead .word (0x400 + 4 * i) s).hostData = s.freqAt i) ∧
    (∀ i nd, s.treeValid = true → i < s.nnodes.toNat → i ≤ 512 → Store.get? s.node i = some nd →
      (hostRead .word (0x1000 + 8 * i) s).hostData = nd.weight ∧
      (hostRead .word (0x1000 + 8 * i + 4) s).hostData.toNat =
        nd.leaf.toNat * 2 ^ 31 + nd.sym.toNat * 2 ^ 20 + nd.left.toNat * 2 ^ 10 + nd.right.toNat) ∧
    (∀ e rest, s.pqLen = 1#9 → s.errCode ≠ FaultKind.overflow.code → s.pq = e :: rest →
      (hostRead .word 0x3000 s).hostData = e.weight ∧
      (hostRead .word 0x3004 s).hostData.toNat = e.seq.toNat * 2 ^ 10 + e.node.toNat) ∧
    (∀ i, s.codeValid = true → i ≤ 256 →
      (hostRead .word (0x4000 + 64 * i) s).hostData.toNat =
        (codeAt s.code i).valid.toNat * 2 ^ 31 + (codeAt s.code i).len.toNat ∧
      (∀ k, 1 ≤ k → k ≤ 8 → (hostRead .word (0x4000 + 64 * i + 4 * k) s).hostData =
        (codeAt s.code i).val.extractLsb' (32 * (k - 1)) 32) ∧
      ∀ k, 9 ≤ k → k ≤ 15 → (hostRead .word (0x4000 + 64 * i + 4 * k) s).hostData = 0#32) ∧
    (∀ i, s.params.Ok → i < s.params.ibufCap →
      (hostRead .byte (0x10000000 + i) s).hostData = (s.ibuf.read i).setWidth 32) ∧
    (∀ i, s.params.Ok → i < s.params.obufCap → i < s.outLen.toNat →
      (hostRead .byte (0x20000000 + i) s).hostData = (s.obuf.read i).setWidth 32)

/-! ## Tokens -/

/-- R93, R158, R88, R89, R91, R164: what each stream token does once its bits are consumed (the model's reading of a
token as an instruction, log 11): the branch tokens move `CUR`, the magic value is compared, a tree token allocates the
next node in preorder, an internal one waiting on the stack, a leaf attached to it. -/
def Obligations.TokensActOnUnits : Prop :=
  ∀ (s : State),
    (∀ nd, Store.get? s.node s.cur.toNat = some nd → nd.leaf = false →
      exec .bLeft s = .next { s with cur := nd.left } ∧ exec .bRight s = .next { s with cur := nd.right }) ∧
    (exec (.magic s.params.magic) s = .next s) ∧
    (∀ m, m ≠ s.params.magic → exec (.magic m) s = .next (faultEntry .badMagic s)) ∧
    (s.nnodes.toNat ≠ 513 → exec .tInternal s = .next
      { s with
        nnodes := s.nnodes + 1#10
        stk := (s.nnodes, false) :: s.stkLive, sp := BitVec.ofNat 10 (s.stkLive.length + 1) }) ∧
    (∀ v : Symbol, s.nnodes.toNat ≠ 513 → v.toNat ≤ 256 →
      exec (.tLeaf v) s = .next (attach s.stkLive s.nnodes
        { s with
          nnodes := s.nnodes + 1#10, node := Store.put s.node s.nnodes.toNat (leafNode v 0#32) })) ∧
    (∀ v : Symbol, s.nnodes.toNat ≠ 513 → 256 < v.toNat →
      exec (.tLeaf v) s = .next (faultEntry .malformed { s with nnodes := s.nnodes + 1#10 })) ∧
    (∀ v : Symbol, s.nnodes.toNat = 513 →
      exec .tInternal s = .next (faultEntry .malformed s) ∧
      exec (.tLeaf v) s = .next (faultEntry .malformed s))

/-! ## Whole operations -/

/-- R98, R193, R194 (30_encoding.md, 44_system.md): COMPRESS and DECOMPRESS are their command sequences: the steps that
run the words one by one end where the one step of the pseudo-instruction ends. The one step is the model's choice
(log 13). -/
def Obligations.PseudosAreTheirSequences : Prop :=
  ∀ (s : State), s.busy = false →
    (Host.Core.run core 8
      { s with hostOps := compressWords.map (HostOp.write .word 0) ++ s.hostOps } = exec .compress s) ∧
    (Host.Core.run core 4
      { s with hostOps := decompressWords.map (HostOp.write .word 0) ++ s.hostOps } = exec .decompress s)

/-- R86, R94, R193, R203, R212 (30_encoding.md, 44_system.md, 60_exceptions.md): on any input, with no access error, let B
be the magic value, the serialized tree of the counted symbols, the codes of the input and the terminator once. Where B
padded to bytes fits in `OBUF`, COMPRESS completes and its output is B and 0 to 7 zero bits (memory for codes of 256 bits
each is enough); where it does not fit, it ends in `E_IO` with `OBUF` full of the first bits of B. COMPRESS as one step is
the model's choice (log 13). -/
def Obligations.CompressWritesStream : Prop :=
  ∀ (s : State) (bytes : List Byte), Inv s → bytes.length ≤ s.params.ibufCap →
    s.params.inErr = [] → s.params.outErr = [] →
    ∃ t tr, exec .compress (s.loadInput bytes) = .next t ∧
      HoldsTree t tr ∧ tr.symbols.Nodup ∧ (∀ x, x ∈ tr.symbols ↔ x = 256 ∨ ∃ b ∈ bytes, b.toNat = x) ∧
      t.pcnt = 0#3 ∧
      ∃ bits, bits = bitsN 32 s.params.magic.toNat ++ tr.ser ++
          (bytes.map BitVec.toNat ++ [256]).flatMap (fun x => (tr.codeOf x).getD []) ∧
        ((bits.length + 7) / 8 ≤ s.params.obufCap →
          t.done = true ∧ t.err = false ∧
          ∃ pad, pad < 8 ∧ t.outBits = bits ++ List.replicate pad false) ∧
        (s.params.obufCap < (bits.length + 7) / 8 →
          t.done = false ∧ t.err = true ∧ t.errCode = 3#3 ∧ t.outLen.toNat = s.params.obufCap ∧
          t.outBits = bits.take (8 * s.params.obufCap)) ∧
        (358 + 32 * (bytes.length + 1) ≤ s.params.obufCap → t.done = true ∧ t.err = false)

/-- R193 (44_system.md): with no access error the only fault COMPRESS can end in is `E_IO` for want of room. COMPRESS as
one step is the model's choice (log 13). -/
def Obligations.CompressFaultsOnlyForRoom : Prop :=
  ∀ (s : State), Inv s → s.params.inErr = [] → s.params.outErr = [] →
    ∃ t, exec .compress s = .next t ∧
      ((t.done = true ∧ t.err = false) ∨ (t.errCode = 3#3 ∧ t.outLen.toNat = s.params.obufCap))

/-- R86, R94, R194 (30_encoding.md, 44_system.md): on a compressed stream, whoever wrote it and whatever follows its
terminator, DECOMPRESS completes with the symbols it encodes. DECOMPRESS as one step is the model's choice (log 13). -/
def Obligations.DecompressReadsStream : Prop :=
  ∀ (s : State) (tr : Tree) (cs : List (Nat × List Bool)) (e rest : List Bool),
    Inv s → s.params.inErr = [] → s.params.outErr = [] →
    tr.size ≤ 513 → (∀ x ∈ tr.symbols, x ≤ 256) →
    (∀ c ∈ cs, c ∈ tr.codes ∧ c.1 ≠ 256) → (256, e) ∈ tr.codes →
    s.inBits = bitsN 32 s.params.magic.toNat ++ tr.ser ++ (cs.flatMap Prod.snd) ++ e ++ rest →
    cs.length ≤ s.params.obufCap →
    ∃ t, exec .decompress s = .next t ∧ t.done = true ∧ t.err = false ∧
      t.output = cs.map (fun c => BitVec.ofNat 8 c.1) ∧ t.tree = some tr

/-- R181 (43_stream.md): for every byte sequence S, decompressing what COMPRESS made of S gives S back. The operations
as one step each are the model's choice (log 13). -/
def Obligations.RoundTripGivesInputBack : Prop :=
  ∀ (s t : State) (bytes : List Byte), Inv s → bytes.length ≤ s.params.ibufCap →
    s.params.inErr = [] → s.params.outErr = [] → bytes.length ≤ s.params.obufCap →
    exec .compress (s.loadInput bytes) = .next t → t.err = false → t.outLen.toNat ≤ s.params.ibufCap →
    ∃ u, exec .decompress t.copyOutputToInput = .next u ∧ u.err = false ∧ u.done = true ∧ u.output = bytes

/-- S2, R95, R141 (95_test_vectors.md, 30_encoding.md): the empty input compresses to the four bytes of `MAGIC` and `C0
00`, whatever `MAGIC` is. COMPRESS as one step is the model's choice (log 13). -/
def Obligations.EmptyInputCompresses : Prop :=
  ∀ (s : State), Inv s → s.inLen = 0#29 → s.params.outErr = [] → 6 ≤ s.params.obufCap →
    ∃ t, exec .compress s = .next t ∧ t.done = true ∧ t.err = false ∧
      t.tree = some (.leaf 256) ∧
      t.output = [s.params.magic.extractLsb' 24 8, s.params.magic.extractLsb' 16 8,
        s.params.magic.extractLsb' 8 8, s.params.magic.extractLsb' 0 8, 0xC0#8, 0x00#8]

/-- R96 (30_encoding.md): given `MAGIC`, the compressed stream is a function of the input bytes alone. COMPRESS as one
step is the model's choice (log 13). -/
def Obligations.StreamDependsOnInputOnly : Prop :=
  ∀ (s s' t t' : State), Inv s → Inv s' → s.params.magic = s'.params.magic → s.input = s'.input →
    exec .compress s = .next t → exec .compress s' = .next t' → t.err = false → t'.err = false →
    t.output = t'.output

/-! ## Phase machines -/

/-- R113, R116 (40_bitio.md): the state machines of UNPACK and PACK end where RDBITS and WRBITS end. Phase machines
beside the one transition of a command are the model's choice (log 14). -/
def Obligations.BitUnitPhasesEndAsCommands : Prop :=
  ∀ (s : State) (n : BitVec 6), Ready s → countOk n = true →
    ∀ i ∈ [Instr.rdbits n, .wrbits n],
      ∃ s₀ k, startPhases i s = some s₀ ∧ runPhases k s₀ = exec i s

/-- R140, R178, R164 (41_tree_builder.md, 43_stream.md, 42_codes_header.md): the state machines of TB and DEC end where
TBUILD and DECODE end, and HDRR run token by token on the explicit stack ends where the recursive HDRR ends (`STK`,
`SP` aside). Phase machines beside the one transition of a command, and the phases of HDRR, are the model's choice
(log 14). -/
def Obligations.TreeUnitPhasesEndAsCommands : Prop :=
  ∀ (s : State), Ready s →
    (∀ i ∈ [Instr.tbuild, .decode], ∃ s₀ k, startPhases i s = some s₀ ∧ runPhases k s₀ = exec i s) ∧
    (∃ s₀ k t u, startPhases .hdrr s = some s₀ ∧ runPhases k s₀ = .next t ∧ exec .hdrr s = .next u ∧
      t.visible = u.visible)
end

