-- ==== Sys2Proof/Laws/State.lean ====
section
/-! SUPPORT. What each update of the state does to each field, one lemma a field, for `simp`. -/

namespace Sys2Proof.Machine

variable (s : State)

/-! Flags: R34 acceptance. -/

@[simp] theorem State.begin_sstate : s.begin.sstate = s.sstate := rfl
@[simp] theorem State.begin_done : s.begin.done = false := rfl
@[simp] theorem State.begin_err : s.begin.err = s.err := rfl
@[simp] theorem State.begin_eos : s.begin.eos = s.eos := rfl
@[simp] theorem State.begin_treeValid : s.begin.treeValid = s.treeValid := rfl
@[simp] theorem State.begin_codeValid : s.begin.codeValid = s.codeValid := rfl
@[simp] theorem State.begin_oclosed : s.begin.oclosed = s.oclosed := rfl
@[simp] theorem State.begin_errCode : s.begin.errCode = s.errCode := rfl
@[simp] theorem State.begin_inLen : s.begin.inLen = s.inLen := rfl
@[simp] theorem State.begin_upos : s.begin.upos = s.upos := rfl
@[simp] theorem State.begin_outLen : s.begin.outLen = s.outLen := rfl
@[simp] theorem State.begin_pacc : s.begin.pacc = s.pacc := rfl
@[simp] theorem State.begin_pcnt : s.begin.pcnt = s.pcnt := rfl
@[simp] theorem State.begin_wdata : s.begin.wdata = s.wdata := rfl
@[simp] theorem State.begin_rdata : s.begin.rdata = s.rdata := rfl
@[simp] theorem State.begin_root : s.begin.root = s.root := rfl
@[simp] theorem State.begin_nnodes : s.begin.nnodes = s.nnodes := rfl
@[simp] theorem State.begin_cur : s.begin.cur = s.cur := rfl
@[simp] theorem State.begin_seq : s.begin.seq = s.seq := rfl
@[simp] theorem State.begin_pqLen : s.begin.pqLen = s.pqLen := rfl
@[simp] theorem State.begin_sp : s.begin.sp = s.sp := rfl
@[simp] theorem State.begin_ibuf : s.begin.ibuf = s.ibuf := rfl
@[simp] theorem State.begin_obuf : s.begin.obuf = s.obuf := rfl
@[simp] theorem State.begin_freq : s.begin.freq = s.freq := rfl
@[simp] theorem State.begin_node : s.begin.node = s.node := rfl
@[simp] theorem State.begin_pq : s.begin.pq = s.pq := rfl
@[simp] theorem State.begin_code : s.begin.code = s.code := rfl
@[simp] theorem State.begin_stk : s.begin.stk = s.stk := rfl
@[simp] theorem State.begin_params : s.begin.params = s.params := rfl
@[simp] theorem State.begin_hostOps : s.begin.hostOps = s.hostOps := rfl
@[simp] theorem State.begin_hostData : s.begin.hostData = s.hostData := rfl
@[simp] theorem State.begin_freeCtr : s.begin.freeCtr = s.freeCtr := rfl

/-! Flags: R34 completion. -/

@[simp] theorem State.complete_sstate : s.complete.sstate = .idle := rfl
@[simp] theorem State.complete_done : s.complete.done = true := rfl
@[simp] theorem State.complete_err : s.complete.err = s.err := rfl
@[simp] theorem State.complete_eos : s.complete.eos = s.eos := rfl
@[simp] theorem State.complete_treeValid : s.complete.treeValid = s.treeValid := rfl
@[simp] theorem State.complete_codeValid : s.complete.codeValid = s.codeValid := rfl
@[simp] theorem State.complete_oclosed : s.complete.oclosed = s.oclosed := rfl
@[simp] theorem State.complete_errCode : s.complete.errCode = s.errCode := rfl
@[simp] theorem State.complete_inLen : s.complete.inLen = s.inLen := rfl
@[simp] theorem State.complete_upos : s.complete.upos = s.upos := rfl
@[simp] theorem State.complete_outLen : s.complete.outLen = s.outLen := rfl
@[simp] theorem State.complete_pacc : s.complete.pacc = s.pacc := rfl
@[simp] theorem State.complete_pcnt : s.complete.pcnt = s.pcnt := rfl
@[simp] theorem State.complete_wdata : s.complete.wdata = s.wdata := rfl
@[simp] theorem State.complete_rdata : s.complete.rdata = s.rdata := rfl
@[simp] theorem State.complete_root : s.complete.root = s.root := rfl
@[simp] theorem State.complete_nnodes : s.complete.nnodes = s.nnodes := rfl
@[simp] theorem State.complete_cur : s.complete.cur = s.cur := rfl
@[simp] theorem State.complete_seq : s.complete.seq = s.seq := rfl
@[simp] theorem State.complete_pqLen : s.complete.pqLen = s.pqLen := rfl
@[simp] theorem State.complete_sp : s.complete.sp = s.sp := rfl
@[simp] theorem State.complete_ibuf : s.complete.ibuf = s.ibuf := rfl
@[simp] theorem State.complete_obuf : s.complete.obuf = s.obuf := rfl
@[simp] theorem State.complete_freq : s.complete.freq = s.freq := rfl
@[simp] theorem State.complete_node : s.complete.node = s.node := rfl
@[simp] theorem State.complete_pq : s.complete.pq = s.pq := rfl
@[simp] theorem State.complete_code : s.complete.code = s.code := rfl
@[simp] theorem State.complete_stk : s.complete.stk = s.stk := rfl
@[simp] theorem State.complete_params : s.complete.params = s.params := rfl
@[simp] theorem State.complete_hostOps : s.complete.hostOps = s.hostOps := rfl
@[simp] theorem State.complete_hostData : s.complete.hostData = s.hostData := rfl
@[simp] theorem State.complete_freeCtr : s.complete.freeCtr = s.freeCtr := rfl

/-! Flags: R36. -/

@[simp] theorem State.clearValid_sstate : s.clearValid.sstate = s.sstate := rfl
@[simp] theorem State.clearValid_done : s.clearValid.done = s.done := rfl
@[simp] theorem State.clearValid_err : s.clearValid.err = s.err := rfl
@[simp] theorem State.clearValid_eos : s.clearValid.eos = s.eos := rfl
@[simp] theorem State.clearValid_treeValid : s.clearValid.treeValid = false := rfl
@[simp] theorem State.clearValid_codeValid : s.clearValid.codeValid = false := rfl
@[simp] theorem State.clearValid_oclosed : s.clearValid.oclosed = s.oclosed := rfl
@[simp] theorem State.clearValid_errCode : s.clearValid.errCode = s.errCode := rfl
@[simp] theorem State.clearValid_inLen : s.clearValid.inLen = s.inLen := rfl
@[simp] theorem State.clearValid_upos : s.clearValid.upos = s.upos := rfl
@[simp] theorem State.clearValid_outLen : s.clearValid.outLen = s.outLen := rfl
@[simp] theorem State.clearValid_pacc : s.clearValid.pacc = s.pacc := rfl
@[simp] theorem State.clearValid_pcnt : s.clearValid.pcnt = s.pcnt := rfl
@[simp] theorem State.clearValid_wdata : s.clearValid.wdata = s.wdata := rfl
@[simp] theorem State.clearValid_rdata : s.clearValid.rdata = s.rdata := rfl
@[simp] theorem State.clearValid_root : s.clearValid.root = s.root := rfl
@[simp] theorem State.clearValid_nnodes : s.clearValid.nnodes = s.nnodes := rfl
@[simp] theorem State.clearValid_cur : s.clearValid.cur = s.cur := rfl
@[simp] theorem State.clearValid_seq : s.clearValid.seq = s.seq := rfl
@[simp] theorem State.clearValid_pqLen : s.clearValid.pqLen = s.pqLen := rfl
@[simp] theorem State.clearValid_sp : s.clearValid.sp = s.sp := rfl
@[simp] theorem State.clearValid_ibuf : s.clearValid.ibuf = s.ibuf := rfl
@[simp] theorem State.clearValid_obuf : s.clearValid.obuf = s.obuf := rfl
@[simp] theorem State.clearValid_freq : s.clearValid.freq = s.freq := rfl
@[simp] theorem State.clearValid_node : s.clearValid.node = s.node := rfl
@[simp] theorem State.clearValid_pq : s.clearValid.pq = s.pq := rfl
@[simp] theorem State.clearValid_code : s.clearValid.code = s.code := rfl
@[simp] theorem State.clearValid_stk : s.clearValid.stk = s.stk := rfl
@[simp] theorem State.clearValid_params : s.clearValid.params = s.params := rfl
@[simp] theorem State.clearValid_hostOps : s.clearValid.hostOps = s.hostOps := rfl
@[simp] theorem State.clearValid_hostData : s.clearValid.hostData = s.hostData := rfl
@[simp] theorem State.clearValid_freeCtr : s.clearValid.freeCtr = s.freeCtr := rfl

/-! Flags: R36. -/

@[simp] theorem State.setTree_sstate (r : NodeIdx) : (s.setTree r).sstate = s.sstate := rfl
@[simp] theorem State.setTree_done (r : NodeIdx) : (s.setTree r).done = s.done := rfl
@[simp] theorem State.setTree_err (r : NodeIdx) : (s.setTree r).err = s.err := rfl
@[simp] theorem State.setTree_eos (r : NodeIdx) : (s.setTree r).eos = s.eos := rfl
@[simp] theorem State.setTree_treeValid (r : NodeIdx) : (s.setTree r).treeValid = true := rfl
@[simp] theorem State.setTree_codeValid (r : NodeIdx) : (s.setTree r).codeValid = s.codeValid := rfl
@[simp] theorem State.setTree_oclosed (r : NodeIdx) : (s.setTree r).oclosed = s.oclosed := rfl
@[simp] theorem State.setTree_errCode (r : NodeIdx) : (s.setTree r).errCode = s.errCode := rfl
@[simp] theorem State.setTree_inLen (r : NodeIdx) : (s.setTree r).inLen = s.inLen := rfl
@[simp] theorem State.setTree_upos (r : NodeIdx) : (s.setTree r).upos = s.upos := rfl
@[simp] theorem State.setTree_outLen (r : NodeIdx) : (s.setTree r).outLen = s.outLen := rfl
@[simp] theorem State.setTree_pacc (r : NodeIdx) : (s.setTree r).pacc = s.pacc := rfl
@[simp] theorem State.setTree_pcnt (r : NodeIdx) : (s.setTree r).pcnt = s.pcnt := rfl
@[simp] theorem State.setTree_wdata (r : NodeIdx) : (s.setTree r).wdata = s.wdata := rfl
@[simp] theorem State.setTree_rdata (r : NodeIdx) : (s.setTree r).rdata = s.rdata := rfl
@[simp] theorem State.setTree_root (r : NodeIdx) : (s.setTree r).root = r := rfl
@[simp] theorem State.setTree_nnodes (r : NodeIdx) : (s.setTree r).nnodes = s.nnodes := rfl
@[simp] theorem State.setTree_cur (r : NodeIdx) : (s.setTree r).cur = s.cur := rfl
@[simp] theorem State.setTree_seq (r : NodeIdx) : (s.setTree r).seq = s.seq := rfl
@[simp] theorem State.setTree_pqLen (r : NodeIdx) : (s.setTree r).pqLen = s.pqLen := rfl
@[simp] theorem State.setTree_sp (r : NodeIdx) : (s.setTree r).sp = s.sp := rfl
@[simp] theorem State.setTree_ibuf (r : NodeIdx) : (s.setTree r).ibuf = s.ibuf := rfl
@[simp] theorem State.setTree_obuf (r : NodeIdx) : (s.setTree r).obuf = s.obuf := rfl
@[simp] theorem State.setTree_freq (r : NodeIdx) : (s.setTree r).freq = s.freq := rfl
@[simp] theorem State.setTree_node (r : NodeIdx) : (s.setTree r).node = s.node := rfl
@[simp] theorem State.setTree_pq (r : NodeIdx) : (s.setTree r).pq = s.pq := rfl
@[simp] theorem State.setTree_code (r : NodeIdx) : (s.setTree r).code = s.code := rfl
@[simp] theorem State.setTree_stk (r : NodeIdx) : (s.setTree r).stk = s.stk := rfl
@[simp] theorem State.setTree_params (r : NodeIdx) : (s.setTree r).params = s.params := rfl
@[simp] theorem State.setTree_hostOps (r : NodeIdx) : (s.setTree r).hostOps = s.hostOps := rfl
@[simp] theorem State.setTree_hostData (r : NodeIdx) : (s.setTree r).hostData = s.hostData := rfl
@[simp] theorem State.setTree_freeCtr (r : NodeIdx) : (s.setTree r).freeCtr = s.freeCtr := rfl

/-! Flags: R35. -/

@[simp] theorem State.setEos_sstate (b : Bool) : (s.setEos b).sstate = s.sstate := rfl
@[simp] theorem State.setEos_done (b : Bool) : (s.setEos b).done = s.done := rfl
@[simp] theorem State.setEos_err (b : Bool) : (s.setEos b).err = s.err := rfl
@[simp] theorem State.setEos_eos (b : Bool) : (s.setEos b).eos = b := rfl
@[simp] theorem State.setEos_treeValid (b : Bool) : (s.setEos b).treeValid = s.treeValid := rfl
@[simp] theorem State.setEos_codeValid (b : Bool) : (s.setEos b).codeValid = s.codeValid := rfl
@[simp] theorem State.setEos_oclosed (b : Bool) : (s.setEos b).oclosed = s.oclosed := rfl
@[simp] theorem State.setEos_errCode (b : Bool) : (s.setEos b).errCode = s.errCode := rfl
@[simp] theorem State.setEos_inLen (b : Bool) : (s.setEos b).inLen = s.inLen := rfl
@[simp] theorem State.setEos_upos (b : Bool) : (s.setEos b).upos = s.upos := rfl
@[simp] theorem State.setEos_outLen (b : Bool) : (s.setEos b).outLen = s.outLen := rfl
@[simp] theorem State.setEos_pacc (b : Bool) : (s.setEos b).pacc = s.pacc := rfl
@[simp] theorem State.setEos_pcnt (b : Bool) : (s.setEos b).pcnt = s.pcnt := rfl
@[simp] theorem State.setEos_wdata (b : Bool) : (s.setEos b).wdata = s.wdata := rfl
@[simp] theorem State.setEos_rdata (b : Bool) : (s.setEos b).rdata = s.rdata := rfl
@[simp] theorem State.setEos_root (b : Bool) : (s.setEos b).root = s.root := rfl
@[simp] theorem State.setEos_nnodes (b : Bool) : (s.setEos b).nnodes = s.nnodes := rfl
@[simp] theorem State.setEos_cur (b : Bool) : (s.setEos b).cur = s.cur := rfl
@[simp] theorem State.setEos_seq (b : Bool) : (s.setEos b).seq = s.seq := rfl
@[simp] theorem State.setEos_pqLen (b : Bool) : (s.setEos b).pqLen = s.pqLen := rfl
@[simp] theorem State.setEos_sp (b : Bool) : (s.setEos b).sp = s.sp := rfl
@[simp] theorem State.setEos_ibuf (b : Bool) : (s.setEos b).ibuf = s.ibuf := rfl
@[simp] theorem State.setEos_obuf (b : Bool) : (s.setEos b).obuf = s.obuf := rfl
@[simp] theorem State.setEos_freq (b : Bool) : (s.setEos b).freq = s.freq := rfl
@[simp] theorem State.setEos_node (b : Bool) : (s.setEos b).node = s.node := rfl
@[simp] theorem State.setEos_pq (b : Bool) : (s.setEos b).pq = s.pq := rfl
@[simp] theorem State.setEos_code (b : Bool) : (s.setEos b).code = s.code := rfl
@[simp] theorem State.setEos_stk (b : Bool) : (s.setEos b).stk = s.stk := rfl
@[simp] theorem State.setEos_params (b : Bool) : (s.setEos b).params = s.params := rfl
@[simp] theorem State.setEos_hostOps (b : Bool) : (s.setEos b).hostOps = s.hostOps := rfl
@[simp] theorem State.setEos_hostData (b : Bool) : (s.setEos b).hostData = s.hostData := rfl
@[simp] theorem State.setEos_freeCtr (b : Bool) : (s.setEos b).freeCtr = s.freeCtr := rfl

/-! Operands: R84. -/

@[simp] theorem State.putResult_sstate (v : Word) : (s.putResult v).sstate = s.sstate := rfl
@[simp] theorem State.putResult_done (v : Word) : (s.putResult v).done = s.done := rfl
@[simp] theorem State.putResult_err (v : Word) : (s.putResult v).err = s.err := rfl
@[simp] theorem State.putResult_eos (v : Word) : (s.putResult v).eos = s.eos := rfl
@[simp] theorem State.putResult_treeValid (v : Word) : (s.putResult v).treeValid = s.treeValid := rfl
@[simp] theorem State.putResult_codeValid (v : Word) : (s.putResult v).codeValid = s.codeValid := rfl
@[simp] theorem State.putResult_oclosed (v : Word) : (s.putResult v).oclosed = s.oclosed := rfl
@[simp] theorem State.putResult_errCode (v : Word) : (s.putResult v).errCode = s.errCode := rfl
@[simp] theorem State.putResult_inLen (v : Word) : (s.putResult v).inLen = s.inLen := rfl
@[simp] theorem State.putResult_upos (v : Word) : (s.putResult v).upos = s.upos := rfl
@[simp] theorem State.putResult_outLen (v : Word) : (s.putResult v).outLen = s.outLen := rfl
@[simp] theorem State.putResult_pacc (v : Word) : (s.putResult v).pacc = s.pacc := rfl
@[simp] theorem State.putResult_pcnt (v : Word) : (s.putResult v).pcnt = s.pcnt := rfl
@[simp] theorem State.putResult_wdata (v : Word) : (s.putResult v).wdata = s.wdata := rfl
@[simp] theorem State.putResult_rdata (v : Word) : (s.putResult v).rdata = v := rfl
@[simp] theorem State.putResult_root (v : Word) : (s.putResult v).root = s.root := rfl
@[simp] theorem State.putResult_nnodes (v : Word) : (s.putResult v).nnodes = s.nnodes := rfl
@[simp] theorem State.putResult_cur (v : Word) : (s.putResult v).cur = s.cur := rfl
@[simp] theorem State.putResult_seq (v : Word) : (s.putResult v).seq = s.seq := rfl
@[simp] theorem State.putResult_pqLen (v : Word) : (s.putResult v).pqLen = s.pqLen := rfl
@[simp] theorem State.putResult_sp (v : Word) : (s.putResult v).sp = s.sp := rfl
@[simp] theorem State.putResult_ibuf (v : Word) : (s.putResult v).ibuf = s.ibuf := rfl
@[simp] theorem State.putResult_obuf (v : Word) : (s.putResult v).obuf = s.obuf := rfl
@[simp] theorem State.putResult_freq (v : Word) : (s.putResult v).freq = s.freq := rfl
@[simp] theorem State.putResult_node (v : Word) : (s.putResult v).node = s.node := rfl
@[simp] theorem State.putResult_pq (v : Word) : (s.putResult v).pq = s.pq := rfl
@[simp] theorem State.putResult_code (v : Word) : (s.putResult v).code = s.code := rfl
@[simp] theorem State.putResult_stk (v : Word) : (s.putResult v).stk = s.stk := rfl
@[simp] theorem State.putResult_params (v : Word) : (s.putResult v).params = s.params := rfl
@[simp] theorem State.putResult_hostOps (v : Word) : (s.putResult v).hostOps = s.hostOps := rfl
@[simp] theorem State.putResult_hostData (v : Word) : (s.putResult v).hostData = s.hostData := rfl
@[simp] theorem State.putResult_freeCtr (v : Word) : (s.putResult v).freeCtr = s.freeCtr := rfl

/-! Ops: R24. -/

@[simp] theorem State.advance_sstate (n : Nat) : (s.advance n).sstate = s.sstate := rfl
@[simp] theorem State.advance_done (n : Nat) : (s.advance n).done = s.done := rfl
@[simp] theorem State.advance_err (n : Nat) : (s.advance n).err = s.err := rfl
@[simp] theorem State.advance_eos (n : Nat) : (s.advance n).eos = s.eos := rfl
@[simp] theorem State.advance_treeValid (n : Nat) : (s.advance n).treeValid = s.treeValid := rfl
@[simp] theorem State.advance_codeValid (n : Nat) : (s.advance n).codeValid = s.codeValid := rfl
@[simp] theorem State.advance_oclosed (n : Nat) : (s.advance n).oclosed = s.oclosed := rfl
@[simp] theorem State.advance_errCode (n : Nat) : (s.advance n).errCode = s.errCode := rfl
@[simp] theorem State.advance_inLen (n : Nat) : (s.advance n).inLen = s.inLen := rfl
@[simp] theorem State.advance_upos (n : Nat) : (s.advance n).upos = s.upos + BitVec.ofNat 32 n := rfl
@[simp] theorem State.advance_outLen (n : Nat) : (s.advance n).outLen = s.outLen := rfl
@[simp] theorem State.advance_pacc (n : Nat) : (s.advance n).pacc = s.pacc := rfl
@[simp] theorem State.advance_pcnt (n : Nat) : (s.advance n).pcnt = s.pcnt := rfl
@[simp] theorem State.advance_wdata (n : Nat) : (s.advance n).wdata = s.wdata := rfl
@[simp] theorem State.advance_rdata (n : Nat) : (s.advance n).rdata = s.rdata := rfl
@[simp] theorem State.advance_root (n : Nat) : (s.advance n).root = s.root := rfl
@[simp] theorem State.advance_nnodes (n : Nat) : (s.advance n).nnodes = s.nnodes := rfl
@[simp] theorem State.advance_cur (n : Nat) : (s.advance n).cur = s.cur := rfl
@[simp] theorem State.advance_seq (n : Nat) : (s.advance n).seq = s.seq := rfl
@[simp] theorem State.advance_pqLen (n : Nat) : (s.advance n).pqLen = s.pqLen := rfl
@[simp] theorem State.advance_sp (n : Nat) : (s.advance n).sp = s.sp := rfl
@[simp] theorem State.advance_ibuf (n : Nat) : (s.advance n).ibuf = s.ibuf := rfl
@[simp] theorem State.advance_obuf (n : Nat) : (s.advance n).obuf = s.obuf := rfl
@[simp] theorem State.advance_freq (n : Nat) : (s.advance n).freq = s.freq := rfl
@[simp] theorem State.advance_node (n : Nat) : (s.advance n).node = s.node := rfl
@[simp] theorem State.advance_pq (n : Nat) : (s.advance n).pq = s.pq := rfl
@[simp] theorem State.advance_code (n : Nat) : (s.advance n).code = s.code := rfl
@[simp] theorem State.advance_stk (n : Nat) : (s.advance n).stk = s.stk := rfl
@[simp] theorem State.advance_params (n : Nat) : (s.advance n).params = s.params := rfl
@[simp] theorem State.advance_hostOps (n : Nat) : (s.advance n).hostOps = s.hostOps := rfl
@[simp] theorem State.advance_hostData (n : Nat) : (s.advance n).hostData = s.hostData := rfl
@[simp] theorem State.advance_freeCtr (n : Nat) : (s.advance n).freeCtr = s.freeCtr := rfl

/-! Ops: R58. -/

@[simp] theorem State.append_sstate (b : Byte) : (s.append b).sstate = s.sstate := rfl
@[simp] theorem State.append_done (b : Byte) : (s.append b).done = s.done := rfl
@[simp] theorem State.append_err (b : Byte) : (s.append b).err = s.err := rfl
@[simp] theorem State.append_eos (b : Byte) : (s.append b).eos = s.eos := rfl
@[simp] theorem State.append_treeValid (b : Byte) : (s.append b).treeValid = s.treeValid := rfl
@[simp] theorem State.append_codeValid (b : Byte) : (s.append b).codeValid = s.codeValid := rfl
@[simp] theorem State.append_oclosed (b : Byte) : (s.append b).oclosed = s.oclosed := rfl
@[simp] theorem State.append_errCode (b : Byte) : (s.append b).errCode = s.errCode := rfl
@[simp] theorem State.append_inLen (b : Byte) : (s.append b).inLen = s.inLen := rfl
@[simp] theorem State.append_upos (b : Byte) : (s.append b).upos = s.upos := rfl
@[simp] theorem State.append_outLen (b : Byte) : (s.append b).outLen = s.outLen + 1#29 := rfl
@[simp] theorem State.append_pacc (b : Byte) : (s.append b).pacc = s.pacc := rfl
@[simp] theorem State.append_pcnt (b : Byte) : (s.append b).pcnt = s.pcnt := rfl
@[simp] theorem State.append_wdata (b : Byte) : (s.append b).wdata = s.wdata := rfl
@[simp] theorem State.append_rdata (b : Byte) : (s.append b).rdata = s.rdata := rfl
@[simp] theorem State.append_root (b : Byte) : (s.append b).root = s.root := rfl
@[simp] theorem State.append_nnodes (b : Byte) : (s.append b).nnodes = s.nnodes := rfl
@[simp] theorem State.append_cur (b : Byte) : (s.append b).cur = s.cur := rfl
@[simp] theorem State.append_seq (b : Byte) : (s.append b).seq = s.seq := rfl
@[simp] theorem State.append_pqLen (b : Byte) : (s.append b).pqLen = s.pqLen := rfl
@[simp] theorem State.append_sp (b : Byte) : (s.append b).sp = s.sp := rfl
@[simp] theorem State.append_ibuf (b : Byte) : (s.append b).ibuf = s.ibuf := rfl
@[simp] theorem State.append_obuf (b : Byte) : (s.append b).obuf = s.obuf.write s.outLen.toNat b := rfl
@[simp] theorem State.append_freq (b : Byte) : (s.append b).freq = s.freq := rfl
@[simp] theorem State.append_node (b : Byte) : (s.append b).node = s.node := rfl
@[simp] theorem State.append_pq (b : Byte) : (s.append b).pq = s.pq := rfl
@[simp] theorem State.append_code (b : Byte) : (s.append b).code = s.code := rfl
@[simp] theorem State.append_stk (b : Byte) : (s.append b).stk = s.stk := rfl
@[simp] theorem State.append_params (b : Byte) : (s.append b).params = s.params := rfl
@[simp] theorem State.append_hostOps (b : Byte) : (s.append b).hostOps = s.hostOps := rfl
@[simp] theorem State.append_hostData (b : Byte) : (s.append b).hostData = s.hostData := rfl
@[simp] theorem State.append_freeCtr (b : Byte) : (s.append b).freeCtr = s.freeCtr := rfl

/-! Ops: R115. -/

@[simp] theorem State.clearAcc_sstate : s.clearAcc.sstate = s.sstate := rfl
@[simp] theorem State.clearAcc_done : s.clearAcc.done = s.done := rfl
@[simp] theorem State.clearAcc_err : s.clearAcc.err = s.err := rfl
@[simp] theorem State.clearAcc_eos : s.clearAcc.eos = s.eos := rfl
@[simp] theorem State.clearAcc_treeValid : s.clearAcc.treeValid = s.treeValid := rfl
@[simp] theorem State.clearAcc_codeValid : s.clearAcc.codeValid = s.codeValid := rfl
@[simp] theorem State.clearAcc_oclosed : s.clearAcc.oclosed = s.oclosed := rfl
@[simp] theorem State.clearAcc_errCode : s.clearAcc.errCode = s.errCode := rfl
@[simp] theorem State.clearAcc_inLen : s.clearAcc.inLen = s.inLen := rfl
@[simp] theorem State.clearAcc_upos : s.clearAcc.upos = s.upos := rfl
@[simp] theorem State.clearAcc_outLen : s.clearAcc.outLen = s.outLen := rfl
@[simp] theorem State.clearAcc_pacc : s.clearAcc.pacc = 0#8 := rfl
@[simp] theorem State.clearAcc_pcnt : s.clearAcc.pcnt = 0#3 := rfl
@[simp] theorem State.clearAcc_wdata : s.clearAcc.wdata = s.wdata := rfl
@[simp] theorem State.clearAcc_rdata : s.clearAcc.rdata = s.rdata := rfl
@[simp] theorem State.clearAcc_root : s.clearAcc.root = s.root := rfl
@[simp] theorem State.clearAcc_nnodes : s.clearAcc.nnodes = s.nnodes := rfl
@[simp] theorem State.clearAcc_cur : s.clearAcc.cur = s.cur := rfl
@[simp] theorem State.clearAcc_seq : s.clearAcc.seq = s.seq := rfl
@[simp] theorem State.clearAcc_pqLen : s.clearAcc.pqLen = s.pqLen := rfl
@[simp] theorem State.clearAcc_sp : s.clearAcc.sp = s.sp := rfl
@[simp] theorem State.clearAcc_ibuf : s.clearAcc.ibuf = s.ibuf := rfl
@[simp] theorem State.clearAcc_obuf : s.clearAcc.obuf = s.obuf := rfl
@[simp] theorem State.clearAcc_freq : s.clearAcc.freq = s.freq := rfl
@[simp] theorem State.clearAcc_node : s.clearAcc.node = s.node := rfl
@[simp] theorem State.clearAcc_pq : s.clearAcc.pq = s.pq := rfl
@[simp] theorem State.clearAcc_code : s.clearAcc.code = s.code := rfl
@[simp] theorem State.clearAcc_stk : s.clearAcc.stk = s.stk := rfl
@[simp] theorem State.clearAcc_params : s.clearAcc.params = s.params := rfl
@[simp] theorem State.clearAcc_hostOps : s.clearAcc.hostOps = s.hostOps := rfl
@[simp] theorem State.clearAcc_hostData : s.clearAcc.hostData = s.hostData := rfl
@[simp] theorem State.clearAcc_freeCtr : s.clearAcc.freeCtr = s.freeCtr := rfl

/-! Ops: R115. -/

@[simp] theorem State.shiftAcc_sstate (b : Bool) : (s.shiftAcc b).sstate = s.sstate := rfl
@[simp] theorem State.shiftAcc_done (b : Bool) : (s.shiftAcc b).done = s.done := rfl
@[simp] theorem State.shiftAcc_err (b : Bool) : (s.shiftAcc b).err = s.err := rfl
@[simp] theorem State.shiftAcc_eos (b : Bool) : (s.shiftAcc b).eos = s.eos := rfl
@[simp] theorem State.shiftAcc_treeValid (b : Bool) : (s.shiftAcc b).treeValid = s.treeValid := rfl
@[simp] theorem State.shiftAcc_codeValid (b : Bool) : (s.shiftAcc b).codeValid = s.codeValid := rfl
@[simp] theorem State.shiftAcc_oclosed (b : Bool) : (s.shiftAcc b).oclosed = s.oclosed := rfl
@[simp] theorem State.shiftAcc_errCode (b : Bool) : (s.shiftAcc b).errCode = s.errCode := rfl
@[simp] theorem State.shiftAcc_inLen (b : Bool) : (s.shiftAcc b).inLen = s.inLen := rfl
@[simp] theorem State.shiftAcc_upos (b : Bool) : (s.shiftAcc b).upos = s.upos := rfl
@[simp] theorem State.shiftAcc_outLen (b : Bool) : (s.shiftAcc b).outLen = s.outLen := rfl
@[simp] theorem State.shiftAcc_pacc (b : Bool) : (s.shiftAcc b).pacc = shiftInByte s.pacc b := rfl
@[simp] theorem State.shiftAcc_pcnt (b : Bool) : (s.shiftAcc b).pcnt = s.pcnt + 1#3 := rfl
@[simp] theorem State.shiftAcc_wdata (b : Bool) : (s.shiftAcc b).wdata = s.wdata := rfl
@[simp] theorem State.shiftAcc_rdata (b : Bool) : (s.shiftAcc b).rdata = s.rdata := rfl
@[simp] theorem State.shiftAcc_root (b : Bool) : (s.shiftAcc b).root = s.root := rfl
@[simp] theorem State.shiftAcc_nnodes (b : Bool) : (s.shiftAcc b).nnodes = s.nnodes := rfl
@[simp] theorem State.shiftAcc_cur (b : Bool) : (s.shiftAcc b).cur = s.cur := rfl
@[simp] theorem State.shiftAcc_seq (b : Bool) : (s.shiftAcc b).seq = s.seq := rfl
@[simp] theorem State.shiftAcc_pqLen (b : Bool) : (s.shiftAcc b).pqLen = s.pqLen := rfl
@[simp] theorem State.shiftAcc_sp (b : Bool) : (s.shiftAcc b).sp = s.sp := rfl
@[simp] theorem State.shiftAcc_ibuf (b : Bool) : (s.shiftAcc b).ibuf = s.ibuf := rfl
@[simp] theorem State.shiftAcc_obuf (b : Bool) : (s.shiftAcc b).obuf = s.obuf := rfl
@[simp] theorem State.shiftAcc_freq (b : Bool) : (s.shiftAcc b).freq = s.freq := rfl
@[simp] theorem State.shiftAcc_node (b : Bool) : (s.shiftAcc b).node = s.node := rfl
@[simp] theorem State.shiftAcc_pq (b : Bool) : (s.shiftAcc b).pq = s.pq := rfl
@[simp] theorem State.shiftAcc_code (b : Bool) : (s.shiftAcc b).code = s.code := rfl
@[simp] theorem State.shiftAcc_stk (b : Bool) : (s.shiftAcc b).stk = s.stk := rfl
@[simp] theorem State.shiftAcc_params (b : Bool) : (s.shiftAcc b).params = s.params := rfl
@[simp] theorem State.shiftAcc_hostOps (b : Bool) : (s.shiftAcc b).hostOps = s.hostOps := rfl
@[simp] theorem State.shiftAcc_hostData (b : Bool) : (s.shiftAcc b).hostData = s.hostData := rfl
@[simp] theorem State.shiftAcc_freeCtr (b : Bool) : (s.shiftAcc b).freeCtr = s.freeCtr := rfl

/-! Ops: R36. -/

@[simp] theorem State.close_sstate : s.close.sstate = s.sstate := rfl
@[simp] theorem State.close_done : s.close.done = s.done := rfl
@[simp] theorem State.close_err : s.close.err = s.err := rfl
@[simp] theorem State.close_eos : s.close.eos = s.eos := rfl
@[simp] theorem State.close_treeValid : s.close.treeValid = s.treeValid := rfl
@[simp] theorem State.close_codeValid : s.close.codeValid = s.codeValid := rfl
@[simp] theorem State.close_oclosed : s.close.oclosed = true := rfl
@[simp] theorem State.close_errCode : s.close.errCode = s.errCode := rfl
@[simp] theorem State.close_inLen : s.close.inLen = s.inLen := rfl
@[simp] theorem State.close_upos : s.close.upos = s.upos := rfl
@[simp] theorem State.close_outLen : s.close.outLen = s.outLen := rfl
@[simp] theorem State.close_pacc : s.close.pacc = s.pacc := rfl
@[simp] theorem State.close_pcnt : s.close.pcnt = s.pcnt := rfl
@[simp] theorem State.close_wdata : s.close.wdata = s.wdata := rfl
@[simp] theorem State.close_rdata : s.close.rdata = s.rdata := rfl
@[simp] theorem State.close_root : s.close.root = s.root := rfl
@[simp] theorem State.close_nnodes : s.close.nnodes = s.nnodes := rfl
@[simp] theorem State.close_cur : s.close.cur = s.cur := rfl
@[simp] theorem State.close_seq : s.close.seq = s.seq := rfl
@[simp] theorem State.close_pqLen : s.close.pqLen = s.pqLen := rfl
@[simp] theorem State.close_sp : s.close.sp = s.sp := rfl
@[simp] theorem State.close_ibuf : s.close.ibuf = s.ibuf := rfl
@[simp] theorem State.close_obuf : s.close.obuf = s.obuf := rfl
@[simp] theorem State.close_freq : s.close.freq = s.freq := rfl
@[simp] theorem State.close_node : s.close.node = s.node := rfl
@[simp] theorem State.close_pq : s.close.pq = s.pq := rfl
@[simp] theorem State.close_code : s.close.code = s.code := rfl
@[simp] theorem State.close_stk : s.close.stk = s.stk := rfl
@[simp] theorem State.close_params : s.close.params = s.params := rfl
@[simp] theorem State.close_hostOps : s.close.hostOps = s.hostOps := rfl
@[simp] theorem State.close_hostData : s.close.hostData = s.hostData := rfl
@[simp] theorem State.close_freeCtr : s.close.freeCtr = s.freeCtr := rfl

/-! Ops: R210. -/

@[simp] theorem State.markFault_sstate (k : FaultKind) : (s.markFault k).sstate = .fault := rfl
@[simp] theorem State.markFault_done (k : FaultKind) : (s.markFault k).done = false := rfl
@[simp] theorem State.markFault_err (k : FaultKind) : (s.markFault k).err = true := rfl
@[simp] theorem State.markFault_eos (k : FaultKind) : (s.markFault k).eos = s.eos := rfl
@[simp] theorem State.markFault_treeValid (k : FaultKind) : (s.markFault k).treeValid = s.treeValid := rfl
@[simp] theorem State.markFault_codeValid (k : FaultKind) : (s.markFault k).codeValid = s.codeValid := rfl
@[simp] theorem State.markFault_oclosed (k : FaultKind) : (s.markFault k).oclosed = s.oclosed := rfl
@[simp] theorem State.markFault_errCode (k : FaultKind) : (s.markFault k).errCode = k.code := rfl
@[simp] theorem State.markFault_inLen (k : FaultKind) : (s.markFault k).inLen = s.inLen := rfl
@[simp] theorem State.markFault_upos (k : FaultKind) : (s.markFault k).upos = s.upos := rfl
@[simp] theorem State.markFault_outLen (k : FaultKind) : (s.markFault k).outLen = s.outLen := rfl
@[simp] theorem State.markFault_pacc (k : FaultKind) : (s.markFault k).pacc = s.pacc := rfl
@[simp] theorem State.markFault_pcnt (k : FaultKind) : (s.markFault k).pcnt = s.pcnt := rfl
@[simp] theorem State.markFault_wdata (k : FaultKind) : (s.markFault k).wdata = s.wdata := rfl
@[simp] theorem State.markFault_rdata (k : FaultKind) : (s.markFault k).rdata = s.rdata := rfl
@[simp] theorem State.markFault_root (k : FaultKind) : (s.markFault k).root = s.root := rfl
@[simp] theorem State.markFault_nnodes (k : FaultKind) : (s.markFault k).nnodes = s.nnodes := rfl
@[simp] theorem State.markFault_cur (k : FaultKind) : (s.markFault k).cur = s.cur := rfl
@[simp] theorem State.markFault_seq (k : FaultKind) : (s.markFault k).seq = s.seq := rfl
@[simp] theorem State.markFault_pqLen (k : FaultKind) : (s.markFault k).pqLen = s.pqLen := rfl
@[simp] theorem State.markFault_sp (k : FaultKind) : (s.markFault k).sp = s.sp := rfl
@[simp] theorem State.markFault_ibuf (k : FaultKind) : (s.markFault k).ibuf = s.ibuf := rfl
@[simp] theorem State.markFault_obuf (k : FaultKind) : (s.markFault k).obuf = s.obuf := rfl
@[simp] theorem State.markFault_freq (k : FaultKind) : (s.markFault k).freq = s.freq := rfl
@[simp] theorem State.markFault_node (k : FaultKind) : (s.markFault k).node = s.node := rfl
@[simp] theorem State.markFault_pq (k : FaultKind) : (s.markFault k).pq = s.pq := rfl
@[simp] theorem State.markFault_code (k : FaultKind) : (s.markFault k).code = s.code := rfl
@[simp] theorem State.markFault_stk (k : FaultKind) : (s.markFault k).stk = s.stk := rfl
@[simp] theorem State.markFault_params (k : FaultKind) : (s.markFault k).params = s.params := rfl
@[simp] theorem State.markFault_hostOps (k : FaultKind) : (s.markFault k).hostOps = s.hostOps := rfl
@[simp] theorem State.markFault_hostData (k : FaultKind) : (s.markFault k).hostData = s.hostData := rfl
@[simp] theorem State.markFault_freeCtr (k : FaultKind) : (s.markFault k).freeCtr = s.freeCtr := rfl

/-! Ops: R31. -/

@[simp] theorem State.hold_sstate (op : HostOp) : (s.hold op).sstate = s.sstate := rfl
@[simp] theorem State.hold_done (op : HostOp) : (s.hold op).done = s.done := rfl
@[simp] theorem State.hold_err (op : HostOp) : (s.hold op).err = s.err := rfl
@[simp] theorem State.hold_eos (op : HostOp) : (s.hold op).eos = s.eos := rfl
@[simp] theorem State.hold_treeValid (op : HostOp) : (s.hold op).treeValid = s.treeValid := rfl
@[simp] theorem State.hold_codeValid (op : HostOp) : (s.hold op).codeValid = s.codeValid := rfl
@[simp] theorem State.hold_oclosed (op : HostOp) : (s.hold op).oclosed = s.oclosed := rfl
@[simp] theorem State.hold_errCode (op : HostOp) : (s.hold op).errCode = s.errCode := rfl
@[simp] theorem State.hold_inLen (op : HostOp) : (s.hold op).inLen = s.inLen := rfl
@[simp] theorem State.hold_upos (op : HostOp) : (s.hold op).upos = s.upos := rfl
@[simp] theorem State.hold_outLen (op : HostOp) : (s.hold op).outLen = s.outLen := rfl
@[simp] theorem State.hold_pacc (op : HostOp) : (s.hold op).pacc = s.pacc := rfl
@[simp] theorem State.hold_pcnt (op : HostOp) : (s.hold op).pcnt = s.pcnt := rfl
@[simp] theorem State.hold_wdata (op : HostOp) : (s.hold op).wdata = s.wdata := rfl
@[simp] theorem State.hold_rdata (op : HostOp) : (s.hold op).rdata = s.rdata := rfl
@[simp] theorem State.hold_root (op : HostOp) : (s.hold op).root = s.root := rfl
@[simp] theorem State.hold_nnodes (op : HostOp) : (s.hold op).nnodes = s.nnodes := rfl
@[simp] theorem State.hold_cur (op : HostOp) : (s.hold op).cur = s.cur := rfl
@[simp] theorem State.hold_seq (op : HostOp) : (s.hold op).seq = s.seq := rfl
@[simp] theorem State.hold_pqLen (op : HostOp) : (s.hold op).pqLen = s.pqLen := rfl
@[simp] theorem State.hold_sp (op : HostOp) : (s.hold op).sp = s.sp := rfl
@[simp] theorem State.hold_ibuf (op : HostOp) : (s.hold op).ibuf = s.ibuf := rfl
@[simp] theorem State.hold_obuf (op : HostOp) : (s.hold op).obuf = s.obuf := rfl
@[simp] theorem State.hold_freq (op : HostOp) : (s.hold op).freq = s.freq := rfl
@[simp] theorem State.hold_node (op : HostOp) : (s.hold op).node = s.node := rfl
@[simp] theorem State.hold_pq (op : HostOp) : (s.hold op).pq = s.pq := rfl
@[simp] theorem State.hold_code (op : HostOp) : (s.hold op).code = s.code := rfl
@[simp] theorem State.hold_stk (op : HostOp) : (s.hold op).stk = s.stk := rfl
@[simp] theorem State.hold_params (op : HostOp) : (s.hold op).params = s.params := rfl
@[simp] theorem State.hold_hostOps (op : HostOp) : (s.hold op).hostOps = op :: s.hostOps := rfl
@[simp] theorem State.hold_hostData (op : HostOp) : (s.hold op).hostData = s.hostData := rfl
@[simp] theorem State.hold_freeCtr (op : HostOp) : (s.hold op).freeCtr = s.freeCtr := rfl

/-! Sequencer: R26. -/

@[simp] theorem State.goto_sstate (p : Phase) : (s.goto p).sstate = .run p := rfl
@[simp] theorem State.goto_done (p : Phase) : (s.goto p).done = s.done := rfl
@[simp] theorem State.goto_err (p : Phase) : (s.goto p).err = s.err := rfl
@[simp] theorem State.goto_eos (p : Phase) : (s.goto p).eos = s.eos := rfl
@[simp] theorem State.goto_treeValid (p : Phase) : (s.goto p).treeValid = s.treeValid := rfl
@[simp] theorem State.goto_codeValid (p : Phase) : (s.goto p).codeValid = s.codeValid := rfl
@[simp] theorem State.goto_oclosed (p : Phase) : (s.goto p).oclosed = s.oclosed := rfl
@[simp] theorem State.goto_errCode (p : Phase) : (s.goto p).errCode = s.errCode := rfl
@[simp] theorem State.goto_inLen (p : Phase) : (s.goto p).inLen = s.inLen := rfl
@[simp] theorem State.goto_upos (p : Phase) : (s.goto p).upos = s.upos := rfl
@[simp] theorem State.goto_outLen (p : Phase) : (s.goto p).outLen = s.outLen := rfl
@[simp] theorem State.goto_pacc (p : Phase) : (s.goto p).pacc = s.pacc := rfl
@[simp] theorem State.goto_pcnt (p : Phase) : (s.goto p).pcnt = s.pcnt := rfl
@[simp] theorem State.goto_wdata (p : Phase) : (s.goto p).wdata = s.wdata := rfl
@[simp] theorem State.goto_rdata (p : Phase) : (s.goto p).rdata = s.rdata := rfl
@[simp] theorem State.goto_root (p : Phase) : (s.goto p).root = s.root := rfl
@[simp] theorem State.goto_nnodes (p : Phase) : (s.goto p).nnodes = s.nnodes := rfl
@[simp] theorem State.goto_cur (p : Phase) : (s.goto p).cur = s.cur := rfl
@[simp] theorem State.goto_seq (p : Phase) : (s.goto p).seq = s.seq := rfl
@[simp] theorem State.goto_pqLen (p : Phase) : (s.goto p).pqLen = s.pqLen := rfl
@[simp] theorem State.goto_sp (p : Phase) : (s.goto p).sp = s.sp := rfl
@[simp] theorem State.goto_ibuf (p : Phase) : (s.goto p).ibuf = s.ibuf := rfl
@[simp] theorem State.goto_obuf (p : Phase) : (s.goto p).obuf = s.obuf := rfl
@[simp] theorem State.goto_freq (p : Phase) : (s.goto p).freq = s.freq := rfl
@[simp] theorem State.goto_node (p : Phase) : (s.goto p).node = s.node := rfl
@[simp] theorem State.goto_pq (p : Phase) : (s.goto p).pq = s.pq := rfl
@[simp] theorem State.goto_code (p : Phase) : (s.goto p).code = s.code := rfl
@[simp] theorem State.goto_stk (p : Phase) : (s.goto p).stk = s.stk := rfl
@[simp] theorem State.goto_params (p : Phase) : (s.goto p).params = s.params := rfl
@[simp] theorem State.goto_hostOps (p : Phase) : (s.goto p).hostOps = s.hostOps := rfl
@[simp] theorem State.goto_hostData (p : Phase) : (s.goto p).hostData = s.hostData := rfl
@[simp] theorem State.goto_freeCtr (p : Phase) : (s.goto p).freeCtr = s.freeCtr := rfl

/-! Ops: R61. -/

@[simp] theorem State.setNode_sstate (i : Nat) (nd : Node) : (s.setNode i nd).sstate = s.sstate := rfl
@[simp] theorem State.setNode_done (i : Nat) (nd : Node) : (s.setNode i nd).done = s.done := rfl
@[simp] theorem State.setNode_err (i : Nat) (nd : Node) : (s.setNode i nd).err = s.err := rfl
@[simp] theorem State.setNode_eos (i : Nat) (nd : Node) : (s.setNode i nd).eos = s.eos := rfl
@[simp] theorem State.setNode_treeValid (i : Nat) (nd : Node) : (s.setNode i nd).treeValid = s.treeValid := rfl
@[simp] theorem State.setNode_codeValid (i : Nat) (nd : Node) : (s.setNode i nd).codeValid = s.codeValid := rfl
@[simp] theorem State.setNode_oclosed (i : Nat) (nd : Node) : (s.setNode i nd).oclosed = s.oclosed := rfl
@[simp] theorem State.setNode_errCode (i : Nat) (nd : Node) : (s.setNode i nd).errCode = s.errCode := rfl
@[simp] theorem State.setNode_inLen (i : Nat) (nd : Node) : (s.setNode i nd).inLen = s.inLen := rfl
@[simp] theorem State.setNode_upos (i : Nat) (nd : Node) : (s.setNode i nd).upos = s.upos := rfl
@[simp] theorem State.setNode_outLen (i : Nat) (nd : Node) : (s.setNode i nd).outLen = s.outLen := rfl
@[simp] theorem State.setNode_pacc (i : Nat) (nd : Node) : (s.setNode i nd).pacc = s.pacc := rfl
@[simp] theorem State.setNode_pcnt (i : Nat) (nd : Node) : (s.setNode i nd).pcnt = s.pcnt := rfl
@[simp] theorem State.setNode_wdata (i : Nat) (nd : Node) : (s.setNode i nd).wdata = s.wdata := rfl
@[simp] theorem State.setNode_rdata (i : Nat) (nd : Node) : (s.setNode i nd).rdata = s.rdata := rfl
@[simp] theorem State.setNode_root (i : Nat) (nd : Node) : (s.setNode i nd).root = s.root := rfl
@[simp] theorem State.setNode_nnodes (i : Nat) (nd : Node) : (s.setNode i nd).nnodes = s.nnodes := rfl
@[simp] theorem State.setNode_cur (i : Nat) (nd : Node) : (s.setNode i nd).cur = s.cur := rfl
@[simp] theorem State.setNode_seq (i : Nat) (nd : Node) : (s.setNode i nd).seq = s.seq := rfl
@[simp] theorem State.setNode_pqLen (i : Nat) (nd : Node) : (s.setNode i nd).pqLen = s.pqLen := rfl
@[simp] theorem State.setNode_sp (i : Nat) (nd : Node) : (s.setNode i nd).sp = s.sp := rfl
@[simp] theorem State.setNode_ibuf (i : Nat) (nd : Node) : (s.setNode i nd).ibuf = s.ibuf := rfl
@[simp] theorem State.setNode_obuf (i : Nat) (nd : Node) : (s.setNode i nd).obuf = s.obuf := rfl
@[simp] theorem State.setNode_freq (i : Nat) (nd : Node) : (s.setNode i nd).freq = s.freq := rfl
@[simp] theorem State.setNode_node (i : Nat) (nd : Node) : (s.setNode i nd).node = Store.put s.node i nd := rfl
@[simp] theorem State.setNode_pq (i : Nat) (nd : Node) : (s.setNode i nd).pq = s.pq := rfl
@[simp] theorem State.setNode_code (i : Nat) (nd : Node) : (s.setNode i nd).code = s.code := rfl
@[simp] theorem State.setNode_stk (i : Nat) (nd : Node) : (s.setNode i nd).stk = s.stk := rfl
@[simp] theorem State.setNode_params (i : Nat) (nd : Node) : (s.setNode i nd).params = s.params := rfl
@[simp] theorem State.setNode_hostOps (i : Nat) (nd : Node) : (s.setNode i nd).hostOps = s.hostOps := rfl
@[simp] theorem State.setNode_hostData (i : Nat) (nd : Node) : (s.setNode i nd).hostData = s.hostData := rfl
@[simp] theorem State.setNode_freeCtr (i : Nat) (nd : Node) : (s.setNode i nd).freeCtr = s.freeCtr := rfl

/-! Ops: R63. -/

@[simp] theorem State.alloc_sstate : s.alloc.sstate = s.sstate := rfl
@[simp] theorem State.alloc_done : s.alloc.done = s.done := rfl
@[simp] theorem State.alloc_err : s.alloc.err = s.err := rfl
@[simp] theorem State.alloc_eos : s.alloc.eos = s.eos := rfl
@[simp] theorem State.alloc_treeValid : s.alloc.treeValid = s.treeValid := rfl
@[simp] theorem State.alloc_codeValid : s.alloc.codeValid = s.codeValid := rfl
@[simp] theorem State.alloc_oclosed : s.alloc.oclosed = s.oclosed := rfl
@[simp] theorem State.alloc_errCode : s.alloc.errCode = s.errCode := rfl
@[simp] theorem State.alloc_inLen : s.alloc.inLen = s.inLen := rfl
@[simp] theorem State.alloc_upos : s.alloc.upos = s.upos := rfl
@[simp] theorem State.alloc_outLen : s.alloc.outLen = s.outLen := rfl
@[simp] theorem State.alloc_pacc : s.alloc.pacc = s.pacc := rfl
@[simp] theorem State.alloc_pcnt : s.alloc.pcnt = s.pcnt := rfl
@[simp] theorem State.alloc_wdata : s.alloc.wdata = s.wdata := rfl
@[simp] theorem State.alloc_rdata : s.alloc.rdata = s.rdata := rfl
@[simp] theorem State.alloc_root : s.alloc.root = s.root := rfl
@[simp] theorem State.alloc_nnodes : s.alloc.nnodes = s.nnodes + 1#10 := rfl
@[simp] theorem State.alloc_cur : s.alloc.cur = s.cur := rfl
@[simp] theorem State.alloc_seq : s.alloc.seq = s.seq := rfl
@[simp] theorem State.alloc_pqLen : s.alloc.pqLen = s.pqLen := rfl
@[simp] theorem State.alloc_sp : s.alloc.sp = s.sp := rfl
@[simp] theorem State.alloc_ibuf : s.alloc.ibuf = s.ibuf := rfl
@[simp] theorem State.alloc_obuf : s.alloc.obuf = s.obuf := rfl
@[simp] theorem State.alloc_freq : s.alloc.freq = s.freq := rfl
@[simp] theorem State.alloc_node : s.alloc.node = s.node := rfl
@[simp] theorem State.alloc_pq : s.alloc.pq = s.pq := rfl
@[simp] theorem State.alloc_code : s.alloc.code = s.code := rfl
@[simp] theorem State.alloc_stk : s.alloc.stk = s.stk := rfl
@[simp] theorem State.alloc_params : s.alloc.params = s.params := rfl
@[simp] theorem State.alloc_hostOps : s.alloc.hostOps = s.hostOps := rfl
@[simp] theorem State.alloc_hostData : s.alloc.hostData = s.hostData := rfl
@[simp] theorem State.alloc_freeCtr : s.alloc.freeCtr = s.freeCtr := rfl

/-! Ops: R65. -/

@[simp] theorem State.pqInsert_sstate (e : PqEntry) : (s.pqInsert e).sstate = s.sstate := rfl
@[simp] theorem State.pqInsert_done (e : PqEntry) : (s.pqInsert e).done = s.done := rfl
@[simp] theorem State.pqInsert_err (e : PqEntry) : (s.pqInsert e).err = s.err := rfl
@[simp] theorem State.pqInsert_eos (e : PqEntry) : (s.pqInsert e).eos = s.eos := rfl
@[simp] theorem State.pqInsert_treeValid (e : PqEntry) : (s.pqInsert e).treeValid = s.treeValid := rfl
@[simp] theorem State.pqInsert_codeValid (e : PqEntry) : (s.pqInsert e).codeValid = s.codeValid := rfl
@[simp] theorem State.pqInsert_oclosed (e : PqEntry) : (s.pqInsert e).oclosed = s.oclosed := rfl
@[simp] theorem State.pqInsert_errCode (e : PqEntry) : (s.pqInsert e).errCode = s.errCode := rfl
@[simp] theorem State.pqInsert_inLen (e : PqEntry) : (s.pqInsert e).inLen = s.inLen := rfl
@[simp] theorem State.pqInsert_upos (e : PqEntry) : (s.pqInsert e).upos = s.upos := rfl
@[simp] theorem State.pqInsert_outLen (e : PqEntry) : (s.pqInsert e).outLen = s.outLen := rfl
@[simp] theorem State.pqInsert_pacc (e : PqEntry) : (s.pqInsert e).pacc = s.pacc := rfl
@[simp] theorem State.pqInsert_pcnt (e : PqEntry) : (s.pqInsert e).pcnt = s.pcnt := rfl
@[simp] theorem State.pqInsert_wdata (e : PqEntry) : (s.pqInsert e).wdata = s.wdata := rfl
@[simp] theorem State.pqInsert_rdata (e : PqEntry) : (s.pqInsert e).rdata = s.rdata := rfl
@[simp] theorem State.pqInsert_root (e : PqEntry) : (s.pqInsert e).root = s.root := rfl
@[simp] theorem State.pqInsert_nnodes (e : PqEntry) : (s.pqInsert e).nnodes = s.nnodes := rfl
@[simp] theorem State.pqInsert_cur (e : PqEntry) : (s.pqInsert e).cur = s.cur := rfl
@[simp] theorem State.pqInsert_seq (e : PqEntry) : (s.pqInsert e).seq = s.seq := rfl
@[simp] theorem State.pqInsert_pqLen (e : PqEntry) : (s.pqInsert e).pqLen = s.pqLen + 1#9 := rfl
@[simp] theorem State.pqInsert_sp (e : PqEntry) : (s.pqInsert e).sp = s.sp := rfl
@[simp] theorem State.pqInsert_ibuf (e : PqEntry) : (s.pqInsert e).ibuf = s.ibuf := rfl
@[simp] theorem State.pqInsert_obuf (e : PqEntry) : (s.pqInsert e).obuf = s.obuf := rfl
@[simp] theorem State.pqInsert_freq (e : PqEntry) : (s.pqInsert e).freq = s.freq := rfl
@[simp] theorem State.pqInsert_node (e : PqEntry) : (s.pqInsert e).node = s.node := rfl
@[simp] theorem State.pqInsert_pq (e : PqEntry) : (s.pqInsert e).pq = pqPlace e s.pqLive := rfl
@[simp] theorem State.pqInsert_code (e : PqEntry) : (s.pqInsert e).code = s.code := rfl
@[simp] theorem State.pqInsert_stk (e : PqEntry) : (s.pqInsert e).stk = s.stk := rfl
@[simp] theorem State.pqInsert_params (e : PqEntry) : (s.pqInsert e).params = s.params := rfl
@[simp] theorem State.pqInsert_hostOps (e : PqEntry) : (s.pqInsert e).hostOps = s.hostOps := rfl
@[simp] theorem State.pqInsert_hostData (e : PqEntry) : (s.pqInsert e).hostData = s.hostData := rfl
@[simp] theorem State.pqInsert_freeCtr (e : PqEntry) : (s.pqInsert e).freeCtr = s.freeCtr := rfl

/-! Ops: R60. -/

@[simp] theorem State.setFreq_sstate (i : Nat) (v : Word) : (s.setFreq i v).sstate = s.sstate := rfl
@[simp] theorem State.setFreq_done (i : Nat) (v : Word) : (s.setFreq i v).done = s.done := rfl
@[simp] theorem State.setFreq_err (i : Nat) (v : Word) : (s.setFreq i v).err = s.err := rfl
@[simp] theorem State.setFreq_eos (i : Nat) (v : Word) : (s.setFreq i v).eos = s.eos := rfl
@[simp] theorem State.setFreq_treeValid (i : Nat) (v : Word) : (s.setFreq i v).treeValid = s.treeValid := rfl
@[simp] theorem State.setFreq_codeValid (i : Nat) (v : Word) : (s.setFreq i v).codeValid = s.codeValid := rfl
@[simp] theorem State.setFreq_oclosed (i : Nat) (v : Word) : (s.setFreq i v).oclosed = s.oclosed := rfl
@[simp] theorem State.setFreq_errCode (i : Nat) (v : Word) : (s.setFreq i v).errCode = s.errCode := rfl
@[simp] theorem State.setFreq_inLen (i : Nat) (v : Word) : (s.setFreq i v).inLen = s.inLen := rfl
@[simp] theorem State.setFreq_upos (i : Nat) (v : Word) : (s.setFreq i v).upos = s.upos := rfl
@[simp] theorem State.setFreq_outLen (i : Nat) (v : Word) : (s.setFreq i v).outLen = s.outLen := rfl
@[simp] theorem State.setFreq_pacc (i : Nat) (v : Word) : (s.setFreq i v).pacc = s.pacc := rfl
@[simp] theorem State.setFreq_pcnt (i : Nat) (v : Word) : (s.setFreq i v).pcnt = s.pcnt := rfl
@[simp] theorem State.setFreq_wdata (i : Nat) (v : Word) : (s.setFreq i v).wdata = s.wdata := rfl
@[simp] theorem State.setFreq_rdata (i : Nat) (v : Word) : (s.setFreq i v).rdata = s.rdata := rfl
@[simp] theorem State.setFreq_root (i : Nat) (v : Word) : (s.setFreq i v).root = s.root := rfl
@[simp] theorem State.setFreq_nnodes (i : Nat) (v : Word) : (s.setFreq i v).nnodes = s.nnodes := rfl
@[simp] theorem State.setFreq_cur (i : Nat) (v : Word) : (s.setFreq i v).cur = s.cur := rfl
@[simp] theorem State.setFreq_seq (i : Nat) (v : Word) : (s.setFreq i v).seq = s.seq := rfl
@[simp] theorem State.setFreq_pqLen (i : Nat) (v : Word) : (s.setFreq i v).pqLen = s.pqLen := rfl
@[simp] theorem State.setFreq_sp (i : Nat) (v : Word) : (s.setFreq i v).sp = s.sp := rfl
@[simp] theorem State.setFreq_ibuf (i : Nat) (v : Word) : (s.setFreq i v).ibuf = s.ibuf := rfl
@[simp] theorem State.setFreq_obuf (i : Nat) (v : Word) : (s.setFreq i v).obuf = s.obuf := rfl
@[simp] theorem State.setFreq_freq (i : Nat) (v : Word) : (s.setFreq i v).freq = Store.write 0#32 s.freq i v := rfl
@[simp] theorem State.setFreq_node (i : Nat) (v : Word) : (s.setFreq i v).node = s.node := rfl
@[simp] theorem State.setFreq_pq (i : Nat) (v : Word) : (s.setFreq i v).pq = s.pq := rfl
@[simp] theorem State.setFreq_code (i : Nat) (v : Word) : (s.setFreq i v).code = s.code := rfl
@[simp] theorem State.setFreq_stk (i : Nat) (v : Word) : (s.setFreq i v).stk = s.stk := rfl
@[simp] theorem State.setFreq_params (i : Nat) (v : Word) : (s.setFreq i v).params = s.params := rfl
@[simp] theorem State.setFreq_hostOps (i : Nat) (v : Word) : (s.setFreq i v).hostOps = s.hostOps := rfl
@[simp] theorem State.setFreq_hostData (i : Nat) (v : Word) : (s.setFreq i v).hostData = s.hostData := rfl
@[simp] theorem State.setFreq_freeCtr (i : Nat) (v : Word) : (s.setFreq i v).freeCtr = s.freeCtr := rfl

/-! Ops: R131. -/

@[simp] theorem State.clearFreq_sstate : s.clearFreq.sstate = s.sstate := rfl
@[simp] theorem State.clearFreq_done : s.clearFreq.done = s.done := rfl
@[simp] theorem State.clearFreq_err : s.clearFreq.err = s.err := rfl
@[simp] theorem State.clearFreq_eos : s.clearFreq.eos = s.eos := rfl
@[simp] theorem State.clearFreq_treeValid : s.clearFreq.treeValid = s.treeValid := rfl
@[simp] theorem State.clearFreq_codeValid : s.clearFreq.codeValid = s.codeValid := rfl
@[simp] theorem State.clearFreq_oclosed : s.clearFreq.oclosed = s.oclosed := rfl
@[simp] theorem State.clearFreq_errCode : s.clearFreq.errCode = s.errCode := rfl
@[simp] theorem State.clearFreq_inLen : s.clearFreq.inLen = s.inLen := rfl
@[simp] theorem State.clearFreq_upos : s.clearFreq.upos = s.upos := rfl
@[simp] theorem State.clearFreq_outLen : s.clearFreq.outLen = s.outLen := rfl
@[simp] theorem State.clearFreq_pacc : s.clearFreq.pacc = s.pacc := rfl
@[simp] theorem State.clearFreq_pcnt : s.clearFreq.pcnt = s.pcnt := rfl
@[simp] theorem State.clearFreq_wdata : s.clearFreq.wdata = s.wdata := rfl
@[simp] theorem State.clearFreq_rdata : s.clearFreq.rdata = s.rdata := rfl
@[simp] theorem State.clearFreq_root : s.clearFreq.root = s.root := rfl
@[simp] theorem State.clearFreq_nnodes : s.clearFreq.nnodes = s.nnodes := rfl
@[simp] theorem State.clearFreq_cur : s.clearFreq.cur = s.cur := rfl
@[simp] theorem State.clearFreq_seq : s.clearFreq.seq = s.seq := rfl
@[simp] theorem State.clearFreq_pqLen : s.clearFreq.pqLen = s.pqLen := rfl
@[simp] theorem State.clearFreq_sp : s.clearFreq.sp = s.sp := rfl
@[simp] theorem State.clearFreq_ibuf : s.clearFreq.ibuf = s.ibuf := rfl
@[simp] theorem State.clearFreq_obuf : s.clearFreq.obuf = s.obuf := rfl
@[simp] theorem State.clearFreq_freq : s.clearFreq.freq = [] := rfl
@[simp] theorem State.clearFreq_node : s.clearFreq.node = s.node := rfl
@[simp] theorem State.clearFreq_pq : s.clearFreq.pq = s.pq := rfl
@[simp] theorem State.clearFreq_code : s.clearFreq.code = s.code := rfl
@[simp] theorem State.clearFreq_stk : s.clearFreq.stk = s.stk := rfl
@[simp] theorem State.clearFreq_params : s.clearFreq.params = s.params := rfl
@[simp] theorem State.clearFreq_hostOps : s.clearFreq.hostOps = s.hostOps := rfl
@[simp] theorem State.clearFreq_hostData : s.clearFreq.hostData = s.hostData := rfl
@[simp] theorem State.clearFreq_freeCtr : s.clearFreq.freeCtr = s.freeCtr := rfl

/-! Ops: R67. -/

@[simp] theorem State.stkInit_sstate : s.stkInit.sstate = s.sstate := rfl
@[simp] theorem State.stkInit_done : s.stkInit.done = s.done := rfl
@[simp] theorem State.stkInit_err : s.stkInit.err = s.err := rfl
@[simp] theorem State.stkInit_eos : s.stkInit.eos = s.eos := rfl
@[simp] theorem State.stkInit_treeValid : s.stkInit.treeValid = s.treeValid := rfl
@[simp] theorem State.stkInit_codeValid : s.stkInit.codeValid = s.codeValid := rfl
@[simp] theorem State.stkInit_oclosed : s.stkInit.oclosed = s.oclosed := rfl
@[simp] theorem State.stkInit_errCode : s.stkInit.errCode = s.errCode := rfl
@[simp] theorem State.stkInit_inLen : s.stkInit.inLen = s.inLen := rfl
@[simp] theorem State.stkInit_upos : s.stkInit.upos = s.upos := rfl
@[simp] theorem State.stkInit_outLen : s.stkInit.outLen = s.outLen := rfl
@[simp] theorem State.stkInit_pacc : s.stkInit.pacc = s.pacc := rfl
@[simp] theorem State.stkInit_pcnt : s.stkInit.pcnt = s.pcnt := rfl
@[simp] theorem State.stkInit_wdata : s.stkInit.wdata = s.wdata := rfl
@[simp] theorem State.stkInit_rdata : s.stkInit.rdata = s.rdata := rfl
@[simp] theorem State.stkInit_root : s.stkInit.root = s.root := rfl
@[simp] theorem State.stkInit_nnodes : s.stkInit.nnodes = s.nnodes := rfl
@[simp] theorem State.stkInit_cur : s.stkInit.cur = s.cur := rfl
@[simp] theorem State.stkInit_seq : s.stkInit.seq = s.seq := rfl
@[simp] theorem State.stkInit_pqLen : s.stkInit.pqLen = s.pqLen := rfl
@[simp] theorem State.stkInit_sp : s.stkInit.sp = 0#10 := rfl
@[simp] theorem State.stkInit_ibuf : s.stkInit.ibuf = s.ibuf := rfl
@[simp] theorem State.stkInit_obuf : s.stkInit.obuf = s.obuf := rfl
@[simp] theorem State.stkInit_freq : s.stkInit.freq = s.freq := rfl
@[simp] theorem State.stkInit_node : s.stkInit.node = s.node := rfl
@[simp] theorem State.stkInit_pq : s.stkInit.pq = s.pq := rfl
@[simp] theorem State.stkInit_code : s.stkInit.code = s.code := rfl
@[simp] theorem State.stkInit_stk : s.stkInit.stk = [] := rfl
@[simp] theorem State.stkInit_params : s.stkInit.params = s.params := rfl
@[simp] theorem State.stkInit_hostOps : s.stkInit.hostOps = s.hostOps := rfl
@[simp] theorem State.stkInit_hostData : s.stkInit.hostData = s.hostData := rfl
@[simp] theorem State.stkInit_freeCtr : s.stkInit.freeCtr = s.freeCtr := rfl

/-! Ops: R67. -/

@[simp] theorem State.stkSet_sstate (l : List StkEntry) : (s.stkSet l).sstate = s.sstate := rfl
@[simp] theorem State.stkSet_done (l : List StkEntry) : (s.stkSet l).done = s.done := rfl
@[simp] theorem State.stkSet_err (l : List StkEntry) : (s.stkSet l).err = s.err := rfl
@[simp] theorem State.stkSet_eos (l : List StkEntry) : (s.stkSet l).eos = s.eos := rfl
@[simp] theorem State.stkSet_treeValid (l : List StkEntry) : (s.stkSet l).treeValid = s.treeValid := rfl
@[simp] theorem State.stkSet_codeValid (l : List StkEntry) : (s.stkSet l).codeValid = s.codeValid := rfl
@[simp] theorem State.stkSet_oclosed (l : List StkEntry) : (s.stkSet l).oclosed = s.oclosed := rfl
@[simp] theorem State.stkSet_errCode (l : List StkEntry) : (s.stkSet l).errCode = s.errCode := rfl
@[simp] theorem State.stkSet_inLen (l : List StkEntry) : (s.stkSet l).inLen = s.inLen := rfl
@[simp] theorem State.stkSet_upos (l : List StkEntry) : (s.stkSet l).upos = s.upos := rfl
@[simp] theorem State.stkSet_outLen (l : List StkEntry) : (s.stkSet l).outLen = s.outLen := rfl
@[simp] theorem State.stkSet_pacc (l : List StkEntry) : (s.stkSet l).pacc = s.pacc := rfl
@[simp] theorem State.stkSet_pcnt (l : List StkEntry) : (s.stkSet l).pcnt = s.pcnt := rfl
@[simp] theorem State.stkSet_wdata (l : List StkEntry) : (s.stkSet l).wdata = s.wdata := rfl
@[simp] theorem State.stkSet_rdata (l : List StkEntry) : (s.stkSet l).rdata = s.rdata := rfl
@[simp] theorem State.stkSet_root (l : List StkEntry) : (s.stkSet l).root = s.root := rfl
@[simp] theorem State.stkSet_nnodes (l : List StkEntry) : (s.stkSet l).nnodes = s.nnodes := rfl
@[simp] theorem State.stkSet_cur (l : List StkEntry) : (s.stkSet l).cur = s.cur := rfl
@[simp] theorem State.stkSet_seq (l : List StkEntry) : (s.stkSet l).seq = s.seq := rfl
@[simp] theorem State.stkSet_pqLen (l : List StkEntry) : (s.stkSet l).pqLen = s.pqLen := rfl
@[simp] theorem State.stkSet_sp (l : List StkEntry) : (s.stkSet l).sp = BitVec.ofNat 10 l.length := rfl
@[simp] theorem State.stkSet_ibuf (l : List StkEntry) : (s.stkSet l).ibuf = s.ibuf := rfl
@[simp] theorem State.stkSet_obuf (l : List StkEntry) : (s.stkSet l).obuf = s.obuf := rfl
@[simp] theorem State.stkSet_freq (l : List StkEntry) : (s.stkSet l).freq = s.freq := rfl
@[simp] theorem State.stkSet_node (l : List StkEntry) : (s.stkSet l).node = s.node := rfl
@[simp] theorem State.stkSet_pq (l : List StkEntry) : (s.stkSet l).pq = s.pq := rfl
@[simp] theorem State.stkSet_code (l : List StkEntry) : (s.stkSet l).code = s.code := rfl
@[simp] theorem State.stkSet_stk (l : List StkEntry) : (s.stkSet l).stk = l := rfl
@[simp] theorem State.stkSet_params (l : List StkEntry) : (s.stkSet l).params = s.params := rfl
@[simp] theorem State.stkSet_hostOps (l : List StkEntry) : (s.stkSet l).hostOps = s.hostOps := rfl
@[simp] theorem State.stkSet_hostData (l : List StkEntry) : (s.stkSet l).hostData = s.hostData := rfl
@[simp] theorem State.stkSet_freeCtr (l : List StkEntry) : (s.stkSet l).freeCtr = s.freeCtr := rfl

/-! Ops: R29. -/

@[simp] theorem State.stkFree_sstate : s.stkFree.sstate = s.sstate := rfl
@[simp] theorem State.stkFree_done : s.stkFree.done = s.done := rfl
@[simp] theorem State.stkFree_err : s.stkFree.err = s.err := rfl
@[simp] theorem State.stkFree_eos : s.stkFree.eos = s.eos := rfl
@[simp] theorem State.stkFree_treeValid : s.stkFree.treeValid = s.treeValid := rfl
@[simp] theorem State.stkFree_codeValid : s.stkFree.codeValid = s.codeValid := rfl
@[simp] theorem State.stkFree_oclosed : s.stkFree.oclosed = s.oclosed := rfl
@[simp] theorem State.stkFree_errCode : s.stkFree.errCode = s.errCode := rfl
@[simp] theorem State.stkFree_inLen : s.stkFree.inLen = s.inLen := rfl
@[simp] theorem State.stkFree_upos : s.stkFree.upos = s.upos := rfl
@[simp] theorem State.stkFree_outLen : s.stkFree.outLen = s.outLen := rfl
@[simp] theorem State.stkFree_pacc : s.stkFree.pacc = s.pacc := rfl
@[simp] theorem State.stkFree_pcnt : s.stkFree.pcnt = s.pcnt := rfl
@[simp] theorem State.stkFree_wdata : s.stkFree.wdata = s.wdata := rfl
@[simp] theorem State.stkFree_rdata : s.stkFree.rdata = s.rdata := rfl
@[simp] theorem State.stkFree_root : s.stkFree.root = s.root := rfl
@[simp] theorem State.stkFree_nnodes : s.stkFree.nnodes = s.nnodes := rfl
@[simp] theorem State.stkFree_cur : s.stkFree.cur = s.cur := rfl
@[simp] theorem State.stkFree_seq : s.stkFree.seq = s.seq := rfl
@[simp] theorem State.stkFree_pqLen : s.stkFree.pqLen = s.pqLen := rfl
@[simp] theorem State.stkFree_sp :
    s.stkFree.sp = BitVec.ofNat 10 ((Config.freeSp s.freeCtr).toNat % (Config.stkCap + 1)) := by simp only [State.stkFree]
@[simp] theorem State.stkFree_ibuf : s.stkFree.ibuf = s.ibuf := rfl
@[simp] theorem State.stkFree_obuf : s.stkFree.obuf = s.obuf := rfl
@[simp] theorem State.stkFree_freq : s.stkFree.freq = s.freq := rfl
@[simp] theorem State.stkFree_node : s.stkFree.node = s.node := rfl
@[simp] theorem State.stkFree_pq : s.stkFree.pq = s.pq := rfl
@[simp] theorem State.stkFree_code : s.stkFree.code = s.code := rfl
@[simp] theorem State.stkFree_stk :
    s.stkFree.stk = (Config.freeStk s.freeCtr).take Config.stkCap := by simp only [State.stkFree]
@[simp] theorem State.stkFree_params : s.stkFree.params = s.params := rfl
@[simp] theorem State.stkFree_hostOps : s.stkFree.hostOps = s.hostOps := rfl
@[simp] theorem State.stkFree_hostData : s.stkFree.hostData = s.hostData := rfl
@[simp] theorem State.stkFree_freeCtr : s.stkFree.freeCtr = s.freeCtr + 1 := by simp only [State.stkFree]

/-! CodesHeader: R151. -/

@[simp] theorem State.clearCode_sstate : s.clearCode.sstate = s.sstate := rfl
@[simp] theorem State.clearCode_done : s.clearCode.done = s.done := rfl
@[simp] theorem State.clearCode_err : s.clearCode.err = s.err := rfl
@[simp] theorem State.clearCode_eos : s.clearCode.eos = s.eos := rfl
@[simp] theorem State.clearCode_treeValid : s.clearCode.treeValid = s.treeValid := rfl
@[simp] theorem State.clearCode_codeValid : s.clearCode.codeValid = false := rfl
@[simp] theorem State.clearCode_oclosed : s.clearCode.oclosed = s.oclosed := rfl
@[simp] theorem State.clearCode_errCode : s.clearCode.errCode = s.errCode := rfl
@[simp] theorem State.clearCode_inLen : s.clearCode.inLen = s.inLen := rfl
@[simp] theorem State.clearCode_upos : s.clearCode.upos = s.upos := rfl
@[simp] theorem State.clearCode_outLen : s.clearCode.outLen = s.outLen := rfl
@[simp] theorem State.clearCode_pacc : s.clearCode.pacc = s.pacc := rfl
@[simp] theorem State.clearCode_pcnt : s.clearCode.pcnt = s.pcnt := rfl
@[simp] theorem State.clearCode_wdata : s.clearCode.wdata = s.wdata := rfl
@[simp] theorem State.clearCode_rdata : s.clearCode.rdata = s.rdata := rfl
@[simp] theorem State.clearCode_root : s.clearCode.root = s.root := rfl
@[simp] theorem State.clearCode_nnodes : s.clearCode.nnodes = s.nnodes := rfl
@[simp] theorem State.clearCode_cur : s.clearCode.cur = s.cur := rfl
@[simp] theorem State.clearCode_seq : s.clearCode.seq = s.seq := rfl
@[simp] theorem State.clearCode_pqLen : s.clearCode.pqLen = s.pqLen := rfl
@[simp] theorem State.clearCode_sp : s.clearCode.sp = s.sp := rfl
@[simp] theorem State.clearCode_ibuf : s.clearCode.ibuf = s.ibuf := rfl
@[simp] theorem State.clearCode_obuf : s.clearCode.obuf = s.obuf := rfl
@[simp] theorem State.clearCode_freq : s.clearCode.freq = s.freq := rfl
@[simp] theorem State.clearCode_node : s.clearCode.node = s.node := rfl
@[simp] theorem State.clearCode_pq : s.clearCode.pq = s.pq := rfl
@[simp] theorem State.clearCode_code : s.clearCode.code = [] := rfl
@[simp] theorem State.clearCode_stk : s.clearCode.stk = s.stk := rfl
@[simp] theorem State.clearCode_params : s.clearCode.params = s.params := rfl
@[simp] theorem State.clearCode_hostOps : s.clearCode.hostOps = s.hostOps := rfl
@[simp] theorem State.clearCode_hostData : s.clearCode.hostData = s.hostData := rfl
@[simp] theorem State.clearCode_freeCtr : s.clearCode.freeCtr = s.freeCtr := rfl

/-! CodesHeader: R151. -/

@[simp] theorem State.setCodeTable_sstate (t : List (Nat × CodeEntry)) : (s.setCodeTable t).sstate = s.sstate := rfl
@[simp] theorem State.setCodeTable_done (t : List (Nat × CodeEntry)) : (s.setCodeTable t).done = s.done := rfl
@[simp] theorem State.setCodeTable_err (t : List (Nat × CodeEntry)) : (s.setCodeTable t).err = s.err := rfl
@[simp] theorem State.setCodeTable_eos (t : List (Nat × CodeEntry)) : (s.setCodeTable t).eos = s.eos := rfl
@[simp] theorem State.setCodeTable_treeValid (t : List (Nat × CodeEntry)) :
    (s.setCodeTable t).treeValid = s.treeValid := rfl
@[simp] theorem State.setCodeTable_codeValid (t : List (Nat × CodeEntry)) : (s.setCodeTable t).codeValid = true := rfl
@[simp] theorem State.setCodeTable_oclosed (t : List (Nat × CodeEntry)) :
    (s.setCodeTable t).oclosed = s.oclosed := rfl
@[simp] theorem State.setCodeTable_errCode (t : List (Nat × CodeEntry)) :
    (s.setCodeTable t).errCode = s.errCode := rfl
@[simp] theorem State.setCodeTable_inLen (t : List (Nat × CodeEntry)) : (s.setCodeTable t).inLen = s.inLen := rfl
@[simp] theorem State.setCodeTable_upos (t : List (Nat × CodeEntry)) : (s.setCodeTable t).upos = s.upos := rfl
@[simp] theorem State.setCodeTable_outLen (t : List (Nat × CodeEntry)) : (s.setCodeTable t).outLen = s.outLen := rfl
@[simp] theorem State.setCodeTable_pacc (t : List (Nat × CodeEntry)) : (s.setCodeTable t).pacc = s.pacc := rfl
@[simp] theorem State.setCodeTable_pcnt (t : List (Nat × CodeEntry)) : (s.setCodeTable t).pcnt = s.pcnt := rfl
@[simp] theorem State.setCodeTable_wdata (t : List (Nat × CodeEntry)) : (s.setCodeTable t).wdata = s.wdata := rfl
@[simp] theorem State.setCodeTable_rdata (t : List (Nat × CodeEntry)) : (s.setCodeTable t).rdata = s.rdata := rfl
@[simp] theorem State.setCodeTable_root (t : List (Nat × CodeEntry)) : (s.setCodeTable t).root = s.root := rfl
@[simp] theorem State.setCodeTable_nnodes (t : List (Nat × CodeEntry)) : (s.setCodeTable t).nnodes = s.nnodes := rfl
@[simp] theorem State.setCodeTable_cur (t : List (Nat × CodeEntry)) : (s.setCodeTable t).cur = s.cur := rfl
@[simp] theorem State.setCodeTable_seq (t : List (Nat × CodeEntry)) : (s.setCodeTable t).seq = s.seq := rfl
@[simp] theorem State.setCodeTable_pqLen (t : List (Nat × CodeEntry)) : (s.setCodeTable t).pqLen = s.pqLen := rfl
@[simp] theorem State.setCodeTable_sp (t : List (Nat × CodeEntry)) : (s.setCodeTable t).sp = s.sp := rfl
@[simp] theorem State.setCodeTable_ibuf (t : List (Nat × CodeEntry)) : (s.setCodeTable t).ibuf = s.ibuf := rfl
@[simp] theorem State.setCodeTable_obuf (t : List (Nat × CodeEntry)) : (s.setCodeTable t).obuf = s.obuf := rfl
@[simp] theorem State.setCodeTable_freq (t : List (Nat × CodeEntry)) : (s.setCodeTable t).freq = s.freq := rfl
@[simp] theorem State.setCodeTable_node (t : List (Nat × CodeEntry)) : (s.setCodeTable t).node = s.node := rfl
@[simp] theorem State.setCodeTable_pq (t : List (Nat × CodeEntry)) : (s.setCodeTable t).pq = s.pq := rfl
@[simp] theorem State.setCodeTable_code (t : List (Nat × CodeEntry)) : (s.setCodeTable t).code = t := rfl
@[simp] theorem State.setCodeTable_stk (t : List (Nat × CodeEntry)) : (s.setCodeTable t).stk = s.stk := rfl
@[simp] theorem State.setCodeTable_params (t : List (Nat × CodeEntry)) : (s.setCodeTable t).params = s.params := rfl
@[simp] theorem State.setCodeTable_hostOps (t : List (Nat × CodeEntry)) :
    (s.setCodeTable t).hostOps = s.hostOps := rfl
@[simp] theorem State.setCodeTable_hostData (t : List (Nat × CodeEntry)) :
    (s.setCodeTable t).hostData = s.hostData := rfl
@[simp] theorem State.setCodeTable_freeCtr (t : List (Nat × CodeEntry)) :
    (s.setCodeTable t).freeCtr = s.freeCtr := rfl

/-! Stream: R175. -/

@[simp] theorem State.setCur_sstate (i : NodeIdx) : (s.setCur i).sstate = s.sstate := rfl
@[simp] theorem State.setCur_done (i : NodeIdx) : (s.setCur i).done = s.done := rfl
@[simp] theorem State.setCur_err (i : NodeIdx) : (s.setCur i).err = s.err := rfl
@[simp] theorem State.setCur_eos (i : NodeIdx) : (s.setCur i).eos = s.eos := rfl
@[simp] theorem State.setCur_treeValid (i : NodeIdx) : (s.setCur i).treeValid = s.treeValid := rfl
@[simp] theorem State.setCur_codeValid (i : NodeIdx) : (s.setCur i).codeValid = s.codeValid := rfl
@[simp] theorem State.setCur_oclosed (i : NodeIdx) : (s.setCur i).oclosed = s.oclosed := rfl
@[simp] theorem State.setCur_errCode (i : NodeIdx) : (s.setCur i).errCode = s.errCode := rfl
@[simp] theorem State.setCur_inLen (i : NodeIdx) : (s.setCur i).inLen = s.inLen := rfl
@[simp] theorem State.setCur_upos (i : NodeIdx) : (s.setCur i).upos = s.upos := rfl
@[simp] theorem State.setCur_outLen (i : NodeIdx) : (s.setCur i).outLen = s.outLen := rfl
@[simp] theorem State.setCur_pacc (i : NodeIdx) : (s.setCur i).pacc = s.pacc := rfl
@[simp] theorem State.setCur_pcnt (i : NodeIdx) : (s.setCur i).pcnt = s.pcnt := rfl
@[simp] theorem State.setCur_wdata (i : NodeIdx) : (s.setCur i).wdata = s.wdata := rfl
@[simp] theorem State.setCur_rdata (i : NodeIdx) : (s.setCur i).rdata = s.rdata := rfl
@[simp] theorem State.setCur_root (i : NodeIdx) : (s.setCur i).root = s.root := rfl
@[simp] theorem State.setCur_nnodes (i : NodeIdx) : (s.setCur i).nnodes = s.nnodes := rfl
@[simp] theorem State.setCur_cur (i : NodeIdx) : (s.setCur i).cur = i := rfl
@[simp] theorem State.setCur_seq (i : NodeIdx) : (s.setCur i).seq = s.seq := rfl
@[simp] theorem State.setCur_pqLen (i : NodeIdx) : (s.setCur i).pqLen = s.pqLen := rfl
@[simp] theorem State.setCur_sp (i : NodeIdx) : (s.setCur i).sp = s.sp := rfl
@[simp] theorem State.setCur_ibuf (i : NodeIdx) : (s.setCur i).ibuf = s.ibuf := rfl
@[simp] theorem State.setCur_obuf (i : NodeIdx) : (s.setCur i).obuf = s.obuf := rfl
@[simp] theorem State.setCur_freq (i : NodeIdx) : (s.setCur i).freq = s.freq := rfl
@[simp] theorem State.setCur_node (i : NodeIdx) : (s.setCur i).node = s.node := rfl
@[simp] theorem State.setCur_pq (i : NodeIdx) : (s.setCur i).pq = s.pq := rfl
@[simp] theorem State.setCur_code (i : NodeIdx) : (s.setCur i).code = s.code := rfl
@[simp] theorem State.setCur_stk (i : NodeIdx) : (s.setCur i).stk = s.stk := rfl
@[simp] theorem State.setCur_params (i : NodeIdx) : (s.setCur i).params = s.params := rfl
@[simp] theorem State.setCur_hostOps (i : NodeIdx) : (s.setCur i).hostOps = s.hostOps := rfl
@[simp] theorem State.setCur_hostData (i : NodeIdx) : (s.setCur i).hostData = s.hostData := rfl
@[simp] theorem State.setCur_freeCtr (i : NodeIdx) : (s.setCur i).freeCtr = s.freeCtr := rfl

end Sys2Proof.Machine
end

