-- ==== Sys2Proof/Laws/Store.lean ====
section
/-! SUPPORT. The laws of the sparse memories: what a read sees after a write, and that every operation keeps the
canonical form and the index range. -/

namespace Sys2Proof.Machine

namespace Store

variable {α : Type}

/-! ## Reads after writes -/

@[simp] theorem get?_nil (i : Nat) : get? ([] : List (Nat × α)) i = none := rfl

@[simp] theorem get?_put_same (m : List (Nat × α)) (i : Nat) (v : α) : get? (put m i v) i = some v := by
  induction m with
  | nil => simp [put, get?]
  | cons c m ih =>
    obtain ⟨k, w⟩ := c
    simp only [put]
    split
    · simp [get?]
    · split
      · simp [get?]
      · rw [get?, if_neg (by omega), ih]

theorem get?_put_other (m : List (Nat × α)) {i j : Nat} (v : α) (h : j ≠ i) : get? (put m i v) j = get? m j := by
  induction m with
  | nil => simp [put, get?, Ne.symm h]
  | cons c m ih =>
    obtain ⟨k, w⟩ := c
    simp only [put]
    split
    · simp [get?, Ne.symm h]
    · split
      · subst_vars; simp [get?, Ne.symm h]
      · simp only [get?, ih]

theorem get?_put (m : List (Nat × α)) (i j : Nat) (v : α) :
    get? (put m i v) j = if j = i then some v else get? m j := by
  split
  · subst_vars; simp
  · exact get?_put_other m v ‹_›

@[simp] theorem get?_erase_same (m : List (Nat × α)) (i : Nat) : get? (erase m i) i = none := by
  induction m with
  | nil => rfl
  | cons c m ih =>
    obtain ⟨k, w⟩ := c
    simp only [erase]
    split
    · exact ih
    · rw [get?, if_neg ‹_›, ih]

theorem get?_erase_other (m : List (Nat × α)) {i j : Nat} (h : j ≠ i) : get? (erase m i) j = get? m j := by
  induction m with
  | nil => rfl
  | cons c m ih =>
    obtain ⟨k, w⟩ := c
    simp only [erase]
    split
    · subst_vars; rw [ih, get?, if_neg (Ne.symm h)]
    · simp only [get?, ih]

@[simp] theorem read_nil (d : α) (i : Nat) : read d [] i = d := rfl

/-- A read after a write sees the value written at that index and the old value elsewhere. -/
theorem read_write [DecidableEq α] (d : α) (m : List (Nat × α)) (i j : Nat) (v : α) :
    read d (write d m i v) j = if j = i then v else read d m j := by
  unfold read write
  by_cases hv : v = d <;> by_cases hj : j = i
  · subst_vars; simp
  · simp [hv, hj, get?_erase_other m hj]
  · subst_vars; simp [hv]
  · simp [hv, hj, get?_put_other m v hj]

/-! ## The canonical form -/

theorem mem_put {m : List (Nat × α)} {i : Nat} {v : α} {c : Nat × α} (h : c ∈ put m i v) : c = (i, v) ∨ c ∈ m := by
  induction m with
  | nil => simpa [put] using h
  | cons e m ih =>
    obtain ⟨k, w⟩ := e
    simp only [put] at h
    split at h
    · simpa using h
    · split at h
      · rcases List.mem_cons.mp h with h | h
        · exact .inl h
        · exact .inr (List.mem_cons_of_mem _ h)
      · rcases List.mem_cons.mp h with h | h
        · exact .inr (h ▸ List.mem_cons_self)
        · exact (ih h).imp_right (List.mem_cons_of_mem _)

theorem mem_erase {m : List (Nat × α)} {i : Nat} {c : Nat × α} (h : c ∈ erase m i) : c ∈ m ∧ c.1 ≠ i := by
  induction m with
  | nil => simp [erase] at h
  | cons e m ih =>
    obtain ⟨k, w⟩ := e
    simp only [erase] at h
    split at h
    · exact ⟨List.mem_cons_of_mem _ (ih h).1, (ih h).2⟩
    · rcases List.mem_cons.mp h with h | h
      · subst h; exact ⟨List.mem_cons_self, ‹_›⟩
      · exact ⟨List.mem_cons_of_mem _ (ih h).1, (ih h).2⟩

theorem rising_put {m : List (Nat × α)} (h : Rising m) (i : Nat) (v : α) : Rising (put m i v) := by
  induction m with
  | nil => simp [put]
  | cons e m ih =>
    obtain ⟨k, w⟩ := e
    obtain ⟨hk, hm⟩ := List.pairwise_cons.mp h
    simp only [put]
    split
    · rename_i hlt
      refine List.pairwise_cons.mpr ⟨fun c hc => ?_, h⟩
      rcases List.mem_cons.mp hc with rfl | hc
      · exact hlt
      · exact Nat.lt_trans hlt (hk c hc)
    · split
      · subst_vars; exact List.pairwise_cons.mpr ⟨hk, hm⟩
      · refine List.pairwise_cons.mpr ⟨fun c hc => ?_, ih hm⟩
        rcases mem_put hc with rfl | hc
        · show k < i; omega
        · exact hk c hc

theorem rising_erase {m : List (Nat × α)} (h : Rising m) (i : Nat) : Rising (erase m i) := by
  induction m with
  | nil => simp [erase]
  | cons e m ih =>
    obtain ⟨k, w⟩ := e
    obtain ⟨hk, hm⟩ := List.pairwise_cons.mp h
    simp only [erase]
    split
    · exact ih hm
    · exact List.pairwise_cons.mpr ⟨fun c hc => hk c (mem_erase hc).1, ih hm⟩

theorem canonical_nil (d : α) : Canonical d [] := ⟨List.Pairwise.nil, by simp⟩

/-- A write keeps the canonical form. -/
theorem canonical_write [DecidableEq α] {d : α} {m : List (Nat × α)} (h : Canonical d m) (i : Nat) (v : α) :
    Canonical d (write d m i v) := by
  unfold write
  split
  · exact ⟨rising_erase h.1 i, fun c hc => h.2 c (mem_erase hc).1⟩
  · refine ⟨rising_put h.1 i v, fun c hc => ?_⟩
    rcases mem_put hc with rfl | hc
    · assumption
    · exact h.2 c hc

/-- A write below `cap` lists nothing at or above `cap`. -/
theorem bounded_write [DecidableEq α] {d : α} {m : List (Nat × α)} {cap i : Nat} (h : ∀ c ∈ m, c.1 < cap)
    (hi : i < cap) (v : α) : ∀ c ∈ write d m i v, c.1 < cap := by
  unfold write
  split
  · exact fun c hc => h c (mem_erase hc).1
  · intro c hc
    rcases mem_put hc with rfl | hc
    · exact hi
    · exact h c hc

theorem bounded_put {m : List (Nat × α)} {cap i : Nat} (h : ∀ c ∈ m, c.1 < cap) (hi : i < cap) (v : α) :
    ∀ c ∈ put m i v, c.1 < cap := by
  intro c hc
  rcases mem_put hc with rfl | hc
  · exact hi
  · exact h c hc

/-- What a fold over the listed entries keeps. -/
theorem foldl_keeps {β : Type} {P : β → Prop} {f : β → Nat × α → β} (hf : ∀ m e, P m → P (f m e)) :
    ∀ (es : List (Nat × α)) (m : β), P m → P (es.foldl f m)
  | [], _, h => h
  | e :: es, m, h => foldl_keeps hf es (f m e) (hf m e h)

theorem canonical_ofEntries [DecidableEq α] (d : α) (cap : Nat) (es : List (Nat × α)) :
    Canonical d (ofEntries d cap es) ∧ ∀ c ∈ ofEntries d cap es, c.1 < cap := by
  refine foldl_keeps (P := fun m => Canonical d m ∧ ∀ c ∈ m, c.1 < cap) ?_ es [] ⟨canonical_nil d, by simp⟩
  intro m e h
  split
  · exact ⟨canonical_write h.1 _ _, bounded_write h.2 ‹_› _⟩
  · exact h

theorem rising_ofRecords (cap : Nat) (es : List (Nat × α)) :
    Rising (ofRecords cap es) ∧ ∀ c ∈ ofRecords cap es, c.1 < cap := by
  refine foldl_keeps (P := fun m => Rising m ∧ ∀ c ∈ m, c.1 < cap) ?_ es [] ⟨List.Pairwise.nil, by simp⟩
  intro m e h
  split
  · exact ⟨rising_put h.1 _ _, bounded_put h.2 ‹_› _⟩
  · exact h

/-- An index below all listed ones is not listed. -/
theorem get?_eq_none {m : List (Nat × α)} {i : Nat} (h : ∀ c ∈ m, c.1 ≠ i) : get? m i = none := by
  induction m with
  | nil => rfl
  | cons c m ih =>
    obtain ⟨k, w⟩ := c
    rw [get?, if_neg (h (k, w) List.mem_cons_self), ih fun c hc => h c (List.mem_cons_of_mem _ hc)]

theorem get?_of_mem {m : List (Nat × α)} (hm : Rising m) {c : Nat × α} (hc : c ∈ m) : get? m c.1 = some c.2 := by
  induction m with
  | nil => simp at hc
  | cons e m ih =>
    obtain ⟨k, w⟩ := e
    obtain ⟨hk, hm⟩ := List.pairwise_cons.mp hm
    rcases List.mem_cons.mp hc with rfl | hc
    · simp [get?]
    · rw [get?, if_neg (Nat.ne_of_lt (hk c hc)), ih hm hc]

/-- Lists in rising form that list the same entries are equal. -/
theorem rising_ext {a b : List (Nat × α)} (ha : Rising a) (hb : Rising b) (h : ∀ i, get? a i = get? b i) : a = b := by
  induction a generalizing b with
  | nil =>
    cases b with
    | nil => rfl
    | cons c b => simpa [get?] using h c.1
  | cons c a ih =>
    obtain ⟨k, v⟩ := c
    cases b with
    | nil => simpa [get?] using h k
    | cons e b =>
      obtain ⟨l, w⟩ := e
      obtain ⟨hka, ha'⟩ := List.pairwise_cons.mp ha
      obtain ⟨hlb, hb'⟩ := List.pairwise_cons.mp hb
      have hkl : k = l := by
        rcases Nat.lt_trichotomy k l with hlt | heq | hlt
        · have := h k
          rw [get?, if_pos rfl, get?, if_neg (by omega),
            get?_eq_none fun c hc => by have := hlb c hc; dsimp only at this; omega] at this
          simp at this
        · exact heq
        · have := h l
          rw [get?, if_neg (by omega), get?, if_pos rfl,
            get?_eq_none fun c hc => by have := hka c hc; dsimp only at this; omega] at this
          simp at this
      subst hkl
      have hvw := h k
      simp only [get?, if_true, Option.some.injEq] at hvw
      rw [hvw, ih ha' hb' fun i => ?_]
      by_cases hi : k = i
      · subst hi
        rw [get?_eq_none fun c hc => Nat.ne_of_gt (hka c hc), get?_eq_none fun c hc => Nat.ne_of_gt (hlb c hc)]
      · have := h i
        rwa [get?, if_neg hi, get?, if_neg hi] at this

/-- Equal memories are equal data: canonical lists that read the same everywhere are equal. -/
theorem canonical_ext {d : α} {a b : List (Nat × α)} (ha : Canonical d a) (hb : Canonical d b)
    (h : ∀ i, read d a i = read d b i) : a = b := by
  have key : ∀ {m : List (Nat × α)}, Canonical d m → ∀ i, get? m i ≠ some d := by
    intro m hm i
    induction m with
    | nil => simp
    | cons e m ih =>
      obtain ⟨k, w⟩ := e
      rw [get?]
      split
      · exact fun h => hm.2 (k, w) List.mem_cons_self (Option.some.inj h)
      · exact ih ⟨(List.pairwise_cons.mp hm.1).2, fun c hc => hm.2 c (List.mem_cons_of_mem _ hc)⟩
  refine rising_ext ha.1 hb.1 fun i => ?_
  have hi := h i
  unfold read at hi
  have hka := key ha i
  have hkb := key hb i
  cases hga : get? a i <;> cases hgb : get? b i <;> simp_all

end Store

/-! ## The byte memories -/

@[simp] theorem Memory.read_write_same (m : Memory) (i : Nat) (b : Byte) : (m.write i b).read i = b := by
  simp [Memory.read, Memory.write, Store.read_write]

theorem Memory.read_write (m : Memory) (i j : Nat) (b : Byte) :
    (m.write i b).read j = if j = i then b else m.read j :=
  Store.read_write _ _ _ _ _

theorem Memory.wf_write {m : Memory} (h : m.wf) (i : Nat) (b : Byte) : (m.write i b).wf :=
  Store.canonical_write h i b

theorem Memory.wf_nil : Memory.wf [] := Store.canonical_nil _

theorem Memory.ext {a b : Memory} (ha : a.wf) (hb : b.wf) (h : ∀ i, a.read i = b.read i) : a = b :=
  Store.canonical_ext ha hb h

theorem State.append_wf {s : State} (h : s.obuf.wf) (b : Byte) : (s.append b).obuf.wf := Memory.wf_write h _ _

theorem setStreamBits_wf : ∀ (bs : List Bool) (p : Nat) {m : Memory}, m.wf → (setStreamBits bs p m).wf
  | [], _, _, h => h
  | _ :: bs, p, _, h => setStreamBits_wf bs (p + 1) (Memory.wf_write h _ _)

theorem loadBytes_wf : ∀ (bs : List Byte) (i : Nat) {s : State}, s.ibuf.wf → (loadBytes bs i s).ibuf.wf
  | [], _, _, h => h
  | b :: bs, i, s, h => by
    refine loadBytes_wf bs (i + 1) ?_
    unfold hostWrite writeInLen
    split <;> try exact h
    · split <;> exact h
    · exact Memory.wf_write h _ _

/-- The memories after reset are in canonical form and list nothing outside their ranges. -/
theorem State.resetWith_memories (p : Params) (c : Contents) :
    ((State.resetWith p c).ibuf.wf ∧ ∀ x ∈ (State.resetWith p c).ibuf, x.1 < p.ibufCap) ∧
    ((State.resetWith p c).obuf.wf ∧ ∀ x ∈ (State.resetWith p c).obuf, x.1 < p.obufCap) :=
  ⟨Store.canonical_ofEntries _ _ _, Store.canonical_ofEntries _ _ _⟩

theorem State.reset_wf : State.reset.ibuf.wf ∧ State.reset.obuf.wf := ⟨Memory.wf_nil, Memory.wf_nil⟩

/-- A write of a count reads back. -/
theorem State.freqAt_setFreq (s : State) (i j : Nat) (v : Word) :
    (s.setFreq i v).freqAt j = if j = i then v else s.freqAt j :=
  Store.read_write _ _ _ _ _

@[simp] theorem State.freqAt_clearFreq (s : State) (i : Nat) : s.clearFreq.freqAt i = 0#32 := rfl

theorem codeAt_setCode (t : List (Nat × CodeEntry)) (i j : Nat) (e : CodeEntry) :
    codeAt (setCode t i e) j = if j = i then e else codeAt t j :=
  Store.read_write _ _ _ _ _

theorem getNode_setNode (s : State) (i : Nat) (j : NodeIdx) (nd : Node) :
    getNode (s.setNode i nd) j = if j.toNat = i then some nd else getNode s j :=
  Store.get?_put _ _ _ _

end Sys2Proof.Machine
end

