-- ==== Sys2Proof/Laws/Ops.lean ====
section
/-! SUPPORT. For each shared operation, once, everything it can do. Proofs about the commands cite these lemmas. -/

namespace Sys2Proof.Machine

/-! ## Parts of commands one after another -/

section

variable {α β : Type}

@[simp] theorem Res.bind_ok (a : α) (s : State) (f : α → State → Res β) : (Res.ok a s).bind f = f a s := rfl
@[simp] theorem Res.bind_raise (k : FaultKind) (s : State) (f : α → State → Res β) :
    (Res.raise k s).bind f = .raise k s := rfl
@[simp] theorem Res.bind_stuck (e : Fault) (f : α → State → Res β) : (Res.stuck e).bind f = .stuck e := rfl

theorem Res.bind_eq_ok {r : Res α} {f : α → State → Res β} {b : β} {t : State} :
    r.bind f = .ok b t ↔ ∃ a m, r = .ok a m ∧ f a m = .ok b t := by
  cases r <;> simp

theorem Res.bind_eq_raise {r : Res α} {f : α → State → Res β} {k : FaultKind} {t : State} :
    r.bind f = .raise k t ↔ r = .raise k t ∨ ∃ a m, r = .ok a m ∧ f a m = .raise k t := by
  cases r <;> simp

theorem Res.bind_eq_stuck {r : Res α} {f : α → State → Res β} {e : Fault} :
    r.bind f = .stuck e ↔ r = .stuck e ∨ ∃ a m, r = .ok a m ∧ f a m = .stuck e := by
  cases r <;> simp

theorem Res.bind_assoc {γ : Type} (r : Res α) (f : α → State → Res β) (g : β → State → Res γ) :
    (r.bind f).bind g = r.bind fun a s => (f a s).bind g := by
  cases r <;> rfl

end

/-! ## The input stream -/

theorem getByte_ok {s : State} {i : Nat} (h : i ∉ s.params.inErr) : getByte s i = .ok (s.ibuf.read i) := if_neg h

theorem getByte_error {s : State} {i : Nat} (h : i ∈ s.params.inErr) : getByte s i = .error .io := if_pos h

theorem inBit_ok {s : State} {p : Nat} (h : p / 8 ∉ s.params.inErr) :
    inBit s p = .ok ((s.ibuf.read (p / 8)).getLsbD (7 - p % 8)) := by
  simp [inBit, getByte_ok h, bitInByte]

theorem inBit_error {s : State} {p : Nat} (h : p / 8 ∈ s.params.inErr) : inBit s p = .error .io := by
  simp [inBit, getByte_error h]

/-- The reading loop gives a value where every byte it touches reads, and `E_IO` otherwise. -/
theorem readLoop_cases (s : State) : ∀ (k p : Nat) (v : Word),
    ((∀ j, j < k → (p + j) / 8 ∉ s.params.inErr) ∧ ∃ w, readLoop s k p v = .ok w) ∨
    ((∃ j, j < k ∧ (p + j) / 8 ∈ s.params.inErr) ∧ readLoop s k p v = .error .io)
  | 0, _, v => .inl ⟨by simp, v, rfl⟩
  | k + 1, p, v => by
    by_cases h : p / 8 ∈ s.params.inErr
    · exact .inr ⟨⟨0, by omega, by simpa using h⟩, by simp [readLoop, inBit_error h]⟩
    · rw [readLoop, inBit_ok h]
      rcases readLoop_cases s k (p + 1) (shiftIn v ((s.ibuf.read (p / 8)).getLsbD (7 - p % 8))) with
        ⟨hj, w, hw⟩ | ⟨⟨j, hj, hm⟩, hw⟩
      · refine .inl ⟨fun j hk => ?_, w, hw⟩
        cases j with
        | zero => simpa using h
        | succ j => simpa [Nat.add_comm, Nat.add_left_comm] using hj j (by omega)
      · exact .inr ⟨⟨j + 1, by omega, by simpa [Nat.add_comm, Nat.add_left_comm] using hm⟩, hw⟩

/-- R112: `EOS` with nothing changed, a value with `UPOS` advanced, or `E_IO` with nothing changed. -/
theorem rdBits_cases (n : Nat) (s : State) :
    (8 * s.inLen.toNat < s.upos.toNat + n ∧ rdBits n s = .ok none s) ∨
    (s.upos.toNat + n ≤ 8 * s.inLen.toNat ∧ (∀ j, j < n → (s.upos.toNat + j) / 8 ∉ s.params.inErr) ∧
      ∃ v, readLoop s n s.upos.toNat 0#32 = .ok v ∧ rdBits n s = .ok (some v) (s.advance n)) ∨
    (s.upos.toNat + n ≤ 8 * s.inLen.toNat ∧ (∃ j, j < n ∧ (s.upos.toNat + j) / 8 ∈ s.params.inErr) ∧
      rdBits n s = .raise .io s) := by
  by_cases h : s.upos.toNat + n > 8 * s.inLen.toNat
  · exact .inl ⟨h, if_pos h⟩
  · rcases readLoop_cases s n s.upos.toNat 0#32 with ⟨hj, v, hv⟩ | ⟨hj, hv⟩
    · exact .inr (.inl ⟨by omega, hj, v, hv, by rw [rdBits, if_neg h, hv]⟩)
    · exact .inr (.inr ⟨by omega, hj, by rw [rdBits, if_neg h, hv]⟩)

/-- A read that must succeed: a value with `UPOS` advanced, or `E_TRUNCATED` or `E_IO` with nothing changed. -/
theorem needBits_cases (n : Nat) (s : State) :
    (∃ v, readLoop s n s.upos.toNat 0#32 = .ok v ∧ s.upos.toNat + n ≤ 8 * s.inLen.toNat ∧
      needBits n s = .ok v (s.advance n)) ∨
    (8 * s.inLen.toNat < s.upos.toNat + n ∧ needBits n s = .raise .truncated s) ∨
    needBits n s = .raise .io s := by
  rcases rdBits_cases n s with ⟨h, hr⟩ | ⟨h, -, v, hv, hr⟩ | ⟨-, -, hr⟩
  · exact .inr (.inl ⟨h, by simp [needBits, hr]⟩)
  · exact .inl ⟨v, hv, h, by simp [needBits, hr]⟩
  · exact .inr (.inr (by simp [needBits, hr]))

/-- `UPOS` does not wrap: a read within the input stays below 2^32. -/
theorem State.advance_toNat {s : State} {n : Nat} (h : s.upos.toNat + n ≤ 8 * s.inLen.toNat) :
    (s.advance n).upos.toNat = s.upos.toNat + n := by
  have := s.inLen.isLt
  simp only [State.advance_upos, BitVec.toNat_add, BitVec.toNat_ofNat]
  omega

/-! ## The output stream -/

/-- What a part of a command that only writes output does: no other field changes, the pending bits stay below
2^`PCNT`, `OBUF` only grows and keeps its form. -/
structure OutStep (s t : State) : Prop where
  fields : t = { s with pacc := t.pacc, pcnt := t.pcnt, obuf := t.obuf, outLen := t.outLen }
  packer : PackerOk s → PackerOk t
  grows : s.params.Ok → s.outLen.toNat ≤ s.params.obufCap →
    t.outLen.toNat ≤ s.params.obufCap ∧ ObufAppended s t
  form : s.params.Ok → s.outLen.toNat ≤ s.params.obufCap →
    (s.obuf.wf ∧ ∀ c ∈ s.obuf, c.1 < s.params.obufCap) → t.obuf.wf ∧ ∀ c ∈ t.obuf, c.1 < s.params.obufCap

theorem OutStep.params {s t : State} (h : OutStep s t) : t.params = s.params := by rw [h.fields]

theorem OutStep.refl (s : State) : OutStep s s :=
  ⟨rfl, id, fun _ h => ⟨h, Nat.le_refl _, fun _ _ => rfl⟩, fun _ _ h => h⟩

theorem OutStep.trans {s t u : State} (h : OutStep s t) (g : OutStep t u) : OutStep s u where
  fields := by rw [g.fields, h.fields]
  packer := g.packer ∘ h.packer
  grows hp hl := by
    obtain ⟨h1, h2, h3⟩ := h.grows hp hl
    obtain ⟨g1, g2, g3⟩ := g.grows (h.params ▸ hp) (h.params ▸ h1)
    refine ⟨h.params ▸ g1, Nat.le_trans h2 g2, fun a ha => ?_⟩
    rw [g3 a (by omega), h3 a (by omega)]
  form hp hl hf := by
    have g1 := g.form (h.params ▸ hp) (h.params ▸ (h.grows hp hl).1) (h.params ▸ h.form hp hl hf)
    exact h.params ▸ g1

theorem OutStep.clearAcc (s : State) : OutStep s s.clearAcc :=
  ⟨rfl, fun _ => Nat.one_pos, fun _ h => ⟨h, Nat.le_refl _, fun _ _ => rfl⟩, fun _ _ h => h⟩

theorem shiftInByte_lt {a : Byte} {c : Nat} (b : Bool) (h : a.toNat < 2 ^ c) : (shiftInByte a b).toNat < 2 ^ (c + 1) := by
  have key : (shiftInByte a b).toNat ≤ 2 * a.toNat + 1 := by
    clear h
    revert a b
    decide
  rw [Nat.pow_succ]
  omega

theorem OutStep.shiftAcc {s : State} (b : Bool) (h : s.pcnt.toNat + 1 ≠ 8) : OutStep s (s.shiftAcc b) := by
  refine ⟨rfl, fun hp => ?_, fun _ h => ⟨h, Nat.le_refl _, fun _ _ => rfl⟩, fun _ _ h => h⟩
  have hc : (s.pcnt + 1#3).toNat = s.pcnt.toNat + 1 := by
    have := s.pcnt.isLt
    simp only [BitVec.toNat_add, BitVec.toNat_ofNat]
    omega
  show (shiftInByte s.pacc b).toNat < 2 ^ (s.pcnt + 1#3).toNat
  rw [hc]
  exact shiftInByte_lt b hp

theorem OutStep.append {s : State} (b : Byte) (h : s.outBlocked = false) : OutStep s (s.append b) := by
  have hlt : s.outLen.toNat ≤ s.params.obufCap → s.outLen.toNat < s.params.obufCap := by
    simp [State.outBlocked] at h
    omega
  have hlen : s.params.Ok → s.outLen.toNat ≤ s.params.obufCap → (s.outLen + 1#29).toNat = s.outLen.toNat + 1 := by
    intro hp hl
    obtain ⟨-, -, -, hc⟩ := hp
    have := hlt hl
    simp only [Config.capMax] at hc
    simp only [BitVec.toNat_add, BitVec.toNat_ofNat]
    omega
  refine ⟨rfl, id, fun hp hl => ?_, fun _ hl hf => ?_⟩
  · have h1 := hlen hp hl
    refine ⟨?_, ?_, fun a ha => ?_⟩
    · show (s.outLen + 1#29).toNat ≤ _
      have := hlt hl
      omega
    · show _ ≤ (s.outLen + 1#29).toNat
      omega
    · have hne : a ≠ s.outLen.toNat := by
        simp only [State.append_outLen, h1] at ha
        omega
      show (s.obuf.write s.outLen.toNat b).read a = _
      rw [Memory.read_write, if_neg hne]
  · exact ⟨Memory.wf_write hf.1 _ _, Store.bounded_write hf.2 (hlt hl) _⟩

/-- What a result of an output operation can be: written, or `E_IO` or `E_CONTRACT` with part of it written. -/
def Res.Out {α : Type} (s : State) : Res α → Prop
  | .ok _ t => OutStep s t
  | .raise k t => (k = .io ∨ k = .contract) ∧ OutStep s t
  | .stuck _ => True

theorem Res.Out.bind {α β : Type} {s : State} {r : Res α} {f : α → State → Res β} (hr : r.Out s)
    (hf : ∀ a m, r = .ok a m → (f a m).Out m) : (r.bind f).Out s := by
  cases r with
  | ok a m =>
    have h := hf a m rfl
    rw [Res.bind_ok]
    cases hfa : f a m with
    | ok b t => rw [hfa] at h; exact OutStep.trans hr h
    | raise k t => rw [hfa] at h; exact ⟨h.1, OutStep.trans hr h.2⟩
    | stuck e => trivial
  | raise k t => exact hr
  | stuck e => trivial

theorem State.outBlocked_iff (s : State) :
    s.outBlocked = true ↔ s.outLen.toNat = s.params.obufCap ∨ s.outLen.toNat ∈ s.params.outErr := by
  simp [State.outBlocked]

theorem putByte_ok {b : Byte} {s : State} (h : s.outBlocked = false) : putByte b s = .ok () (s.append b) := by
  simp [putByte, h]

theorem putByte_raise {b : Byte} {s : State} (h : s.outBlocked = true) : putByte b s = .raise .io s := by
  simp [putByte, h]

theorem putByte_out (b : Byte) (s : State) : (putByte b s).Out s := by
  cases h : s.outBlocked
  · rw [putByte_ok h]; exact .append b h
  · rw [putByte_raise h]; exact ⟨.inl rfl, .refl s⟩

theorem wrBit_out (b : Bool) (s : State) : (wrBit b s).Out s := by
  unfold wrBit
  split
  · have h := putByte_out (shiftInByte s.pacc b) s.clearAcc
    cases hr : putByte (shiftInByte s.pacc b) s.clearAcc with
    | ok a t => rw [hr] at h; exact (OutStep.clearAcc s).trans h
    | raise k t => rw [hr] at h; exact ⟨h.1, (OutStep.clearAcc s).trans h.2⟩
    | stuck e => trivial
  · exact .shiftAcc b ‹_›

theorem wrLoop_out (v : Word) : ∀ (k : Nat) (s : State), (wrLoop v k s).Out s
  | 0, s => .refl s
  | k + 1, s => (wrBit_out _ s).bind fun _ m _ => wrLoop_out v k m

theorem wrBits_out (n : Nat) (v : Word) (s : State) : (wrBits n v s).Out s := by
  unfold wrBits
  split
  · exact ⟨.inr rfl, .refl s⟩
  · exact wrLoop_out v n s

theorem writeLeaf_out (sym : Symbol) (s : State) : (writeLeaf sym s).Out s :=
  (wrBits_out _ _ s).bind fun _ m _ => wrBits_out _ _ m

theorem serTree_out : ∀ (f : Nat) (i : NodeIdx) (s : State), (serTree f i s).Out s
  | 0, _, _ => trivial
  | f + 1, i, s => by
    unfold serTree
    split
    · trivial
    · split
      · exact writeLeaf_out _ s
      · exact (wrBits_out _ _ s).bind fun _ m _ => (serTree_out f _ m).bind fun _ m _ => serTree_out f _ m

theorem wrCode_out (v : BitVec 256) : ∀ (k : Nat) (s : State), (wrCode v k s).Out s
  | 0, s => .refl s
  | k + 1, s => (wrBits_out _ _ s).bind fun _ m _ => wrCode_out v k m

theorem writeSymbol_out (sym : Nat) (s : State) : (writeSymbol sym s).Out s := by
  unfold writeSymbol
  split
  · exact wrCode_out _ _ s
  · exact ⟨.inr rfl, .refl s⟩

@[simp] theorem wrBits_closed {n : Nat} {v : Word} {s : State} (h : s.oclosed = true) :
    wrBits n v s = .raise .contract s := by
  simp [wrBits, h]

/-- R118: nothing, the output closed, or the last byte appended and the output closed; `E_IO` where it cannot be. -/
theorem flushOut_cases (s : State) :
    (s.oclosed = true ∧ flushOut s = .ok () s) ∨
    (s.oclosed = false ∧ s.pcnt.toNat = 0 ∧ flushOut s = .ok () s.close) ∨
    (s.oclosed = false ∧ s.pcnt.toNat ≠ 0 ∧ s.outBlocked = false ∧
      flushOut s = .ok () (s.clearAcc.close.append (padded s.pacc s.pcnt))) ∨
    (s.oclosed = false ∧ s.pcnt.toNat ≠ 0 ∧ s.outBlocked = true ∧ flushOut s = .raise .io s.clearAcc.close) := by
  have hb : s.clearAcc.close.outBlocked = s.outBlocked := rfl
  cases hc : s.oclosed
  · by_cases hp : s.pcnt.toNat = 0
    · simp [flushOut, hc, hp]
    · cases ho : s.outBlocked <;> simp [flushOut, hc, hp, putByte, hb, ho]
  · simp [flushOut, hc]

/-! ## Fault entry -/

/-- R210: what fault entry leaves unchanged, and that it closes the output. -/
theorem State.closeQuietly_fields (s : State) :
    s.closeQuietly = { s with
      oclosed := true, pacc := s.closeQuietly.pacc, pcnt := s.closeQuietly.pcnt
      obuf := s.closeQuietly.obuf, outLen := s.closeQuietly.outLen } := by
  unfold State.closeQuietly
  split
  · rename_i h; rw [← h]
  · split
    · rfl
    · split <;> rfl

theorem faultEntry_fields (k : FaultKind) (s : State) :
    faultEntry k s = { s with
      oclosed := true, pacc := s.closeQuietly.pacc, pcnt := s.closeQuietly.pcnt
      obuf := s.closeQuietly.obuf, outLen := s.closeQuietly.outLen
      errCode := k.code, err := true, done := false, sstate := .fault } := by
  unfold faultEntry
  rw [State.closeQuietly_fields]
  rfl

@[simp] theorem faultEntry_sstate (k : FaultKind) (s : State) : (faultEntry k s).sstate = .fault := rfl
@[simp] theorem faultEntry_err (k : FaultKind) (s : State) : (faultEntry k s).err = true := rfl
@[simp] theorem faultEntry_done (k : FaultKind) (s : State) : (faultEntry k s).done = false := rfl
@[simp] theorem faultEntry_errCode (k : FaultKind) (s : State) : (faultEntry k s).errCode = k.code := rfl
@[simp] theorem faultEntry_oclosed (k : FaultKind) (s : State) : (faultEntry k s).oclosed = true := by
  rw [faultEntry_fields]
@[simp] theorem faultEntry_ibuf (k : FaultKind) (s : State) : (faultEntry k s).ibuf = s.ibuf := by
  rw [faultEntry_fields]
@[simp] theorem faultEntry_params (k : FaultKind) (s : State) : (faultEntry k s).params = s.params := by
  rw [faultEntry_fields]
@[simp] theorem faultEntry_upos (k : FaultKind) (s : State) : (faultEntry k s).upos = s.upos := by
  rw [faultEntry_fields]
@[simp] theorem faultEntry_treeValid (k : FaultKind) (s : State) : (faultEntry k s).treeValid = s.treeValid := by
  rw [faultEntry_fields]
@[simp] theorem faultEntry_codeValid (k : FaultKind) (s : State) : (faultEntry k s).codeValid = s.codeValid := by
  rw [faultEntry_fields]

theorem FaultKind.code_ne_zero (k : FaultKind) : k.code ≠ 0#3 := by cases k <;> decide

theorem FaultKind.code_injective : Function.Injective FaultKind.code := by
  intro a b h
  cases a <;> cases b <;> first | rfl | exact absurd h (by decide)

/-- R210: the output half of fault entry, on the output fields of s alone. -/
theorem State.closeQuietly_out (s : State) : OutStep s { s.closeQuietly with oclosed := s.oclosed } := by
  unfold State.closeQuietly
  split
  · exact .refl s
  · split
    · exact .refl s
    · split
      · exact .clearAcc s
      · exact (OutStep.clearAcc s).trans (.append _ (Bool.eq_false_of_not_eq_true ‹_›))

/-! ## Acceptance and completion -/

theorem finish_next {r : Res Unit} {t : State} (h : finish r = .next t) :
    (∃ m, r = .ok () m ∧ t = m.complete) ∨ ∃ k m, r = .raise k m ∧ t = faultEntry k m := by
  cases r with
  | ok a m => exact .inl ⟨m, rfl, (Host.Outcome.next.inj h).symm⟩
  | raise k m => exact .inr ⟨k, m, rfl, (Host.Outcome.next.inj h).symm⟩
  | stuck e => exact absurd h (by simp [finish])

@[simp] theorem finish_ok (m : State) : finish (.ok () m) = .next m.complete := rfl
@[simp] theorem finish_raise (k : FaultKind) (m : State) : finish (.raise k m) = .next (faultEntry k m) := rfl

theorem command_idle {i : Instr} {b : State → Res Unit} {s : State} (h : s.sstate = .idle) :
    command i b s = finish (b s.begin) := by
  simp [command, h]

theorem command_fault {i : Instr} {b : State → Res Unit} {s : State} (h : s.sstate = .fault) :
    command i b s = .next s := by
  simp [command, h]

/-- A command in `S_IDLE` that answers a next state has completed or faulted. -/
theorem command_next {i : Instr} {b : State → Res Unit} {s t : State} (hs : s.sstate = .idle)
    (h : command i b s = .next t) :
    (∃ m, b s.begin = .ok () m ∧ t = m.complete) ∨ ∃ k m, b s.begin = .raise k m ∧ t = faultEntry k m :=
  finish_next (command_idle hs ▸ h)

theorem illegalCommand_idle {op : HostOp} {s : State} (h : s.sstate = .idle) :
    illegalCommand op s = .next (faultEntry .illCmd s) := by
  simp [illegalCommand, h]

theorem illegalCommand_fault {op : HostOp} {s : State} (h : s.sstate = .fault) :
    illegalCommand op s = .next s := by
  simp [illegalCommand, h]

/-! ## Node memory and priority structure -/

theorem allocNode_cases (s : State) :
    (s.nnodes.toNat ≠ 513 ∧ allocNode s = .ok s.nnodes s.alloc) ∨
    (s.nnodes.toNat = 513 ∧ allocNode s = .raise .malformed s) := by
  by_cases h : s.nnodes.toNat = 513 <;> simp [allocNode, State.nodesFull, Config.nodeCap, h]

theorem recordLeaf_cases (i : NodeIdx) (v : Symbol) (s : State) :
    (v.toNat ≤ 256 ∧ recordLeaf i v s = .ok () (s.setNode i.toNat (leafNode v 0#32))) ∨
    (256 < v.toNat ∧ recordLeaf i v s = .raise .malformed s) := by
  by_cases h : v.toNat ≤ 256
  · exact .inl ⟨h, by simp [recordLeaf, symbolOk, Config.eosSym, h]⟩
  · exact .inr ⟨by omega, by simp [recordLeaf, symbolOk, Config.eosSym, h]⟩

theorem checkMagic_cases (m : Word) (s : State) :
    (m = s.params.magic ∧ checkMagic m s = .ok () s) ∨
    (m ≠ s.params.magic ∧ checkMagic m s = .raise .badMagic s) := by
  by_cases h : m = s.params.magic <;> simp [checkMagic, h]

theorem moveToChild_ok {b : Bool} {s : State} {nd : Node} (h : getNode s s.cur = some nd) (hl : nd.leaf = false) :
    moveToChild b s = .ok () (s.setCur (if b then nd.right else nd.left)) := by
  simp [moveToChild, h, hl]

theorem pqPlace_perm (e : PqEntry) : ∀ l : List PqEntry, (pqPlace e l).Perm (e :: l)
  | [] => .refl _
  | x :: xs => by
    unfold pqPlace
    split
    · exact .refl _
    · exact ((pqPlace_perm e xs).cons x).trans (.swap e x xs)

@[simp] theorem pqPlace_length (e : PqEntry) (l : List PqEntry) : (pqPlace e l).length = l.length + 1 :=
  (pqPlace_perm e l).length_eq

/-- R18: the key order is a strict total order on the pair of weight and sequence number. -/
theorem keyLt_iff (a b : PqEntry) :
    keyLt a b = true ↔ a.weight.toNat < b.weight.toNat ∨ a.weight = b.weight ∧ a.seq.toNat < b.seq.toNat := by
  simp [keyLt, BitVec.lt_def]

theorem keyLt_trans {a b c : PqEntry} (h : keyLt a b = true) (g : keyLt b c = true) : keyLt a c = true := by
  rw [keyLt_iff] at *
  rcases h with h | ⟨h, h'⟩ <;> rcases g with g | ⟨g, g'⟩
  · exact .inl (by omega)
  · exact .inl (g ▸ h)
  · exact .inl (h ▸ g)
  · exact .inr ⟨h.trans g, by omega⟩

/-- R65: placing an entry keeps the ascending key order. -/
theorem pqPlace_sorted (e : PqEntry) : ∀ l : List PqEntry, l.Pairwise (fun a b => keyLt b a = false) →
    (pqPlace e l).Pairwise (fun a b => keyLt b a = false)
  | [], _ => by simp [pqPlace]
  | x :: xs, h => by
    obtain ⟨hx, hxs⟩ := List.pairwise_cons.mp h
    unfold pqPlace
    split
    · rename_i hlt
      refine List.pairwise_cons.mpr ⟨fun b hb => ?_, h⟩
      rcases List.mem_cons.mp hb with rfl | hb
      · by_contra hc
        have := keyLt_trans hlt (by simpa using hc)
        simp [keyLt_iff] at this
      · by_contra hc
        have := keyLt_trans (a := b) (b := e) (by simpa using hc) hlt
        rw [hx b hb] at this
        simp at this
    · refine List.pairwise_cons.mpr ⟨fun b hb => ?_, pqPlace_sorted e xs hxs⟩
      rcases List.mem_cons.mp ((pqPlace_perm e xs).mem_iff.mp hb) with rfl | hb
      · exact Bool.eq_false_of_not_eq_true ‹_›
      · exact hx b hb

/-- R65: the first entry is taken away, or there is none. -/
theorem popMin_cases (s : State) :
    (s.pqLive = [] ∧ popMin s = .stuck .emptyPq) ∨
    ∃ e rest, s.pqLive = e :: rest ∧ popMin s = .ok e { s with pq := rest, pqLen := s.pqLen - 1#9 } := by
  cases h : s.pqLive with
  | nil => simp [popMin, pqPopMin, h]
  | cons e rest => simp [popMin, pqPopMin, h]

theorem tooHeavy_iff (n : Nat) : tooHeavy n = true ↔ 2 ^ 32 ≤ n := decide_eq_true_iff

theorem mergePair_cases (a b : PqEntry) (s : State) :
    (a.weight.toNat + b.weight.toNat < 2 ^ 32 ∧ mergePair a b s =
      .ok () (((s.setNode s.nnodes.toNat (internalNode (a.weight + b.weight) a.node b.node)).alloc).enqueue
        (a.weight + b.weight) s.nnodes)) ∨
    (2 ^ 32 ≤ a.weight.toNat + b.weight.toNat ∧ mergePair a b s = .raise .overflow s) := by
  by_cases h : 2 ^ 32 ≤ a.weight.toNat + b.weight.toNat
  · exact .inr ⟨h, if_pos (decide_eq_true h)⟩
  · exact .inl ⟨by omega, if_neg fun hc => h (of_decide_eq_true hc)⟩

/-! ## The step -/

/-- A step of a machine in which no command runs performs the host's next access. -/
theorem step_settled {s : State} {op : HostOp} {rest : List HostOp} (h : s.busy = false) (ho : s.hostOps = op :: rest) :
    step s = perform op { s with hostOps := rest } := by
  unfold step sequencerStep
  simp only [State.busy] at h
  cases hs : s.sstate with
  | run p => rw [hs] at h; exact absurd h (by simp [SState.busy])
  | idle => rw [ho]
  | fault => rw [ho]

theorem perform_command (w : Word) (s : State) : perform (.write .word 0 w) s = issue w s := rfl

theorem issue_ok {w : Word} {i : Instr} (h : decodeWord w = .ok i) (s : State) : issue w s = exec i s := by
  simp [issue, h]

/-! ## Host port -/

theorem State.pqDefined_iff (s : State) (i : Nat) :
    s.pqDefined i = true ↔ i = 0 ∧ s.pqLen = 1#9 ∧ s.errCode ≠ FaultKind.overflow.code := by
  simp [State.pqDefined, and_assoc]

theorem hostRead_value {size : AccessSize} {off : Nat} {s : State} {v : Word}
    (h : hostValue s (place s.params size off) = some v) : hostRead size off s = s.deliverData v := by
  simp [hostRead, h]

theorem hostRead_free {size : AccessSize} {off : Nat} {s : State}
    (h : hostValue s (place s.params size off) = none) : hostRead size off s = s.deliverFree := by
  simp [hostRead, h]

/-! ## Tokens of a serialized tree -/

@[simp] theorem openTrees_nil (n : Nat) : openTrees n [] = n := by cases n <;> rfl
@[simp] theorem openTrees_zero (ts : List TreeToken) : openTrees 0 ts = 0 := by cases ts <;> rfl
@[simp] theorem openTrees_internal (n : Nat) (ts : List TreeToken) :
    openTrees (n + 1) (none :: ts) = openTrees (n + 2) ts := rfl
@[simp] theorem openTrees_leaf (n v : Nat) (ts : List TreeToken) :
    openTrees (n + 1) (some v :: ts) = openTrees n ts := rfl

theorem openTrees_append : ∀ (n : Nat) (ts us : List TreeToken),
    openTrees n (ts ++ us) = openTrees (openTrees n ts) us
  | n, [], us => by simp
  | 0, _ :: _, us => by simp
  | n + 1, none :: ts, us => openTrees_append (n + 2) ts us
  | n + 1, some _ :: ts, us => openTrees_append n ts us

/-! ## States at a fault -/

@[simp] theorem State.lostOutput_sstate (s t : State) : (s.lostOutput t).sstate = .fault := rfl
@[simp] theorem State.lostOutput_obuf (s t : State) : (s.lostOutput t).obuf = t.obuf := rfl
@[simp] theorem State.lostOutput_outLen (s t : State) : (s.lostOutput t).outLen = t.outLen := rfl
@[simp] theorem State.lostOutput_pcnt (s t : State) : (s.lostOutput t).pcnt = 0#3 := rfl
@[simp] theorem State.lostOutput_errCode (s t : State) : (s.lostOutput t).errCode = FaultKind.io.code := rfl

/-- R210: after a `PutByte` that could not write, nothing is pending and fault entry adds no byte. -/
theorem faultEntry_io_clear {s : State} (h : s.oclosed = false) (hc : s.pcnt = 0#3) (ha : s.pacc = 0#8) :
    faultEntry .io s = s.lostOutput s := by
  simp [faultEntry, State.closeQuietly, State.close, State.markFault, State.lostOutput, h, hc, ha]

end Sys2Proof.Machine
end

