-- ==== Sys2Proof/Laws/PerInstr.lean ====
section
/-! SUPPORT. Statements for all instructions, one lemma per constructor. Family `Encoding`: how many bits an
instruction has (R82, R87 to R89, R93, R98) and that the commands, and only they, have a command word. -/

namespace Sys2Proof.Laws

/-- R14: `bits_N(v)` has N bits. -/
@[simp] theorem bitsN_length (n v : Nat) : (bitsN n v).length = n := by
  induction n with
  | zero => rfl
  | succ n ih => simp [bitsN, ih]

theorem wordsBits_length : ∀ ws : List Word, (wordsBits ws).length = 32 * ws.length
  | [] => rfl
  | w :: ws => by simp [wordsBits, wordsBits_length ws, Nat.mul_add, Nat.add_comm]

namespace Encoding

/-- The width of the encoding. -/
def bits : Instr → Nat
  | .fcount | .tbuild | .ctgen | .hdrw | .encode | .hdrr | .decode | .rdbits _ | .wrbits _ => 32
  | .flush | .rewind | .init | .magic _ => 32
  | .tInternal | .bLeft | .bRight => 1
  | .tLeaf _ => 10
  | .compress => 256
  | .decompress => 128

/-- The width is that of the tables, and a command word exists exactly for a command. -/
def Statement (i : Instr) : Prop :=
  (encode i).length = bits i ∧ ((encodeWord i).isSome = true ↔ i.context = .command)

theorem of_command {i : Instr} {w : Word} (h : Sys2Proof.encode i = encodeCommand i) (hb : bits i = 32)
    (hw : encodeWord i = some w) (hc : i.context = .command) : Statement i := by
  refine ⟨?_, by simp [hw, hc]⟩
  rw [h, hb, encodeCommand, hw]
  simp

theorem fcount : Statement .fcount := of_command rfl rfl rfl rfl
theorem tbuild : Statement .tbuild := of_command rfl rfl rfl rfl
theorem ctgen : Statement .ctgen := of_command rfl rfl rfl rfl
theorem hdrw : Statement .hdrw := of_command rfl rfl rfl rfl
theorem encode : Statement .encode := of_command rfl rfl rfl rfl
theorem hdrr : Statement .hdrr := of_command rfl rfl rfl rfl
theorem decode : Statement .decode := of_command rfl rfl rfl rfl
theorem rdbits (n : BitVec 6) : Statement (.rdbits n) := of_command rfl rfl rfl rfl
theorem wrbits (n : BitVec 6) : Statement (.wrbits n) := of_command rfl rfl rfl rfl
theorem flush : Statement .flush := of_command rfl rfl rfl rfl
theorem rewind : Statement .rewind := of_command rfl rfl rfl rfl
theorem init : Statement .init := of_command rfl rfl rfl rfl
theorem magic (m : Word) : Statement (.magic m) := ⟨bitsN_length 32 m.toNat, by simp [encodeWord, Instr.context]⟩
theorem tInternal : Statement .tInternal := ⟨rfl, by decide⟩
theorem tLeaf (v : Symbol) : Statement (.tLeaf v) :=
  ⟨by simp [Sys2Proof.encode, bits], by simp [encodeWord, Instr.context]⟩
theorem bLeft : Statement .bLeft := ⟨rfl, by decide⟩
theorem bRight : Statement .bRight := ⟨rfl, by decide⟩
theorem compress : Statement .compress := ⟨wordsBits_length compressWords, by decide⟩
theorem decompress : Statement .decompress := ⟨wordsBits_length decompressWords, by decide⟩

end Encoding

end Sys2Proof.Laws
end

