-- ==== Sys2Proof/Tests/Slice0.lean ====
section
/-! SUPPORT. Tests of the model: ill-formed terms, words written out from the encoding tables (30_encoding.md), single
steps whose results are those of 95_test_vectors.md, and for each statement with hypotheses a state that meets them. -/

namespace Sys2Proof.Tests

set_option Elab.async false

open Sys2Proof.Machine

/-! ## Ill-formed terms are refused (R84, R85, R91) -/

theorem test_wf_rdbits_zero : (Instr.rdbits 0#6).wf = false := by decide
theorem test_wf_rdbits_33 : (Instr.rdbits 33#6).wf = false := by decide
theorem test_wf_wrbits_zero : (Instr.wrbits 0#6).wf = false := by decide
theorem test_wf_wrbits_63 : (Instr.wrbits 63#6).wf = false := by decide
theorem test_wf_tLeaf_257 : (Instr.tLeaf 257#9).wf = false := by decide
theorem test_wf_tLeaf_511 : (Instr.tLeaf 511#9).wf = false := by decide
theorem test_wf_bounds :
    (Instr.rdbits 1#6).wf = true ∧ (Instr.rdbits 32#6).wf = true ∧ (Instr.wrbits 1#6).wf = true ∧
    (Instr.wrbits 32#6).wf = true ∧ (Instr.tLeaf 0#9).wf = true ∧ (Instr.tLeaf 256#9).wf = true := by decide

/-! ## Decoding: words written out from R82, R83, R87 to R89, R93, R193, R194 -/

theorem test_decode_fcount : decodeWord 0x00000001#32 = .ok .fcount := by decide
theorem test_decode_tbuild : decodeWord 0x00000002#32 = .ok .tbuild := by decide
theorem test_decode_ctgen : decodeWord 0x00000003#32 = .ok .ctgen := by decide
theorem test_decode_hdrw : decodeWord 0x00000004#32 = .ok .hdrw := by decide
theorem test_decode_encode : decodeWord 0x00000005#32 = .ok .encode := by decide
theorem test_decode_hdrr : decodeWord 0x00000006#32 = .ok .hdrr := by decide
theorem test_decode_decode : decodeWord 0x00000007#32 = .ok .decode := by decide
/-- 95_test_vectors.md V1 (0x38 is `RDBITS 3`) and P4 (0x208 is `RDBITS 32`). -/
theorem test_decode_rdbits :
    decodeWord 0x00000038#32 = .ok (.rdbits 3#6) ∧ decodeWord 0x00000208#32 = .ok (.rdbits 32#6) := by decide
/-- R97: `WRBITS 9` is 0x00000099; P4: `WRBITS 1` is 0x19. -/
theorem test_decode_wrbits :
    decodeWord 0x00000099#32 = .ok (.wrbits 9#6) ∧ decodeWord 0x00000019#32 = .ok (.wrbits 1#6) := by decide
theorem test_decode_flush : decodeWord 0x0000000A#32 = .ok .flush := by decide
theorem test_decode_rewind : decodeWord 0x0000000B#32 = .ok .rewind := by decide
theorem test_decode_init : decodeWord 0x0000000C#32 = .ok .init := by decide
theorem test_decode_magic : decode .header
    [true, true, true, true, true, false, true, false, true, true, false, false, true, true, true, false,
     true, false, false, false, false, false, true, false, false, false, false, false, false, false, false, true] =
    .ok (.magic 0xFACE8201#32, []) := by decide
theorem test_decode_tInternal : decode .tree [false, true] = .ok (.tInternal, [true]) := by decide
/-- 95_test_vectors.md S1: `1 001000001` is `L(65)`, `1 100000000` is `L(EOF)`. -/
theorem test_decode_tLeaf :
    decode .tree [true, false, false, true, false, false, false, false, false, true] = .ok (.tLeaf 65#9, []) ∧
    decode .tree [true, true, false, false, false, false, false, false, false, false] = .ok (.tLeaf 256#9, []) := by
  decide
/-- 95_test_vectors.md V24: `1 100000001` is reserved. -/
theorem test_decode_tLeaf_reserved :
    decode .tree [true, true, false, false, false, false, false, false, false, true] = .error .reservedLeaf := by decide
theorem test_decode_bLeft : decode .branch [false] = .ok (.bLeft, []) := by decide
theorem test_decode_bRight : decode .branch [true] = .ok (.bRight, []) := by decide
theorem test_decode_compress : decode .script
    (wordsBits [0x0000000C#32, 0x00000001#32, 0x00000002#32, 0x00000003#32, 0x0000000B#32, 0x00000004#32,
      0x00000005#32, 0x0000000A#32]) = .ok (.compress, []) := by decide +kernel
theorem test_decode_decompress : decode .script
    (wordsBits [0x0000000C#32, 0x00000006#32, 0x00000007#32, 0x0000000A#32]) = .ok (.decompress, []) := by
  decide +kernel

/-- 95_test_vectors.md V37: the illegal words. -/
theorem test_decode_illegal :
    decodeWord 0x00000000#32 = .error .reservedOp ∧ decodeWord 0x0000000D#32 = .error .reservedOp ∧
    decodeWord 0x0000000E#32 = .error .reservedOp ∧ decodeWord 0x0000000F#32 = .error .reservedOp ∧
    decodeWord 0x00000008#32 = .error .countOutOfRange ∧ decodeWord 0x00000218#32 = .error .countOutOfRange ∧
    decodeWord 0x000003F9#32 = .error .countOutOfRange ∧ decodeWord 0x00000011#32 = .error .countNotAllowed ∧
    decodeWord 0x0000040C#32 = .error .reservedBits ∧ decodeWord 0x80000001#32 = .error .reservedBits := by decide

/-- The opcode table's numbering of one row of each context. -/
theorem test_table_words :
    decodeTableWord 32 0x00000099 = some (.wrbits 9#6) ∧ decodeTableWord 32 0x00000218 = none ∧
    decodeTableWord 32 0xFACE8201 = some (.magic 0xFACE8201#32) ∧
    decodeTableWord 16 0x241 = some (.tLeaf 65#9) ∧ decodeTableWord 8 1 = some .bRight ∧
    decodeTableWord 8 0 = some .bLeft := by decide

/-- R97: `WRBITS 9`. -/
theorem test_asm : (Instr.wrbits 9#6).asm = "WRBITS 9" := by decide

/-! ## States -/

/-- Small memories, no access error. -/
def small : Params := { Params.default with ibufCap := 64, obufCap := 64 }

/-- After reset. -/
def start : State := State.resetWith small Contents.empty

/-- After reset, with an input. -/
def input (bs : List Byte) : State := start.loadInput bs

/-- Whether an outcome is a next state with a property. -/
def holds (o : Host.Outcome State Fault Refusal) (p : State → Bool) : Bool :=
  match o with
  | .next t => p t
  | .fault _ => false
  | .refused _ => false

theorem exists_of_holds {o : Host.Outcome State Fault Refusal} {p : State → Bool} (h : holds o p = true) :
    ∃ t, o = .next t ∧ p t = true := by
  cases o with
  | next t => exact ⟨t, rfl, h⟩
  | fault r => exact absurd h (by simp [holds])
  | refused r => exact absurd h (by simp [holds])

/-- The next state of an instruction, the state itself where it stops. -/
def after (i : Instr) (s : State) : State :=
  match exec i s with
  | .next t => t
  | .fault _ => s
  | .refused _ => s

/-- The tree `N(L(97), L(EOF))` in `NODE`. -/
def twoLeaves : State :=
  { start with
    node := [(0, internalNode 0#32 1#10 2#10), (1, leafNode 97#9 0#32), (2, leafNode 256#9 0#32)]
    nnodes := 3#10, root := 0#10, treeValid := true }

/-- Its code table: 97 = `0`, 256 = `1`. -/
def withCodes : State :=
  { twoLeaves with
    codeValid := true
    code := [(97, { valid := true, len := 1#9, val := 0#256 }), (256, { valid := true, len := 1#9, val := 1#256 })] }

def twoTree : Tree := .node (.leaf 97) (.leaf 256)

/-- A one-leaf tree in `NODE`. -/
def oneLeaf (sym : Symbol) : State :=
  { start with node := [(0, leafNode sym 0#32)], nnodes := 1#10, root := 0#10, treeValid := true }

/-- The counts of V10: `41 41 42`. -/
def counts : State := { start with freq := [(65, 2#32), (66, 1#32), (256, 1#32)] }

/-- The header of `N(L(97), L(EOF))`: `FA CE 82 01`, then `0 1 001100001 1 100000000`. -/
def twoHeader : List Byte := [0xFA#8, 0xCE#8, 0x82#8, 0x01#8, 0x4C#8, 0x38#8, 0x00#8]

/-! ## Single steps, with the results of 95_test_vectors.md -/

/-- V1. -/
theorem test_rdbits : holds (exec (.rdbits 3#6) (input [0xFA#8, 0xCE#8, 0x82#8, 0x01#8, 0x48#8]))
    (fun t => t.rdata = 7#32 && t.upos = 3#32 && !t.eos && t.done) = true := by decide +kernel
/-- V2. -/
theorem test_rdbits_eos : holds (exec (.rdbits 8#6) { input [0xFA#8] with upos := 3#32, rdata := 9#32 })
    (fun t => t.rdata = 9#32 && t.upos = 3#32 && t.eos && t.done && !t.err) = true := by decide +kernel
/-- V4. -/
theorem test_wrbits : holds
    (exec (.wrbits 32#6) { start with pacc := 5#8, pcnt := 3#3, wdata := 0xFACE8201#32 })
    (fun t => t.output = [0xBF#8, 0x59#8, 0xD0#8, 0x40#8] && t.pacc = 1#8 && t.pcnt = 3#3) = true := by decide +kernel
/-- V9: the memory is full at the second byte. -/
theorem test_wrbits_full : holds
    (exec (.wrbits 16#6)
      { State.resetWith { small with obufCap := 1 } Contents.empty with wdata := 0xABCD#32 })
    (fun t => t.output = [0xAB#8] && t.errCode = 3#3 && t.statusWord = 0x44#32 && t.pcnt = 0#3) = true := by
  decide +kernel
/-- V4, the flush. -/
theorem test_flush : holds (exec .flush { start with pacc := 1#8, pcnt := 3#3 })
    (fun t => t.output = [0x20#8] && t.oclosed && t.pcnt = 0#3 && t.done) = true := by decide +kernel
/-- V3. -/
theorem test_rewind : holds (exec .rewind { start with upos := 8#32, eos := true })
    (fun t => t.upos = 0#32 && t.eos && t.done) = true := by decide +kernel
/-- V10a. -/
theorem test_fcount : holds (exec .fcount (input [0x41#8, 0x41#8, 0x42#8]))
    (fun t => t.freq = [(65, 2#32), (66, 1#32), (256, 1#32)] && t.upos = 24#32) = true := by decide +kernel
/-- V10. -/
theorem test_tbuild : holds (exec .tbuild counts)
    (fun t => t.node = [(0, leafNode 65#9 2#32), (1, leafNode 66#9 1#32), (2, leafNode 256#9 1#32),
        (3, internalNode 2#32 1#10 2#10), (4, internalNode 4#32 0#10 3#10)] &&
      t.root = 4#10 && t.nnodes = 5#10 && t.seq = 5#10 && t.pq = [⟨4#32, 4#10, 4#10⟩]) = true := by decide +kernel
/-- V15. -/
theorem test_tbuild_overflow : holds (exec .tbuild { start with freq := [(0, 0xFFFFFFFF#32), (1, 1#32)] })
    (fun t => t.errCode = 6#3 && t.nnodes = 2#10 && t.pqLen = 0#9 && !t.treeValid) = true := by decide +kernel
/-- V17. -/
theorem test_ctgen : holds (exec .ctgen (after .tbuild counts))
    (fun t => t.code = [(65, ⟨true, 1#9, 0#256⟩), (66, ⟨true, 2#9, 2#256⟩), (256, ⟨true, 2#9, 3#256⟩)] &&
      t.codeValid) = true := by decide +kernel
/-- V20. -/
theorem test_hdrw : holds (exec .hdrw (after .tbuild counts))
    (fun t => t.output = [0xFA#8, 0xCE#8, 0x82#8, 0x01#8, 0x48#8, 0x29#8, 0x0B#8, 0x00#8] && t.pcnt = 0#3) = true := by
  decide +kernel
/-- V27, the codes of `41 41 42` and the terminator. -/
theorem test_encode : holds
    (exec .encode { input [0x41#8, 0x41#8, 0x42#8] with
      codeValid := true
      code := [(65, ⟨true, 1#9, 0#256⟩), (66, ⟨true, 2#9, 2#256⟩), (256, ⟨true, 2#9, 3#256⟩)] })
    (fun t => t.pacc = 0x0B#8 && t.pcnt = 6#3 && t.upos = 24#32 && t.outLen = 0#29) = true := by decide +kernel
/-- V21. -/
theorem test_hdrr : holds
    (exec .hdrr (input [0xFA#8, 0xCE#8, 0x82#8, 0x01#8, 0x48#8, 0x29#8, 0x0B#8, 0x00#8, 0x2C#8]))
    (fun t => t.node = [(0, internalNode 0#32 1#10 2#10), (1, leafNode 65#9 0#32), (2, internalNode 0#32 3#10 4#10),
        (3, leafNode 66#9 0#32), (4, leafNode 256#9 0#32)] &&
      t.root = 0#10 && t.nnodes = 5#10 && t.upos = 64#32 && t.treeValid) = true := by decide +kernel
/-- S4. -/
theorem test_hdrr_magic : holds (exec .hdrr (input [0xFA#8, 0xCE#8, 0x82#8, 0x00#8, 0xC0#8, 0x00#8]))
    (fun t => t.errCode = 1#3 && t.upos = 32#32 && t.nnodes = 0#10 && t.statusWord = 0x44#32) = true := by
  decide +kernel
/-- V36: two leaves, the empty output. -/
theorem test_decode : holds
    (exec .decode { input [0x00#8] with
      node := [(0, internalNode 0#32 1#10 2#10), (1, leafNode 256#9 0#32), (2, leafNode 0#9 0#32)]
      nnodes := 3#10, treeValid := true })
    (fun t => t.outLen = 0#29 && t.upos = 1#32 && t.cur = 1#10 && t.done) = true := by decide +kernel
/-- V41. -/
theorem test_init : holds (exec .init { start with upos := 5#32, inLen := 3#29, err := true, sstate := .fault })
    (fun t => t.statusWord = 0x02#32 && t.upos = 0#32 && t.inLen = 3#29) = true := by decide +kernel
/-- V40. -/
theorem test_illegal_flushes : holds
    (step { start with pacc := 5#8, pcnt := 3#3, hostOps := [.write .word 0 0#32] })
    (fun t => t.errCode = 7#3 && t.output = [0xA0#8] && t.pcnt = 0#3 && t.oclosed) = true := by decide +kernel
/-- S4: a wrong magic value read as a token. -/
theorem test_magic : holds (exec (.magic 0xFACE8200#32) start) (fun t => t.errCode = 1#3) = true := by decide +kernel
/-- V21 token by token: the root is allocated and waits for its children. -/
theorem test_tInternal : holds (exec .tInternal start)
    (fun t => t.nnodes = 1#10 && t.stk = [(0#10, false)] && t.sp = 1#10) = true := by decide +kernel
/-- V21, its last leaf: nodes 2 and 0 get both children, the stack is empty. -/
theorem test_tLeaf : holds
    (exec (.tLeaf 256#9) { start with nnodes := 4#10, stk := [(2#10, true), (0#10, true)], sp := 2#10 })
    (fun t => getNode t 2#10 = some (internalNode 0#32 3#10 4#10) && t.sp = 0#10) = true := by decide +kernel
/-- V30, `UPOS` 64 and 66. -/
theorem test_branches : holds (exec .bLeft twoLeaves) (fun t => t.cur = 1#10) = true ∧
    holds (exec .bRight twoLeaves) (fun t => t.cur = 2#10) = true := by decide +kernel
/-- E2: `41`. -/
theorem test_compress : holds (exec .compress (input [0x41#8]))
    (fun t => t.output = [0xFA#8, 0xCE#8, 0x82#8, 0x01#8, 0x48#8, 0x38#8, 0x02#8] && t.statusWord = 0x72#32) = true := by
  decide +kernel
/-- P6. -/
theorem test_decompress : holds (exec .decompress (input [0xFA#8, 0xCE#8, 0x82#8, 0x01#8, 0xC0#8, 0x00#8]))
    (fun t => t.statusWord = 0x52#32 && t.nnodes = 1#10 && t.upos = 42#32 && t.outLen = 0#29) = true := by
  decide +kernel
/-- R51: the upper word of `NODE[0]` = internal(1, 2). -/
theorem test_host_node : (hostRead .word 0x1004 twoLeaves).hostData = 0x00000402#32 := by decide +kernel

/-- V10 and R51: `PQ[0]` = (4, 4, node 4), read by the host. -/
theorem test_host_pq : (hostRead .word 0x3000 (after .tbuild counts)).hostData = 4#32 ∧
    (hostRead .word 0x3004 (after .tbuild counts)).hostData = 0x00001004#32 := by decide +kernel
/-- R51: `CODE[256]` of N(L(97), L(EOF)) is the one bit 1. -/
theorem test_host_code : (hostRead .word 0x8000 withCodes).hostData = 0x80000001#32 ∧
    (hostRead .word 0x8004 withCodes).hostData = 1#32 := by decide +kernel
/-- U10: after a TBUILD that overflowed no entry of `PQ` is defined; with three counts one entry stays in it. -/
theorem test_host_pq_overflow :
    let s := after .tbuild { start with freq := [(0, 0xFFFFFFFF#32), (1, 0xFFFFFFFF#32), (2, 0xFFFFFFFF#32)] }
    s.pqLen = 1#9 ∧ hostValue s (.pq 0 false) = none := by decide +kernel

/-- The first step after a command word is placed runs it. -/
theorem test_fetch : holds (step (State.reset.withFetchWord 32 0x0000000C)) (fun t => t.statusWord = 2#32) = true := by
  decide +kernel

/-! ## For each statement with hypotheses, states and operands that meet them -/

set_option synthInstance.maxSize 2000

/-- The host's next access is a word written to `CMD`. -/
def writes (w : Word) (s : State) : State := { s with hostOps := [.write .word 0 w] }

/-- A machine in the fault state. -/
def faulted : State := faultEntry .illCmd start

theorem witness_EncodeGivesBackWord : decodeWord 0x00000218#32 ≠ .ok (.rdbits 33#6) ∧
    decodeWord 0x00000208#32 = .ok (.rdbits 32#6) ∧ decodeWord 0x00000018#32 = .ok (.rdbits 1#6) := by decide

theorem witness_IllegalWordsRaiseIllcmd :
    Ready start ∧ IllegalWord 0x0#32 ∧ IllegalWord 0xD#32 ∧ IllegalWord 0xF#32 ∧ IllegalWord 0x401#32 ∧ IllegalWord 0x80000001#32 ∧
    IllegalWord 0x8#32 ∧ IllegalWord 0x218#32 ∧ IllegalWord 0x9#32 ∧ IllegalWord 0x3F9#32 ∧ IllegalWord 0x11#32 ∧
    ¬IllegalWord 0x18#32 ∧ ¬IllegalWord 0x209#32 :=
  ⟨by decide, by decide, by decide, by decide, by decide, by decide, by decide, by decide, by decide, by decide,
    by decide, by decide, by decide⟩

theorem witness_StepRunsDecodedCommand :
    ((writes 0x1#32 start).busy = false ∧ (writes 0x1#32 start).hostOps = .write .word 0 0x1#32 :: [] ∧
      decodeWord 0x1#32 = .ok .fcount) ∧
    ({ start with hostOps := [.pseudo .compress] } : State).busy = false := by decide +kernel

theorem witness_StepRunsDecodedCommand_accesses :
    let s : State := { start with hostOps := [.read .word 0x1004] }
    let r : State := { faulted with hostOps := [.reset Contents.empty] }
    s.busy = false ∧ s.hostOps = .read .word 0x1004 :: [] ∧
    ({ start with hostOps := [.write .byte 0 5#32] } : State).busy = false ∧
    ¬(AccessSize.byte = .word ∧ (0 : Nat) = 0) ∧ ¬(AccessSize.word = .word ∧ (0x20 : Nat) = 0) ∧
    r.busy = false ∧ r.hostOps = .reset Contents.empty :: [] ∧ start.hostOps = [] := by decide +kernel

/-- The machine in a phase of a unit. -/
def inPhase (p : Phase) (s : State) : State := s.goto p

theorem witness_StepRunsDecodedToken_branch :
    (inPhase .dBit { input [0x80#8] with hostOps := [.write .word 0x20 5#32] }).sstate = .run .dBit ∧
    (∃ t, needBits 1 (inPhase .dBit { input [0x80#8] with hostOps := [.write .word 0x20 5#32] }) = .ok 1#32 t) ∧
    decode .branch [1#32 != 0#32] = .ok (.bRight, []) :=
  ⟨rfl, ⟨_, rfl⟩, by decide⟩

theorem witness_StepRunsDecodedToken_tree :
    (inPhase .hTree (input [0x00#8])).sstate = .run .hTree ∧
    (∃ t, fetchTreeToken (inPhase .hTree (input [0x00#8])) = .ok [false] t) ∧
    decode .tree [false] = .ok (.tInternal, []) :=
  ⟨rfl, ⟨_, rfl⟩, by decide⟩

theorem witness_StepRunsDecodedToken_magic :
    (inPhase .hMagic (input [0xFA#8, 0xCE#8, 0x82#8, 0x01#8])).sstate = .run .hMagic ∧
    (∃ t, needBits 32 (inPhase .hMagic (input [0xFA#8, 0xCE#8, 0x82#8, 0x01#8])) = .ok 0xFACE8201#32 t) ∧
    decode .header (bitsN 32 (0xFACE8201#32).toNat) = .ok (.magic 0xFACE8201#32, []) :=
  ⟨rfl, ⟨(inPhase .hMagic (input [0xFA#8, 0xCE#8, 0x82#8, 0x01#8])).advance 32, by decide +kernel⟩, by decide +kernel⟩

theorem witness_NothingUrgent : NothingUrgent (inPhase .dBit { start with hostOps := [.write .word 0x20 5#32] }) := by
  intro op h
  cases h
  decide

theorem witness_AcceptanceOfCommandWrites :
    Ready start ∧ decodeWord 0xA#32 = .ok .flush ∧ (∃ t, exec .flush start = .next t ∧ t.done = true) ∧
    decodeWord 0x3#32 = .ok .ctgen ∧ (∃ t, exec .ctgen start = .next t ∧ t.err = true) ∧
    decodeWord 0xD#32 = .error .reservedOp ∧
    faulted.sstate = .fault ∧ decodeWord 0xC#32 = .ok .init ∧ decodeWord 0x0#32 ≠ .ok .init :=
  ⟨by decide, by decide, exists_of_holds (p := fun t => t.done) (by decide +kernel), by decide,
    exists_of_holds (p := fun t => t.err) (by decide +kernel), by decide, by decide, by decide, by decide⟩

theorem witness_AccessesHeldWhileBusy :
    (inPhase .dStart (writes 0xA#32 twoLeaves)).busy = true ∧ isReset (.write .word 0 0xA#32) = false ∧
    isStatusRead (.write .word 0 0xA#32) = false ∧
    (∃ t, step (inPhase .dStart (writes 0xA#32 twoLeaves)) = .next t) ∧
    ({ inPhase .dStart twoLeaves with hostOps := [.read .word 0x04] } : State).busy = true :=
  ⟨by decide, by decide, by decide, ⟨_, rfl⟩, by decide⟩

theorem witness_AccessesHeldWhileBusy_reset :
    let s : State := { inPhase .dStart twoLeaves with hostOps := [.reset Contents.empty] }
    s.busy = true ∧ s.hostOps = .reset Contents.empty :: [] := by decide

theorem witness_ResetMeetsInvariant : small.Ok ∧ Params.default.Ok := by decide

theorem witness_InitStartsNewOperation : start.busy = false ∧ faulted.busy = false := by decide +kernel

theorem witness_InitAgainstReset : start.busy = false ∧ faulted.busy = false := by decide +kernel

theorem witness_OnlyInitLeavesFault :
    Instr.fcount.context = .command ∧ Instr.fcount ≠ .init ∧ faulted.sstate = .fault ∧
    (∃ t, step (writes 0xC#32 faulted) = .next t ∧ decide (t.sstate ≠ .fault) = true) ∧
    (∃ t, step { faulted with hostOps := [.pseudo .compress] } = .next t ∧ decide (t.sstate ≠ .fault) = true) ∧
    (∃ t, step { faulted with hostOps := [.reset Contents.empty] } = .next t ∧ decide (t.sstate ≠ .fault) = true) :=
  ⟨by decide, by decide, by decide, exists_of_holds (by decide +kernel), exists_of_holds (by decide +kernel),
    exists_of_holds (by decide +kernel)⟩

/-- 32 bits of input. -/
def fourBytes : State := input [0xFA#8, 0xCE#8, 0x82#8, 0x01#8]

theorem witness_RdbitsReadsStreamBits :
    Ready fourBytes ∧ countOk 32#6 = true ∧ countOk 1#6 = true ∧
    ({ fourBytes with upos := 1#32 } : State).restBits.length < (32#6).toNat ∧
    start.restBits.length < (1#6).toNat ∧
    ((32#6).toNat ≤ fourBytes.restBits.length ∧
      ∀ k, k < (32#6).toNat → (fourBytes.upos.toNat + k) / 8 ∉ fourBytes.params.inErr) ∧
    (∃ k, k < (32#6).toNat ∧ (fourBytes.upos.toNat + k) / 8 ∈ [3]) ∧
    countOk 0#6 = false ∧ countOk 33#6 = false :=
  ⟨by decide, by decide, by decide, by decide +kernel, by decide +kernel, by decide +kernel, ⟨31, by decide +kernel⟩,
    by decide, by decide⟩

/-- Seven pending bits and room for exactly four bytes more. -/
def almostFull : State := { start with pacc := 0x7F#8, pcnt := 7#3, outLen := 60#29, wdata := 0xFFFFFFFF#32 }

theorem witness_WrbitsAppendsBits :
    Ready almostFull ∧ countOk 32#6 = true ∧ OutputOpen almostFull ∧ Room almostFull (32#6).toNat ∧
    ({ start with oclosed := true } : State).oclosed = true ∧ Ready { start with oclosed := true } ∧
    countOk 0#6 = false ∧ countOk 33#6 = false := by decide +kernel

theorem witness_WrbitsAppendsBits_without_room :
    Ready { almostFull with outLen := 64#29 } ∧ countOk 1#6 = true ∧ OutputOpen { almostFull with outLen := 64#29 } ∧
    small.Ok ∧ (64#29).toNat + 0 ≤ small.obufCap ∧ 0 < (almostFull.pcnt.toNat + (1#6).toNat) / 8 ∧
    (64#29).toNat + 0 = small.obufCap ∧ 3 < (almostFull.pcnt.toNat + (32#6).toNat) / 8 ∧
    (∀ i, i < 3 → almostFull.outLen.toNat + i ∉ [63]) ∧ almostFull.outLen.toNat + 3 ∈ [63] := by decide +kernel

theorem witness_FlushClosesOutput :
    Ready start ∧ (start.oclosed = false ∧ start.pcnt = 0#3) ∧ Ready almostFull ∧
    (almostFull.oclosed = false ∧ almostFull.pcnt ≠ 0#3 ∧ almostFull.outLen.toNat ≠ small.obufCap ∧
      almostFull.outLen.toNat ∉ almostFull.params.outErr) ∧
    ({ almostFull with outLen := 64#29 } : State).outLen.toNat = small.obufCap ∧
    Ready { start with oclosed := true } := by decide +kernel

theorem witness_FlushPadsWithZeros :
    Ready { almostFull with outLen := 63#29 } ∧ OutputOpen { almostFull with outLen := 63#29 } ∧
    almostFull.pcnt ≠ 0#3 ∧ Room { almostFull with outLen := 63#29 } (8 - almostFull.pcnt.toNat) := by decide +kernel

theorem witness_RewindResetsPosition : Ready { start with upos := 24#32 } := by decide

theorem witness_FcountCountsSymbols : Ready fourBytes ∧ Readable fourBytes := by decide +kernel

theorem witness_FcountFromStartCountsBytes :
    Ready fourBytes ∧ fourBytes.upos = 0#32 ∧
    ∃ t, exec .fcount fourBytes = .next t ∧ decide (t.sstate = .idle) = true :=
  ⟨by decide, by decide, exists_of_holds (by decide +kernel)⟩

theorem witness_FcountCountsSymbols_read_error :
    let s : State := { fourBytes with params := { small with inErr := [3] }, upos := 1#32 }
    Ready s ∧ 2 < s.restSymbols.length ∧ (∀ p, p < s.upos.toNat + 8 * 2 → s.upos.toNat ≤ p → p / 8 ∉ s.params.inErr) ∧
    (s.upos.toNat + 8 * 2 ≤ 24 ∧ 24 < s.upos.toNat + 8 * (2 + 1) ∧ 24 / 8 ∈ s.params.inErr) := by
  decide +kernel

theorem witness_TbuildBuildsWellFormedTree :
    Ready counts ∧ counts.counted ≠ [] ∧ counts.totalCount < 2 ^ 32 ∧
    ({ start with freq := [(0, 0xFFFFFFFF#32)] } : State).totalCount < 2 ^ 32 := by decide +kernel

theorem witness_TbuildNodeLayout :
    Ready counts ∧ (∃ t, exec .tbuild counts = .next t ∧
      (decide (t.sstate = .idle) && decide (counts.counted.length ≤ 4) && decide (4 < t.nnodes.toNat)) = true) ∧
    counts.counted[2]? = some 256 :=
  ⟨by decide, exists_of_holds (by decide +kernel), by decide +kernel⟩

theorem witness_TbuildFaults :
    Ready start ∧ start.counted = [] ∧
    2 ^ 32 ≤ ({ start with freq := [(0, 0xFFFFFFFF#32), (1, 1#32)] } : State).totalCount := by decide +kernel

theorem witness_TbuildSmallTables :
    ({ start with freq := [(7, 9#32)] } : State).counted = [7] ∧
    ({ start with freq := [(65, 2#32), (256, 1#32)] } : State).counted = [65, 256] ∧
    ({ start with freq := [(65, 1#32), (256, 1#32)] } : State).totalCount < 2 ^ 32 := by decide +kernel

theorem witness_TbuildDependsOnCountsOnly :
    Ready counts ∧ (∃ t, exec .tbuild counts = .next t ∧ decide (t.sstate = .idle) = true) ∧
    (∀ i, i < 257 → counts.freqAt i = ({ counts with upos := 9#32 } : State).freqAt i) ∧
    ∃ t, exec .tbuild { counts with upos := 9#32 } = .next t ∧ decide (t.sstate = .idle) = true :=
  ⟨by decide, exists_of_holds (by decide +kernel), by decide +kernel, exists_of_holds (by decide +kernel)⟩

theorem witness_CtgenAssignsPaths : Ready twoLeaves ∧ HoldsTree twoLeaves twoTree ∧ Ready start ∧ start.treeValid = false := by
  decide +kernel

theorem witness_CodesArePrefixFree :
    Inv withCodes ∧ withCodes.codeValid = true ∧ (codeAt withCodes.code 97).valid = true ∧
    (codeAt withCodes.code 256).valid = true := by decide +kernel

theorem witness_HdrwWritesHeader :
    Ready twoLeaves ∧ HoldsTree twoLeaves twoTree ∧ OutputOpen { twoLeaves with outLen := 58#29 } ∧
    Room { twoLeaves with outLen := 58#29 } (32 + twoTree.ser.length) ∧
    HoldsTree { twoLeaves with oclosed := true } twoTree := by decide +kernel

theorem witness_HdrwWritesHeader_without_room :
    WriteBlocked { twoLeaves with outLen := 60#29 } 4 (32 + twoTree.ser.length) ∧
    WriteBlocked { twoLeaves with params := { small with outErr := [2] } } 2 (32 + twoTree.ser.length) := by
  decide +kernel

theorem witness_HdrrReadsHeader :
    Ready (input twoHeader) ∧ Readable (input twoHeader) ∧ twoTree.size ≤ 513 ∧ (∀ x ∈ twoTree.symbols, x ≤ 256) ∧
    (input twoHeader).restBits = bitsN 32 small.magic.toNat ++ twoTree.ser ++ [false, false, false] := by
  decide +kernel

/-- `twoHeader` with a byte that cannot be read. -/
def unreadable (i : Nat) : State := { input twoHeader with params := { small with inErr := [i] } }

theorem witness_HdrrReadsHeader_read_error_magic :
    Ready (unreadable 3) ∧ 32 ≤ (unreadable 3).restBits.length ∧ BitsUnreadable (unreadable 3) 0 32 :=
  ⟨by decide, by decide +kernel, ⟨31, by decide⟩⟩

theorem witness_HdrrReadsHeader_read_error_marker :
    let ts : List TreeToken := []
    TreePrefix ts ∧ (unreadable 4).restBits =
      bitsN 32 small.magic.toNat ++ ts.flatMap tokenBits ++ false :: (twoTree.ser ++ [false, false, false]).drop 1 ∧
    BitsReadable (unreadable 4) 0 (32 + (ts.flatMap tokenBits).length) ∧
    (0 + 32 + (ts.flatMap tokenBits).length) / 8 ∈ (unreadable 4).params.inErr := by decide +kernel

theorem witness_HdrrReadsHeader_read_error_field :
    let ts : List TreeToken := [none]
    TreePrefix ts ∧ ts.length < 513 ∧ (unreadable 5).restBits =
      bitsN 32 small.magic.toNat ++ ts.flatMap tokenBits ++ true :: bitsN 9 (97#9).toNat ++
        ((Tree.leaf 256).ser ++ [false, false, false]) ∧
    BitsReadable (unreadable 5) 0 (32 + (ts.flatMap tokenBits).length + 1) ∧
    BitsUnreadable (unreadable 5) (0 + 32 + (ts.flatMap tokenBits).length + 1) 9 :=
  ⟨by decide, by decide, by decide +kernel, by decide +kernel, ⟨6, by decide⟩⟩

theorem witness_HdrrChecksMagic :
    Ready fourBytes ∧ Readable fourBytes ∧ ({ fourBytes with upos := 1#32 } : State).restBits.length = 31 ∧
    (input [0xFA#8, 0xCE#8, 0x82#8, 0x00#8]).restBits.length = 32 ∧
    (input [0xFA#8, 0xCE#8, 0x82#8, 0x00#8]).restBits.take 32 ≠ bitsN 32 small.magic.toNat := by decide +kernel

theorem witness_HdrrCutHeaderIsTruncated :
    Ready fourBytes ∧ Readable fourBytes ∧
    fourBytes.restBits <+: bitsN 32 small.magic.toNat ++ twoTree.ser ∧
    fourBytes.restBits ≠ bitsN 32 small.magic.toNat ++ twoTree.ser := by decide +kernel

theorem witness_HdrrCutHeaderIsTruncated_tokens :
    let s : State := { input twoHeader with inLen := 5#29, upos := 0#32 }
    let f : List Bool := [false, false, true, true, false, false]
    TreePrefix [] ∧ fourBytes.restBits = bitsN 32 small.magic.toNat ++ ([] : List TreeToken).flatMap tokenBits ∧
    TreePrefix [none] ∧ f.length < 9 ∧
    s.restBits = bitsN 32 small.magic.toNat ++ [none].flatMap tokenBits ++ true :: f ∧
    TreePrefix (List.replicate 513 none) ∧ TreePrefix (List.replicate 512 none) := by decide +kernel

theorem witness_HdrrRefusesMalformed :
    (input [0xFA#8, 0xCE#8, 0x82#8, 0x01#8, 0xC0#8, 0x40#8]).restBits =
      bitsN 32 small.magic.toNat ++ ([] : List TreeToken).flatMap tokenBits ++ true :: bitsN 9 (257#9).toNat ++
        List.replicate 6 false ∧
    TreePrefix (List.replicate 513 none) ∧ (List.replicate 513 (none : TreeToken)).length = 513 ∧
    ((State.resetWith Params.default Contents.empty).loadInput
        ([0xFA#8, 0xCE#8, 0x82#8, 0x01#8] ++ List.replicate 65 0#8)).restBits =
      bitsN 32 Params.default.magic.toNat ++ (List.replicate 513 (none : TreeToken)).flatMap tokenBits ++
        false :: List.replicate 6 false := by
  decide +kernel

/-- A reserved leaf as right child of the root, and 513 nodes of another shape. -/
theorem witness_HdrrRefusesMalformed_deeper :
    TreePrefix [none, some 97] ∧ 256 < (257#9).toNat ∧
    (input [0xFA#8, 0xCE#8, 0x82#8, 0x01#8, 0x4C#8, 0x38#8, 0x08#8]).restBits =
      bitsN 32 small.magic.toNat ++ [none, some 97].flatMap tokenBits ++ true :: bitsN 9 (257#9).toNat ++
        [false, false, false] ∧
    TreePrefix ((List.replicate 256 [none, some 256]).flatten ++ [none]) ∧
    ((List.replicate 256 [none, some 256]).flatten ++ [(none : TreeToken)]).length = 513 := by decide +kernel

theorem witness_HeaderDescribesItsTree :
    Ready twoLeaves ∧ HoldsTree twoLeaves twoTree ∧ OutputOpen twoLeaves ∧ twoLeaves.params.Ok ∧ LengthsOk twoLeaves ∧
    (∃ w, exec .hdrw twoLeaves = .next w ∧ (decide (w.sstate = .idle) &&
      decide ((input twoHeader).restBits =
        w.outBits.drop twoLeaves.outBits.length ++ [false, false, false])) = true) ∧
    Ready (input twoHeader) ∧ Readable (input twoHeader) ∧
    ∃ r', exec .hdrr (input twoHeader) = .next r' ∧ r'.treeValid = true :=
  ⟨by decide, by decide +kernel, by decide, by decide, by decide, exists_of_holds (by decide +kernel), by decide,
    by decide +kernel, exists_of_holds (p := fun t => t.treeValid) (by decide +kernel)⟩

/-- The codes of `N(L(97), L(EOF))` and the input `61 61`. -/
def encoding : State := { withCodes with ibuf := [(0, 0x61#8), (1, 0x61#8)], inLen := 2#29 }

theorem witness_EncodeWritesCodes :
    Ready encoding ∧ Readable encoding ∧ encoding.codeValid = true ∧ PackerOk encoding ∧
    (∀ x ∈ encoding.restSymbols ++ [256], (codeAt encoding.code x).valid = true) ∧ encoding.oclosed = false ∧
    Room { encoding with outLen := 64#29 }
      ((encoding.restSymbols ++ [256]).flatMap fun x => codeBits (codeAt encoding.code x)).length := by decide +kernel

/-- A closed output and nothing to write: the empty input under the one-leaf tree. -/
theorem witness_EncodeWritesCodes_closed :
    let s : State := { oneLeaf 256#9 with codeValid := true, code := [(256, ⟨true, 0#9, 0#256⟩)], oclosed := true }
    (∀ x ∈ s.restSymbols ++ [256], (codeAt s.code x).valid = true) ∧ s.codeValid = true ∧
    ((s.restSymbols ++ [256]).flatMap fun x => codeBits (codeAt s.code x)) = [] := by decide +kernel

/-- A closed output: the first code that is not empty is the terminator's, or the first symbol's. -/
theorem witness_EncodeWritesCodes_contract :
    let s : State := { encoding with oclosed := true, code := [(97, ⟨true, 0#9, 0#256⟩), (256, ⟨true, 1#9, 1#256⟩)] }
    let t : State := { encoding with oclosed := true }
    s.restSymbols ++ [256] = [97, 97] ++ 256 :: [] ∧
    (∀ y ∈ [97, 97], (codeAt s.code y).valid = true ∧ codeBits (codeAt s.code y) = []) ∧
    codeBits (codeAt s.code 256) ≠ [] ∧
    t.restSymbols ++ [256] = [] ++ 97 :: [97, 256] ∧ (codeAt t.code 97).valid = true ∧
    codeBits (codeAt t.code 97) ≠ [] ∧ BitsReadable t 0 (8 * min (([] : List Nat).length + 1) t.restSymbols.length) := by
  decide +kernel

theorem witness_EncodeWritesCodes_read_error :
    let s : State := { encoding with params := { small with inErr := [1] } }
    1 < s.restSymbols.length ∧ BitsReadable s s.upos.toNat (8 * 1) ∧ BitsUnreadable s (s.upos.toNat + 8 * 1) 8 ∧
    (∀ y ∈ s.restSymbols.take 1, (codeAt s.code y).valid = true) ∧ s.oclosed = false ∧
    Room s ((s.restSymbols.take 1).flatMap fun x => codeBits (codeAt s.code x)).length :=
  ⟨by decide +kernel, by decide, ⟨0, by decide⟩, by decide +kernel, by decide, by decide +kernel⟩

theorem witness_EncodeWritesCodes_without_room :
    let s : State := { encoding with outLen := 64#29, pcnt := 6#3 }
    let code := fun x => codeBits (codeAt s.code x)
    PackerOk s ∧ s.restSymbols ++ [256] = [97] ++ 97 :: [256] ∧ (∀ y ∈ [97] ++ [97], (codeAt s.code y).valid = true) ∧
    BitsReadable s s.upos.toNat (8 * min ([97].length + 1) s.restSymbols.length) ∧
    (s.pcnt.toNat + ([97].flatMap code).length) / 8 ≤ 0 ∧ WriteBlocked s 0 (([97] ++ [97]).flatMap code).length := by
  decide +kernel

theorem witness_EncodeWithoutCodeFaults :
    let s : State := { encoding with ibuf := [(0, 0x61#8), (1, 0x62#8)] }
    Ready s ∧ Readable s ∧ s.codeValid = true ∧ OutputOpen s ∧ s.restSymbols ++ [256] = [97] ++ 98 :: [256] ∧
    (∀ y ∈ [97], (codeAt s.code y).valid = true) ∧ (codeAt s.code 98).valid = false ∧
    Room s (([97].flatMap fun y => codeBits (codeAt s.code y)).length) := by decide +kernel

theorem witness_EncodeWithoutCodeFaults_terminator :
    let s : State := { encoding with code := [(97, ⟨true, 1#9, 0#256⟩)] }
    s.restSymbols ++ [256] = [97, 97] ++ 256 :: [] ∧ (codeAt s.code 256).valid = false := by decide +kernel

/-- The tree `N(L(97), L(EOF))` and one byte of code stream. -/
def decoding (b : Byte) : State := { twoLeaves with ibuf := [(0, b)], inLen := 1#29 }

theorem witness_DecodeEmitsSymbols :
    Ready (decoding 0x3F#8) ∧ Readable (decoding 0x3F#8) ∧ HoldsTree (decoding 0x3F#8) twoTree ∧
    PackerOk (decoding 0x3F#8) ∧ (∀ c ∈ [(97, [false]), (97, [false])], c ∈ twoTree.codes ∧ c.1 ≠ 256) ∧
    (256, [true]) ∈ twoTree.codes ∧
    (decoding 0x3F#8).restBits =
      ([(97, [false]), (97, [false])].flatMap Prod.snd) ++ [true] ++ List.replicate 5 true ∧
    Room { decoding 0x3F#8 with outLen := 62#29 } (8 * 2) ∧
    ([] : List (Nat × List Bool)) = [] := by decide +kernel

theorem witness_DecodeEmitsSymbols_contract :
    let s : State := { decoding 0x3F#8 with oclosed := true }
    HoldsTree s twoTree ∧ (97, [false]) ∈ twoTree.codes ∧ s.restBits = [false] ++ (false :: List.replicate 6 true) ∧
    BitsReadable s s.upos.toNat 1 := by decide +kernel

/-- Two symbols decoded, the next bit in a byte that cannot be read. -/
theorem witness_DecodeEmitsSymbols_read_error :
    let s : State :=
      { decoding 0x3F#8 with inLen := 2#29, upos := 6#32, ibuf := [], params := { small with inErr := [1] } }
    let cs := [(97, [false]), (97, [false])]
    HoldsTree s twoTree ∧ (256, [true]) ∈ twoTree.codes ∧ [] <+: [true] ∧
    s.restBits = (cs.flatMap Prod.snd) ++ [] ++ false :: List.replicate 7 false ∧
    BitsReadable s s.upos.toNat ((cs.flatMap Prod.snd) ++ []).length ∧
    (s.upos.toNat + ((cs.flatMap Prod.snd) ++ []).length) / 8 ∈ s.params.inErr ∧ Room s (8 * cs.length) := by
  decide +kernel

theorem witness_DecodeEmitsSymbols_without_room :
    let s : State := { decoding 0x3F#8 with outLen := 63#29 }
    let cs := [(97, [false])]
    HoldsTree s twoTree ∧ s.restBits = (cs.flatMap Prod.snd) ++ [false] ++ List.replicate 6 true ∧
    BitsReadable s s.upos.toNat ((cs.flatMap Prod.snd) ++ [false]).length ∧
    WriteBlocked s cs.length (8 * (cs.length + 1)) := by decide +kernel

theorem witness_CompletedDecodeReadTerminator :
    Ready (decoding 0x3F#8) ∧ HoldsTree (decoding 0x3F#8) twoTree ∧ PackerOk (decoding 0x3F#8) ∧
    (decoding 0x3F#8).params.Ok ∧ LengthsOk (decoding 0x3F#8) ∧
    ∃ t, exec .decode (decoding 0x3F#8) = .next t ∧ decide (t.sstate = .idle) = true :=
  ⟨by decide, by decide +kernel, by decide, by decide, by decide, exists_of_holds (by decide +kernel)⟩

theorem witness_DecodeCutCodeIsTruncated :
    HoldsTree (decoding 0x01#8) twoTree ∧ (decoding 0x01#8).pcnt = 0#3 ∧ (decoding 0x01#8).pacc = 0#8 ∧
    (∀ c ∈ List.replicate 7 (97, [false]), c ∈ twoTree.codes ∧ c.1 ≠ 256) ∧ (256, [true]) ∈ twoTree.codes ∧
    ([] : List Bool) <+: [true] ∧ ([] : List Bool) ≠ [true] ∧
    ({ decoding 0x01#8 with upos := 1#32, ibuf := [] } : State).restBits =
      ((List.replicate 7 (97, [false])).flatMap Prod.snd) ++ [] ∧
    Room (decoding 0x01#8) (8 * 7) ∧ Readable (decoding 0x01#8) ∧ Ready (decoding 0x01#8) := by decide +kernel

theorem witness_DecodeAtLeafRoot :
    HoldsTree (oneLeaf 256#9) (.leaf 256) ∧ HoldsTree (oneLeaf 65#9) (.leaf 65) ∧ Ready (oneLeaf 65#9) := by
  decide +kernel

theorem witness_MissingFlagsRaiseContract : Ready start ∧ start.treeValid = false ∧ start.codeValid = false := by decide

theorem witness_FaultEntryRecordsAndCloses :
    (almostFull.oclosed = false ∧ almostFull.pcnt ≠ 0#3 ∧ almostFull.outLen.toNat ≠ almostFull.params.obufCap ∧
      almostFull.outLen.toNat ∉ almostFull.params.outErr) ∧
    ({ almostFull with outLen := 64#29 } : State).outLen.toNat = almostFull.params.obufCap ∧
    (start.oclosed = false ∧ start.pcnt = 0#3) := by decide

theorem witness_FaultKindsPerCommand :
    Instr.ctgen.context = .command ∧ Instr.ctgen.wf = true ∧ Ready start ∧
    (∃ t, exec .ctgen start = .next t ∧ decide (t.sstate = .fault) = true) ∧ Inv start ∧
    ∃ t, exec .decompress start = .next t ∧ decide (t.sstate = .fault) = true :=
  ⟨by decide, by decide, by decide, exists_of_holds (by decide +kernel), by decide +kernel,
    exists_of_holds (by decide +kernel)⟩

theorem witness_FaultsCloseAndInvalidate : Inv start ∧ Ready start ∧
    (∃ t, exec .tbuild start = .next t ∧ decide (t.sstate = .fault) = true) ∧
    (∃ t, exec .hdrr start = .next t ∧ decide (t.sstate = .fault) = true) ∧
    ∃ t, exec .ctgen start = .next t ∧ decide (t.sstate = .fault) = true :=
  ⟨by decide +kernel, by decide, exists_of_holds (by decide +kernel), exists_of_holds (by decide +kernel),
    exists_of_holds (by decide +kernel)⟩

theorem witness_FaultsCloseAndInvalidate_read_errors : Inv (unreadable 0) ∧ Ready (unreadable 0) ∧
    (∃ t, exec .fcount (unreadable 0) = .next t ∧ decide (t.sstate = .fault) = true) ∧
    ∃ t, exec (.rdbits 8#6) (unreadable 0) = .next t ∧ decide (t.sstate = .fault) = true :=
  ⟨by decide +kernel, by decide, exists_of_holds (by decide +kernel), exists_of_holds (by decide +kernel)⟩

theorem witness_CommandsWriteOnlyListedState : Ready twoLeaves ∧
    ∃ t, exec .hdrw twoLeaves = .next t ∧ decide (t.sstate = .idle) = true :=
  ⟨by decide, exists_of_holds (by decide +kernel)⟩

theorem witness_InputKeptOutputAppended : Inv twoLeaves ∧ ∃ t, exec .hdrw twoLeaves = .next t ∧ t.done = true :=
  ⟨by decide +kernel, exists_of_holds (p := fun t => t.done) (by decide +kernel)⟩

theorem witness_ClosedOutputStaysClosed : { twoLeaves with oclosed := true }.oclosed = true ∧
    ∃ t, exec .hdrw { twoLeaves with oclosed := true } = .next t ∧ t.err = true :=
  ⟨rfl, exists_of_holds (p := fun t => t.err) (by decide +kernel)⟩

theorem witness_StepKeepsInvariant : Inv (writes 0x4#32 withCodes) ∧ Inv faulted ∧
    ∃ t, step (writes 0x4#32 withCodes) = .next t ∧ t.done = true :=
  ⟨by decide +kernel, by decide +kernel, exists_of_holds (p := fun t => t.done) (by decide +kernel)⟩

theorem witness_InvariantStatesNeverStop : Inv start ∧ Inv withCodes ∧ Inv faulted := by decide +kernel

theorem witness_HostWritesOnlyGrantedState :
    256 ≤ 256 ∧ 63 < start.params.ibufCap ∧ start.params.Ok ∧
    ¬(AccessSize.word = .word ∧ ((0x804 : Nat) = 0x10 ∨ (0x804 : Nat) = 0x20 ∨
      (0x804 % 4 = 0 ∧ 0x400 ≤ 0x804 ∧ 0x804 ≤ 0x400 + 4 * 256))) ∧
    ¬(AccessSize.byte = .byte ∧ 0x10000000 ≤ 0x10000040 ∧ 0x10000040 < 0x10000000 + start.params.ibufCap) := by
  decide

theorem witness_HostReadsRegisterMap :
    start.busy = false ∧ 0x3C ≤ 0x3C ∧ 0x3FC ≤ 0x3FC ∧ 0x3C % 4 = 0 ∧ 0x3FC % 4 = 0 := by decide

/-- The windows, each at the end of its range. -/
theorem witness_HostReadsRegisterMap_windows :
    (withCodes.busy = false ∧ withCodes.treeValid = true ∧ 2 < withCodes.nnodes.toNat ∧
      Store.get? withCodes.node 2 = some (leafNode 256#9 0#32)) ∧
    withCodes.codeValid = true ∧ 256 ≤ 256 ∧
    ((after .tbuild counts).pqLen = 1#9 ∧ (after .tbuild counts).errCode ≠ FaultKind.overflow.code ∧
      (after .tbuild counts).pq = { weight := 4#32, seq := 4#10, node := 4#10 } :: []) ∧
    small.Ok ∧ 63 < small.ibufCap ∧ 63 < small.obufCap ∧ 63 < ({ start with outLen := 64#29 } : State).outLen.toNat := by
  decide +kernel

theorem witness_TokensActOnUnits :
    Store.get? twoLeaves.node twoLeaves.cur.toNat = some (internalNode 0#32 1#10 2#10) ∧
    (internalNode 0#32 1#10 2#10).leaf = false ∧ 0#32 ≠ start.params.magic ∧
    ({ start with nnodes := 512#10 } : State).nnodes.toNat ≠ 513 ∧
    ({ start with nnodes := 513#10 } : State).nnodes.toNat = 513 ∧ (256#9).toNat ≤ 256 ∧ 256 < (257#9).toNat := by
  decide

theorem witness_PseudosAreTheirSequences : start.busy = false ∧ faulted.busy = false := by decide +kernel

/-- Room for the longest codes of a two-byte input. -/
def roomy : State := State.resetWith { small with obufCap := 454 } Contents.empty

theorem witness_CompressWritesStream :
    Inv roomy ∧ [0x61#8, 0x61#8].length ≤ roomy.params.ibufCap ∧ roomy.params.inErr = [] ∧ roomy.params.outErr = [] ∧
    358 + 32 * ([0x61#8, 0x61#8].length + 1) ≤ roomy.params.obufCap := by decide +kernel

/-- An output memory too small for the stream. -/
theorem witness_CompressWritesStream_without_room :
    let s := State.resetWith { small with obufCap := 1 } Contents.empty
    Inv s ∧ ∃ t, exec .compress (s.loadInput [0x61#8]) = .next t ∧
      (decide (t.errCode = 3#3) && decide (t.output = [0xFA#8])) = true :=
  ⟨by decide +kernel, exists_of_holds (by decide +kernel)⟩

theorem witness_CompressFaultsOnlyForRoom : Inv start ∧ start.params.inErr = [] ∧ start.params.outErr = [] := by
  decide +kernel

theorem witness_DecompressReadsStream :
    let s := input (twoHeader ++ [0xFF#8])
    Inv s ∧ s.params.inErr = [] ∧ s.params.outErr = [] ∧ twoTree.size ≤ 513 ∧ (∀ x ∈ twoTree.symbols, x ≤ 256) ∧
    (∀ c ∈ List.replicate 3 (97, [false]), c ∈ twoTree.codes ∧ c.1 ≠ 256) ∧ (256, [true]) ∈ twoTree.codes ∧
    s.inBits = bitsN 32 s.params.magic.toNat ++ twoTree.ser ++
      ((List.replicate 3 (97, [false])).flatMap Prod.snd) ++ [true] ++ List.replicate 7 true ∧
    (List.replicate 3 (97, [false])).length ≤ s.params.obufCap := by decide +kernel

theorem witness_RoundTripGivesInputBack :
    Inv start ∧ [0x41#8].length ≤ start.params.ibufCap ∧ [0x41#8].length ≤ start.params.obufCap ∧
    ∃ t, exec .compress (start.loadInput [0x41#8]) = .next t ∧
      (!t.err && decide (t.outLen.toNat ≤ start.params.ibufCap)) = true :=
  ⟨by decide +kernel, by decide, by decide, exists_of_holds (by decide +kernel)⟩

theorem witness_EmptyInputCompresses :
    Inv start ∧ start.inLen = 0#29 ∧ start.params.outErr = [] ∧ 6 ≤ start.params.obufCap := by decide +kernel

theorem witness_StreamDependsOnInputOnly :
    Inv (input [0x41#8]) ∧ Inv { input [0x41#8] with upos := 3#32 } ∧
    (input [0x41#8]).input = ({ input [0x41#8] with upos := 3#32 } : State).input ∧
    (∃ t, exec .compress (input [0x41#8]) = .next t ∧ (!t.err) = true) ∧
    ∃ t, exec .compress { input [0x41#8] with upos := 3#32 } = .next t ∧ (!t.err) = true :=
  ⟨by decide +kernel, by decide +kernel, by decide +kernel, exists_of_holds (by decide +kernel),
    exists_of_holds (by decide +kernel)⟩

theorem witness_BitUnitPhasesEndAsCommands : Ready start ∧ countOk 1#6 = true ∧ countOk 32#6 = true := by decide

theorem witness_TreeUnitPhasesEndAsCommands : Ready start ∧ Ready twoLeaves := by decide

end Sys2Proof.Tests
end

/-! # Proofs about the encodings (30_encoding.md) -/

section

namespace Sys2Proof.Machine

/-! ## The fields of a command word, as numbers (R82) -/

theorem opField_toNat (w : Word) : (opField w).toNat = w.toNat % 16 := by
  simp [opField]

theorem countField_toNat (w : Word) : (countField w).toNat = w.toNat / 16 % 64 := by
  simp [countField, Nat.shiftRight_eq_div_pow]

theorem countField_eq_zero_iff (w : Word) : countField w = 0 ↔ w.toNat / 16 % 64 = 0 := by
  rw [← BitVec.toNat_inj, countField_toNat]
  rfl

theorem reservedField_eq_zero_iff (w : Word) : reservedField w = 0 ↔ w.toNat < 1024 := by
  have hw : w.toNat < 2 ^ 32 := w.isLt
  have hr : (reservedField w).toNat = w.toNat / 1024 % 2 ^ 22 := by
    simp [reservedField, Nat.shiftRight_eq_div_pow]
  rw [← BitVec.toNat_inj, hr, BitVec.ofNat_eq_ofNat, BitVec.toNat_zero]
  omega

/-! ## The checks on the count (R85) -/

theorem countOk_iff (n : BitVec 6) : countOk n = true ↔ 1 ≤ n.toNat ∧ n.toNat ≤ 32 := by
  rw [countOk, Bool.and_eq_true, decide_eq_true_iff, decide_eq_true_iff]
  rfl

theorem plainCommand_illegal_iff (n : BitVec 6) (i : Instr) : (∀ j, plainCommand n i ≠ .ok j) ↔ n ≠ 0 := by
  unfold plainCommand
  split
  next hn => exact iff_of_false (fun h => h i rfl) (not_not.mpr hn)
  next hn => exact iff_of_true (by simp) hn

theorem countedCommand_illegal_iff (n : BitVec 6) (i : Instr) :
    (∀ j, countedCommand n i ≠ .ok j) ↔ ¬countOk n = true := by
  unfold countedCommand
  split
  next hn => exact iff_of_false (fun h => h i rfl) (not_not.mpr hn)
  next hn => exact iff_of_true (by simp) hn

/-! ## The operation map by classes of `OP` (R83) -/

theorem decodeWord_of_reservedBits {w : Word} (hr : 1024 ≤ w.toNat) : decodeWord w = .error .reservedBits :=
  if_pos fun h => absurd ((reservedField_eq_zero_iff w).mp h) (by omega)

section
variable {w : Word} (hr : w.toNat < 1024)
include hr

theorem decodeWord_of_plainOp
    (ho : (1 ≤ w.toNat % 16 ∧ w.toNat % 16 ≤ 7) ∨ (10 ≤ w.toNat % 16 ∧ w.toNat % 16 ≤ 12)) :
    ∃ i, decodeWord w = plainCommand (countField w) i := by
  have hop : (opField w).toNat = 1 ∨ (opField w).toNat = 2 ∨ (opField w).toNat = 3 ∨ (opField w).toNat = 4 ∨
      (opField w).toNat = 5 ∨ (opField w).toNat = 6 ∨ (opField w).toNat = 7 ∨ (opField w).toNat = 10 ∨
      (opField w).toNat = 11 ∨ (opField w).toNat = 12 := by rw [opField_toNat]; omega
  rw [decodeWord, if_neg (not_not.mpr ((reservedField_eq_zero_iff w).mpr hr))]
  rcases hop with h | h | h | h | h | h | h | h | h | h <;> simp only [h] <;> exact ⟨_, rfl⟩

theorem decodeWord_of_countedOp (ho : w.toNat % 16 = 8 ∨ w.toNat % 16 = 9) :
    ∃ i, decodeWord w = countedCommand (countField w) i := by
  rw [← opField_toNat] at ho
  rw [decodeWord, if_neg (not_not.mpr ((reservedField_eq_zero_iff w).mpr hr))]
  rcases ho with h | h <;> simp only [h] <;> exact ⟨_, rfl⟩

theorem decodeWord_of_reservedOp (ho : w.toNat % 16 = 0 ∨ 13 ≤ w.toNat % 16) :
    decodeWord w = .error .reservedOp := by
  have hop : (opField w).toNat = 0 ∨ (opField w).toNat = 13 ∨ (opField w).toNat = 14 ∨ (opField w).toNat = 15 := by
    rw [opField_toNat]; omega
  rw [decodeWord, if_neg (not_not.mpr ((reservedField_eq_zero_iff w).mpr hr))]
  rcases hop with h | h | h | h <;> simp only [h]

end

/-! ## Illegal words (R85, R195) -/

/-- R85: the four causes are one per class of words, so each class is compared with its own check. -/
theorem illegalWord_iff (w : Word) : IllegalWord w ↔ ∀ i, decodeWord w ≠ .ok i := by
  have hcases : 1024 ≤ w.toNat ∨ w.toNat < 1024 ∧
      ((w.toNat % 16 = 0 ∨ 13 ≤ w.toNat % 16) ∨ (w.toNat % 16 = 8 ∨ w.toNat % 16 = 9) ∨
        ((1 ≤ w.toNat % 16 ∧ w.toNat % 16 ≤ 7) ∨ (10 ≤ w.toNat % 16 ∧ w.toNat % 16 ≤ 12))) := by omega
  obtain hr | ⟨hr, ho | ho | ho⟩ := hcases
  · exact iff_of_true (.inr (.inl hr)) (by simp [decodeWord_of_reservedBits hr])
  · exact iff_of_true (.inl ho) (by simp [decodeWord_of_reservedOp hr ho])
  · obtain ⟨i, hi⟩ := decodeWord_of_countedOp hr ho
    rw [hi, countedCommand_illegal_iff, countOk_iff, countField_toNat]
    unfold IllegalWord
    omega
  · obtain ⟨i, hi⟩ := decodeWord_of_plainOp hr ho
    rw [hi, plainCommand_illegal_iff, ne_eq, countField_eq_zero_iff]
    unfold IllegalWord
    omega

/-- R191, R195: a word that decodes to no instruction is an illegal command. -/
theorem issue_illegal {w : Word} (h : ∀ i, decodeWord w ≠ .ok i) (s : State) :
    issue w s = illegalCommand (.write .word 0 w) s := by
  cases hd : decodeWord w with
  | ok i => exact absurd hd (h i)
  | error e => simp [issue, hd]

/-- Settles O4: by the four classes of words, each with its own check of R85; in `S_IDLE` an illegal command is fault
entry. -/
theorem illegalWordsRaiseIllcmd : Obligations.IllegalWordsRaiseIllcmd := by
  intro w
  refine ⟨illegalWord_iff w, fun s hs hw => ?_⟩
  rw [issue_illegal ((illegalWord_iff w).mp hw), illegalCommand_idle hs]

end Sys2Proof.Machine
end

/-! # Proofs about the bit unpacker and the bit packer (40_bitio.md) -/

section

namespace Sys2Proof.Machine

open Sys2Proof.Laws (bitsN_length)

/-! ## Bit sequences and their values (R14) -/

theorem bitsN_getElem? {n i : Nat} (v : Nat) (h : i < n) : (bitsN n v)[i]? = some (v.testBit (n - 1 - i)) := by
  induction n generalizing i with
  | zero => omega
  | succ n ih =>
    cases i with
    | zero => rfl
    | succ i =>
      rw [bitsN, List.getElem?_cons_succ, ih (by omega)]
      congr 2
      omega

/-- Only the low m bits of v can show in its low n ≤ m bits. -/
theorem bitsN_mod_two_pow {n m : Nat} (v : Nat) (h : n ≤ m) : bitsN n (v % 2 ^ m) = bitsN n v := by
  induction n with
  | zero => rfl
  | succ n ih => rw [bitsN, bitsN, ih (by omega), Nat.testBit_mod_two_pow, decide_eq_true (by omega), Bool.true_and]

/-- With a bit joined below it, every bit of a stands one place higher. -/
theorem testBit_succ_two_mul_add (a n : Nat) (b : Bool) : (2 * a + b.toNat).testBit (n + 1) = a.testBit n := by
  rw [Nat.testBit_succ]
  congr 1
  have := b.toNat_lt
  omega

theorem testBit_zero_two_mul_add (a : Nat) (b : Bool) : (2 * a + b.toNat).testBit 0 = b := by
  cases b <;> simp [Nat.testBit_zero]

theorem bitsN_succ_two_mul_add (n a : Nat) (b : Bool) : bitsN (n + 1) (2 * a + b.toNat) = bitsN n a ++ [b] := by
  induction n with
  | zero => exact congrArg (fun c => [c]) (testBit_zero_two_mul_add a b)
  | succ n ih => rw [bitsN, ih, testBit_succ_two_mul_add, bitsN, List.cons_append]

/-! ## One more bit at the end of a word or of `PACC` (R112, R115) -/

/-- Both accumulators take a bit by a shift and an `or`, which doubles and adds. -/
theorem shiftLeft_or_ofBool (w a : Nat) (b : Bool) :
    (BitVec.ofNat w a <<< 1) ||| (BitVec.ofBool b).setWidth w = BitVec.ofNat w (2 * a + b.toNat) := by
  refine BitVec.eq_of_getLsbD_eq fun i hi => ?_
  simp only [BitVec.getLsbD_or, BitVec.getLsbD_shiftLeft, BitVec.getLsbD_setWidth, BitVec.getLsbD_ofBool,
    BitVec.getLsbD_ofNat]
  cases i with
  | zero => cases b <;> simp [hi]
  | succ i => simp [hi, testBit_succ_two_mul_add, Nat.lt_of_succ_lt hi]

theorem shiftIn_ofNat (a : Nat) (b : Bool) : shiftIn (BitVec.ofNat 32 a) b = BitVec.ofNat 32 (2 * a + b.toNat) :=
  shiftLeft_or_ofBool 32 a b

theorem shiftInByte_toNat (a : Byte) (b : Bool) : (shiftInByte a b).toNat = (2 * a.toNat + b.toNat) % 2 ^ 8 := by
  have h := shiftLeft_or_ofBool 8 a.toNat b
  rw [BitVec.ofNat_toNat, BitVec.setWidth_eq] at h
  rw [shiftInByte, h, BitVec.toNat_ofNat]

/-- R115: as long as `PACC` has room, the pending bits are those before and the new one. -/
theorem bitsN_shiftInByte {c : Nat} (a : Byte) (b : Bool) (h : c < 8) :
    bitsN (c + 1) (shiftInByte a b).toNat = bitsN c a.toNat ++ [b] := by
  rw [shiftInByte_toNat, bitsN_mod_two_pow _ (by omega), bitsN_succ_two_mul_add]

/-! ## The bits of a byte memory (R54, R111) -/

theorem memoryBits_succ (m : Memory) (n : Nat) :
    (List.range (n + 1)).flatMap (byteBits m) = (List.range n).flatMap (byteBits m) ++ byteBits m n := by
  rw [List.range_succ, List.flatMap_append, List.flatMap_singleton]

theorem memoryBits_length (m : Memory) (n : Nat) : ((List.range n).flatMap (byteBits m)).length = 8 * n := by
  induction n with
  | zero => rfl
  | succ n ih => rw [memoryBits_succ, List.length_append, ih, byteBits, bitsN_length]; omega

theorem memoryBits_getElem? {n p : Nat} (m : Memory) (h : p < 8 * n) :
    ((List.range n).flatMap (byteBits m))[p]? = some ((m.read (p / 8)).getLsbD (7 - p % 8)) := by
  induction n with
  | zero => omega
  | succ n ih =>
    rw [memoryBits_succ, List.getElem?_append, memoryBits_length]
    split
    next hp => exact ih hp
    next hp =>
      have hn : n = p / 8 := by omega
      have hi : 8 - 1 - (p - 8 * n) = 7 - p % 8 := by omega
      rw [byteBits, bitsN_getElem? _ (by omega), hi, hn]
      rfl

/-- A byte written behind the first n adds its bits at the end. -/
theorem memoryBits_write (m : Memory) (n : Nat) (b : Byte) :
    (List.range (n + 1)).flatMap (byteBits (m.write n b)) =
      (List.range n).flatMap (byteBits m) ++ bitsN 8 b.toNat := by
  rw [memoryBits_succ, byteBits, Memory.read_write_same]
  congr 1
  refine List.flatMap_congr fun i hi => ?_
  rw [byteBits, byteBits, Memory.read_write, if_neg (Nat.ne_of_lt (List.mem_range.mp hi))]

/-! ## Reading bits (R111, R112) -/

theorem State.inBits_length (s : State) : s.inBits.length = 8 * s.inLen.toNat := memoryBits_length _ _

theorem State.restBits_length (s : State) : s.restBits.length = 8 * s.inLen.toNat - s.upos.toNat := by
  rw [State.restBits, List.length_drop, State.inBits_length]

/-- R111: the input from position p on is the bit at p, then the input from p + 1 on. -/
theorem State.inBits_drop {s : State} {p : Nat} (h : p < 8 * s.inLen.toNat) :
    s.inBits.drop p = (s.ibuf.read (p / 8)).getLsbD (7 - p % 8) :: s.inBits.drop (p + 1) := by
  have hp : p < s.inBits.length := by rwa [State.inBits_length]
  have hget : s.inBits[p]? = some _ := memoryBits_getElem? s.ibuf h
  rw [List.drop_eq_getElem_cons hp, List.getElem?_eq_some_iff.mp hget |>.2]

/-- The loop of R112 takes the next k input bits, most significant first. -/
theorem readLoop_ok {s : State} : ∀ {k p : Nat} (a : Nat), p + k ≤ 8 * s.inLen.toNat → BitsReadable s p k →
    readLoop s k p (BitVec.ofNat 32 a) = .ok (BitVec.ofNat 32 (valFrom a ((s.inBits.drop p).take k)))
  | 0, p, a, _, _ => by simp [readLoop, valFrom]
  | k + 1, p, a, hlen, hread => by
    have hnext : BitsReadable s (p + 1) k := fun j hj => by
      rw [Nat.add_right_comm]; exact hread (j + 1) (by omega)
    have hfirst : p / 8 ∉ s.params.inErr := hread 0 (by omega)
    rw [readLoop, inBit_ok hfirst, State.inBits_drop (by omega), List.take_succ_cons, valFrom,
      ← readLoop_ok _ (by omega) hnext, ← shiftIn_ofNat]

theorem upos_add_le_of_restBits {n : Nat} {s : State} (hn : 1 ≤ n) (h : n ≤ s.restBits.length) :
    s.upos.toNat + n ≤ 8 * s.inLen.toNat := by
  rw [State.restBits_length] at h
  omega

theorem rdBits_eos {n : Nat} {s : State} (h : s.restBits.length < n) : rdBits n s = .ok none s := by
  rw [State.restBits_length] at h
  exact if_pos (by omega)

/-- R112: the value of the next n stream bits, which are consumed. -/
theorem rdBits_value {n : Nat} {s : State} (h : s.upos.toNat + n ≤ 8 * s.inLen.toNat)
    (hread : BitsReadable s s.upos.toNat n) :
    rdBits n s = .ok (some (BitVec.ofNat 32 (val (s.restBits.take n)))) (s.advance n) := by
  rw [rdBits, if_neg (by omega), readLoop_ok 0 h hread]
  rfl

theorem rdBits_io {n : Nat} {s : State} (h : s.upos.toNat + n ≤ 8 * s.inLen.toNat)
    (hfail : BitsUnreadable s s.upos.toNat n) : rdBits n s = .raise .io s := by
  obtain ⟨k, hk, hmem⟩ := hfail
  rcases rdBits_cases n s with ⟨hlt, -⟩ | ⟨-, hall, -⟩ | ⟨-, -, hr⟩
  · omega
  · exact absurd hmem (hall k hk)
  · exact hr

/-! ## Writing bits (R115, R117) -/

theorem OutStep.oclosed {s t : State} (h : OutStep s t) : t.oclosed = s.oclosed := by rw [h.fields]

theorem OutStep.sstate {s t : State} (h : OutStep s t) : t.sstate = s.sstate := by rw [h.fields]

theorem State.outBits_length (s : State) : s.outBits.length = 8 * s.outLen.toNat + s.pcnt.toNat := by
  rw [State.outBits, List.length_append, memoryBits_length, bitsN_length]

/-- Clearing the accumulator loses the pending bits and no byte. -/
theorem State.clearAcc_outBits (s : State) : s.clearAcc.outBits = s.outBits.take (8 * s.outLen.toNat) := by
  rw [State.outBits, State.outBits, List.take_left' (memoryBits_length _ _)]
  exact List.append_nil _

theorem State.outBlocked_eq_false_iff (s : State) :
    s.outBlocked = false ↔ s.outLen.toNat ≠ s.params.obufCap ∧ s.outLen.toNat ∉ s.params.outErr := by
  rw [← Bool.not_eq_true, State.outBlocked_iff, not_or]

theorem State.shiftAcc_outBits {s : State} (b : Bool) (h : s.pcnt.toNat + 1 ≠ 8) :
    (s.shiftAcc b).outBits = s.outBits ++ [b] := by
  have hlt := s.pcnt.isLt
  have hc : (s.pcnt + 1#3).toNat = s.pcnt.toNat + 1 := by
    rw [BitVec.toNat_add, BitVec.toNat_ofNat]; omega
  rw [State.outBits, State.outBits, List.append_assoc, ← bitsN_shiftInByte _ _ (by omega), ← hc]
  rfl

/-- A byte appended with nothing pending adds its bits; `OUT_LEN` does not wrap below a capacity R7 allows. -/
theorem State.append_outBits {s : State} (b : Byte) (hc : s.pcnt = 0#3) (h : s.outLen.toNat + 1 < 2 ^ 29) :
    (s.append b).outBits =
      (List.range s.outLen.toNat).flatMap (byteBits s.obuf) ++ bitsN 8 b.toNat := by
  have hl : (s.outLen + 1#29).toNat = s.outLen.toNat + 1 := by
    rw [BitVec.toNat_add, BitVec.toNat_ofNat]; omega
  rw [State.outBits, State.append_outLen, State.append_obuf, State.append_pcnt, hl, hc, memoryBits_write]
  exact List.append_nil _

/-- The bit that completes a byte that cannot be written loses that byte and raises `E_IO`. -/
theorem wrBit_blocked {s : State} (b : Bool) (h8 : s.pcnt.toNat + 1 = 8) (h : s.outBlocked = true) :
    wrBit b s = .raise .io s.clearAcc := by
  rw [wrBit, if_pos h8]
  exact putByte_raise h

/-- A bit that completes no byte, or one that can be written, joins the output. -/
theorem wrBit_ok {s : State} (b : Bool) (hp : s.params.Ok) (hcap : s.outLen.toNat ≤ s.params.obufCap)
    (h : s.pcnt.toNat + 1 = 8 → s.outBlocked = false) :
    ∃ t, wrBit b s = .ok () t ∧ OutStep s t ∧ t.outBits = s.outBits ++ [b] := by
  unfold wrBit
  split
  next h8 =>
    have hfree : s.clearAcc.outBlocked = false := h h8
    have hlen : s.outLen.toNat + 1 < 2 ^ 29 := by
      obtain ⟨-, -, -, hmax⟩ := hp
      rw [Config.capMax] at hmax
      omega
    have h7 : s.pcnt.toNat = 7 := by omega
    refine ⟨_, putByte_ok hfree, (OutStep.clearAcc s).trans (.append _ hfree), ?_⟩
    rw [State.append_outBits (s := s.clearAcc) _ rfl hlen, bitsN_shiftInByte _ _ (by omega), ← List.append_assoc,
      ← h7]
    rfl
  next h8 => exact ⟨_, rfl, .shiftAcc b h8, State.shiftAcc_outBits b h8⟩

/-- The bits bs written to the output one after another (R115). -/
def writeAll : List Bool → State → Res Unit
  | [], s => .ok () s
  | b :: bs, s => (wrBit b s).bind fun _ s => writeAll bs s

/-- The loop of R115 writes the low k bits of v, most significant first. -/
theorem wrLoop_eq_writeAll (v : Word) : ∀ (k : Nat) (s : State), wrLoop v k s = writeAll (bitsN k v.toNat) s
  | 0, _ => rfl
  | k + 1, s => by
    rw [wrLoop, bitsN, writeAll]
    exact congrArg (Res.bind _) (funext fun _ => funext (wrLoop_eq_writeAll v k))

theorem wrBits_eq_writeAll {s : State} (n : Nat) (v : Word) (h : s.oclosed = false) :
    wrBits n v s = writeAll (bitsN n v.toNat) s := by
  rw [wrBits, h]
  exact wrLoop_eq_writeAll v n s

theorem writeAll_append (as bs : List Bool) (s : State) :
    writeAll (as ++ bs) s = (writeAll as s).bind fun _ s => writeAll bs s := by
  induction as generalizing s with
  | nil => rfl
  | cons a as ih => simp only [List.cons_append, writeAll, ih, Res.bind_assoc]

/-- R117: `OUT_LEN` and `PCNT` together count the bits of the output, so they follow from the bits. -/
theorem bitCount_of_outBits {s t : State} {bs : List Bool} (h : t.outBits = s.outBits ++ bs) :
    8 * t.outLen.toNat + t.pcnt.toNat = 8 * s.outLen.toNat + s.pcnt.toNat + bs.length := by
  rw [← State.outBits_length, h, List.length_append, State.outBits_length]

theorem Room.first_free {s : State} {k : Nat} (h : Room s (k + 1)) (h8 : s.pcnt.toNat + 1 = 8) :
    s.outBlocked = false := by
  obtain ⟨-, hcap, hfree⟩ := h
  refine s.outBlocked_eq_false_iff.mpr ⟨by omega, ?_⟩
  simpa using hfree 0 (by omega)

theorem Room.after_bit {s t : State} {k : Nat} {b : Bool} (h : Room s (k + 1)) (hp : t.params = s.params)
    (hb : t.outBits = s.outBits ++ [b]) : Room t k := by
  obtain ⟨hok, hcap, hfree⟩ := h
  have hc := bitCount_of_outBits hb
  have hs := s.pcnt.isLt
  have ht := t.pcnt.isLt
  rw [List.length_singleton] at hc
  refine ⟨hp ▸ hok, hp ▸ by omega, fun j hj => ?_⟩
  have hj' : t.outLen.toNat + j = s.outLen.toNat + (t.outLen.toNat + j - s.outLen.toNat) := by omega
  rw [hp, hj']
  exact hfree _ (by omega)

/-- R117: with room for the whole bytes they complete, the bits join the output in their order. -/
theorem writeAll_ok (bs : List Bool) {s : State} (h : Room s bs.length) :
    ∃ t, writeAll bs s = .ok () t ∧ OutStep s t ∧ t.outBits = s.outBits ++ bs := by
  induction bs generalizing s with
  | nil => exact ⟨s, rfl, .refl s, (List.append_nil _).symm⟩
  | cons b bs ih =>
    have ⟨hok, hcap, _⟩ := h
    obtain ⟨m, hm, hstep, hbit⟩ := wrBit_ok b hok (by omega) h.first_free
    obtain ⟨t, ht, hrest, hbits⟩ := ih (h.after_bit hstep.params hbit)
    refine ⟨t, by rw [writeAll, hm, Res.bind_ok, ht], hstep.trans hrest, ?_⟩
    rw [hbits, hbit, List.append_assoc, List.singleton_append]

/-- R115: where the j-th whole byte is the first that cannot be written, there is room for all bits before the one that
completes it; that bit loses the byte and ends the write. -/
theorem writeAll_blocked {j : Nat} {bs : List Bool} {s : State} (h : WriteBlocked s j bs.length) :
    ∃ t, writeAll bs s = .raise .io t ∧ OutStep s t ∧ t.pcnt = 0#3 ∧ t.pacc = 0#8 ∧ OutputCut s t j bs := by
  obtain ⟨hok, hj, hcap, hfree, hblock⟩ := h
  have hs := s.pcnt.isLt
  have hlt : 8 * j + 7 - s.pcnt.toNat < bs.length := by omega
  have hroom : Room s (bs.take (8 * j + 7 - s.pcnt.toNat)).length := by
    rw [List.length_take_of_le (by omega)]
    exact ⟨hok, by omega, fun i hi => hfree i (by omega)⟩
  obtain ⟨m, hm, hstep, hbits⟩ := writeAll_ok _ hroom
  have hcount := bitCount_of_outBits hbits
  rw [List.length_take_of_le (by omega)] at hcount
  have hlen : m.outLen.toNat = s.outLen.toNat + j := by have := m.pcnt.isLt; omega
  have hraise : writeAll bs s = .raise .io m.clearAcc := by
    conv_lhs => rw [← List.take_append_drop (8 * j + 7 - s.pcnt.toNat) bs, List.drop_eq_getElem_cons hlt]
    rw [writeAll_append, hm, Res.bind_ok, writeAll, wrBit_blocked _ (by omega), Res.bind_raise]
    rw [State.outBlocked_iff, hstep.params, hlen]
    exact hblock
  have hout := hstep.trans (.clearAcc m)
  refine ⟨m.clearAcc, hraise, hout, rfl, rfl, hlen, (hout.grows hok (by omega)).2, ?_⟩
  have hsplit : s.outBits ++ bs = m.outBits ++ bs.drop (8 * j + 7 - s.pcnt.toNat) := by
    rw [hbits, List.append_assoc, List.take_append_drop]
  rw [State.clearAcc_outBits, hsplit, hlen, List.take_append_of_le_length (by rw [State.outBits_length]; omega)]

/-! ## The commands -/

/-- R191: the end of a command whose body left the sequencer in `S_IDLE`. -/
theorem finish_ok_idle {m : State} (h : m.sstate = .idle) : finish (.ok () m) = .next { m with done := true } := by
  rw [finish_ok, State.complete, h]

theorem exec_rdbits_illegal {n : BitVec 6} {s : State} (hs : Ready s) (hn : countOk n = false) :
    exec (.rdbits n) s = .next (faultEntry .illCmd s) :=
  (if_neg (ne_true_of_eq_false hn)).trans (illegalCommand_idle hs)

theorem exec_wrbits_illegal {n : BitVec 6} {s : State} (hs : Ready s) (hn : countOk n = false) :
    exec (.wrbits n) s = .next (faultEntry .illCmd s) :=
  (if_neg (ne_true_of_eq_false hn)).trans (illegalCommand_idle hs)

theorem exec_rdbits {n : BitVec 6} {s : State} (hs : Ready s) (hn : countOk n = true) :
    exec (.rdbits n) s = finish ((rdBits n.toNat s.begin).bind fun r s => .ok () (deliver r s)) :=
  (if_pos hn).trans (command_idle hs)

theorem exec_wrbits {n : BitVec 6} {s : State} (hs : Ready s) (hn : countOk n = true) :
    exec (.wrbits n) s = finish (wrBits n.toNat s.wdata s.begin) :=
  (if_pos hn).trans (command_idle hs)

theorem exec_wrbits_open {n : BitVec 6} {s : State} (hs : Ready s) (hn : countOk n = true) (h : s.oclosed = false) :
    exec (.wrbits n) s = finish (writeAll (bitsN n.toNat s.wdata.toNat) s.begin) := by
  rw [exec_wrbits hs hn, wrBits_eq_writeAll (s := s.begin) _ _ h]

theorem exec_flush {s : State} (hs : Ready s) : exec .flush s = finish (flushOut s.begin) := command_idle hs

/-- R211: after a `PutByte` that could not write, fault entry changes no output bit. -/
theorem State.lostOutput_outBits {m : State} (h : m.pcnt = 0#3) : (m.lostOutput m).outBits = m.outBits := by
  rw [State.outBits, State.outBits, h]
  rfl

/-- Settles O14: by what `RdBits` gives on the accepted state: `EOS`, the value of the next n bits, or `E_IO`. -/
theorem rdbitsReadsStreamBits : Obligations.RdbitsReadsStreamBits := by
  intro n s hs
  refine ⟨fun hn hshort => ?_, fun hn hlong hread => ?_, fun hn hlong hfail => ?_, exec_rdbits_illegal hs⟩
  · rw [exec_rdbits hs hn, rdBits_eos (s := s.begin) hshort, Res.bind_ok]
    exact finish_ok_idle hs
  · have hle := upos_add_le_of_restBits ((countOk_iff n).mp hn).1 hlong
    rw [exec_rdbits hs hn, rdBits_value (s := s.begin) hle hread, Res.bind_ok]
    exact finish_ok_idle hs
  · have hle := upos_add_le_of_restBits ((countOk_iff n).mp hn).1 hlong
    rw [exec_rdbits hs hn, rdBits_io (s := s.begin) hle hfail]
    rfl

/-- Settles O15: `WrBits` writes the list of the low n bits, which joins the output or is cut at the j-th whole byte. -/
theorem wrbitsAppendsBits : Obligations.WrbitsAppendsBits := by
  intro n s hs
  have hlen := bitsN_length n.toNat s.wdata.toNat
  refine ⟨fun hn ⟨hopen, hpacc⟩ hroom => ?_, fun j hn ⟨hopen, _⟩ hok hcap hj hfree hblock => ?_,
    fun hn hclosed => ?_, exec_wrbits_illegal hs⟩
  · have ⟨hok, hcap, _⟩ := hroom
    obtain ⟨m, hm, hstep, hbits⟩ := writeAll_ok (s := s.begin) (bitsN n.toNat s.wdata.toNat) (hlen.symm ▸ hroom)
    have hcount : 8 * m.outLen.toNat + m.pcnt.toNat = 8 * s.outLen.toNat + s.pcnt.toNat + n.toNat :=
      hlen ▸ bitCount_of_outBits hbits
    have hpcnt := m.pcnt.isLt
    have hframe : OnlyOutput s { m with done := true } :=
      ⟨by rw [hstep.fields]; rfl, (hstep.grows hok (Nat.le_of_add_right_le hcap)).2⟩
    refine ⟨{ m with done := true }, ?_, hframe, hbits, ?_, ?_, hstep.packer hpacc⟩
    · rw [exec_wrbits_open hs hn hopen, hm, finish_ok_idle (hstep.sstate.trans hs)]
    · show m.outLen.toNat = _
      omega
    · show m.pcnt.toNat = _
      omega
  · obtain ⟨m, hm, hstep, hcnt, hacc, hlen', happended, hbits⟩ :=
      writeAll_blocked (s := s.begin) (bs := bitsN n.toNat s.wdata.toNat)
        ⟨hok, hlen.symm ▸ hj, hcap, hfree, hblock⟩
    refine ⟨m.lostOutput m, ?_, ?_, hlen', happended, (State.lostOutput_outBits hcnt).trans hbits⟩
    · rw [exec_wrbits_open hs hn hopen, hm, finish_raise, faultEntry_io_clear (hstep.oclosed.trans hopen) hcnt hacc]
    · rw [hstep.fields]
      rfl
  · rw [exec_wrbits hs hn, wrBits_closed (s := s.begin) hclosed]
    rfl

/-- Settles O16: by the four cases of `Flush`, of which each premise leaves one. -/
theorem flushClosesOutput : Obligations.FlushClosesOutput := by
  intro s hs
  have hcases := flushOut_cases s.begin
  have hzero : s.pcnt.toNat = 0 ↔ s.pcnt = 0#3 := BitVec.toNat_inj (y := 0#3)
  rw [exec_flush hs]
  refine ⟨fun hc => ?_, fun hc hp => ?_, fun hc hp hcap herr => ?_, fun hc hp hblock => ?_⟩
  · have hr : flushOut s.begin = .ok () s.begin := by simpa [hc] using hcases
    rw [hr]
    exact finish_ok_idle hs
  · have hr : flushOut s.begin = .ok () s.begin.close := by simpa [hc, hp] using hcases
    rw [hr]
    exact finish_ok_idle hs
  · have hfree : s.begin.outBlocked = false := s.outBlocked_eq_false_iff.mpr ⟨hcap, herr⟩
    have hr : flushOut s.begin = .ok () (s.begin.clearAcc.close.append (padded s.pacc s.pcnt)) := by
      simpa [hc, hzero, hp, hfree] using hcases
    rw [hr]
    exact finish_ok_idle hs
  · have hfull : s.begin.outBlocked = true := s.outBlocked_iff.mpr hblock
    have hr : flushOut s.begin = .raise .io s.begin.clearAcc.close := by
      simpa [hc, hzero, hp, hfull] using hcases
    rw [hr]
    rfl

/-- Settles O18: REWIND has no case to fault. -/
theorem rewindResetsPosition : Obligations.RewindResetsPosition := by
  intro s hs
  have hexec : exec .rewind s = finish (rewindBody s.begin) := command_idle hs
  rw [hexec]
  exact finish_ok_idle hs

end Sys2Proof.Machine
end

/-! # Proofs about the frequency counter (41_tree_builder.md) -/

section

namespace Sys2Proof.Machine

open Sys2Proof.Laws (bitsN_length)

/-! ## Values of bit sequences (R14) -/

theorem valFrom_bitsN (n a v : Nat) : valFrom a (bitsN n v) = 2 ^ n * a + v % 2 ^ n := by
  induction n generalizing a with
  | zero => simp [bitsN, valFrom, Nat.mod_one]
  | succ n ih =>
    rw [bitsN, valFrom, ih, Nat.mod_pow_succ, Nat.toNat_testBit]
    ring

theorem val_bitsN (n v : Nat) : val (bitsN n v) = v % 2 ^ n := by
  rw [val, valFrom_bitsN, Nat.mul_zero, Nat.zero_add]

theorem valFrom_lt (a : Nat) (bs : List Bool) : valFrom a bs < (a + 1) * 2 ^ bs.length := by
  induction bs generalizing a with
  | nil => simp [valFrom]
  | cons b bs ih =>
    have hb := b.toNat_lt
    calc valFrom (2 * a + b.toNat) bs
        < (2 * a + b.toNat + 1) * 2 ^ bs.length := ih _
      _ ≤ (2 * (a + 1)) * 2 ^ bs.length := Nat.mul_le_mul_right _ (by omega)
      _ = (a + 1) * 2 ^ (bs.length + 1) := by ring

theorem val_lt (bs : List Bool) : val bs < 2 ^ bs.length := by
  simpa [val] using valFrom_lt 0 bs

/-! ## The 8-bit symbols of a bit sequence (R57) -/

theorem symbolsN_length (k : Nat) (bs : List Bool) : (symbolsN k bs).length = k := by
  induction k generalizing bs with
  | zero => rfl
  | succ k ih => rw [symbolsN, List.length_cons, ih]

theorem symbolsOf_length (bs : List Bool) : (symbolsOf bs).length = bs.length / 8 := symbolsN_length _ _

theorem symbolsOf_cons {bs : List Bool} (h : 8 ≤ bs.length) :
    symbolsOf bs = val (bs.take 8) :: symbolsOf (bs.drop 8) := by
  have hk : bs.length / 8 = (bs.drop 8).length / 8 + 1 := by rw [List.length_drop]; omega
  rw [symbolsOf, hk, symbolsN, symbolsOf]

theorem lt_of_mem_symbolsN {k x : Nat} {bs : List Bool} (h : x ∈ symbolsN k bs) : x < 256 := by
  induction k generalizing bs with
  | zero => exact absurd h List.not_mem_nil
  | succ k ih =>
    rcases List.mem_cons.mp h with rfl | hx
    · calc val (bs.take 8)
          < 2 ^ (bs.take 8).length := val_lt _
        _ ≤ 2 ^ 8 := Nat.pow_le_pow_right (by omega) (List.length_take_le 8 bs)
    · exact ih hx

/-- R54: a sequence of whole bytes holds the bytes' values. -/
theorem symbolsOf_bytes (l : List Byte) : symbolsOf (l.flatMap fun b => bitsN 8 b.toNat) = l.map BitVec.toNat := by
  induction l with
  | nil => rfl
  | cons b l ih =>
    have hb : b.toNat < 2 ^ 8 := b.isLt
    have hlen : (bitsN 8 b.toNat).length = 8 := bitsN_length _ _
    rw [List.flatMap_cons, symbolsOf_cons (by rw [List.length_append, hlen]; omega), List.take_left' hlen,
      List.drop_left' hlen, val_bitsN, Nat.mod_eq_of_lt hb, ih, List.map_cons]

/-- The counts of all values below n add up to the length of a list of such values. -/
theorem sum_count_range {n : Nat} {l : List Nat} (h : ∀ x ∈ l, x < n) :
    ((List.range n).map fun b => l.count b).sum = l.length := by
  have hsum := Multiset.sum_count_eq_card (s := Finset.range n) (m := (l : Multiset Nat))
    fun x hx => Finset.mem_range.mpr (h x hx)
  simpa [Finset.sum, Multiset.range] using hsum

/-! ## The symbols still to be read (R112, R131) -/

theorem State.restSymbols_length (s : State) :
    s.restSymbols.length = (8 * s.inLen.toNat - s.upos.toNat) / 8 := by
  rw [State.restSymbols, symbolsOf_length, State.restBits_length]

theorem State.restSymbols_lt {s : State} {x : Nat} (h : x ∈ s.restSymbols) : x < 256 := lt_of_mem_symbolsN h

/-- R132: from position 0 on, the symbols are the input bytes. -/
theorem State.restSymbols_of_start {s : State} (h : s.upos = 0#32) : s.restSymbols = s.input.map BitVec.toNat := by
  have hbits : s.restBits = s.input.flatMap fun b => bitsN 8 b.toNat := by
    rw [State.restBits, h, State.input, List.flatMap_map]
    rfl
  rw [State.restSymbols, hbits, symbolsOf_bytes]

theorem State.restBits_advance {n : Nat} {s : State} (h : s.upos.toNat + n ≤ 8 * s.inLen.toNat) :
    (s.advance n).restBits = s.restBits.drop n := by
  rw [State.restBits, State.advance_toNat h, State.restBits, List.drop_drop]
  rfl

theorem rdBits_symbol_eos {s : State} (h : s.restSymbols = []) : rdBits Config.symBits s = .ok none s := by
  have hlen : s.restBits.length / 8 = 0 := by rw [← symbolsOf_length]; exact congrArg List.length h
  exact rdBits_eos (show s.restBits.length < 8 by omega)

section
variable {s : State} {x : Nat} {xs : List Nat} (h : s.restSymbols = x :: xs)
include h

theorem State.upos_add_le_of_symbol : s.upos.toNat + 8 ≤ 8 * s.inLen.toNat := by
  have hlen := congrArg List.length h
  rw [State.restSymbols_length, List.length_cons] at hlen
  omega

theorem State.restSymbols_split : val (s.restBits.take 8) = x ∧ symbolsOf (s.restBits.drop 8) = xs := by
  have hle := State.upos_add_le_of_symbol h
  rw [State.restSymbols, symbolsOf_cons (by rw [State.restBits_length]; omega)] at h
  exact List.cons.inj h

theorem State.restSymbols_advance : (s.advance 8).restSymbols = xs := by
  rw [State.restSymbols, State.restBits_advance (State.upos_add_le_of_symbol h), (State.restSymbols_split h).2]

theorem rdBits_symbol_value (hread : BitsReadable s s.upos.toNat 8) :
    rdBits Config.symBits s = .ok (some (BitVec.ofNat 32 x)) (s.advance 8) := by
  rw [← (State.restSymbols_split h).1]
  exact rdBits_value (State.upos_add_le_of_symbol h) hread

theorem rdBits_symbol_io (hfail : BitsUnreadable s s.upos.toNat 8) : rdBits Config.symBits s = .raise .io s :=
  rdBits_io (State.upos_add_le_of_symbol h) hfail

end

/-! ## The counting loop (R131) -/

theorem countSymbol_ok {b : Nat} {s : State} (h : (s.freqAt b).toNat + 1 < 2 ^ 32) :
    countSymbol b s = .ok () (s.setFreq b (s.freqAt b + 1#32)) :=
  if_neg (by rw [tooHeavy_iff]; omega)

/-- The state after one symbol x is read and counted. -/
def State.countNext (s : State) (x : Nat) : State := (s.advance 8).setFreq x (s.freqAt x + 1#32)

theorem State.countNext_upos {s : State} (x : Nat) (h : s.upos.toNat + 8 ≤ 8 * s.inLen.toNat) :
    (s.countNext x).upos.toNat = s.upos.toNat + 8 :=
  State.advance_toNat h

theorem State.countNext_freqAt {s : State} {x : Nat} (h : (s.freqAt x).toNat + 1 < 2 ^ 32) (b : Nat) :
    ((s.countNext x).freqAt b).toNat = (s.freqAt b).toNat + if x = b then 1 else 0 := by
  have hb : (s.countNext x).freqAt b = if b = x then s.freqAt x + 1#32 else s.freqAt b :=
    State.freqAt_setFreq _ _ _ _
  by_cases hbx : x = b
  · rw [hb, if_pos hbx.symm, if_pos hbx, BitVec.toNat_add, BitVec.toNat_ofNat, ← hbx]
    omega
  · rw [hb, if_neg (Ne.symm hbx), if_neg hbx, Nat.add_zero]

/-- What the loop of R131 does while it reads the symbols xs: `UPOS` passes them, `FREQ` counts them, no other field
changes. -/
structure Counts (s t : State) (xs : List Nat) : Prop where
  fields : t = { s with freq := t.freq, upos := t.upos }
  upos : t.upos.toNat = s.upos.toNat + 8 * xs.length
  freq : ∀ b, (t.freqAt b).toNat = (s.freqAt b).toNat + xs.count b

theorem Counts.nil (s : State) : Counts s s [] := ⟨rfl, rfl, fun _ => rfl⟩

theorem Counts.cons {s t : State} {x : Nat} {xs : List Nat} (hle : s.upos.toNat + 8 ≤ 8 * s.inLen.toNat)
    (hroom : (s.freqAt x).toNat + 1 < 2 ^ 32) (h : Counts (s.countNext x) t xs) : Counts s t (x :: xs) where
  fields := by rw [h.fields]; rfl
  upos := by
    rw [h.upos, State.countNext_upos x hle, List.length_cons]
    omega
  freq b := by
    rw [h.freq, State.countNext_freqAt hroom, List.count_cons, Nat.add_right_comm, Nat.add_assoc]
    simp only [beq_iff_eq]

theorem fcountLoop_eos {n : Nat} {s : State} (h : s.restSymbols = []) : fcountLoop (n + 1) s = .ok () s := by
  rw [fcountLoop, rdBits_symbol_eos h, Res.bind_ok]

theorem fcountLoop_io {n x : Nat} {xs : List Nat} {s : State} (h : s.restSymbols = x :: xs)
    (hfail : BitsUnreadable s s.upos.toNat 8) : fcountLoop (n + 1) s = .raise .io s := by
  rw [fcountLoop, rdBits_symbol_io h hfail, Res.bind_raise]

theorem fcountLoop_symbol {n x : Nat} {xs : List Nat} {s : State} (h : s.restSymbols = x :: xs)
    (hread : BitsReadable s s.upos.toNat 8) (hroom : (s.freqAt x).toNat + 1 < 2 ^ 32) :
    fcountLoop (n + 1) s = fcountLoop n (s.countNext x) := by
  have hx : (BitVec.ofNat 32 x).toNat = x := by
    have := State.restSymbols_lt (h ▸ List.mem_cons_self)
    rw [BitVec.toNat_ofNat]; omega
  rw [fcountLoop, rdBits_symbol_value h hread, Res.bind_ok]
  simp only [hx]
  rw [countSymbol_ok (s := s.advance 8) hroom, Res.bind_ok]
  rfl

/-- k passes over readable bytes count the next k symbols, as long as no count can pass 2^32 - 1. -/
theorem fcountLoop_symbols (n : Nat) {k : Nat} {s : State} (hk : k ≤ s.restSymbols.length)
    (hread : BitsReadable s s.upos.toNat (8 * k)) (hroom : ∀ b, (s.freqAt b).toNat + k < 2 ^ 32) :
    ∃ t, fcountLoop (k + n) s = fcountLoop n t ∧ Counts s t (s.restSymbols.take k) ∧
      t.restSymbols = s.restSymbols.drop k := by
  induction k generalizing s with
  | zero => exact ⟨s, by rw [Nat.zero_add], Counts.nil s, rfl⟩
  | succ k ih =>
    cases hsym : s.restSymbols with
    | nil => rw [hsym] at hk; exact absurd hk (Nat.not_succ_le_zero k)
    | cons x xs =>
      have hle := State.upos_add_le_of_symbol hsym
      have hroomx : (s.freqAt x).toNat + 1 < 2 ^ 32 := by have := hroom x; omega
      have hrest : (s.countNext x).restSymbols = xs := State.restSymbols_advance hsym
      have hk' : k ≤ (s.countNext x).restSymbols.length := by
        rw [hsym] at hk
        exact hrest ▸ Nat.le_of_succ_le_succ hk
      have hread' : BitsReadable (s.countNext x) (s.countNext x).upos.toNat (8 * k) := fun j hj => by
        rw [State.countNext_upos x hle, Nat.add_assoc]
        exact hread (8 + j) (by omega)
      have hroom' (b : Nat) : ((s.countNext x).freqAt b).toNat + k < 2 ^ 32 := by
        have := hroom b
        rw [State.countNext_freqAt hroomx]
        split <;> omega
      obtain ⟨t, hloop, hcounts, hdrop⟩ := ih hk' hread' hroom'
      rw [hrest] at hcounts hdrop
      refine ⟨t, ?_, .cons hle hroomx hcounts, hdrop⟩
      rw [Nat.add_right_comm, fcountLoop_symbol hsym (fun j hj => hread j (by omega)) hroomx, hloop]

/-! ## The command -/

theorem exec_fcount {s : State} (hs : Ready s) : exec .fcount s = finish (fcountBody s.begin) := command_idle hs

theorem State.restSymbols_length_le (s : State) : s.restSymbols.length ≤ s.inLen.toNat := by
  rw [State.restSymbols_length]
  omega

/-- R131: FCOUNT up to its first k symbols, from all counts 0. The rest of the scan has at least one pass, and no count
can overflow below 2^29 symbols. -/
theorem fcountBody_symbols {k : Nat} {s : State} (hk : k ≤ s.restSymbols.length)
    (hread : BitsReadable s s.upos.toNat (8 * k)) :
    ∃ n m, fcountBody s.begin = (fcountLoop (n + 1) m).bind (fun _ s => .ok () (s.setFreq 256 1#32)) ∧
      Counts s.begin.clearFreq m (s.restSymbols.take k) ∧ m.restSymbols = s.restSymbols.drop k := by
  have hlen := s.restSymbols_length_le
  have hmax := s.inLen.isLt
  obtain ⟨m, hloop, hm⟩ := fcountLoop_symbols (s.inLen.toNat - k + 1) (s := s.begin.clearFreq) hk hread
    fun b => by rw [State.freqAt_clearFreq, BitVec.toNat_ofNat]; omega
  have hpasses : k + (s.inLen.toNat - k + 1) = s.inLen.toNat + 1 := by omega
  rw [hpasses] at hloop
  exact ⟨_, m, congrArg (Res.bind · _) hloop, hm⟩

theorem Counts.freq_of_clear {s t : State} {xs : List Nat} (h : Counts s.clearFreq t xs) (b : Nat) :
    (t.freqAt b).toNat = xs.count b := by
  rw [h.freq, State.freqAt_clearFreq, BitVec.toNat_ofNat, Nat.zero_mod, Nat.zero_add]

/-- No symbol is 256 or above, so such a count stays 0. -/
theorem Counts.freq_eq_zero {s t : State} {xs : List Nat} {b : Nat} (h : Counts s.clearFreq t xs)
    (hxs : ∀ x ∈ xs, x < 256) (hb : 256 ≤ b) : t.freqAt b = 0#32 := by
  have hnone : xs.count b = 0 := List.count_eq_zero_of_not_mem fun hmem => absurd (hxs b hmem) (by omega)
  rw [← BitVec.toNat_inj, h.freq_of_clear, hnone]
  rfl

section
variable {s : State} (hs : Ready s)
include hs

/-- The scan meets the end of the input, and 256 is counted once. -/
theorem exec_fcount_ok (h : BitsReadable s s.upos.toNat (8 * s.restSymbols.length)) :
    ∃ m, exec .fcount s = .next { m.setFreq 256 1#32 with done := true } ∧
      Counts s.begin.clearFreq m s.restSymbols := by
  obtain ⟨n, m, hbody, hcounts, hrest⟩ := fcountBody_symbols (Nat.le_refl _) h
  rw [List.drop_length] at hrest
  rw [List.take_length] at hcounts
  have hidle : (m.setFreq 256 1#32).sstate = .idle := by rw [hcounts.fields]; exact hs
  exact ⟨m, by rw [exec_fcount hs, hbody, fcountLoop_eos hrest, Res.bind_ok, finish_ok_idle hidle], hcounts⟩

/-- The scan meets a byte that fails to read in the symbol after the first k. -/
theorem exec_fcount_io {k : Nat} (hk : k < s.restSymbols.length) (hread : BitsReadable s s.upos.toNat (8 * k))
    (hfail : BitsUnreadable s (s.upos.toNat + 8 * k) 8) :
    ∃ m, exec .fcount s = .next (faultEntry .io m) ∧ Counts s.begin.clearFreq m (s.restSymbols.take k) := by
  obtain ⟨n, m, hbody, hcounts, hrest⟩ := fcountBody_symbols (Nat.le_of_lt hk) hread
  rw [List.drop_eq_getElem_cons hk] at hrest
  have hfail' : BitsUnreadable m m.upos.toNat 8 := by
    rw [BitsUnreadable, hcounts.upos, List.length_take_of_le (Nat.le_of_lt hk), hcounts.fields]
    exact hfail
  exact ⟨m, by rw [exec_fcount hs, hbody, fcountLoop_io hrest hfail', Res.bind_raise, finish_raise], hcounts⟩

end

/-- Settles O19: the loop counts symbol by symbol; after the first k it meets the end, where 256 is counted once, or a
byte that fails to read. -/
theorem fcountCountsSymbols : Obligations.FcountCountsSymbols := by
  intro s hs
  refine ⟨fun hreadable => ?_, fun k hk hread ⟨p, hlo, hhi, hp⟩ => ?_⟩
  · have hlen := s.restSymbols_length
    obtain ⟨m, hexec, hcounts⟩ := exec_fcount_ok hs fun j hj => hreadable _ (by omega)
    have hfreq (b : Nat) : (m.setFreq 256 1#32).freqAt b = if b = 256 then 1#32 else m.freqAt b :=
      State.freqAt_setFreq _ _ _ _
    refine ⟨_, hexec, by rw [hcounts.fields]; rfl, hcounts.upos, fun b hb => ?_, hfreq 256, fun b hb => ?_⟩
    · exact (congrArg BitVec.toNat ((hfreq b).trans (if_neg (by omega)))).trans (hcounts.freq_of_clear b)
    · exact ((hfreq b).trans (if_neg (by omega))).trans
        (hcounts.freq_eq_zero (fun x => State.restSymbols_lt) (by omega))
  · obtain ⟨m, hexec, hcounts⟩ := exec_fcount_io hs hk
      (fun j hj => hread _ (Nat.le_add_right _ j) (Nat.add_lt_add_left hj _))
      ⟨p - (s.upos.toNat + 8 * k), by omega, by rwa [Nat.add_sub_cancel' hlo]⟩
    refine ⟨m.freq, m.upos, ?_, ?_, fun b _ => hcounts.freq_of_clear b,
      fun b => hcounts.freq_eq_zero fun x hx => State.restSymbols_lt (List.mem_of_mem_take hx)⟩
    · rw [hexec, hcounts.fields]
      rfl
    · exact hcounts.upos.trans (by rw [List.length_take_of_le (Nat.le_of_lt hk)]; rfl)

/-- R131: an FCOUNT from position 0 that completes met no byte that fails to read: the first one would have raised
`E_IO`. -/
theorem readable_of_fcount_completes {s t : State} (hs : Ready s) (h0 : s.upos = 0#32)
    (hexec : exec .fcount s = .next t) (ht : t.sstate = .idle) : Readable s := by
  by_contra hnot
  have hbad : ∃ i, i < s.inLen.toNat ∧ i ∈ s.params.inErr := by simpa using hnot
  obtain ⟨hfirst, herr⟩ := Nat.find_spec hbad
  have hpos : s.upos.toNat = 0 := by rw [h0]; rfl
  obtain ⟨f, u, hfault, -⟩ := (fcountCountsSymbols s hs).2 (Nat.find hbad)
    (by rw [State.restSymbols_length]; omega)
    (fun p _ hp hmem => Nat.find_min hbad (m := p / 8) (by omega) ⟨by omega, hmem⟩)
    ⟨8 * Nat.find hbad, by omega, by omega, by rwa [Nat.mul_div_cancel_left _ (by omega)]⟩
  rw [hexec, Host.Outcome.next.injEq] at hfault
  rw [hfault, faultEntry_sstate] at ht
  exact SState.noConfusion ht

/-- Settles O20: the completed FCOUNT read every byte, and from position 0 on the symbols of O19 are the input bytes. -/
theorem fcountFromStartCountsBytes : Obligations.FcountFromStartCountsBytes := by
  intro s t hs h0 hexec ht
  obtain ⟨t', hexec', -, hupos, hcount, heos, -⟩ :=
    (fcountCountsSymbols s hs).1 (readable_of_fcount_completes hs h0 hexec ht)
  obtain rfl : t = t' := Host.Outcome.next.inj (hexec.symm.trans hexec')
  have hlen : s.restSymbols.length = s.inLen.toNat := by
    rw [State.restSymbols_length, h0, BitVec.toNat_ofNat]
    omega
  refine ⟨fun b => ?_, ?_, heos, ?_⟩
  · rw [hcount _ b.isLt, State.restSymbols_of_start h0, List.count_map_of_injective _ _ BitVec.toNat_injective]
  · rw [← hlen, ← sum_count_range fun x => State.restSymbols_lt]
    exact congrArg List.sum (List.map_congr_left fun b hb => hcount b (List.mem_range.mp hb))
  · rw [hupos, hlen, h0, BitVec.toNat_ofNat, Nat.zero_mod, Nat.zero_add]

end Sys2Proof.Machine
end

/-! # Proofs about the code table generator and the header codec (42_codes_header.md) -/

section

namespace Sys2Proof.Machine

/-! ## Values of bit sequences (R14) -/

theorem valFrom_append (a : Nat) (as bs : List Bool) : valFrom a (as ++ bs) = valFrom (valFrom a as) bs := by
  induction as generalizing a with
  | nil => rfl
  | cons b as ih => exact ih _

/-- R14: a bit sequence is written by its own length and value. -/
theorem bitsN_val {n : Nat} {bs : List Bool} (h : bs.length = n) : bitsN n (val bs) = bs := by
  subst h
  induction bs using List.reverseRecOn with
  | nil => rfl
  | append_singleton bs b ih =>
    rw [List.length_append, List.length_singleton, val, valFrom_append]
    exact (bitsN_succ_two_mul_add _ _ _).trans (congrArg (· ++ [b]) ih)

/-! ## Trees in `NODE` (R64) -/

/-- What `NODE` holds where a tree of at most f + 1 levels is: a leaf, or an internal node above two trees. -/
theorem treeAt_succ_eq_some {nodes : List (Nat × Node)} {f : Nat} {i : NodeIdx} {tr : Tree}
    (h : treeAt nodes (f + 1) i = some tr) :
    ∃ nd, Store.get? nodes i.toNat = some nd ∧
      ((nd.leaf = true ∧ tr = .leaf nd.sym.toNat) ∨
        (nd.leaf = false ∧ ∃ l r, treeAt nodes f nd.left = some l ∧ treeAt nodes f nd.right = some r ∧
          tr = .node l r)) := by
  cases hnd : Store.get? nodes i.toNat with
  | none => simp [treeAt, hnd] at h
  | some nd =>
    refine ⟨nd, rfl, ?_⟩
    cases hleaf : nd.leaf with
    | true => exact .inl ⟨rfl, by simpa [treeAt, hnd, hleaf] using h.symm⟩
    | false =>
      cases hl : treeAt nodes f nd.left with
      | none => simp [treeAt, hnd, hleaf, hl] at h
      | some l =>
        cases hr : treeAt nodes f nd.right with
        | none => simp [treeAt, hnd, hleaf, hl, hr] at h
        | some r => exact .inr ⟨rfl, l, r, rfl, rfl, by simpa [treeAt, hnd, hleaf, hl, hr] using h.symm⟩

theorem treeAt_leaf {nodes : List (Nat × Node)} {f : Nat} {i : NodeIdx} {nd : Node}
    (h : Store.get? nodes i.toNat = some nd) (hleaf : nd.leaf = true) :
    treeAt nodes (f + 1) i = some (.leaf nd.sym.toNat) := by
  simp [treeAt, h, hleaf]

theorem treeAt_node {nodes : List (Nat × Node)} {f : Nat} {i : NodeIdx} {nd : Node} {l r : Tree}
    (h : Store.get? nodes i.toNat = some nd) (hleaf : nd.leaf = false) (hl : treeAt nodes f nd.left = some l)
    (hr : treeAt nodes f nd.right = some r) : treeAt nodes (f + 1) i = some (.node l r) := by
  simp [treeAt, h, hleaf, hl, hr]

theorem nodeOk_leaf {n : Nat} {nd : Node} (h : nodeOk n (some nd) = true) (hleaf : nd.leaf = true) :
    nd.sym.toNat ≤ 256 := by
  simp only [nodeOk, hleaf, if_true, Bool.and_eq_true, decide_eq_true_eq] at h
  obtain ⟨⟨hsym, -⟩, -⟩ := h
  exact hsym

theorem nodeOk_internal {n : Nat} {nd : Node} (h : nodeOk n (some nd) = true) (hleaf : nd.leaf = false) :
    nd.left.toNat < n ∧ nd.right.toNat < n := by
  simp only [nodeOk, hleaf, Bool.false_eq_true, if_false, Bool.and_eq_true, decide_eq_true_eq] at h
  obtain ⟨⟨⟨-, hl⟩, hr⟩, -⟩ := h
  exact ⟨hl, hr⟩

/-- R64 item 2: below an allocated node every leaf holds a symbol. -/
theorem symbols_le_of_treeAt {nodes : List (Nat × Node)} {n : Nat}
    (hok : ∀ i, i < n → nodeOk n (Store.get? nodes i) = true) :
    ∀ {f : Nat} {i : NodeIdx} {tr : Tree}, i.toNat < n → treeAt nodes f i = some tr → ∀ x ∈ tr.symbols, x ≤ 256
  | f + 1, i, tr, hi, h, x, hx => by
    obtain ⟨nd, hnd, ⟨hleaf, rfl⟩ | ⟨hleaf, l, r, hl, hr, rfl⟩⟩ := treeAt_succ_eq_some h
    · rw [List.mem_singleton.mp hx]
      exact nodeOk_leaf (hnd ▸ hok _ hi) hleaf
    · obtain ⟨hli, hri⟩ := nodeOk_internal (hnd ▸ hok _ hi) hleaf
      rcases List.mem_append.mp hx with hx | hx
      · exact symbols_le_of_treeAt hok hli hl x hx
      · exact symbols_le_of_treeAt hok hri hr x hx

theorem HoldsTree.symbols_le {s : State} {tr : Tree} (h : HoldsTree s tr) : ∀ x ∈ tr.symbols, x ≤ 256 := by
  obtain ⟨-, ⟨⟨-, -, hroot⟩, hok, -, -⟩, htree⟩ := h
  exact symbols_le_of_treeAt hok hroot htree

theorem HoldsTree.size_le {s : State} {tr : Tree} (h : HoldsTree s tr) : tr.size ≤ 513 := by
  obtain ⟨-, ⟨⟨-, hcap, -⟩, -, -, hsize⟩, htree⟩ := h
  rw [show treeAt s.node walkLevels s.root = some tr from htree] at hsize
  exact Option.some.inj hsize ▸ hcap

/-! ## The code table of a tree (R151, R152) -/

/-- The entry of a leaf reached by the path p from a node at depth n with the accumulated value a. -/
def pathEntry (n a : Nat) (p : List Bool) : CodeEntry :=
  { valid := true, len := BitVec.ofNat 9 (n + p.length), val := BitVec.ofNat 256 (valFrom a p) }

/-- The table after one write per leaf, in the order of the list. -/
def assignCodes (n a : Nat) (t : List (Nat × CodeEntry)) (cs : List (Nat × List Bool)) : List (Nat × CodeEntry) :=
  cs.foldl (fun t c => setCode t c.1 (pathEntry n a c.2)) t

/-- The code table of a tree. -/
def Tree.codeTable (tr : Tree) : List (Nat × CodeEntry) := assignCodes 0 0 [] tr.codes

theorem pathEntry_cons (n a : Nat) (b : Bool) (p : List Bool) :
    pathEntry n a (b :: p) = pathEntry (n + 1) (2 * a + b.toNat) p := by
  rw [pathEntry, pathEntry, List.length_cons, Nat.add_right_comm, Nat.add_assoc]
  rfl

/-- One level down, the bit b joins every path at its front. -/
theorem assignCodes_map_cons (n a : Nat) (b : Bool) (t : List (Nat × CodeEntry)) (cs : List (Nat × List Bool)) :
    assignCodes n a t (cs.map fun c => (c.1, b :: c.2)) = assignCodes (n + 1) (2 * a + b.toNat) t cs := by
  rw [assignCodes, List.foldl_map]
  simp only [pathEntry_cons]
  rfl

/-- R152: the last write of a symbol stays. -/
theorem codeAt_assignCodes (n a : Nat) (t : List (Nat × CodeEntry)) (cs : List (Nat × List Bool)) (x : Nat) :
    codeAt (assignCodes n a t cs) x =
      ((cs.filter fun c => c.1 == x).getLast?).elim (codeAt t x) fun c => pathEntry n a c.2 := by
  induction cs using List.reverseRecOn with
  | nil => rfl
  | append_singleton cs c ih =>
    have hlast : assignCodes n a t (cs ++ [c]) = setCode (assignCodes n a t cs) c.1 (pathEntry n a c.2) :=
      List.foldl_append
    rw [hlast, codeAt_setCode, List.filter_append]
    by_cases hx : c.1 = x
    · simp [hx]
    · simpa [hx, Ne.symm hx] using ih

theorem Tree.codeAt_codeTable (tr : Tree) (x : Nat) : codeAt tr.codeTable x = entryOf (tr.codeOf x) := by
  rw [Tree.codeTable, codeAt_assignCodes, Tree.codeOf]
  cases (tr.codes.filter fun c => c.1 == x).getLast? with
  | none => rfl
  | some c =>
    show pathEntry 0 0 c.2 = entryOf (some c.2)
    rw [pathEntry, Nat.zero_add]
    rfl

/-! ## CTGEN (R151) -/

/-- The value of a path one level down, as the walk computes it. -/
theorem pathValue_left (a : Nat) : BitVec.ofNat 256 a <<< 1 = BitVec.ofNat 256 (2 * a + false.toNat) := by
  rw [← shiftLeft_or_ofBool]
  exact BitVec.or_zero.symm

theorem pathValue_right (a : Nat) : BitVec.ofNat 256 a <<< 1 ||| 1#256 = BitVec.ofNat 256 (2 * a + true.toNat) :=
  shiftLeft_or_ofBool 256 a true

theorem walk_leaf {nodes : List (Nat × Node)} {f : Nat} {i : NodeIdx} {nd : Node} {len : BitVec 9} {v : BitVec 256}
    {t : List (Nat × CodeEntry)} (h : Store.get? nodes i.toNat = some nd) (hleaf : nd.leaf = true)
    (hsym : nd.sym.toNat ≤ 256) :
    walk nodes (f + 1) i len v t = some (setCode t nd.sym.toNat { valid := true, len := len, val := v }) := by
  simp only [walk, h, hleaf, if_true]
  exact if_neg (Nat.not_lt.mpr hsym)

theorem walk_node {nodes : List (Nat × Node)} {f : Nat} {i : NodeIdx} {nd : Node} {len : BitVec 9} {v : BitVec 256}
    {t u : List (Nat × CodeEntry)} (h : Store.get? nodes i.toNat = some nd) (hleaf : nd.leaf = false)
    (hl : walk nodes f nd.left (len + 1#9) (v <<< 1) t = some u) :
    walk nodes (f + 1) i len v t = walk nodes f nd.right (len + 1#9) ((v <<< 1) ||| 1#256) u := by
  simp only [walk, h, hleaf, Bool.false_eq_true, if_false, hl]

/-- R151: the walk writes the entries of the tree's leaves in preorder. -/
theorem walk_eq_assignCodes {nodes : List (Nat × Node)} {f : Nat} {i : NodeIdx} {tr : Tree} (n a : Nat)
    (t : List (Nat × CodeEntry)) (h : treeAt nodes f i = some tr) (hsym : ∀ x ∈ tr.symbols, x ≤ 256) :
    walk nodes f i (BitVec.ofNat 9 n) (BitVec.ofNat 256 a) t = some (assignCodes n a t tr.codes) := by
  induction f generalizing i tr n a t with
  | zero => exact absurd h (by simp [treeAt])
  | succ f ih =>
    obtain ⟨nd, hnd, ⟨hleaf, rfl⟩ | ⟨hleaf, l, r, hl, hr, rfl⟩⟩ := treeAt_succ_eq_some h
    · exact walk_leaf hnd hleaf (hsym _ (List.mem_singleton_self _))
    · have hlen : BitVec.ofNat 9 n + 1#9 = BitVec.ofNat 9 (n + 1) := (BitVec.ofNat_add n 1).symm
      have hleft : walk nodes f nd.left (BitVec.ofNat 9 n + 1#9) (BitVec.ofNat 256 a <<< 1) t =
          some (assignCodes (n + 1) (2 * a + false.toNat) t l.codes) := by
        rw [hlen, pathValue_left]
        exact ih _ _ t hl fun x hx => hsym x (List.mem_append_left _ hx)
      rw [walk_node hnd hleaf hleft, hlen, pathValue_right,
        ih _ _ _ hr fun x hx => hsym x (List.mem_append_right _ hx), ← assignCodes_map_cons, ← assignCodes_map_cons]
      exact congrArg some List.foldl_append.symm

theorem exec_ctgen {s : State} (hs : Ready s) : exec .ctgen s = finish (ctgenBody s.begin) := command_idle hs

theorem exec_ctgen_tree {s : State} {tr : Tree} (hs : Ready s) (hvalid : s.treeValid = true)
    (htree : s.tree = some tr) (hsym : ∀ x ∈ tr.symbols, x ≤ 256) :
    exec .ctgen s = .next { s.stkFree with code := tr.codeTable, codeValid := true, done := true } := by
  have hwalk : walk s.node walkLevels s.root 0#9 0#256 [] = some tr.codeTable := walk_eq_assignCodes 0 0 [] htree hsym
  have hbody : ctgenBody s.begin = .ok () (s.begin.stkFree.clearCode.setCodeTable tr.codeTable) := by
    simp only [ctgenBody, State.begin_treeValid, State.begin_node, State.begin_root, hvalid, if_true, hwalk]
  rw [exec_ctgen hs, hbody]
  exact finish_ok_idle hs

theorem exec_ctgen_contract {s : State} (hs : Ready s) (hvalid : s.treeValid = false) :
    exec .ctgen s = .next (faultEntry .contract s.begin.stkFree) := by
  have hbody : ctgenBody s.begin = .raise .contract s.begin.stkFree := if_neg (ne_true_of_eq_false hvalid)
  rw [exec_ctgen hs, hbody, finish_raise]

/-- R29: fault entry neither reads nor writes `STK` and `SP`. -/
theorem faultEntry_stkFree_visible (k : FaultKind) (s : State) :
    (faultEntry k s.stkFree).visible = (faultEntry k s).visible := by
  have hblock : s.stkFree.outBlocked = s.outBlocked := rfl
  unfold faultEntry State.closeQuietly
  rw [State.stkFree_oclosed, State.stkFree_pcnt, hblock]
  split_ifs <;> rfl

/-- Settles O26: the walk writes the tree's code table, which keeps the last path of each symbol. -/
theorem ctgenAssignsPaths : Obligations.CtgenAssignsPaths := by
  intro s hs
  refine ⟨fun tr htr => ?_, fun hvalid => ?_⟩
  · have ⟨hvalid, _, htree⟩ := htr
    exact ⟨_, exec_ctgen_tree hs hvalid htree htr.symbols_le, rfl, tr.codeAt_codeTable⟩
  · exact ⟨_, exec_ctgen_contract hs hvalid, faultEntry_stkFree_visible _ _⟩

/-! ## Reads of HDRR (R158, R160) -/

theorem needBits_truncated {n : Nat} {s : State} (h : s.restBits.length < n) :
    needBits n s = .raise .truncated s := by
  rw [needBits, rdBits_eos h, Res.bind_ok]

/-- A read of n readable bits gives their value; the bits after them are left. -/
theorem needBits_value {n : Nat} {s : State} {bs rest : List Bool} (hn : 1 ≤ n) (hlen : bs.length = n)
    (hread : Readable s) (h : s.restBits = bs ++ rest) :
    s.upos.toNat + n ≤ 8 * s.inLen.toNat ∧ needBits n s = .ok (BitVec.ofNat 32 (val bs)) (s.advance n) ∧
      (s.advance n).restBits = rest := by
  have hle : s.upos.toNat + n ≤ 8 * s.inLen.toNat :=
    upos_add_le_of_restBits hn (by rw [h, List.length_append]; omega)
  refine ⟨hle, ?_, ?_⟩
  · rw [needBits, rdBits_value hle fun k hk => hread _ (by omega), Res.bind_ok, h, List.take_left' hlen]
  · rw [State.restBits_advance hle, h, List.drop_left' hlen]

theorem exec_hdrr {s : State} (hs : Ready s) : exec .hdrr s = finish (hdrrBody s.begin) := command_idle hs

@[simp] theorem faultEntry_nnodes (k : FaultKind) (s : State) : (faultEntry k s).nnodes = s.nnodes := by
  rw [faultEntry_fields]

theorem hdrrBody_truncated {s : State} (h : s.restBits.length < 32) :
    hdrrBody s.begin = .raise .truncated s.begin.hdrrStart := by
  rw [hdrrBody, Config.magicBits, needBits_truncated (s := s.begin.hdrrStart) h, Res.bind_raise]

/-- R158: the 32 bits in front of the stream, then the check against `MAGIC`. -/
theorem hdrrBody_of_magicBits {s : State} {bs rest : List Bool} (hread : Readable s) (hlen : bs.length = 32)
    (h : s.restBits = bs ++ rest) :
    hdrrBody s.begin = (checkMagic (BitVec.ofNat 32 (val bs)) (s.begin.hdrrStart.advance 32)).bind fun _ s =>
      (deserTree deserLevels s).bind fun r s => .ok () (s.setTree r) := by
  obtain ⟨-, hneed, -⟩ := needBits_value (s := s.begin.hdrrStart) (by omega) hlen hread h
  rw [hdrrBody, Config.magicBits, hneed, Res.bind_ok]

/-- Settles O30: the first read meets the end of the input, or gives the value of 32 bits that are not those of
`MAGIC`. -/
theorem hdrrChecksMagic : Obligations.HdrrChecksMagic := by
  intro s hs hread
  refine ⟨fun hshort => ?_, fun hlong hne => ?_⟩
  · refine ⟨_, by rw [exec_hdrr hs, hdrrBody_truncated hshort, finish_raise], ?_⟩
    simp [State.hdrrStart, FaultKind.code]
  · have hlen : (s.restBits.take 32).length = 32 := List.length_take_of_le hlong
    have hmagic : BitVec.ofNat 32 (val (s.restBits.take 32)) ≠ s.params.magic := fun heq => hne <| by
      rw [← heq, BitVec.toNat_ofNat, bitsN_mod_two_pow _ (Nat.le_refl 32), bitsN_val hlen]
    have hbody : hdrrBody s.begin = .raise .badMagic (s.begin.hdrrStart.advance 32) := by
      rw [hdrrBody_of_magicBits hread hlen (List.take_append_drop _ _).symm, checkMagic,
        if_neg (show _ ≠ (s.begin.hdrrStart.advance 32).params.magic from hmagic), Res.bind_raise]
    refine ⟨_, by rw [exec_hdrr hs, hbody, finish_raise], rfl, rfl, ?_, ?_⟩
    · rw [faultEntry_upos]
      exact State.advance_toNat (s := s) (upos_add_le_of_restBits (by omega) hlong)
    · simp [State.hdrrStart]

end Sys2Proof.Machine
end

/-! # Proofs about the header that HDRW writes and HDRR reads (42_codes_header.md) -/

section

namespace Sys2Proof.Machine

open Sys2Proof.Laws (bitsN_length)

/-! ## Writes that completed (R115, R117) -/

theorem writeAll_out (bs : List Bool) (s : State) : (writeAll bs s).Out s := by
  induction bs generalizing s with
  | nil => exact .refl s
  | cons b bs ih => exact (wrBit_out b s).bind fun _ m _ => ih m

/-- A bit that was written without a fault joined the output. -/
theorem outBits_of_wrBit_ok {b : Bool} {s t : State} (hp : s.params.Ok) (hcap : s.outLen.toNat ≤ s.params.obufCap)
    (h : wrBit b s = .ok () t) : OutStep s t ∧ t.outBits = s.outBits ++ [b] := by
  have hfree (h8 : s.pcnt.toNat + 1 = 8) : s.outBlocked = false := by
    cases hblock : s.outBlocked with
    | false => rfl
    | true => rw [wrBit_blocked b h8 hblock] at h; nomatch h
  obtain ⟨t', ht', hstep, hbits⟩ := wrBit_ok b hp hcap hfree
  rw [h, Res.ok.injEq] at ht'
  exact ht'.2 ▸ ⟨hstep, hbits⟩

theorem outBits_of_writeAll_ok {bs : List Bool} {s t : State} (hp : s.params.Ok)
    (hcap : s.outLen.toNat ≤ s.params.obufCap) (h : writeAll bs s = .ok () t) : t.outBits = s.outBits ++ bs := by
  induction bs generalizing s with
  | nil =>
    rw [writeAll, Res.ok.injEq] at h
    rw [h.2, List.append_nil]
  | cons b bs ih =>
    obtain ⟨_, m, hm, hrest⟩ := Res.bind_eq_ok.mp h
    obtain ⟨hstep, hbit⟩ := outBits_of_wrBit_ok hp hcap hm
    have hcap' : m.outLen.toNat ≤ m.params.obufCap := hstep.params ▸ (hstep.grows hp hcap).1
    rw [ih (hstep.params ▸ hp) hcap' hrest, hbit, List.append_assoc, List.singleton_append]

/-- A part of a command that goes on writing is one write of both bit sequences. -/
theorem writeAll_bind {bs cs : List Bool} {s : State} {f : Unit → State → Res Unit}
    (hf : ∀ m, OutStep s m → f () m = writeAll cs m) : (writeAll bs s).bind f = writeAll (bs ++ cs) s := by
  rw [writeAll_append]
  have hout := writeAll_out bs s
  cases h : writeAll bs s with
  | ok a m => rw [h] at hout; exact hf m hout
  | raise k m => rfl
  | stuck e => rfl

/-! ## HDRW (R155) -/

theorem OutStep.node {s t : State} (h : OutStep s t) : t.node = s.node := by rw [h.fields]

theorem OutStep.root {s t : State} (h : OutStep s t) : t.root = s.root := by rw [h.fields]

theorem writeLeaf_eq_writeAll {s : State} (sym : Symbol) (hopen : s.oclosed = false) :
    writeLeaf sym s = writeAll (true :: bitsN 9 sym.toNat) s := by
  have hsym : (sym.setWidth 32).toNat = sym.toNat := BitVec.toNat_setWidth_of_le (by omega)
  rw [writeLeaf, wrBits_eq_writeAll 1 1#32 hopen]
  refine writeAll_bind (bs := [true]) fun m hm => ?_
  rw [wrBits_eq_writeAll _ _ (hm.oclosed.trans hopen), hsym]
  rfl

theorem serTree_leaf {f : Nat} {i : NodeIdx} {s : State} {nd : Node} (h : Store.get? s.node i.toNat = some nd)
    (hleaf : nd.leaf = true) : serTree (f + 1) i s = writeLeaf nd.sym s := by
  simp only [serTree, getNode, h, hleaf, if_true]

theorem serTree_node {f : Nat} {i : NodeIdx} {s : State} {nd : Node} (h : Store.get? s.node i.toNat = some nd)
    (hleaf : nd.leaf = false) :
    serTree (f + 1) i s = (wrBits 1 0#32 s).bind fun _ s =>
      (serTree f nd.left s).bind fun _ s => serTree f nd.right s := by
  simp only [serTree, getNode, h, hleaf, Bool.false_eq_true, if_false]

/-- R90, R155: on an open output the walk writes the serialized tree. -/
theorem serTree_eq_writeAll {f : Nat} {i : NodeIdx} {s : State} {tr : Tree} (h : treeAt s.node f i = some tr)
    (hopen : s.oclosed = false) : serTree f i s = writeAll tr.ser s := by
  induction f generalizing i s tr with
  | zero => exact absurd h (by simp [treeAt])
  | succ f ih =>
    obtain ⟨nd, hnd, ⟨hleaf, rfl⟩ | ⟨hleaf, l, r, hl, hr, rfl⟩⟩ := treeAt_succ_eq_some h
    · rw [serTree_leaf hnd hleaf, writeLeaf_eq_writeAll _ hopen, Tree.ser]
    · rw [serTree_node hnd hleaf, wrBits_eq_writeAll 1 0#32 hopen]
      refine writeAll_bind (bs := [false]) (cs := l.ser ++ r.ser) fun m hm => ?_
      rw [ih (hm.node ▸ hl) (hm.oclosed.trans hopen)]
      refine writeAll_bind fun u hu => ?_
      exact ih ((hm.trans hu).node ▸ hr) ((hm.trans hu).oclosed.trans hopen)

theorem exec_hdrw {s : State} (hs : Ready s) : exec .hdrw s = finish (hdrwBody s.begin) := command_idle hs

theorem hdrwBody_eq_writeAll {s : State} {tr : Tree} (hvalid : s.treeValid = true) (htree : s.tree = some tr)
    (hopen : s.oclosed = false) :
    hdrwBody s = writeAll (bitsN 32 s.params.magic.toNat ++ tr.ser) s.stkFree := by
  rw [hdrwBody, if_pos hvalid, wrBits_eq_writeAll (s := s.stkFree) _ _ hopen]
  refine writeAll_bind fun m hm => serTree_eq_writeAll ?_ (hm.oclosed.trans hopen)
  rw [hm.node, hm.root]
  exact htree

/-- R155: an HDRW that completed wrote the magic value and the serialized tree. -/
theorem outBits_of_hdrw_completes {s w : State} {tr : Tree} (hs : Ready s) (htr : HoldsTree s tr)
    (hopen : OutputOpen s) (hp : s.params.Ok) (hlen : LengthsOk s) (hexec : exec .hdrw s = .next w)
    (hw : w.sstate = .idle) : w.outBits = s.outBits ++ (bitsN 32 s.params.magic.toNat ++ tr.ser) := by
  obtain ⟨hvalid, -, htree⟩ := htr
  rw [exec_hdrw hs, hdrwBody_eq_writeAll (s := s.begin) hvalid htree hopen.1] at hexec
  obtain ⟨m, hm, rfl⟩ | ⟨k, m, -, rfl⟩ := finish_next hexec
  · exact outBits_of_writeAll_ok (s := s.begin.stkFree) (t := m) hp hlen.1 hm
  · exact SState.noConfusion hw

/-! ## The levels of a tree (R64 item 4) -/

/-- Number of levels: 1 for a leaf. -/
def Tree.levels : Tree → Nat
  | .leaf _ => 1
  | .node l r => max l.levels r.levels + 1

theorem Tree.size_pos (tr : Tree) : 1 ≤ tr.size := by cases tr <;> simp [Tree.size]

/-- Every level but the first has a node beside the path, so 513 nodes give at most 257 levels. -/
theorem Tree.two_mul_levels_le (tr : Tree) : 2 * tr.levels ≤ tr.size + 1 := by
  induction tr with
  | leaf x => exact Nat.le_refl 2
  | node l r ihl ihr =>
    have hl := l.size_pos
    have hr := r.size_pos
    rw [Tree.levels, Tree.size]
    omega

/-! ## Trees numbered in preorder (R160) -/

/-- `NODE` holds the tree with its nodes numbered in preorder from i on, all weights 0 (R160). -/
def PreorderAt (nodes : List (Nat × Node)) : Nat → Tree → Prop
  | i, .leaf x => Store.get? nodes i = some (leafNode (BitVec.ofNat 9 x) 0#32)
  | i, .node l r =>
    Store.get? nodes i =
        some (internalNode 0#32 (BitVec.ofNat 10 (i + 1)) (BitVec.ofNat 10 (i + 1 + l.size))) ∧
      PreorderAt nodes (i + 1) l ∧ PreorderAt nodes (i + 1 + l.size) r

/-- Only the entries from i to i + `tr.size` - 1 matter. -/
theorem PreorderAt.congr {nodes nodes' : List (Nat × Node)} {i : Nat} {tr : Tree} (h : PreorderAt nodes i tr)
    (heq : ∀ k, i ≤ k → k < i + tr.size → Store.get? nodes' k = Store.get? nodes k) : PreorderAt nodes' i tr := by
  induction tr generalizing i with
  | leaf x => exact (heq i (Nat.le_refl i) (Nat.lt_succ_self i)).trans h
  | node l r ihl ihr =>
    obtain ⟨hi, hl, hr⟩ := h
    rw [Tree.size] at heq
    exact ⟨(heq i (by omega) (by omega)).trans hi, ihl hl fun k hk hlt => heq k (by omega) (by omega),
      ihr hr fun k hk hlt => heq k (by omega) (by omega)⟩

/-- A tree numbered in preorder is read back as itself. -/
theorem PreorderAt.treeAt {nodes : List (Nat × Node)} {f i : Nat} {tr : Tree} (h : PreorderAt nodes i tr)
    (hf : tr.levels ≤ f) (hi : i + tr.size ≤ 1024) (hsym : ∀ x ∈ tr.symbols, x ≤ 256) :
    treeAt nodes f (BitVec.ofNat 10 i) = some tr := by
  have hpos := tr.size_pos
  have hidx : (BitVec.ofNat 10 i).toNat = i := by rw [BitVec.toNat_ofNat]; omega
  induction tr generalizing f i with
  | leaf x =>
    obtain ⟨f, rfl⟩ := Nat.exists_eq_add_of_le' (show 1 ≤ f from hf)
    have hx : (BitVec.ofNat 9 x).toNat = x := by
      have := hsym x (List.mem_singleton_self x)
      rw [BitVec.toNat_ofNat]; omega
    rw [treeAt_leaf ((congrArg (Store.get? nodes) hidx).trans h) rfl]
    exact congrArg (fun v => some (Tree.leaf v)) hx
  | node l r ihl ihr =>
    obtain ⟨hroot, hl, hr⟩ := h
    rw [Tree.levels] at hf
    rw [Tree.size] at hi
    obtain ⟨f, rfl⟩ := Nat.exists_eq_add_of_le' (show 1 ≤ f by omega)
    have hlpos := l.size_pos
    have hrpos := r.size_pos
    refine treeAt_node ((congrArg (Store.get? nodes) hidx).trans hroot) rfl ?_ ?_
    · exact ihl hl (by omega) (by omega) (fun x hx => hsym x (List.mem_append_left _ hx)) hlpos
        (by rw [BitVec.toNat_ofNat]; omega)
    · exact ihr hr (by omega) (by omega) (fun x hx => hsym x (List.mem_append_right _ hx)) hrpos
        (by rw [BitVec.toNat_ofNat]; omega)

/-! ## What HDRR does while it reads a tree (R160) -/

theorem allocNode_ok {s : State} (h : s.nnodes.toNat < 513) : allocNode s = .ok s.nnodes s.alloc := by
  obtain ⟨-, hok⟩ | ⟨hfull, -⟩ := allocNode_cases s
  · exact hok
  · omega

/-- The state once the marker bit of a node is read and the node allocated. -/
def State.openNode (s : State) : State := (s.advance 1).alloc

theorem State.openNode_nnodes {s : State} (h : s.nnodes.toNat < 513) :
    s.openNode.nnodes.toNat = s.nnodes.toNat + 1 := by
  have hadd : s.openNode.nnodes = s.nnodes + 1#10 := rfl
  rw [hadd, BitVec.toNat_add, BitVec.toNat_ofNat]
  omega

theorem State.openNode_upos {s : State} (h : s.upos.toNat + 1 ≤ 8 * s.inLen.toNat) :
    s.openNode.upos.toNat = s.upos.toNat + 1 :=
  State.advance_toNat h

theorem NodeIdx.eq_ofNat {i : NodeIdx} {n : Nat} (h : i.toNat = n) : i = BitVec.ofNat 10 n := by
  rw [← h, BitVec.ofNat_toNat, BitVec.setWidth_eq]

section
variable {f : Nat} {s : State} {rest : List Bool} (hread : Readable s) (hroom : s.nnodes.toNat < 513)
include hread hroom

theorem deserTree_internal (h : s.restBits = false :: rest) :
    deserTree (f + 1) s = (deserTree f s.openNode).bind fun l s' =>
      (deserTree f s').bind fun r s' => .ok s.nnodes (recordInternal s.nnodes l r s') := by
  obtain ⟨-, hneed, -⟩ := needBits_value (bs := [false]) (Nat.le_refl 1) rfl hread h
  rw [deserTree, hneed, Res.bind_ok, allocNode_ok (s := s.advance 1) hroom, Res.bind_ok]
  exact if_pos (by decide)

theorem deserTree_leaf {x : Nat} (hx : x ≤ 256) (h : s.restBits = true :: (bitsN 9 x ++ rest)) :
    deserTree (f + 1) s =
      .ok s.nnodes ((s.openNode.advance 9).setNode s.nnodes.toNat (leafNode (BitVec.ofNat 9 x) 0#32)) := by
  obtain ⟨-, hmarker, hrest⟩ := needBits_value (bs := [true]) (Nat.le_refl 1) rfl hread h
  obtain ⟨-, hfield, -⟩ := needBits_value (s := s.openNode) (n := 9) (by omega) (bitsN_length 9 x) hread hrest
  have hv : (BitVec.ofNat 32 (val (bitsN 9 x))).setWidth 9 = BitVec.ofNat 9 x := by
    rw [val_bitsN]
    refine BitVec.eq_of_toNat_eq ?_
    rw [BitVec.toNat_setWidth, BitVec.toNat_ofNat, BitVec.toNat_ofNat]
    omega
  have hsym : symbolOk (BitVec.ofNat 9 x) = true := by
    refine decide_eq_true ?_
    rw [BitVec.toNat_ofNat, Config.eosSym]
    omega
  have hone : BitVec.ofNat 32 (val [true]) ≠ 0#32 := by decide
  rw [deserTree, hmarker, Res.bind_ok, allocNode_ok (s := s.advance 1) hroom, Res.bind_ok]
  refine (if_neg hone).trans ?_
  rw [Config.leafBits, ← State.openNode, hfield, Res.bind_ok, recordLeaf, hv, if_pos hsym]
  rfl

end

/-- From s to t a tree is read: its bits are consumed, its nodes allocated and recorded in preorder, nothing else
changes. -/
structure TreeRead (s t : State) (tr : Tree) : Prop where
  fields : t = { s with upos := t.upos, nnodes := t.nnodes, node := t.node }
  upos : t.upos.toNat = s.upos.toNat + tr.ser.length
  nnodes : t.nnodes.toNat = s.nnodes.toNat + tr.size
  kept : ∀ i, i < s.nnodes.toNat ∨ t.nnodes.toNat ≤ i → Store.get? t.node i = Store.get? s.node i
  tree : PreorderAt t.node s.nnodes.toNat tr

theorem TreeRead.readable {s t : State} {tr : Tree} (h : TreeRead s t tr) (hread : Readable s) : Readable t := by
  rw [h.fields]
  exact hread

theorem TreeRead.restBits {s t : State} {tr : Tree} {rest : List Bool} (h : TreeRead s t tr)
    (hs : s.restBits = tr.ser ++ rest) : t.restBits = rest := by
  have hbits : t.inBits = s.inBits := by rw [h.fields]; rfl
  rw [State.restBits, hbits, h.upos, ← List.drop_drop]
  exact (congrArg (List.drop _) hs).trans (List.drop_left' rfl)

theorem TreeRead.leaf {s : State} (x : Nat) (hroom : s.nnodes.toNat < 513)
    (hle : s.upos.toNat + 10 ≤ 8 * s.inLen.toNat) :
    TreeRead s ((s.openNode.advance 9).setNode s.nnodes.toNat (leafNode (BitVec.ofNat 9 x) 0#32)) (.leaf x) where
  fields := by cases s; rfl
  upos := by
    have h1 := State.openNode_upos (s := s) (by omega)
    have h9 : (s.openNode.advance 9).upos.toNat = s.openNode.upos.toNat + 9 :=
      State.advance_toNat (show _ ≤ 8 * s.inLen.toNat by omega)
    have hlen : (Tree.leaf x).ser.length = 10 := congrArg Nat.succ (bitsN_length 9 x)
    rw [State.setNode_upos, h9, h1, hlen]
  nnodes := State.openNode_nnodes hroom
  kept i hi := by
    have hopen := State.openNode_nnodes hroom
    have hi' : i < s.nnodes.toNat ∨ s.openNode.nnodes.toNat ≤ i := hi
    rw [State.setNode_node, Store.get?_put_other _ _ (by omega)]
    rfl
  tree := by
    rw [State.setNode_node]
    exact Store.get?_put_same _ _ _

theorem Tree.ser_node_length (l r : Tree) : (Tree.node l r).ser.length = 1 + l.ser.length + r.ser.length := by
  rw [Tree.ser, List.length_cons, List.length_append, Nat.add_comm, Nat.add_assoc]

theorem recordInternal_get?_other {i l r : NodeIdx} {s : State} {k : Nat} (h : k ≠ i.toNat) :
    Store.get? (recordInternal i l r s).node k = Store.get? s.node k :=
  Store.get?_put_other _ _ h

/-- The two subtrees read one after the other and the internal record are the read of the tree above them. -/
theorem TreeRead.node {s m t : State} {l r : Tree} (hle : s.upos.toNat + 1 ≤ 8 * s.inLen.toNat)
    (hroom : s.nnodes.toNat + (Tree.node l r).size ≤ 513) (hl : TreeRead s.openNode m l) (hr : TreeRead m t r) :
    TreeRead s (recordInternal s.nnodes s.openNode.nnodes m.nnodes t) (.node l r) := by
  rw [Tree.size] at hroom
  have hopen : s.openNode.nnodes.toNat = s.nnodes.toNat + 1 := State.openNode_nnodes (by omega)
  have hmid : m.nnodes.toNat = s.nnodes.toNat + 1 + l.size := hopen ▸ hl.nnodes
  have hend := hr.nnodes
  refine ⟨?_, ?_, ?_, fun i hi => ?_, ?_, ?_, ?_⟩
  · rw [hr.fields, hl.fields]
    rfl
  · exact hr.upos.trans (by rw [hl.upos, State.openNode_upos hle, Tree.ser_node_length]; omega)
  · exact hend.trans (by rw [hmid, Tree.size]; omega)
  · have hi' : i < s.nnodes.toNat ∨ t.nnodes.toNat ≤ i := hi
    rw [recordInternal_get?_other (by omega), hr.kept i (by omega), hl.kept i (by omega)]
    rfl
  · rw [← NodeIdx.eq_ofNat hopen, ← NodeIdx.eq_ofNat hmid]
    exact Store.get?_put_same _ _ _
  · refine (hopen ▸ hl.tree).congr fun k hlo hhi => ?_
    rw [recordInternal_get?_other (by omega), hr.kept k (by omega)]
  · exact (hmid ▸ hr.tree).congr fun k hlo hhi => recordInternal_get?_other (by omega)

/-- R160: from the bits of a serialized tree, with room for its nodes, `DeserTree` reads the tree. -/
theorem deserTree_reads {f : Nat} {s : State} {tr : Tree} {rest : List Bool} (hf : tr.levels ≤ f)
    (hread : Readable s) (hroom : s.nnodes.toNat + tr.size ≤ 513) (hsym : ∀ x ∈ tr.symbols, x ≤ 256)
    (h : s.restBits = tr.ser ++ rest) : ∃ t, deserTree f s = .ok s.nnodes t ∧ TreeRead s t tr := by
  induction tr generalizing f s rest with
  | leaf x =>
    obtain ⟨f, rfl⟩ := Nat.exists_eq_add_of_le' (show 1 ≤ f from hf)
    rw [Tree.size] at hroom
    have hlen : s.restBits.length = 10 + rest.length := by
      rw [h, Tree.ser, List.length_append, List.length_cons, bitsN_length]
    exact ⟨_, deserTree_leaf hread hroom (hsym x (List.mem_singleton_self x)) h,
      .leaf x hroom (upos_add_le_of_restBits (by omega) (by omega))⟩
  | node l r ihl ihr =>
    have hsize : (Tree.node l r).size = l.size + r.size + 1 := rfl
    rw [Tree.levels] at hf
    obtain ⟨f, rfl⟩ := Nat.exists_eq_add_of_le' (show 1 ≤ f by omega)
    rw [Tree.ser, List.cons_append, List.append_assoc] at h
    obtain ⟨hle, -, hrest⟩ := needBits_value (bs := [false]) (Nat.le_refl 1) rfl hread h
    have hopen : s.openNode.nnodes.toNat = s.nnodes.toNat + 1 := State.openNode_nnodes (by omega)
    obtain ⟨m, hm, hl⟩ := ihl (f := f) (s := s.openNode) (by omega) hread (by omega)
      (fun x hx => hsym x (List.mem_append_left _ hx)) hrest
    have hmid := hl.nnodes
    obtain ⟨t, ht, hr⟩ := ihr (f := f) (s := m) (by omega) (hl.readable hread) (by omega)
      (fun x hx => hsym x (List.mem_append_right _ hx)) (hl.restBits hrest)
    refine ⟨_, ?_, .node hle hroom hl hr⟩
    rw [deserTree_internal hread (by omega) h, hm, Res.bind_ok, ht, Res.bind_ok]

/-! ## HDRR on a header (R160, R162) -/

/-- The state of HDRR before the tree, the magic value read. -/
def State.treeBitsStart (s : State) : State := s.begin.hdrrStart.advance 32

theorem exec_hdrr_tree {s : State} {tr : Tree} {rest : List Bool} (hs : Ready s) (hread : Readable s)
    (hsize : tr.size ≤ 513) (hsym : ∀ x ∈ tr.symbols, x ≤ 256)
    (h : s.restBits = bitsN 32 s.params.magic.toNat ++ (tr.ser ++ rest)) :
    ∃ m, exec .hdrr s = .next { m.setTree 0#10 with done := true } ∧ TreeRead s.treeBitsStart m tr := by
  have hlen := bitsN_length 32 s.params.magic.toNat
  have hmagic : BitVec.ofNat 32 (val (bitsN 32 s.params.magic.toNat)) = s.params.magic := by
    rw [val_bitsN, Nat.mod_eq_of_lt s.params.magic.isLt, BitVec.ofNat_toNat, BitVec.setWidth_eq]
  obtain ⟨-, -, hrest⟩ := needBits_value (s := s.begin.hdrrStart) (by omega) hlen hread h
  have hlevels : tr.levels ≤ deserLevels := by
    have := tr.two_mul_levels_le
    rw [deserLevels, Config.nodeCap]
    omega
  obtain ⟨m, hm, htr⟩ := deserTree_reads (s := s.treeBitsStart) hlevels hread
    (show 0 + tr.size ≤ 513 by omega) hsym hrest
  have hbody : hdrrBody s.begin = .ok () (m.setTree 0#10) := by
    rw [hdrrBody_of_magicBits hread hlen h, hmagic, checkMagic]
    refine (congrArg (Res.bind · _) (if_pos rfl)).trans ?_
    rw [Res.bind_ok, ← State.treeBitsStart, hm]
    rfl
  have hidle : m.sstate = .idle := by rw [htr.fields]; exact hs
  exact ⟨m, by rw [exec_hdrr hs, hbody]; exact finish_ok_idle hidle, htr⟩

/-- R160: the root of the tree read is node 0. -/
theorem TreeRead.state_tree {s m : State} {tr : Tree} (h : TreeRead s.treeBitsStart m tr) (hsize : tr.size ≤ 513)
    (hsym : ∀ x ∈ tr.symbols, x ≤ 256) : (m.setTree 0#10).tree = some tr := by
  have hlevels : tr.levels ≤ walkLevels := by
    have := tr.two_mul_levels_le
    rw [walkLevels, Config.maxCodeLen]
    omega
  exact PreorderAt.treeAt (i := 0) h.tree hlevels (by omega) hsym

/-- Settles O33: HDRW's bits are the magic value and the serialized tree, from which HDRR builds the same tree; CTGEN's
table depends on the tree alone. -/
theorem headerDescribesItsTree : Obligations.HeaderDescribesItsTree := by
  intro s w r r' tr rest hs htr hopen hp hlen hw hidle hr hread hmagic hbits hexec
  have hsym := htr.symbols_le
  have hout := outBits_of_hdrw_completes hs htr hopen hp hlen hw hidle
  rw [hout, List.drop_left, List.append_assoc, ← hmagic] at hbits
  obtain ⟨m, hm, hread'⟩ := exec_hdrr_tree hr hread htr.size_le hsym hbits
  obtain rfl : r' = { m.setTree 0#10 with done := true } := Host.Outcome.next.inj (hexec.symm.trans hm)
  have hidle' : m.sstate = .idle := by rw [hread'.fields]; exact hr
  have htree := hread'.state_tree htr.size_le hsym
  obtain ⟨hvalid, -, hstree⟩ := htr
  exact ⟨rfl, htree, _, _, exec_ctgen_tree hs hvalid hstree hsym, exec_ctgen_tree hidle' rfl htree hsym, rfl⟩

end Sys2Proof.Machine
end

/-! # Proofs about the stream decoder (43_stream.md) -/

section

namespace Sys2Proof.Machine

/-! ## Reads and writes that completed (R112, R115) -/

/-- R111: the next input bit, then the input after it. -/
theorem State.restBits_split {s : State} (h : s.upos.toNat + 1 ≤ 8 * s.inLen.toNat) :
    ∃ b, s.restBits = b :: (s.advance 1).restBits := by
  rw [State.restBits_advance h, State.restBits, State.inBits_drop (by omega)]
  exact ⟨_, rfl⟩

theorem bitValue_ne_zero (b : Bool) : (BitVec.ofNat 32 (val [b]) != 0#32) = b := by cases b <;> decide

/-- A read that must succeed and did: the value of the next n bits, which are consumed. -/
theorem needBits_eq_ok {n : Nat} {s m : State} {v : Word} (h : needBits n s = .ok v m) :
    s.upos.toNat + n ≤ 8 * s.inLen.toNat ∧ v = BitVec.ofNat 32 (val (s.restBits.take n)) ∧ m = s.advance n := by
  obtain ⟨r, u, hr, hv⟩ := Res.bind_eq_ok.mp h
  rcases rdBits_cases n s with ⟨-, hc⟩ | ⟨hle, hread, -⟩ | ⟨-, -, hc⟩
  · obtain ⟨rfl, rfl⟩ := Res.ok.inj (hr.symm.trans hc)
    nomatch hv
  · obtain ⟨rfl, rfl⟩ := Res.ok.inj (hr.symm.trans (rdBits_value hle hread))
    obtain ⟨rfl, rfl⟩ := Res.ok.inj hv
    exact ⟨hle, rfl, rfl⟩
  · nomatch hr.symm.trans hc

/-- Bits that `WrBits` wrote without a fault joined the output, which was open. -/
theorem outBits_of_wrBits_ok {n : Nat} {v : Word} {s m : State} (hp : s.params.Ok)
    (hcap : s.outLen.toNat ≤ s.params.obufCap) (h : wrBits n v s = .ok () m) :
    OutStep s m ∧ m.outBits = s.outBits ++ bitsN n v.toNat := by
  have hout := wrBits_out n v s
  rw [h] at hout
  cases hopen : s.oclosed with
  | true => rw [wrBits_closed hopen] at h; nomatch h
  | false => exact ⟨hout, outBits_of_writeAll_ok hp hcap (wrBits_eq_writeAll n v hopen ▸ h)⟩

/-! ## The parts of DECODE (R175, R176) -/

theorem exec_decode {s : State} (hs : Ready s) : exec .decode s = finish (decodeBody s.begin) := command_idle hs

section
variable {s : State} {nd : Node}

theorem decodeStart_malformed (hvalid : s.treeValid = true) (h : getNode s s.root = some nd) (hleaf : nd.leaf = true)
    (hsym : nd.sym.toNat ≠ 256) : decodeStart s = .raise .malformed s := by
  simp [decodeStart, hvalid, h, hleaf, hsym, Config.eosSym]

theorem decodeStart_eos (hvalid : s.treeValid = true) (h : getNode s s.root = some nd) (hsym : nd.sym.toNat = 256) :
    decodeStart s = .ok () (s.setCur s.root) := by
  simp [decodeStart, hvalid, h, hsym, Config.eosSym]

theorem decodeStart_eq_ok {m : State} (h : decodeStart s = .ok () m) : m = s.setCur s.root := by
  unfold decodeStart at h
  split at h
  · split at h
    · nomatch h
    · split at h
      · nomatch h
      · exact (Res.ok.inj h).2.symm
  · nomatch h

variable {k : Nat} (h : getNode s s.cur = some nd)
include h

theorem decodeLoop_eos (hleaf : nd.leaf = true) (hsym : nd.sym.toNat = 256) : decodeLoop (k + 1) s = .ok () s := by
  simp [decodeLoop, h, hleaf, hsym, Config.eosSym]

theorem decodeLoop_symbol (hleaf : nd.leaf = true) (hsym : nd.sym.toNat ≠ 256) :
    decodeLoop (k + 1) s = (emitStep nd.sym s).bind fun _ s => decodeLoop k s := by
  simp [decodeLoop, h, hleaf, hsym, Config.eosSym]

theorem decodeLoop_internal (hleaf : nd.leaf = false) :
    decodeLoop (k + 1) s = (branchStep s).bind fun _ s => decodeLoop k s := by
  simp [decodeLoop, h, hleaf]

/-- R175: a branch that was taken consumed the bit that chose it. -/
theorem branchStep_eq_ok {m : State} (hleaf : nd.leaf = false) (hm : branchStep s = .ok () m) :
    ∃ b, m = (s.advance 1).setCur (if b then nd.right else nd.left) ∧ s.restBits = b :: m.restBits ∧
      m.upos.toNat = s.upos.toNat + 1 := by
  obtain ⟨v, u, hu, hmove⟩ := Res.bind_eq_ok.mp hm
  obtain ⟨hle, rfl, rfl⟩ := needBits_eq_ok hu
  rw [moveToChild_ok (s := s.advance 1) h hleaf] at hmove
  obtain ⟨-, rfl⟩ := Res.ok.inj hmove
  obtain ⟨b, hsplit⟩ := State.restBits_split hle
  refine ⟨b, ?_, hsplit, State.advance_toNat hle⟩
  rw [hsplit, List.take_succ_cons, List.take_zero, bitValue_ne_zero]

end

/-- R175: an emitted symbol is one byte of output; the walk is back at the root. -/
theorem emitStep_eq_ok {s m : State} {x : Symbol} (hp : s.params.Ok) (hcap : s.outLen.toNat ≤ s.params.obufCap)
    (h : emitStep x s = .ok () m) :
    ∃ u, OutStep s u ∧ u.outBits = s.outBits ++ bitsN 8 x.toNat ∧ m = u.setCur u.root := by
  obtain ⟨_, u, hu, hm⟩ := Res.bind_eq_ok.mp h
  obtain ⟨hstep, hbits⟩ := outBits_of_wrBits_ok hp hcap hu
  have hx : (x.setWidth 32).toNat = x.toNat := BitVec.toNat_setWidth_of_le (by omega)
  exact ⟨u, hstep, hx ▸ hbits, (Res.ok.inj hm).2.symm⟩

/-! ## The walk of DECODE through the tree (R92, R177) -/

/-- In the loop of R175: `NODE` holds tr, `CUR` is where the path p leads, and the output is within its memory. -/
structure DecodeAt (s : State) (tr : Tree) (p : List Bool) : Prop where
  tree : s.tree = some tr
  params : s.params.Ok
  cap : s.outLen.toNat ≤ s.params.obufCap
  cur : ∃ f sub, treeAt s.node f s.cur = some sub ∧ ∀ c ∈ sub.codes, (c.1, p ++ c.2) ∈ tr.codes

theorem DecodeAt.root {s : State} {tr : Tree} (htree : s.tree = some tr) (hp : s.params.Ok)
    (hcap : s.outLen.toNat ≤ s.params.obufCap) : DecodeAt (s.setCur s.root) tr [] :=
  ⟨htree, hp, hcap, walkLevels, tr, htree, fun _ hc => hc⟩

theorem DecodeAt.root_of_outStep {s u : State} {tr : Tree} {p : List Bool} (h : DecodeAt s tr p) (hu : OutStep s u) :
    DecodeAt (u.setCur u.root) tr [] := by
  refine .root ?_ (hu.params ▸ h.params) (hu.params ▸ (hu.grows h.params h.cap).1)
  rw [State.tree, hu.node, hu.root]
  exact h.tree

/-- Each code below a child is that child's bit before a code below the node. -/
theorem Tree.mem_codes_child {l r : Tree} {c : Nat × List Bool} (b : Bool) (h : c ∈ (if b then r else l).codes) :
    (c.1, b :: c.2) ∈ (Tree.node l r).codes := by
  cases b with
  | false => exact List.mem_append_left _ (List.mem_map_of_mem h)
  | true => exact List.mem_append_right _ (List.mem_map_of_mem h)

/-- At a leaf the path is a code of its symbol; from an internal node each branch leads one bit further. -/
theorem DecodeAt.node_cases {s : State} {tr : Tree} {p : List Bool} (h : DecodeAt s tr p) :
    ∃ nd, getNode s s.cur = some nd ∧
      ((nd.leaf = true ∧ (nd.sym.toNat, p) ∈ tr.codes) ∨
        (nd.leaf = false ∧ ∀ b : Bool,
          DecodeAt ((s.advance 1).setCur (if b then nd.right else nd.left)) tr (p ++ [b]))) := by
  obtain ⟨htree, hp, hcap, f, sub, hsub, hcodes⟩ := h
  cases f with
  | zero => nomatch hsub
  | succ f =>
    obtain ⟨nd, hnd, ⟨hleaf, rfl⟩ | ⟨hleaf, l, r, hl, hr, rfl⟩⟩ := treeAt_succ_eq_some hsub
    · have hcode := hcodes _ (List.mem_singleton_self _)
      rw [List.append_nil] at hcode
      exact ⟨nd, hnd, .inl ⟨hleaf, hcode⟩⟩
    · refine ⟨nd, hnd, .inr ⟨hleaf, fun b => ⟨htree, hp, hcap, f, if b then r else l, ?_, fun c hc => ?_⟩⟩⟩
      · cases b
        · exact hl
        · exact hr
      · rw [List.append_assoc]
        exact hcodes _ (Tree.mem_codes_child b hc)

/-! ## A DECODE that completed (R182) -/

/-- From s, with the bits p of a code read before, DECODE read the codes cs and then the code e of 256, emitted the
symbols of cs and stopped at t. -/
structure Decoded (tr : Tree) (p : List Bool) (cs : List (Nat × List Bool)) (e : List Bool) (s t : State) : Prop where
  symbols : ∀ c ∈ cs, c ∈ tr.codes ∧ c.1 ≠ 256
  terminator : (256, e) ∈ tr.codes
  input : p ++ s.restBits = cs.flatMap Prod.snd ++ e ++ t.restBits
  upos : p.length + t.upos.toNat = s.upos.toNat + (cs.flatMap Prod.snd).length + e.length
  cur : (Store.get? t.node t.cur.toNat).map (fun nd => (nd.leaf, nd.sym)) = some (true, 256#9)
  output : t.outBits = s.outBits ++ cs.flatMap fun c => bitsN 8 c.1

theorem Decoded.eos {tr : Tree} {p : List Bool} {s : State} {nd : Node} (hcode : (nd.sym.toNat, p) ∈ tr.codes)
    (hnd : getNode s s.cur = some nd) (hleaf : nd.leaf = true) (hsym : nd.sym.toNat = 256) :
    Decoded tr p [] p s s where
  symbols := by simp
  terminator := hsym ▸ hcode
  input := rfl
  upos := Nat.add_comm _ _
  cur := by
    have h9 : nd.sym = 256#9 := BitVec.eq_of_toNat_eq hsym
    rw [show Store.get? s.node s.cur.toNat = some nd from hnd, Option.map_some, hleaf, h9]
  output := (List.append_nil _).symm

section
variable {tr : Tree} {p : List Bool} {cs : List (Nat × List Bool)} {e : List Bool} {s t : State}

/-- Before a decoding that begins at the root, a code p read to its end and its symbol emitted. -/
theorem Decoded.symbol {u : State} {x : Nat} (hcode : (x, p) ∈ tr.codes) (hx : x ≠ 256) (hu : OutStep s u)
    (hbits : u.outBits = s.outBits ++ bitsN 8 x) (h : Decoded tr [] cs e (u.setCur u.root) t) :
    Decoded tr p ((x, p) :: cs) e s t where
  symbols c hc := by
    rcases List.mem_cons.mp hc with rfl | hc
    · exact ⟨hcode, hx⟩
    · exact h.symbols c hc
  terminator := h.terminator
  input := by
    have hrest : (u.setCur u.root).restBits = s.restBits := by rw [hu.fields]; rfl
    rw [← hrest, List.flatMap_cons, List.append_assoc, List.append_assoc, ← List.append_assoc (cs.flatMap _),
      ← h.input]
    rfl
  upos := by
    have hpos : (u.setCur u.root).upos = s.upos := by rw [hu.fields]; rfl
    have htail := h.upos
    have hlen : (((x, p) :: cs).flatMap Prod.snd).length = p.length + (cs.flatMap Prod.snd).length :=
      List.length_append
    rw [hpos, List.length_nil] at htail
    omega
  cur := h.cur
  output := by
    rw [h.output, List.flatMap_cons, ← List.append_assoc, ← hbits]
    rfl

/-- One more bit of a code, read before. -/
theorem Decoded.bit {m : State} {b : Bool} (hrest : s.restBits = b :: m.restBits)
    (hpos : m.upos.toNat = s.upos.toNat + 1) (hbits : m.outBits = s.outBits) (h : Decoded tr (p ++ [b]) cs e m t) :
    Decoded tr p cs e s t where
  symbols := h.symbols
  terminator := h.terminator
  input := by rw [hrest, ← h.input, List.append_assoc, List.singleton_append]
  upos := by
    have htail := h.upos
    rw [List.length_append, List.length_singleton] at htail
    omega
  cur := h.cur
  output := hbits ▸ h.output

end

/-- R175, R182: a loop that completed read the rest of the code it stood in, then codes up to one of 256. -/
theorem decoded_of_decodeLoop_ok {tr : Tree} {k : Nat} {p : List Bool} {s t : State} (hat : DecodeAt s tr p)
    (h : decodeLoop k s = .ok () t) : ∃ cs e, Decoded tr p cs e s t := by
  induction k generalizing s p with
  | zero => nomatch h
  | succ k ih =>
    obtain ⟨nd, hnd, ⟨hleaf, hcode⟩ | ⟨hleaf, hchild⟩⟩ := hat.node_cases
    · by_cases hsym : nd.sym.toNat = 256
      · rw [decodeLoop_eos hnd hleaf hsym] at h
        obtain ⟨-, rfl⟩ := Res.ok.inj h
        exact ⟨[], p, .eos hcode hnd hleaf hsym⟩
      · rw [decodeLoop_symbol hnd hleaf hsym] at h
        obtain ⟨_, m, hm, hloop⟩ := Res.bind_eq_ok.mp h
        obtain ⟨u, hu, hbits, rfl⟩ := emitStep_eq_ok hat.params hat.cap hm
        obtain ⟨cs, e, hdec⟩ := ih (hat.root_of_outStep hu) hloop
        exact ⟨_, e, hdec.symbol hcode hsym hu hbits⟩
    · rw [decodeLoop_internal hnd hleaf] at h
      obtain ⟨_, m, hm, hloop⟩ := Res.bind_eq_ok.mp h
      obtain ⟨b, rfl, hrest, hpos⟩ := branchStep_eq_ok hnd hleaf hm
      obtain ⟨cs, e, hdec⟩ := ih (hchild b) hloop
      exact ⟨cs, e, hdec.bit hrest hpos rfl⟩

/-- R182: only whole bytes were written, so the pending bits stay as many and `OUT_LEN` grew by the symbols. -/
theorem Decoded.counts {tr : Tree} {p : List Bool} {cs : List (Nat × List Bool)} {e : List Bool} {s t : State}
    (h : Decoded tr p cs e s t) : t.pcnt = s.pcnt ∧ t.outLen.toNat = s.outLen.toNat + cs.length := by
  have hlen : (cs.flatMap fun c => bitsN 8 c.1).length = 8 * cs.length := by
    simp [List.length_flatMap, Laws.bitsN_length, Nat.mul_comm]
  have hcount := bitCount_of_outBits h.output
  rw [hlen] at hcount
  have hs := s.pcnt.isLt
  have ht := t.pcnt.isLt
  exact ⟨BitVec.eq_of_toNat_eq (by omega), by omega⟩

/-- Settles O37: by induction on the passes of the loop, from the root with no bit of a code read. -/
theorem completedDecodeReadTerminator : Obligations.CompletedDecodeReadTerminator := by
  intro s t tr hs ⟨_, _, htree⟩ _ hp ⟨hcap, _⟩ hexec hidle
  rw [exec_decode hs] at hexec
  obtain ⟨m, hbody, rfl⟩ | ⟨k, m, -, rfl⟩ := finish_next hexec
  · obtain ⟨_, m₀, hstart, hloop⟩ := Res.bind_eq_ok.mp hbody
    obtain rfl := decodeStart_eq_ok hstart
    obtain ⟨cs, e, hdec⟩ := decoded_of_decodeLoop_ok (DecodeAt.root (s := s.begin) htree hp hcap) hloop
    obtain ⟨hpcnt, hlen⟩ := hdec.counts
    exact ⟨cs, e, m.restBits, hdec.symbols, hdec.terminator, hdec.input, (Nat.zero_add _).symm.trans hdec.upos,
      hdec.cur, hpcnt, hlen, hdec.output⟩
  · exact SState.noConfusion hidle

/-! ## A root that is a leaf (R176) -/

theorem HoldsTree.root_leaf {s : State} {x : Nat} (h : HoldsTree s (.leaf x)) :
    ∃ nd, getNode s s.root = some nd ∧ nd.leaf = true ∧ nd.sym.toNat = x := by
  obtain ⟨-, -, htree⟩ := h
  obtain ⟨nd, hnd, ⟨hleaf, hx⟩ | ⟨-, l, r, -, -, hnode⟩⟩ := treeAt_succ_eq_some htree
  · exact ⟨nd, hnd, hleaf, (Tree.leaf.inj hx).symm⟩
  · nomatch hnode

/-- Settles O39: the start accepts the end-of-stream leaf, at which the loop ends in its first pass, and refuses every
other leaf. -/
theorem decodeAtLeafRoot : Obligations.DecodeAtLeafRoot := by
  intro s sym hs htr
  obtain ⟨nd, hnd, hleaf, rfl⟩ := htr.root_leaf
  obtain ⟨hvalid, -⟩ := htr
  refine ⟨fun hsym => ?_, fun hsym => ?_⟩
  · rw [exec_decode hs, decodeBody, decodeStart_eos (s := s.begin) hvalid hnd hsym, Res.bind_ok, decodePasses,
      decodeLoop_eos (s := s.begin.setCur s.begin.root) hnd hleaf hsym]
    exact finish_ok_idle hs
  · rw [exec_decode hs, decodeBody, decodeStart_malformed (s := s.begin) hvalid hnd hleaf hsym, Res.bind_raise]
    rfl

end Sys2Proof.Machine
end

/-! # Proofs about the acceptance of command words (44_system.md) -/

section

namespace Sys2Proof.Machine

/-! ## The words of the operation map (R83, R85) -/

theorem plainCommand_eq_ok {n : BitVec 6} {i j : Instr} (h : plainCommand n i = .ok j) : j = i := by
  unfold plainCommand at h
  split at h
  · exact (Except.ok.inj h).symm
  · nomatch h

theorem countedCommand_eq_ok {n : BitVec 6} {i j : Instr} (h : countedCommand n i = .ok j) : j = i := by
  unfold countedCommand at h
  split at h
  · exact (Except.ok.inj h).symm
  · nomatch h

/-- R83: a legal word is one of the twelve commands. -/
theorem context_of_decodeWord {w : Word} {i : Instr} (h : decodeWord w = .ok i) : i.context = .command := by
  unfold decodeWord at h
  split at h
  · nomatch h
  · dsimp only at h
    split at h
    case h_8 | h_9 => rw [countedCommand_eq_ok h]; rfl
    case h_13 => nomatch h
    all_goals rw [plainCommand_eq_ok h]; rfl

/-! ## Commands as they are accepted (R191) -/

/-- R191: every command but INIT goes through the one acceptance of `command`, unless its count makes the word illegal
(R85). -/
theorem exec_eq_command_or_illegalCommand {i : Instr} (hc : i.context = .command) (hi : i ≠ .init) :
    (∃ body, ∀ s, exec i s = command i body s) ∨ ∀ s, exec i s = illegalCommand (cmdWrite i) s := by
  cases i with
  | fcount | tbuild | ctgen | hdrw | encode | hdrr | decode | flush | rewind => exact .inl ⟨_, fun _ => rfl⟩
  | rdbits n | wrbits n =>
    by_cases hn : countOk n = true
    · exact .inl ⟨_, fun _ => if_pos hn⟩
    · exact .inr fun _ => if_neg hn
  | init => exact absurd rfl hi
  | magic | tInternal | tLeaf | bLeft | bRight | compress | decompress => nomatch hc

/-- R191: in `S_IDLE` a command other than INIT runs to completion or to fault entry. -/
theorem exec_eq_finish_of_ready {i : Instr} {s : State} (hc : i.context = .command) (hi : i ≠ .init) (hs : Ready s) :
    ∃ r, exec i s = finish r := by
  obtain ⟨body, h⟩ | h := exec_eq_command_or_illegalCommand hc hi
  · exact ⟨body s.begin, (h s).trans (command_idle hs)⟩
  · exact ⟨.raise .illCmd s, (h s).trans (illegalCommand_idle hs)⟩

/-- R191: in `S_FAULT` a command other than INIT is ignored. -/
theorem exec_of_fault {i : Instr} {s : State} (hc : i.context = .command) (hi : i ≠ .init) (hs : s.sstate = .fault) :
    exec i s = .next s := by
  obtain ⟨body, h⟩ | h := exec_eq_command_or_illegalCommand hc hi
  · exact (h s).trans (command_fault hs)
  · exact (h s).trans (illegalCommand_fault hs)

theorem exec_init_of_ready {s : State} (hs : Ready s) : exec .init s = .next (initState s) := by
  simp [exec, execInit, hs]

theorem exec_init_of_fault {s : State} (hs : s.sstate = .fault) : exec .init s = .next (initState s) := by
  simp [exec, execInit, hs]

/-! ## How a command ends (R34, R191, R210) -/

/-- `BUSY` = 0 and either completion with `DONE` = 1 or fault entry. -/
abbrev CommandEnded (t : State) : Prop :=
  t.busy = false ∧
  ((t.sstate = .idle ∧ t.done = true) ∨ (t.sstate = .fault ∧ t.done = false ∧ t.err = true))

theorem State.complete_commandEnded (m : State) : CommandEnded m.complete := ⟨rfl, .inl ⟨rfl, rfl⟩⟩

theorem faultEntry_commandEnded (k : FaultKind) (m : State) : CommandEnded (faultEntry k m) :=
  ⟨rfl, .inr ⟨rfl, rfl, rfl⟩⟩

theorem initState_commandEnded (s : State) : CommandEnded (initState s) := ⟨rfl, .inl ⟨rfl, rfl⟩⟩

/-- R191: a command accepted in `S_IDLE` ends with `DONE` or in fault entry. -/
theorem commandEnded_of_exec {i : Instr} {s t : State} (hc : i.context = .command) (hs : Ready s)
    (h : exec i s = .next t) : CommandEnded t := by
  by_cases hi : i = .init
  · subst hi
    obtain rfl := Host.Outcome.next.inj ((exec_init_of_ready hs).symm.trans h)
    exact initState_commandEnded s
  · obtain ⟨r, hr⟩ := exec_eq_finish_of_ready hc hi hs
    obtain ⟨m, -, rfl⟩ | ⟨k, m, -, rfl⟩ := finish_next (hr.symm.trans h)
    · exact m.complete_commandEnded
    · exact faultEntry_commandEnded k m

/-- R191: in `S_FAULT` a word other than INIT's, legal or not, is ignored. -/
theorem issue_of_fault {w : Word} {s : State} (hs : s.sstate = .fault) (hw : decodeWord w ≠ .ok .init) :
    issue w s = .next s := by
  by_cases hlegal : ∃ i, decodeWord w = .ok i
  · obtain ⟨i, hi⟩ := hlegal
    rw [issue_ok hi, exec_of_fault (context_of_decodeWord hi) (fun h => hw (h ▸ hi)) hs]
  · rw [issue_illegal (not_exists.mp hlegal), illegalCommand_fault hs]

/-- Settles O7: a legal word is a command, which ends as its body does; the other three rows are the answers of the
shared acceptance. -/
theorem acceptanceOfCommandWrites : Obligations.AcceptanceOfCommandWrites := by
  intro s w
  refine ⟨fun hs i hi => ?legalReady, fun hs hw => ?illegalReady, fun hs hi => ?initFault, issue_of_fault⟩
  case legalReady =>
    exact ⟨issue_ok hi s, fun t ht => commandEnded_of_exec (context_of_decodeWord hi) hs ht⟩
  case illegalReady => rw [issue_illegal hw, illegalCommand_idle hs]
  case initFault => rw [issue_ok hi, exec_init_of_fault hs]

end Sys2Proof.Machine
end

/-! # Proofs about faults (60_exceptions.md) -/

section

namespace Sys2Proof.Machine

/-! ## The four ways fault entry closes the output (R210) -/

theorem State.closeQuietly_of_closed {s : State} (hc : s.oclosed = true) : s.closeQuietly = s :=
  if_pos hc

section
variable {s : State} (hc : s.oclosed = false)
include hc

theorem State.closeQuietly_of_nothing_pending (hp : s.pcnt = 0#3) : s.closeQuietly = s.close := by
  simp [State.closeQuietly, hc, hp]

theorem State.closeQuietly_of_free (hp : s.pcnt ≠ 0#3) (hfree : s.outBlocked = false) :
    s.closeQuietly = (s.clearAcc.append (padded s.pacc s.pcnt)).close := by
  have hp' : s.pcnt.toNat ≠ 0 := fun h => hp (BitVec.eq_of_toNat_eq h)
  simp [State.closeQuietly, hc, hp', hfree]

theorem State.closeQuietly_of_blocked (hp : s.pcnt ≠ 0#3) (hblock : s.outBlocked = true) :
    s.closeQuietly = s.clearAcc.close := by
  have hp' : s.pcnt.toNat ≠ 0 := fun h => hp (BitVec.eq_of_toNat_eq h)
  simp [State.closeQuietly, hc, hp', hblock]

end

/-- Settles O41: by the four ways the output is closed; the flags are written over each of them, and the codes are those
of R200's table. -/
theorem faultEntryRecordsAndCloses : Obligations.FaultEntryRecordsAndCloses := by
  refine ⟨fun k s => ⟨fun hc => ?closed, fun hc hp => ?nothingPending, fun hc hp hcap herr => ?free,
    fun hc hp hblock => ?blocked⟩, rfl, rfl, rfl, rfl, rfl, rfl, rfl⟩
  case closed =>
    rw [faultEntry, State.closeQuietly_of_closed hc]
    rfl
  case nothingPending =>
    rw [faultEntry, State.closeQuietly_of_nothing_pending hc hp]
    rfl
  case free =>
    have hfree := s.outBlocked_eq_false_iff.mpr ⟨hcap, herr⟩
    rw [faultEntry, State.closeQuietly_of_free hc hp hfree]
    rfl
  case blocked =>
    have hfull := s.outBlocked_iff.mpr hblock
    rw [faultEntry, State.closeQuietly_of_blocked hc hp hfull]
    rfl

end Sys2Proof.Machine
end

/-! # Proofs about reset and INIT (70_reset_and_hazards.md) -/

section

namespace Sys2Proof.Machine

/-- R34: between commands the sequencer is in `S_IDLE` or in `S_FAULT`. -/
theorem State.busy_eq_false_iff {s : State} : s.busy = false ↔ s.sstate = .idle ∨ s.sstate = .fault := by
  cases h : s.sstate <;> simp [State.busy, SState.busy, h]

/-- R191: INIT is accepted whenever no command runs. -/
theorem exec_init_of_not_busy {s : State} (h : s.busy = false) : exec .init s = .next (initState s) :=
  (State.busy_eq_false_iff.mp h).elim exec_init_of_ready exec_init_of_fault

/-- R232 on states. Each field is a value both R40 and R190 list, or one INIT keeps, so no field of `c` is left. -/
theorem initState_eq_hardReset (c : Contents) (s : State) :
    initState s =
      { hardReset c s with
        inLen := s.inLen, wdata := s.wdata, ibuf := s.ibuf, done := true
        obuf := s.obuf, node := s.node, pq := s.pq, code := s.code, stk := s.stk, sp := s.sp } :=
  rfl

/-- Settles O12: INIT is accepted in both states in which no command runs, and its result is the listed one. -/
theorem initAgainstReset : Obligations.InitAgainstReset := by
  intro s c hbusy
  rw [exec_init_of_not_busy hbusy, initState_eq_hardReset c s]

end Sys2Proof.Machine
end

/-! # Proofs about the decoder and the encoder together (30_encoding.md) -/

section

namespace Sys2Proof.Machine

open Sys2Proof.Laws (bitsN_length wordsBits_length)

/-! ## The word `OP + 16*N` and its fields (R82, R97) -/

theorem commandWord_toNat {op : Nat} (h : op < 16) (n : BitVec 6) :
    (commandWord op n).toNat = op + 16 * n.toNat := by
  have hn := n.isLt
  rw [commandWord, BitVec.toNat_ofNat]
  omega

theorem opField_commandWord {op : Nat} (h : op < 16) (n : BitVec 6) : (opField (commandWord op n)).toNat = op := by
  rw [opField_toNat, commandWord_toNat h]
  omega

theorem countField_commandWord {op : Nat} (h : op < 16) (n : BitVec 6) : countField (commandWord op n) = n := by
  have hn := n.isLt
  refine BitVec.eq_of_toNat_eq ?_
  rw [countField_toNat, commandWord_toNat h]
  omega

theorem reservedField_commandWord {op : Nat} (h : op < 16) (n : BitVec 6) :
    reservedField (commandWord op n) = 0 := by
  have hn := n.isLt
  rw [reservedField_eq_zero_iff, commandWord_toNat h]
  omega

/-- A word with no reserved bit set is the word of its two fields. -/
theorem eq_commandWord_of_reservedField {w : Word} (h : reservedField w = 0) :
    w = commandWord (opField w).toNat (countField w) := by
  have hw := (reservedField_eq_zero_iff w).mp h
  refine BitVec.eq_of_toNat_eq ?_
  rw [commandWord_toNat (opField w).isLt, opField_toNat, countField_toNat]
  omega

theorem plainCommand_eq_ok_iff {n : BitVec 6} {i j : Instr} : plainCommand n i = .ok j ↔ n = 0 ∧ i = j := by
  unfold plainCommand
  split
  next hn => exact ⟨fun h => ⟨hn, Except.ok.inj h⟩, fun ⟨_, h⟩ => congrArg _ h⟩
  next hn => exact ⟨fun h => (nomatch h), fun ⟨h, _⟩ => absurd h hn⟩

theorem countedCommand_eq_ok_iff {n : BitVec 6} {i j : Instr} :
    countedCommand n i = .ok j ↔ countOk n = true ∧ i = j := by
  unfold countedCommand
  split
  next hn => exact ⟨fun h => ⟨hn, Except.ok.inj h⟩, fun ⟨_, h⟩ => congrArg _ h⟩
  next hn => exact ⟨fun h => (nomatch h), fun ⟨h, _⟩ => absurd h hn⟩

/-! ## Encoding a decoded word (R83) -/

/-- Settles O3: each row of the operation map fixes `OP`, and its check fixes `N` or bounds it. -/
theorem encodeGivesBackWord : Obligations.EncodeGivesBackWord := by
  intro w i h
  refine ⟨?_, ?_, context_of_decodeWord h⟩ <;> unfold decodeWord at h <;> split at h
  case refine_1.isTrue | refine_2.isTrue => nomatch h
  case refine_1.isFalse hr =>
    rw [eq_commandWord_of_reservedField (not_not.mp hr)]
    dsimp only at h
    split at h
    case h_8 hop | h_9 hop => obtain ⟨-, rfl⟩ := countedCommand_eq_ok_iff.mp h; rw [hop]; rfl
    case h_13 => nomatch h
    all_goals
      rename_i hop
      obtain ⟨hn, rfl⟩ := plainCommand_eq_ok_iff.mp h
      rw [hop, hn]
      rfl
  case refine_2.isFalse =>
    dsimp only at h
    split at h
    case h_8 | h_9 => obtain ⟨hn, rfl⟩ := countedCommand_eq_ok_iff.mp h; exact hn
    case h_13 => nomatch h
    all_goals obtain ⟨-, rfl⟩ := plainCommand_eq_ok_iff.mp h; rfl

/-! ## Decoding an encoded instruction (R80, R82 to R93, R98) -/

/-- The bits of a word in front of others give the word back. -/
theorem wordOf_take_bitsN (w : Word) (rest : List Bool) :
    BitVec.ofNat 32 (val ((bitsN 32 w.toNat ++ rest).take 32)) = w := by
  rw [List.take_left' (bitsN_length 32 _), val_bitsN, Nat.mod_eq_of_lt w.isLt, BitVec.ofNat_toNat, BitVec.setWidth_eq]

/-- R83: the word of a legal command is read as that command. -/
theorem decodeWord_of_encodeWord {i : Instr} {w : Word} (hwf : i.wf = true) (h : encodeWord i = some w) :
    decodeWord w = .ok i := by
  cases i with
  | fcount | tbuild | ctgen | hdrw | encode | hdrr | decode | flush | rewind | init =>
    obtain rfl := Option.some.inj h
    decide
  | rdbits n | wrbits n =>
    have hn : countOk n = true := hwf
    obtain rfl := Option.some.inj h
    simp [decodeWord, reservedField_commandWord, opField_commandWord, countField_commandWord, countedCommand, hn]
  | magic | tInternal | tLeaf | bLeft | bRight | compress | decompress => nomatch h

theorem decode_command {i : Instr} {w : Word} (rest : List Bool) (hwf : i.wf = true) (hc : i.context = .command)
    (hw : encodeWord i = some w) (he : encode i = bitsN 32 w.toNat) :
    decode i.context (encode i ++ rest) = .ok (i, rest) := by
  have hlen : ¬(bitsN 32 w.toNat ++ rest).length < 32 := by rw [List.length_append, bitsN_length]; omega
  rw [hc, he, decode, if_neg hlen, wordOf_take_bitsN, decodeWord_of_encodeWord hwf hw,
    List.drop_left' (bitsN_length 32 _)]

theorem decode_header (m : Word) (rest : List Bool) :
    decode .header (bitsN 32 m.toNat ++ rest) = .ok (.magic m, rest) := by
  have hlen : ¬(bitsN 32 m.toNat ++ rest).length < 32 := by rw [List.length_append, bitsN_length]; omega
  rw [decode, if_neg hlen, wordOf_take_bitsN, List.drop_left' (bitsN_length 32 _)]

/-- R89: the nine bits of a symbol field give the field back. -/
theorem symbolOf_take_bitsN (v : Symbol) (rest : List Bool) :
    BitVec.ofNat 9 (val ((bitsN 9 v.toNat ++ rest).take 9)) = v := by
  rw [List.take_left' (bitsN_length 9 _), val_bitsN, Nat.mod_eq_of_lt v.isLt, BitVec.ofNat_toNat, BitVec.setWidth_eq]

theorem decodeTree_leaf {v : Symbol} (hv : symbolOk v = true) (rest : List Bool) :
    decodeTree (true :: (bitsN 9 v.toNat ++ rest)) = .ok (.tLeaf v, rest) := by
  have hlen : ¬(bitsN 9 v.toNat ++ rest).length < Config.leafBits := by
    rw [List.length_append, bitsN_length, Config.leafBits]; omega
  rw [decodeTree, if_neg hlen, symbolOf_take_bitsN, if_pos hv, List.drop_left' (bitsN_length 9 _)]

/-- The sequence of DECOMPRESS is no beginning of that of COMPRESS: they differ in their second word. -/
theorem take_decompress_ne_compress (rest : List Bool) :
    (wordsBits decompressWords ++ rest).take 256 ≠ wordsBits compressWords := by
  intro h
  have hlen : (wordsBits decompressWords).length = 128 := wordsBits_length _
  have h128 := congrArg (List.take 128) h
  rw [List.take_take, Nat.min_eq_left (by omega), List.take_left' hlen] at h128
  exact absurd h128 (by decide +kernel)

theorem decode_compress (rest : List Bool) :
    decode .script (wordsBits compressWords ++ rest) = .ok (.compress, rest) := by
  have hlen : (wordsBits compressWords).length = 256 := wordsBits_length _
  rw [decode, if_pos (List.take_left' hlen), List.drop_left' hlen]

theorem decode_decompress (rest : List Bool) :
    decode .script (wordsBits decompressWords ++ rest) = .ok (.decompress, rest) := by
  have hlen : (wordsBits decompressWords).length = 128 := wordsBits_length _
  rw [decode, if_neg (take_decompress_ne_compress rest), if_pos (List.take_left' hlen), List.drop_left' hlen]

/-- Settles O2: a command by its word, a token by its own bits, a pseudo-instruction by its whole sequence. -/
theorem decodeReadsBackEncode : Obligations.DecodeReadsBackEncode := by
  intro i rest hwf
  cases i with
  | fcount | tbuild | ctgen | hdrw | encode | hdrr | decode | rdbits | wrbits | flush | rewind | init =>
    exact decode_command rest hwf rfl rfl rfl
  | magic m => exact decode_header m rest
  | tInternal | bLeft | bRight => rfl
  | tLeaf v => exact decodeTree_leaf hwf rest
  | compress => exact decode_compress rest
  | decompress => exact decode_decompress rest

/-- Settles O1: each listed word and token, by evaluation. -/
theorem listedWordsDecode : Obligations.ListedWordsDecode := by
  refine ⟨?_, ?_, ?_, ?_, ?_, ?_, ?_, ?_, ?_, ?_, ?_, ?_, ?_, ?_, ?_, ?_⟩ <;> decide

end Sys2Proof.Machine
end

/-! # Proofs about the step (10_state.md, 70_reset_and_hazards.md) -/

section

namespace Sys2Proof.Machine

/-! ## Steps between commands (R30, R191, R231) -/

theorem step_waits {s : State} (h : s.busy = false) (ho : s.hostOps = []) : step s = .next s := by
  unfold step sequencerStep
  rcases State.busy_eq_false_iff.mp h with hs | hs <;> rw [hs, ho]

theorem perform_write {size : AccessSize} {off : Nat} (h : ¬(size = .word ∧ off = 0)) (data : Word) (s : State) :
    perform (.write size off data) s = .next (hostWrite size off data s) :=
  if_neg (by simpa using h)

/-- Settles O5: a step between commands performs the access at the head of the queue, whose kinds are the clauses. -/
theorem stepRunsDecodedCommand : Obligations.StepRunsDecodedCommand := by
  refine ⟨fun s w rest hb ho => ?command, fun s p rest hb ho => step_settled hb ho,
    fun s size off rest hb ho => step_settled hb ho, fun s size off data rest hb ho hoff => ?write,
    fun s c rest hb ho => step_settled hb ho, fun s hb ho => step_waits hb ho⟩
  case command =>
    have hstep : step s = issue w { s with hostOps := rest } := step_settled hb ho
    exact ⟨hstep, fun i hi => hstep.trans (issue_ok hi _)⟩
  case write => rw [step_settled hb ho, perform_write hoff]

/-! ## Steps while a command runs (R31, R230) -/

section
variable {s : State} {p : Phase} {op : HostOp} {rest : List HostOp} (hs : s.sstate = .run p)
include hs

theorem step_running (h : NothingUrgent s) : step s = tick p s := by
  unfold step sequencerStep
  cases ho : s.hostOps with
  | nil => rw [hs]
  | cons op rest =>
    obtain ⟨hreset, hstatus⟩ := h op (by rw [ho]; rfl)
    simp only [hs, hreset, hstatus, Bool.false_eq_true, if_false]

theorem step_running_reset {c : Contents} (ho : s.hostOps = .reset c :: rest) :
    step s = .next (hardReset c { s with hostOps := rest }) := by
  unfold step sequencerStep
  rw [hs, ho]
  rfl

theorem step_running_statusRead (ho : s.hostOps = .read .word 0x04 :: rest) :
    step s = .next (statusReadBusy { s with hostOps := rest }) := by
  unfold step sequencerStep
  rw [hs, ho]
  rfl

end

theorem State.running_of_busy {s : State} (h : s.busy = true) : ∃ p, s.sstate = .run p := by
  cases hs : s.sstate with
  | run p => exact ⟨p, rfl⟩
  | idle | fault => rw [State.busy, hs] at h; nomatch h

/-! ## Tokens read in a phase (R72, R93, R161) -/

theorem runToken_ok {c : Context} {bs rest : List Bool} {k : FaultKind} {bad : State → State} {s : State} {i : Instr}
    (h : decode c bs = .ok (i, rest)) : runToken c bs k bad s = exec i s := by
  simp [runToken, h]

/-- Settles O6: nothing urgent, a step is one of the phase machine, which runs the token its bits decode to. -/
theorem stepRunsDecodedToken : Obligations.StepRunsDecodedToken := by
  refine ⟨fun s t b i hs hn hb hd => ?branch, fun s t bs i hs hn hb hd => ?tree, fun s t m i hs hn hb hd => ?magic⟩
  case branch => rw [step_running hs hn, tick, hb]; exact congrArg (afterToken · _) (runToken_ok hd)
  case tree => rw [step_running hs hn, tick, hb]; exact congrArg (afterToken · _) (runToken_ok hd)
  case magic => rw [step_running hs hn, tick, Config.magicBits, hb]; exact congrArg (afterToken · _) (runToken_ok hd)

/-! ## The fault state (R191, R215) -/

theorem hostWrite_sstate (size : AccessSize) (off : Nat) (data : Word) (s : State) :
    (hostWrite size off data s).sstate = s.sstate := by
  unfold hostWrite writeInLen
  split
  case h_1 => split <;> rfl
  all_goals rfl

theorem hostRead_sstate (size : AccessSize) (off : Nat) (s : State) :
    (hostRead size off s).sstate = s.sstate := by
  unfold hostRead
  split <;> rfl

/-- R83: INIT has one word. -/
theorem eq_init_of_decodeWord {w : Word} (h : decodeWord w = .ok .init) : w = 0x0000000C#32 := by
  obtain ⟨hw, -, -⟩ := encodeGivesBackWord w .init h
  exact (Option.some.inj hw).symm

/-- R191: between commands, an access that takes the machine out of the fault state is INIT's word, a pseudo-instruction
or a reset. -/
theorem access_of_leaves_fault {op : HostOp} {s t : State} (hs : s.sstate = .fault) (h : perform op s = .next t)
    (ht : t.sstate ≠ .fault) : op = .write .word 0 0x0000000C#32 ∨ (∃ p, op = .pseudo p) ∨ isReset op = true := by
  cases op with
  | read size off =>
    obtain rfl := Host.Outcome.next.inj h
    exact absurd ((hostRead_sstate size off s).trans hs) ht
  | write size off data =>
    by_cases hcmd : size = .word ∧ off = 0
    · obtain ⟨rfl, rfl⟩ := hcmd
      by_cases hw : decodeWord data = .ok .init
      · exact .inl (by rw [eq_init_of_decodeWord hw])
      · rw [perform_command, issue_of_fault hs hw] at h
        exact absurd (Host.Outcome.next.inj h ▸ hs) ht
    · rw [perform_write hcmd] at h
      obtain rfl := Host.Outcome.next.inj h
      exact absurd ((hostWrite_sstate size off data s).trans hs) ht
  | pseudo p => exact .inr (.inl ⟨p, rfl⟩)
  | reset c => exact .inr (.inr rfl)

/-- Settles O13: commands are ignored in `S_FAULT`; a step there performs one access, and reads, writes and other words
keep the state. -/
theorem onlyInitLeavesFault : Obligations.OnlyInitLeavesFault := by
  refine ⟨fun i s hc hi hs => exec_of_fault hc hi hs, fun s t hs hstep ht => ?_⟩
  have hbusy : s.busy = false := State.busy_eq_false_iff.mpr (.inr hs)
  cases ho : s.hostOps with
  | nil =>
    rw [step_waits hbusy ho] at hstep
    exact absurd (Host.Outcome.next.inj hstep ▸ hs) ht
  | cons op rest =>
    rw [step_settled hbusy ho] at hstep
    exact ⟨op, rest, rfl, access_of_leaves_fault (s := { s with hostOps := rest }) hs hstep ht⟩

end Sys2Proof.Machine
end

/-! # Proofs about reset, INIT and the flags a command needs (10_state.md, 44_system.md) -/

section

namespace Sys2Proof.Machine

/-! ## Reset and INIT (R40, R190) -/

/-- Settles O9: every listed field is a literal of `State.resetWith`; no flag is set in the word of `STATUS`. -/
theorem resetLeavesListedValues : Obligations.ResetLeavesListedValues := by
  intro p c
  refine ⟨rfl, ?statusWord, rfl, rfl, rfl, rfl, rfl, rfl, rfl, rfl, rfl, rfl, rfl, rfl, rfl, rfl, fun i => rfl, rfl⟩
  case statusWord =>
    show flagBit false 0 ||| flagBit false 1 ||| flagBit false 2 ||| flagBit false 3 ||| flagBit false 4 |||
      flagBit false 5 ||| flagBit false 6 = 0#32
    decide

/-- R42 for the state of reset: nothing pending, no fault, no valid flag, and memories built in canonical form. -/
theorem resetWith_inv {p : Params} (c : Contents) (hp : p.Ok) : Inv (State.resetWith p c) := by
  obtain ⟨hibuf, hobuf⟩ := State.resetWith_memories p c
  refine ⟨rfl, hp, Nat.one_pos, ⟨Nat.zero_le _, Nat.zero_le _⟩, ?flags, ⟨nofun, nofun⟩, nofun, nofun,
    hibuf, hobuf, ⟨Store.canonical_nil _, by simp [State.resetWith]⟩, Store.rising_ofRecords _ _,
    Store.canonical_ofEntries _ _ _⟩
  case flags => exact ⟨⟨nofun, fun h => absurd rfl h⟩, ⟨nofun, nofun⟩, by simp [State.resetWith]⟩

/-- Settles O10: by the invariant of the state of reset; the default capacities are legal. -/
theorem resetMeetsInvariant : Obligations.ResetMeetsInvariant :=
  ⟨fun _ c hp => resetWith_inv c hp, resetWith_inv _ (by decide)⟩

/-- Settles O11: INIT is accepted in both states in which no command runs, and `initState` is the listed state. -/
theorem initStartsNewOperation : Obligations.InitStartsNewOperation :=
  fun _ hb => exec_init_of_not_busy hb

/-! ## Flags a command needs (R192, R206) -/

theorem exec_encode {s : State} (hs : Ready s) : exec .encode s = finish (encodeBody s.begin) := command_idle hs

theorem exec_hdrw_contract {s : State} (hs : Ready s) (hvalid : s.treeValid = false) :
    exec .hdrw s = .next (faultEntry .contract s.begin.stkFree) := by
  have hbody : hdrwBody s.begin = .raise .contract s.begin.stkFree := if_neg (ne_true_of_eq_false hvalid)
  rw [exec_hdrw hs, hbody, finish_raise]

theorem exec_decode_contract {s : State} (hs : Ready s) (hvalid : s.treeValid = false) :
    exec .decode s = .next (faultEntry .contract s.begin) := by
  have hstart : decodeStart s.begin = .raise .contract s.begin := if_neg (ne_true_of_eq_false hvalid)
  rw [exec_decode hs, decodeBody, hstart, Res.bind_raise, finish_raise]

/-- Settles O40: each command tests its flag first; CTGEN and HDRW have used only `STK` and `SP` by then. -/
theorem missingFlagsRaiseContract : Obligations.MissingFlagsRaiseContract := by
  refine fun s hs => ⟨fun hvalid i hi => ?tree, fun hvalid => ?code⟩
  case tree =>
    obtain rfl | rfl | rfl : i = .ctgen ∨ i = .hdrw ∨ i = .decode := by simpa using hi
    · exact ⟨_, exec_ctgen_contract hs hvalid, faultEntry_stkFree_visible _ _⟩
    · exact ⟨_, exec_hdrw_contract hs hvalid, faultEntry_stkFree_visible _ _⟩
    · exact ⟨_, exec_decode_contract hs hvalid, rfl⟩
  case code =>
    have hbody : encodeBody s.begin = .raise .contract s.begin := if_neg (ne_true_of_eq_false hvalid)
    rw [exec_encode hs, hbody]
    rfl

end Sys2Proof.Machine
end

/-! # Proofs about the tokens (30_encoding.md, 42_codes_header.md) -/

section

namespace Sys2Proof.Machine

theorem allocNode_full {s : State} (h : s.nnodes.toNat = 513) : allocNode s = .raise .malformed s := by
  obtain ⟨hne, -⟩ | ⟨-, hfull⟩ := allocNode_cases s
  · exact absurd h hne
  · exact hfull

theorem allocNode_room {s : State} (h : s.nnodes.toNat ≠ 513) : allocNode s = .ok s.nnodes s.alloc := by
  obtain ⟨-, hok⟩ | ⟨hfull, -⟩ := allocNode_cases s
  · exact hok
  · exact absurd hfull h

theorem recordLeaf_symbol {i : NodeIdx} {v : Symbol} (h : v.toNat ≤ 256) (s : State) :
    recordLeaf i v s = .ok () (s.setNode i.toNat (leafNode v 0#32)) := by
  obtain ⟨-, hok⟩ | ⟨hlt, -⟩ := recordLeaf_cases i v s
  · exact hok
  · omega

theorem recordLeaf_reserved {i : NodeIdx} {v : Symbol} (h : 256 < v.toNat) (s : State) :
    recordLeaf i v s = .raise .malformed s := by
  obtain ⟨hle, -⟩ | ⟨-, hraise⟩ := recordLeaf_cases i v s
  · omega
  · exact hraise

/-- The effect of a part of a unit as the effect of a token. -/
theorem token_ok (s : State) : token (.ok () s) = .next s := rfl
theorem token_raise (k : FaultKind) (s : State) : token (.raise k s) = .next (faultEntry k s) := rfl

/-- Settles O51: each token is one part of the unit that reads it, with the outcome its premises select. -/
theorem tokensActOnUnits : Obligations.TokensActOnUnits := by
  intro s
  refine ⟨fun nd hnd hleaf => ⟨?left, ?right⟩, ?magic, fun m hm => ?badMagic, fun hroom => ?internal,
    fun v hroom hv => ?leaf, fun v hroom hv => ?reserved, fun v hfull => ⟨?internalFull, ?leafFull⟩⟩
  case left => exact congrArg token (moveToChild_ok hnd hleaf)
  case right => exact congrArg token (moveToChild_ok hnd hleaf)
  case magic => exact congrArg token (if_pos rfl)
  case badMagic => exact congrArg token (if_neg hm)
  case internal =>
    rw [exec, execTInternal, internalStep, allocNode_room hroom]
    rfl
  case leaf =>
    rw [exec, execTLeaf, leafTokenStep, allocNode_room hroom, Res.bind_ok, recordLeaf_symbol hv]
    rfl
  case reserved =>
    rw [exec, execTLeaf, leafTokenStep, allocNode_room hroom, Res.bind_ok, recordLeaf_reserved hv]
    rfl
  case internalFull => rw [exec, execTInternal, internalStep, allocNode_full hfull]; rfl
  case leafFull => rw [exec, execTLeaf, leafTokenStep, allocNode_full hfull]; rfl

end Sys2Proof.Machine
end

/-! # Proofs about the host port (10_state.md, 20_memory.md) -/

section

namespace Sys2Proof.Machine

/-! ## Where an access goes (R30, R51) -/

theorem place_reg {p : Params} {off : Nat} (h4 : off % 4 = 0) (h : off < 0x400) : place p .word off = .reg off := by
  simp [place, wordPlace, freqBase, h4, h]

/-- R30, R51 in numbers. -/
theorem wordPlace_eq (off : Nat) : wordPlace off =
    if ¬off % 4 = 0 then .nothing
    else if off < 0x400 then .reg off
    else if off < 0x804 then .freq ((off - 0x400) / 4)
    else if 0x1000 ≤ off && off < 0x2008 then .node ((off - 0x1000) / 8) ((off - 0x1000) % 8 == 4)
    else if 0x3000 ≤ off && off < 0x3808 then .pq ((off - 0x3000) / 8) ((off - 0x3000) % 8 == 4)
    else if 0x4000 ≤ off && off < 0x8040 then .code ((off - 0x4000) / 64) ((off - 0x4000) % 64 / 4)
    else .nothing := rfl

theorem bytePlace_eq (p : Params) (off : Nat) : bytePlace p off =
    if 0x10000000 ≤ off && off < 0x10000000 + p.ibufCap then .ibuf (off - 0x10000000)
    else if 0x20000000 ≤ off && off < 0x20000000 + p.obufCap then .obuf (off - 0x20000000)
    else .nothing := rfl

theorem place_freq {p : Params} {i : Nat} (h : i ≤ 256) : place p .word (0x400 + 4 * i) = .freq i := by
  rw [place, wordPlace_eq, if_neg (by omega), if_neg (by omega), if_pos (by omega)]
  congr 1
  omega

/-- R51: word u of the entry i of `NODE`. -/
theorem place_node {p : Params} {i : Nat} (u : Bool) (h : i ≤ 512) :
    place p .word (0x1000 + 8 * i + 4 * u.toNat) = .node i u := by
  have hu := u.toNat_lt
  rw [place, wordPlace_eq, if_neg (by omega), if_neg (by omega), if_neg (by omega), if_pos (by simp; omega)]
  rw [show (0x1000 + 8 * i + 4 * u.toNat - 0x1000) / 8 = i by omega,
    show (0x1000 + 8 * i + 4 * u.toNat - 0x1000) % 8 = 4 * u.toNat by omega]
  cases u <;> rfl

theorem place_pq {p : Params} (u : Bool) : place p .word (0x3000 + 4 * u.toNat) = .pq 0 u := by
  cases u <;> rfl

/-- R51: word k of the entry i of `CODE`. -/
theorem place_code {p : Params} {i k : Nat} (h : i ≤ 256) (hk : k ≤ 15) :
    place p .word (0x4000 + 64 * i + 4 * k) = .code i k := by
  rw [place, wordPlace_eq, if_neg (by omega), if_neg (by omega), if_neg (by omega), if_neg (by simp; omega),
    if_neg (by simp; omega), if_pos (by simp; omega)]
  congr 1 <;> omega

theorem place_ibuf {p : Params} {i : Nat} (h : i < p.ibufCap) : place p .byte (0x10000000 + i) = .ibuf i := by
  rw [place, bytePlace_eq, if_pos (by simp; omega), Nat.add_sub_cancel_left]

theorem place_obuf {p : Params} {i : Nat} (hp : p.Ok) (h : i < p.obufCap) :
    place p .byte (0x20000000 + i) = .obuf i := by
  obtain ⟨-, hcap, -, -⟩ := hp
  rw [Config.capMax] at hcap
  rw [place, bytePlace_eq, if_neg (by simp; omega), if_pos (by simp; omega), Nat.add_sub_cancel_left]

/-- R30, R51: an access reaches `FREQ` only in its window, by an aligned word. -/
theorem place_eq_freq {p : Params} {size : AccessSize} {off i : Nat} (h : place p size off = .freq i) :
    size = .word ∧ off % 4 = 0 ∧ 0x400 ≤ off ∧ off < 0x804 ∧ i < 257 := by
  cases size with
  | byte => rw [place, bytePlace_eq] at h; split_ifs at h
  | half => nomatch h
  | word =>
    rw [place, wordPlace_eq] at h
    split_ifs at h with h4 hreg hfreq
    obtain rfl := Place.freq.inj h
    exact ⟨rfl, by omega, by omega, hfreq, by omega⟩

theorem place_eq_reg {p : Params} {size : AccessSize} {off o : Nat} (h : place p size off = .reg o) :
    size = .word ∧ off = o := by
  cases size with
  | byte => rw [place, bytePlace_eq] at h; split_ifs at h
  | half => nomatch h
  | word =>
    rw [place, wordPlace_eq] at h
    split_ifs at h
    exact ⟨rfl, Place.reg.inj h⟩

/-- R51: an access reaches `IBUF` only in its window below the capacity, by a byte. -/
theorem place_eq_ibuf {p : Params} {size : AccessSize} {off i : Nat} (h : place p size off = .ibuf i) :
    size = .byte ∧ off = 0x10000000 + i ∧ i < p.ibufCap := by
  cases size with
  | byte =>
    rw [place, bytePlace_eq] at h
    split_ifs at h with hi
    obtain rfl := Place.ibuf.inj h
    simp only [Bool.and_eq_true, decide_eq_true_eq] at hi
    exact ⟨rfl, by omega, by omega⟩
  | half => nomatch h
  | word => rw [place, wordPlace_eq] at h; split_ifs at h

/-! ## Writes (R28, R41) -/

theorem hostWrite_freq {i : Nat} {s : State} {size : AccessSize} {off : Nat} (v : Word)
    (h : place s.params size off = .freq i) : hostWrite size off v s = s.setFreq i v := by
  simp only [hostWrite, h]

theorem hostWrite_ibuf {i : Nat} {s : State} {size : AccessSize} {off : Nat} (v : Word)
    (h : place s.params size off = .ibuf i) :
    hostWrite size off v s = { s with ibuf := s.ibuf.write i (v.setWidth 8) } := by
  simp only [hostWrite, h]

/-- R41: everything a host write other than to `CMD` can do. -/
theorem hostWrite_cases (size : AccessSize) (off : Nat) (v : Word) (s : State) :
    (size = .word ∧ off = 0x10 ∧ hostWrite size off v s = writeInLen v s) ∨
    (size = .word ∧ off = 0x20 ∧ hostWrite size off v s = { s with wdata := v }) ∨
    (∃ i, place s.params size off = .freq i ∧ hostWrite size off v s = s.setFreq i v) ∨
    (∃ i, place s.params size off = .ibuf i ∧
      hostWrite size off v s = { s with ibuf := s.ibuf.write i (v.setWidth 8) }) ∨
    hostWrite size off v s = s := by
  cases hp : place s.params size off with
  | reg o =>
    obtain ⟨rfl, rfl⟩ := place_eq_reg hp
    simp only [hostWrite, hp]
    split
    case h_1 h => exact .inl ⟨trivial, Place.reg.inj h, rfl⟩
    case h_2 h => exact .inr (.inl ⟨trivial, Place.reg.inj h, rfl⟩)
    case h_3 => exact .inr (.inr (.inr (.inr rfl)))
    all_goals rename_i h; nomatch h
  | freq i => exact .inr (.inr (.inl ⟨i, rfl, hostWrite_freq v hp⟩))
  | ibuf i => exact .inr (.inr (.inr (.inl ⟨i, rfl, hostWrite_ibuf v hp⟩)))
  | node | pq | code | obuf | nothing => exact .inr (.inr (.inr (.inr (by simp only [hostWrite, hp]))))

/-- Settles O49: by the place each granted access reaches; any other access reaches none of them. -/
theorem hostWritesOnlyGrantedState : Obligations.HostWritesOnlyGrantedState := by
  intro s v
  refine ⟨rfl, rfl, fun i hi => ?freq, fun i hi _ => ?ibuf, fun size off hword hbyte => ?other⟩
  case freq =>
    rw [hostWrite_freq v (place_freq hi)]
    exact ⟨rfl, fun j => State.freqAt_setFreq s i j v⟩
  case ibuf =>
    rw [hostWrite_ibuf v (place_ibuf hi)]
    exact ⟨rfl, fun j => Memory.read_write s.ibuf i j _⟩
  case other =>
    obtain ⟨rfl, rfl, -⟩ | ⟨rfl, rfl, -⟩ | ⟨i, hi, -⟩ | ⟨i, hi, -⟩ | h := hostWrite_cases size off v s
    · exact absurd ⟨rfl, .inl rfl⟩ hword
    · exact absurd ⟨rfl, .inr (.inl rfl)⟩ hword
    · obtain ⟨rfl, h4, hlo, hhi, -⟩ := place_eq_freq hi
      exact absurd ⟨rfl, .inr (.inr ⟨h4, hlo, by omega⟩)⟩ hword
    · obtain ⟨rfl, rfl, hcap⟩ := place_eq_ibuf hi
      exact absurd ⟨rfl, by omega, by omega⟩ hbyte
    · exact h

/-! ## Reads (R30, R51, R59, R74) -/

/-- What a read with a defined value delivers. -/
theorem hostRead_data {size : AccessSize} {off : Nat} {s : State} {pl : Place} {v : Word}
    (hp : place s.params size off = pl) (hv : hostValue s pl = some v) : (hostRead size off s).hostData = v := by
  subst hp
  rw [hostRead_value hv]
  rfl

theorem hostRead_reg {off : Nat} {s : State} (h4 : off % 4 = 0) (h : off < 0x400) :
    (hostRead .word off s).hostData = regWord s off :=
  hostRead_data (place_reg h4 h) rfl

theorem hostRead_frame (size : AccessSize) (off : Nat) (s : State) :
    hostRead size off s =
      { s with hostData := (hostRead size off s).hostData, freeCtr := (hostRead size off s).freeCtr } := by
  unfold hostRead
  split <;> rfl

theorem flagBit_getLsbD (b : Bool) {j : Nat} (hj : j < 32) (k : Nat) :
    (flagBit b j).getLsbD k = (decide (k = j) && b) := by
  unfold flagBit
  rw [BitVec.getLsbD_shiftLeft, BitVec.getLsbD_setWidth, BitVec.getLsbD_ofBool]
  by_cases hk : k = j
  · subst hk; simp [hj]
  · by_cases hlt : k < j
    · simp [hk, hlt]
    · have : k - j ≠ 0 := by omega
      simp [hk, this]

theorem statusWord_getLsbD (s : State) (k : Nat) :
    s.statusWord.getLsbD k =
      ([s.busy, s.done, s.err, s.eos, s.treeValid, s.codeValid, s.oclosed][k]?).getD false := by
  simp only [State.statusWord, BitVec.getLsbD_or, flagBit_getLsbD _ (show 0 < 32 by omega),
    flagBit_getLsbD _ (show 1 < 32 by omega), flagBit_getLsbD _ (show 2 < 32 by omega),
    flagBit_getLsbD _ (show 3 < 32 by omega), flagBit_getLsbD _ (show 4 < 32 by omega),
    flagBit_getLsbD _ (show 5 < 32 by omega), flagBit_getLsbD _ (show 6 < 32 by omega)]
  by_cases hk : k < 7
  · interval_cases k <;> simp
  · have h : ∀ j, j < 7 → (decide (k = j)) = false := fun j hj => decide_eq_false (by omega)
    simp [h, List.getElem?_eq_none (show [s.busy, s.done, s.err, s.eos, s.treeValid, s.codeValid,
      s.oclosed].length ≤ k by simp; omega)]

/-- A field placed above a field of k bits adds 2^k times its value. -/
theorem toNat_or_shiftLeft {w : Nat} {a b : BitVec w} {k : Nat} (ha : a.toNat < 2 ^ k)
    (hb : b.toNat * 2 ^ k < 2 ^ w) : (b <<< k ||| a).toNat = b.toNat * 2 ^ k + a.toNat := by
  rw [BitVec.toNat_or, BitVec.toNat_shiftLeft, Nat.shiftLeft_eq, Nat.mod_eq_of_lt hb, Nat.mul_comm,
    Nat.two_pow_add_eq_or_of_lt ha]

theorem pstateWord_toNat (s : State) : s.pstateWord.toNat = s.pacc.toNat + 256 * s.pcnt.toNat := by
  have ha := s.pacc.isLt
  have hc := s.pcnt.isLt
  have hpacc : (s.pacc.setWidth 32).toNat = s.pacc.toNat := BitVec.toNat_setWidth_of_le (by omega)
  have hpcnt : (s.pcnt.setWidth 32).toNat = s.pcnt.toNat := BitVec.toNat_setWidth_of_le (by omega)
  rw [State.pstateWord, BitVec.or_comm, toNat_or_shiftLeft (by omega) (by omega), hpacc, hpcnt]
  omega

theorem flagBit_toNat (b : Bool) {k : Nat} (h : k < 32) : (flagBit b k).toNat = b.toNat * 2 ^ k := by
  unfold flagBit
  have hpow : 2 ^ k < 2 ^ 32 := Nat.pow_lt_pow_right (by omega) h
  cases b
  · simp
  · rw [BitVec.toNat_shiftLeft, Nat.shiftLeft_eq]
    simpa using Nat.mod_eq_of_lt hpow

/-- R51: the upper word of a node entry, its four fields in place. -/
theorem nodeWord_upper_toNat (nd : Node) :
    (nodeWord nd true).toNat =
      nd.leaf.toNat * 2 ^ 31 + nd.sym.toNat * 2 ^ 20 + nd.left.toNat * 2 ^ 10 + nd.right.toNat := by
  have hb := nd.leaf.toNat_lt
  have hs := nd.sym.isLt
  have hl := nd.left.isLt
  have hr := nd.right.isLt
  have hsym : (nd.sym.setWidth 32).toNat = nd.sym.toNat := BitVec.toNat_setWidth_of_le (by omega)
  have hleft : (nd.left.setWidth 32).toNat = nd.left.toNat := BitVec.toNat_setWidth_of_le (by omega)
  have hright : (nd.right.setWidth 32).toNat = nd.right.toNat := BitVec.toNat_setWidth_of_le (by omega)
  have h1 : (nd.left.setWidth 32 <<< 10 ||| nd.right.setWidth 32).toNat = nd.left.toNat * 2 ^ 10 + nd.right.toNat := by
    rw [toNat_or_shiftLeft (by omega) (by omega), hleft, hright]
  have h2 : (nd.sym.setWidth 32 <<< 20 ||| (nd.left.setWidth 32 <<< 10 ||| nd.right.setWidth 32)).toNat =
      nd.sym.toNat * 2 ^ 20 + (nd.left.toNat * 2 ^ 10 + nd.right.toNat) := by
    rw [toNat_or_shiftLeft (by omega) (by omega), h1, hsym]
  have hflag : flagBit nd.leaf 31 = BitVec.setWidth 32 (BitVec.ofBool nd.leaf) <<< 31 := rfl
  have hbit : ((BitVec.ofBool nd.leaf).setWidth 32).toNat = nd.leaf.toNat := by cases nd.leaf <;> rfl
  rw [nodeWord, if_pos rfl, BitVec.or_assoc, BitVec.or_assoc, hflag, toNat_or_shiftLeft (by omega) (by omega), h2, hbit]
  omega

theorem pqWord_upper_toNat (e : PqEntry) : (pqWord e true).toNat = e.seq.toNat * 2 ^ 10 + e.node.toNat := by
  have hs := e.seq.isLt
  have hn := e.node.isLt
  have hseq : (e.seq.setWidth 32).toNat = e.seq.toNat := BitVec.toNat_setWidth_of_le (by omega)
  have hnode : (e.node.setWidth 32).toNat = e.node.toNat := BitVec.toNat_setWidth_of_le (by omega)
  rw [pqWord, if_pos rfl, toNat_or_shiftLeft (by omega) (by omega), hseq, hnode]

theorem codeWord_zero_toNat (e : CodeEntry) : (codeWord e 0).toNat = e.valid.toNat * 2 ^ 31 + e.len.toNat := by
  have hb := e.valid.toNat_lt
  have hl := e.len.isLt
  have hlen : (e.len.setWidth 32).toNat = e.len.toNat := BitVec.toNat_setWidth_of_le (by omega)
  have hflag : flagBit e.valid 31 = BitVec.setWidth 32 (BitVec.ofBool e.valid) <<< 31 := rfl
  have hbit : ((BitVec.ofBool e.valid).setWidth 32).toNat = e.valid.toNat := by cases e.valid <;> rfl
  rw [codeWord, if_pos rfl, hflag, toNat_or_shiftLeft (by omega) (by omega), hlen, hbit]

/-- Settles O50: each offset reaches its place, whose value is the register or the word of the entry. -/
theorem hostReadsRegisterMap : Obligations.HostReadsRegisterMap := by
  intro s hb
  refine ⟨fun size off => hostRead_frame size off s, fun k => ?status, ?pstate, fun off v hv => ?regs,
    fun off hlo hhi h4 => ?reserved, fun i hi => hostRead_data (place_freq hi) rfl,
    fun i nd hvalid hi hcap hnd => ?node, fun e rest hlen herr hpq => ?pq, fun i hvalid hi => ?code,
    fun i hp hi => hostRead_data (place_ibuf hi) rfl,
    fun i hp hi hlen => hostRead_data (place_obuf hp hi) (if_pos hlen)⟩
  case status =>
    have hbits := statusWord_getLsbD s k
    rw [hb] at hbits
    rw [hostRead_reg (by omega) (by omega)]
    exact hbits
  case pstate =>
    rw [hostRead_reg (by omega) (by omega)]
    exact pstateWord_toNat s
  case regs =>
    have hreg : off % 4 = 0 ∧ off < 0x400 ∧ (regWord s off).toNat = v := by
      simp only [List.mem_cons, Prod.mk.injEq, List.not_mem_nil, or_false] at hv
      rcases hv with ⟨rfl, rfl⟩ | ⟨rfl, rfl⟩ | ⟨rfl, rfl⟩ | ⟨rfl, rfl⟩ | ⟨rfl, rfl⟩ | ⟨rfl, rfl⟩ | ⟨rfl, rfl⟩ |
        ⟨rfl, rfl⟩ | ⟨rfl, rfl⟩ | ⟨rfl, rfl⟩ | ⟨rfl, rfl⟩ | ⟨rfl, rfl⟩ | ⟨rfl, rfl⟩
      all_goals exact ⟨by omega, by omega, by simp [regWord, Config.idValue] <;> omega⟩
    obtain ⟨h4, hlt, hval⟩ := hreg
    rw [hostRead_reg h4 hlt, hval]
  case reserved =>
    rw [hostRead_reg h4 (by omega)]
    unfold regWord
    split <;> first | rfl | omega
  case node =>
    have hval (u : Bool) : hostValue s (.node i u) = some (nodeWord nd u) := by simp [hostValue, hvalid, hi, hnd]
    exact ⟨hostRead_data (place_node false hcap) (hval false),
      (congrArg BitVec.toNat (hostRead_data (place_node true hcap) (hval true))).trans (nodeWord_upper_toNat nd)⟩
  case pq =>
    have hdef : s.pqDefined 0 = true := (s.pqDefined_iff 0).mpr ⟨rfl, hlen, herr⟩
    have hval (u : Bool) : hostValue s (.pq 0 u) = some (pqWord e u) := by simp [hostValue, hdef, hpq]
    exact ⟨hostRead_data (place_pq false) (hval false),
      (congrArg BitVec.toNat (hostRead_data (place_pq true) (hval true))).trans (pqWord_upper_toNat e)⟩
  case code =>
    have hval (k : Nat) : hostValue s (.code i k) = some (codeWord (codeAt s.code i) k) := if_pos hvalid
    have hread {k : Nat} (hk : k ≤ 15) :
        (hostRead .word (0x4000 + 64 * i + 4 * k) s).hostData = codeWord (codeAt s.code i) k :=
      hostRead_data (place_code hi hk) (hval k)
    refine ⟨?_, fun k hlo hhi => ?_, fun k hlo hhi => ?_⟩
    · exact (congrArg BitVec.toNat (hread (k := 0) (by omega))).trans (codeWord_zero_toNat _)
    · rw [hread (by omega), codeWord, if_neg (by omega), if_pos hhi]
    · rw [hread hhi, codeWord, if_neg (by omega), if_neg (by omega)]

end Sys2Proof.Machine
end

/-! # What each command can write (10_state.md, R37) -/

section

namespace Sys2Proof.Machine

/-! ## Relations between the states of a part of a command -/

/-- A relation that holds of a part of a command that does nothing and of two parts one after the other. -/
structure IsFrame (R : State → State → Prop) : Prop where
  refl : ∀ s, R s s
  trans : ∀ {s t u}, R s t → R t u → R s u

/-- Whether a part completes or raises, R relates its two states; it raises only the listed kinds. -/
inductive Res.Leads {α : Type} (R : State → State → Prop) (ks : List FaultKind) (s : State) : Res α → Prop
  | ok {a : α} {t : State} (h : R s t) : Leads R ks s (.ok a t)
  | raise {k : FaultKind} {t : State} (hk : k ∈ ks) (h : R s t) : Leads R ks s (.raise k t)
  | stuck {e : Fault} : Leads R ks s (.stuck e)

section
variable {α β : Type} {R Q : State → State → Prop} {ks ls : List FaultKind} {s t : State} {r : Res α}

theorem Res.Leads.of_ok {a : α} (h : r.Leads R ks s) (hr : r = .ok a t) : R s t := by
  subst hr
  cases h with
  | ok h => exact h

theorem Res.Leads.of_raise {k : FaultKind} (h : r.Leads R ks s) (hr : r = .raise k t) : k ∈ ks ∧ R s t := by
  subst hr
  cases h with
  | raise hk h => exact ⟨hk, h⟩

theorem Res.Leads.bind {f : α → State → Res β} (hR : IsFrame R) (hr : r.Leads R ks s)
    (hf : ∀ a m, r = .ok a m → (f a m).Leads R ks m) : (r.bind f).Leads R ks s := by
  cases hr with
  | @ok a m h =>
    rw [Res.bind_ok]
    have hfa := hf a m rfl
    generalize f a m = r' at hfa ⊢
    cases hfa with
    | ok g => exact .ok (hR.trans h g)
    | raise hk g => exact .raise hk (hR.trans h g)
    | stuck => exact .stuck
  | raise hk h => exact .raise hk h
  | stuck => exact .stuck

theorem Res.Leads.mono (hr : r.Leads R ks s) (hR : ∀ {u}, R s u → Q s u) (hk : ks ⊆ ls) : r.Leads Q ls s := by
  cases hr with
  | ok h => exact .ok (hR h)
  | raise hm h => exact .raise (hk hm) (hR h)
  | stuck => exact .stuck

/-- A part that starts after a change of the state, whatever the relation then is. -/
theorem Res.Leads.after (hr : r.Leads R ks t) (h : ∀ {u}, R t u → Q s u) : r.Leads Q ks s := by
  cases hr with
  | ok g => exact .ok (h g)
  | raise hk g => exact .raise hk (h g)
  | stuck => exact .stuck

end

/-! ## Reads of the input (R112) -/

theorem rdBits_leads {R : State → State → Prop} {ks : List FaultKind} (hR : IsFrame R)
    (hadv : ∀ s n, R s (s.advance n)) (hio : .io ∈ ks) (n : Nat) (s : State) : (rdBits n s).Leads R ks s := by
  rcases rdBits_cases n s with ⟨-, hr⟩ | ⟨-, -, v, -, hr⟩ | ⟨-, -, hr⟩ <;> rw [hr]
  · exact .ok (hR.refl s)
  · exact .ok (hadv s n)
  · exact .raise hio (hR.refl s)

theorem needBits_leads {R : State → State → Prop} {ks : List FaultKind} (hR : IsFrame R)
    (hadv : ∀ s n, R s (s.advance n)) (hio : .io ∈ ks) (htr : .truncated ∈ ks) (n : Nat) (s : State) :
    (needBits n s).Leads R ks s := by
  refine (rdBits_leads hR hadv hio n s).bind hR fun r m _ => ?_
  cases r with
  | none => exact .raise htr (hR.refl m)
  | some v => exact .ok (hR.refl m)

/-! ## FCOUNT (R131) -/

/-- Only `FREQ` and `UPOS` may differ. -/
def ScanStep (s t : State) : Prop := t = { s with freq := t.freq, upos := t.upos }

theorem scanStep_frame : IsFrame ScanStep :=
  ⟨fun _ => rfl, fun h g => by unfold ScanStep at *; rw [g, h]⟩

theorem countSymbol_leads (b : Nat) (s : State) : (countSymbol b s).Leads ScanStep (raisable .fcount) s := by
  unfold countSymbol
  split
  · exact .raise (by simp [raisable]) (scanStep_frame.refl s)
  · exact .ok rfl

theorem fcountLoop_leads : ∀ (k : Nat) (s : State), (fcountLoop k s).Leads ScanStep (raisable .fcount) s
  | 0, _ => .stuck
  | k + 1, s => by
    refine (rdBits_leads scanStep_frame (fun _ _ => rfl) (by simp [raisable]) _ s).bind scanStep_frame fun r m _ => ?_
    cases r with
    | none => exact .ok (scanStep_frame.refl m)
    | some v => exact (countSymbol_leads _ m).bind scanStep_frame fun _ m _ => fcountLoop_leads k m

theorem fcountBody_leads (s : State) : (fcountBody s).Leads ScanStep (raisable .fcount) s := by
  have hclear : ScanStep s s.clearFreq := rfl
  exact ((fcountLoop_leads _ s.clearFreq).after (scanStep_frame.trans hclear)).bind scanStep_frame fun _ m _ => .ok rfl

/-! ## TBUILD (R134 to R138) -/

/-- Only `NODE`, `NNODES` and the priority structure may differ. -/
def BuildStep (s t : State) : Prop :=
  t = { s with node := t.node, nnodes := t.nnodes, pq := t.pq, pqLen := t.pqLen, seq := t.seq }

theorem buildStep_frame : IsFrame BuildStep :=
  ⟨fun _ => rfl, fun h g => by unfold BuildStep at *; rw [g, h]⟩

theorem leafStep_build (s : State) (sym : Nat) : BuildStep s (leafStep s sym) := by
  unfold leafStep
  split <;> rfl

theorem foldl_leafStep_build : ∀ (l : List Nat) (s : State), BuildStep s (l.foldl leafStep s)
  | [], s => buildStep_frame.refl s
  | x :: l, s => buildStep_frame.trans (leafStep_build s x) (foldl_leafStep_build l _)

theorem leafPhase_build (s : State) : BuildStep s (leafPhase s) := foldl_leafStep_build _ s

theorem popMin_leads (s : State) : (popMin s).Leads BuildStep (raisable .tbuild) s := by
  rcases popMin_cases s with ⟨-, h⟩ | ⟨e, rest, -, h⟩ <;> rw [h]
  · exact .stuck
  · exact .ok rfl

theorem mergePair_leads (a b : PqEntry) (s : State) : (mergePair a b s).Leads BuildStep (raisable .tbuild) s := by
  rcases mergePair_cases a b s with ⟨-, h⟩ | ⟨-, h⟩ <;> rw [h]
  · exact .ok rfl
  · exact .raise (by simp [raisable]) (buildStep_frame.refl s)

theorem mergeStep_leads (s : State) : (mergeStep s).Leads BuildStep (raisable .tbuild) s :=
  (popMin_leads s).bind buildStep_frame fun a m _ =>
    (popMin_leads m).bind buildStep_frame fun b m _ => mergePair_leads a b m

theorem mergeLoop_leads : ∀ (k : Nat) (s : State), (mergeLoop k s).Leads BuildStep (raisable .tbuild) s
  | 0, s => by
    unfold mergeLoop
    split
    · exact .stuck
    · exact .ok (buildStep_frame.refl s)
  | k + 1, s => by
    unfold mergeLoop
    split
    · exact (mergeStep_leads s).bind buildStep_frame fun _ m _ => mergeLoop_leads k m
    · exact .ok (buildStep_frame.refl s)

/-- A TBUILD that completes has set the root after building; one that raises has only built. -/
theorem tbuildBody_cases (s : State) :
    (∃ m r, BuildStep s.treeStart m ∧ tbuildBody s = .ok () (m.setTree r)) ∨
    (∃ m k, k ∈ raisable .tbuild ∧ BuildStep s.treeStart m ∧ tbuildBody s = .raise k m) ∨
    ∃ e, tbuildBody s = .stuck e := by
  have hleaf := leafPhase_build s.treeStart
  rw [tbuildBody, treeMerge]
  generalize leafPhase s.treeStart = x at hleaf ⊢
  split
  · exact .inr (.inl ⟨x, .contract, by simp [raisable], hleaf, rfl⟩)
  · have hmerge := mergeLoop_leads x.pqLen.toNat x
    cases hr : mergeLoop x.pqLen.toNat x with
    | ok a m =>
      have hm := buildStep_frame.trans hleaf (hmerge.of_ok hr)
      rw [Res.bind_ok, treeFinish]
      split
      · exact .inr (.inr ⟨_, rfl⟩)
      · exact .inl ⟨m, _, hm, rfl⟩
    | raise k m =>
      obtain ⟨hk, hm⟩ := hmerge.of_raise hr
      exact .inr (.inl ⟨m, k, hk, buildStep_frame.trans hleaf hm, rfl⟩)
    | stuck e => exact .inr (.inr ⟨e, rfl⟩)

/-! ## HDRR (R160) -/

/-- Only `UPOS`, `NNODES` and `NODE` may differ. -/
def ParseStep (s t : State) : Prop := t = { s with upos := t.upos, nnodes := t.nnodes, node := t.node }

theorem parseStep_frame : IsFrame ParseStep :=
  ⟨fun _ => rfl, fun h g => by unfold ParseStep at *; rw [g, h]⟩

theorem allocNode_leads (s : State) : (allocNode s).Leads ParseStep (raisable .hdrr) s := by
  rcases allocNode_cases s with ⟨-, h⟩ | ⟨-, h⟩ <;> rw [h]
  · exact .ok rfl
  · exact .raise (by simp [raisable]) (parseStep_frame.refl s)

theorem recordLeaf_leads (i : NodeIdx) (v : Symbol) (s : State) :
    (recordLeaf i v s).Leads ParseStep (raisable .hdrr) s := by
  rcases recordLeaf_cases i v s with ⟨-, h⟩ | ⟨-, h⟩ <;> rw [h]
  · exact .ok rfl
  · exact .raise (by simp [raisable]) (parseStep_frame.refl s)

theorem checkMagic_leads (m : Word) (s : State) : (checkMagic m s).Leads ParseStep (raisable .hdrr) s := by
  rcases checkMagic_cases m s with ⟨-, h⟩ | ⟨-, h⟩ <;> rw [h]
  · exact .ok rfl
  · exact .raise (by simp [raisable]) (parseStep_frame.refl s)

theorem needBits_parse (n : Nat) (s : State) : (needBits n s).Leads ParseStep (raisable .hdrr) s :=
  needBits_leads parseStep_frame (fun _ _ => rfl) (by simp [raisable]) (by simp [raisable]) n s

theorem deserTree_leads : ∀ (f : Nat) (s : State), (deserTree f s).Leads ParseStep (raisable .hdrr) s
  | 0, _ => .stuck
  | f + 1, s => by
    refine (needBits_parse 1 s).bind parseStep_frame fun b m _ => ?_
    refine (allocNode_leads m).bind parseStep_frame fun i m _ => ?_
    split
    · exact (deserTree_leads f m).bind parseStep_frame fun l m _ =>
        (deserTree_leads f m).bind parseStep_frame fun r m _ => .ok rfl
    · exact (needBits_parse _ m).bind parseStep_frame fun v m _ =>
        (recordLeaf_leads _ _ m).bind parseStep_frame fun _ m _ => .ok (parseStep_frame.refl m)

/-- An HDRR that completes has set the root after reading; one that raises has only read. -/
theorem hdrrBody_cases (s : State) :
    (∃ m r, ParseStep s.hdrrStart m ∧ hdrrBody s = .ok () (m.setTree r)) ∨
    (∃ m k, k ∈ raisable .hdrr ∧ ParseStep s.hdrrStart m ∧ hdrrBody s = .raise k m) ∨
    ∃ e, hdrrBody s = .stuck e := by
  have hread : ((needBits Config.magicBits s.hdrrStart).bind fun m s =>
      (checkMagic m s).bind fun _ s => deserTree deserLevels s).Leads ParseStep (raisable .hdrr) s.hdrrStart :=
    (needBits_parse _ _).bind parseStep_frame fun m _ _ =>
      (checkMagic_leads m _).bind parseStep_frame fun _ m _ => deserTree_leads _ m
  have hbody : hdrrBody s = ((needBits Config.magicBits s.hdrrStart).bind fun m s =>
      (checkMagic m s).bind fun _ s => deserTree deserLevels s).bind fun r s => .ok () (s.setTree r) := by
    rw [hdrrBody, Res.bind_assoc]
    simp only [Res.bind_assoc]
  rw [hbody]
  cases hr : (needBits Config.magicBits s.hdrrStart).bind fun m s =>
      (checkMagic m s).bind fun _ s => deserTree deserLevels s with
  | ok r m => exact .inl ⟨m, r, hread.of_ok hr, rfl⟩
  | raise k m =>
    obtain ⟨hk, hm⟩ := hread.of_raise hr
    exact .inr (.inl ⟨m, k, hk, hm, rfl⟩)
  | stuck e => exact .inr (.inr ⟨e, rfl⟩)

/-! ## Writes (R115, R155, R173) -/

/-- A part that only writes output, and nothing at all on a closed output. -/
def WriteStep (s t : State) : Prop := OutStep s t ∧ (s.oclosed = true → t = s)

theorem writeStep_frame : IsFrame WriteStep where
  refl s := ⟨.refl s, fun _ => rfl⟩
  trans h g := ⟨h.1.trans g.1, fun hc => by
    obtain rfl := h.2 hc
    exact g.2 hc⟩

theorem wrBits_leads (n : Nat) (v : Word) (s : State) : (wrBits n v s).Leads WriteStep [.io, .contract] s := by
  cases hc : s.oclosed with
  | true => rw [wrBits_closed hc]; exact .raise (by simp) (writeStep_frame.refl s)
  | false =>
    have hout := wrBits_out n v s
    have hopen {t : State} (h : OutStep s t) : WriteStep s t := ⟨h, fun h => absurd (hc.symm.trans h) nofun⟩
    cases hr : wrBits n v s with
    | ok a t => rw [hr] at hout; exact .ok (hopen hout)
    | raise k t => rw [hr] at hout; exact .raise (by simpa using hout.1) (hopen hout.2)
    | stuck e => exact .stuck

theorem writeLeaf_leads (sym : Symbol) (s : State) : (writeLeaf sym s).Leads WriteStep [.io, .contract] s :=
  (wrBits_leads _ _ s).bind writeStep_frame fun _ m _ => wrBits_leads _ _ m

theorem serTree_leads : ∀ (f : Nat) (i : NodeIdx) (s : State), (serTree f i s).Leads WriteStep [.io, .contract] s
  | 0, _, _ => .stuck
  | f + 1, i, s => by
    unfold serTree
    split
    · exact .stuck
    · split
      · exact writeLeaf_leads _ s
      · exact (wrBits_leads _ _ s).bind writeStep_frame fun _ m _ =>
          (serTree_leads f _ m).bind writeStep_frame fun _ m _ => serTree_leads f _ m

theorem wrCode_leads (v : BitVec 256) : ∀ (k : Nat) (s : State), (wrCode v k s).Leads WriteStep [.io, .contract] s
  | 0, s => .ok (writeStep_frame.refl s)
  | k + 1, s => (wrBits_leads _ _ s).bind writeStep_frame fun _ m _ => wrCode_leads v k m

theorem writeSymbol_leads (sym : Nat) (s : State) : (writeSymbol sym s).Leads WriteStep [.io, .contract] s := by
  unfold writeSymbol
  split
  · exact wrCode_leads _ _ s
  · exact .raise (by simp) (writeStep_frame.refl s)

/-- HDRW has taken `STK` and `SP` before it writes. -/
theorem hdrwBody_leads (s : State) : (hdrwBody s).Leads WriteStep [.io, .contract] s.stkFree := by
  unfold hdrwBody
  split
  · exact (wrBits_leads _ _ _).bind writeStep_frame fun _ m _ => serTree_leads _ _ m
  · exact .raise (by simp) (writeStep_frame.refl _)

/-! ## ENCODE and DECODE (R172, R175) -/

/-- Only `UPOS`, `CUR` and, on an open output, the output stream may differ. -/
def StreamStep (s t : State) : Prop := WriteStep { s with upos := t.upos, cur := t.cur } t

/-- No part of a write reads `UPOS` or `CUR`. -/
theorem WriteStep.reposition {s t : State} (h : WriteStep s t) (p : Word) (c : NodeIdx) :
    WriteStep { s with upos := p, cur := c } { t with upos := p, cur := c } := by
  obtain ⟨hout, hclosed⟩ := h
  refine ⟨⟨by rw [hout.fields], hout.packer, hout.grows, hout.form⟩, fun hc => ?_⟩
  rw [hclosed hc]

theorem WriteStep.stream {s t : State} (h : WriteStep s t) : StreamStep s t := by
  have hupos : t.upos = s.upos := by rw [h.1.fields]
  have hcur : t.cur = s.cur := by rw [h.1.fields]
  unfold StreamStep
  rw [hupos, hcur]
  exact h

theorem streamStep_frame : IsFrame StreamStep where
  refl s := writeStep_frame.refl s
  trans h g := writeStep_frame.trans (WriteStep.reposition h _ _) g

theorem streamStep_move (s : State) (p : Word) (c : NodeIdx) : StreamStep s { s with upos := p, cur := c } :=
  writeStep_frame.refl _

/-- As `StreamStep`, with `CUR` as before. -/
def EncodeStep (s t : State) : Prop := StreamStep s t ∧ t.cur = s.cur

theorem encodeStep_frame : IsFrame EncodeStep :=
  ⟨fun s => ⟨streamStep_frame.refl s, rfl⟩, fun h g => ⟨streamStep_frame.trans h.1 g.1, g.2.trans h.2⟩⟩

theorem WriteStep.encode {s t : State} (h : WriteStep s t) : EncodeStep s t := ⟨h.stream, by rw [h.1.fields]⟩

theorem writeSymbol_encode (sym : Nat) (s : State) : (writeSymbol sym s).Leads EncodeStep (raisable .encode) s :=
  (writeSymbol_leads sym s).mono WriteStep.encode (by simp [raisable])

theorem encodeLoop_leads : ∀ (k : Nat) (s : State), (encodeLoop k s).Leads EncodeStep (raisable .encode) s
  | 0, _ => .stuck
  | k + 1, s => by
    refine (rdBits_leads encodeStep_frame (fun s n => ⟨streamStep_move s _ _, rfl⟩) (by simp [raisable]) _ s).bind
      encodeStep_frame fun r m _ => ?_
    cases r with
    | none => exact .ok (encodeStep_frame.refl m)
    | some v => exact (writeSymbol_encode _ m).bind encodeStep_frame fun _ m _ => encodeLoop_leads k m

theorem encodeBody_leads (s : State) : (encodeBody s).Leads EncodeStep (raisable .encode) s := by
  unfold encodeBody
  split
  · exact (encodeLoop_leads _ s).bind encodeStep_frame fun _ m _ => writeSymbol_encode _ m
  · exact .raise (by simp [raisable]) (encodeStep_frame.refl s)

/-- The kinds the loop of R175 raises on an open output. -/
theorem moveToChild_leads {ks : List FaultKind} (b : Bool) (s : State) : (moveToChild b s).Leads StreamStep ks s := by
  unfold moveToChild
  split
  · exact .stuck
  · split
    · exact .stuck
    · exact .ok (streamStep_move s _ _)

theorem branchStep_leads (s : State) : (branchStep s).Leads StreamStep [.truncated, .io] s :=
  (needBits_leads streamStep_frame (fun s n => streamStep_move s _ _) (by simp) (by simp) 1 s).bind streamStep_frame
    fun _ m _ => moveToChild_leads _ m

theorem emitStep_leads (x : Symbol) (s : State) : (emitStep x s).Leads StreamStep [.io, .contract] s :=
  ((wrBits_leads _ _ s).mono WriteStep.stream (List.Subset.refl _)).bind streamStep_frame
    fun _ m _ => .ok (streamStep_move m _ _)

theorem decodeLoop_leads : ∀ (k : Nat) (s : State), (decodeLoop k s).Leads StreamStep (raisable .decode) s
  | 0, _ => .stuck
  | k + 1, s => by
    unfold decodeLoop
    split
    · exact .stuck
    · split
      · split
        · exact .ok (streamStep_frame.refl s)
        · exact ((emitStep_leads _ s).mono id (by simp [raisable])).bind streamStep_frame
            fun _ m _ => decodeLoop_leads k m
      · exact ((branchStep_leads s).mono id (by simp [raisable])).bind streamStep_frame
          fun _ m _ => decodeLoop_leads k m

theorem decodeStart_leads (s : State) : (decodeStart s).Leads StreamStep (raisable .decode) s := by
  unfold decodeStart
  split
  · split
    · exact .stuck
    · split
      · exact .raise (by simp [raisable]) (streamStep_frame.refl s)
      · exact .ok (streamStep_move s _ _)
  · exact .raise (by simp [raisable]) (streamStep_frame.refl s)

theorem decodeBody_leads (s : State) : (decodeBody s).Leads StreamStep (raisable .decode) s :=
  (decodeStart_leads s).bind streamStep_frame fun _ m _ => decodeLoop_leads _ m

end Sys2Proof.Machine
end

/-! # Proofs about the frames of all instructions (10_state.md, 60_exceptions.md) -/

section

namespace Sys2Proof.Machine

/-! ## The output stream across any part of an instruction (R42, R53) -/

/-- What no instruction but INIT undoes: the output only grows, inside its memory, and once closed stays as it is. -/
structure OutputGrows (s t : State) : Prop where
  params : t.params = s.params
  packer : PackerOk s → PackerOk t
  grows : s.params.Ok → s.outLen.toNat ≤ s.params.obufCap →
    t.outLen.toNat ≤ s.params.obufCap ∧ ObufAppended s t
  form : s.params.Ok → s.outLen.toNat ≤ s.params.obufCap →
    (s.obuf.wf ∧ ∀ c ∈ s.obuf, c.1 < s.params.obufCap) → t.obuf.wf ∧ ∀ c ∈ t.obuf, c.1 < s.params.obufCap
  closed : s.oclosed = true →
    t.oclosed = true ∧ t.obuf = s.obuf ∧ t.outLen = s.outLen ∧ t.pacc = s.pacc ∧ t.pcnt = s.pcnt
  nothingPending : (s.oclosed = true → s.pcnt = 0#3) → t.oclosed = true → t.pcnt = 0#3

theorem outputGrows_frame : IsFrame OutputGrows where
  refl _ := ⟨rfl, id, fun _ h => ⟨h, Nat.le_refl _, fun _ _ => rfl⟩, fun _ _ h => h, fun h => ⟨h, rfl, rfl, rfl, rfl⟩, id⟩
  trans {s t u} h g := by
    refine ⟨g.params.trans h.params, g.packer ∘ h.packer, fun hp hl => ?_, fun hp hl hf => ?_, fun hc => ?_,
      g.nothingPending ∘ h.nothingPending⟩
    · obtain ⟨h1, h2, h3⟩ := h.grows hp hl
      obtain ⟨g1, g2, g3⟩ := g.grows (h.params ▸ hp) (h.params ▸ h1)
      refine ⟨h.params ▸ g1, Nat.le_trans h2 g2, fun a ha => ?_⟩
      rw [g3 a (by omega), h3 a (by omega)]
    · have g1 := g.form (h.params ▸ hp) (h.params ▸ (h.grows hp hl).1) (h.params ▸ h.form hp hl hf)
      exact h.params ▸ g1
    · obtain ⟨h1, h2, h3, h4, h5⟩ := h.closed hc
      obtain ⟨g1, g2, g3, g4, g5⟩ := g.closed h1
      exact ⟨g1, g2.trans h2, g3.trans h3, g4.trans h4, g5.trans h5⟩

/-- A part that touches neither the output nor the parameters. -/
theorem OutputGrows.of_same {s t : State} (hp : t.params = s.params) (hc : t.oclosed = s.oclosed)
    (hb : t.obuf = s.obuf) (hl : t.outLen = s.outLen) (ha : t.pacc = s.pacc) (hn : t.pcnt = s.pcnt) :
    OutputGrows s t := by
  refine ⟨hp, ?_, fun _ h => ⟨hl ▸ h, hl ▸ Nat.le_refl _, fun _ _ => by rw [hb]⟩, fun _ _ h => hb ▸ h,
    fun h => ⟨hc ▸ h, hb, hl, ha, hn⟩, fun h => ?_⟩
  · unfold PackerOk
    rw [ha, hn]
    exact id
  · rw [hc, hn]
    exact h

theorem WriteStep.outputGrows {s t : State} (h : WriteStep s t) : OutputGrows s t := by
  obtain ⟨hout, hclosed⟩ := h
  refine ⟨hout.params, hout.packer, hout.grows, hout.form, fun hc => ?_, fun hn hc => ?_⟩
  · obtain rfl := hclosed hc
    exact ⟨hc, rfl, rfl, rfl, rfl⟩
  · rw [hout.oclosed] at hc
    obtain rfl := hclosed hc
    exact hn hc

/-- R118: FLUSH and fault entry close an open output after one byte at most. -/
theorem OutputGrows.of_closing {s m t : State} (hopen : s.oclosed = false) (hm : OutStep s m) (hn : m.pcnt = 0#3)
    (ht : OutputGrows m.close t) : OutputGrows s t := by
  have hclose : OutputGrows s m.close :=
    ⟨hm.params, hm.packer, hm.grows, hm.form, fun hc => absurd (hopen.symm.trans hc) nofun, fun _ _ => hn⟩
  exact outputGrows_frame.trans hclose ht

theorem closeQuietly_outputGrows (s : State) : OutputGrows s s.closeQuietly := by
  cases hc : s.oclosed with
  | true => rw [State.closeQuietly_of_closed hc]; exact outputGrows_frame.refl s
  | false =>
    by_cases hp : s.pcnt = 0#3
    · rw [State.closeQuietly_of_nothing_pending hc hp]
      exact .of_closing hc (.refl s) hp (outputGrows_frame.refl _)
    · cases hb : s.outBlocked with
      | true =>
        rw [State.closeQuietly_of_blocked hc hp hb]
        exact .of_closing hc (.clearAcc s) rfl (outputGrows_frame.refl _)
      | false =>
        rw [State.closeQuietly_of_free hc hp hb]
        exact .of_closing hc ((OutStep.clearAcc s).trans (.append _ hb)) rfl (outputGrows_frame.refl _)

theorem faultEntry_outputGrows (k : FaultKind) (s : State) : OutputGrows s (faultEntry k s) :=
  outputGrows_frame.trans (closeQuietly_outputGrows s) (.of_same rfl rfl rfl rfl rfl rfl)

theorem begin_outputGrows (s : State) : OutputGrows s s.begin := .of_same rfl rfl rfl rfl rfl rfl

theorem complete_outputGrows (s : State) : OutputGrows s s.complete := .of_same rfl rfl rfl rfl rfl rfl

/-! ## The body of every command (R37, R209) -/

/-- What the body of command i can have written when it ends, in whichever way. -/
structure BodyStep (i : Instr) (s t : State) : Prop where
  frame : t = { frameOf i s t with done := s.done }
  output : OutputGrows s t

theorem ScanStep.bodyStep {s t : State} (h : ScanStep s t) : BodyStep .fcount s t := by
  refine ⟨h, ?_⟩
  rw [show t = _ from h]
  exact .of_same rfl rfl rfl rfl rfl rfl

/-- The builder's flags and counters at the start, then its building. -/
theorem BuildStep.bodyStep {s m : State} (h : BuildStep s.treeStart m) : BodyStep .tbuild s m := by
  unfold BuildStep at h
  rw [h]
  exact ⟨rfl, .of_same rfl rfl rfl rfl rfl rfl⟩

theorem BuildStep.bodyStep_setTree {s m : State} (h : BuildStep s.treeStart m) (r : NodeIdx) :
    BodyStep .tbuild s (m.setTree r) := by
  unfold BuildStep at h
  rw [h]
  exact ⟨rfl, .of_same rfl rfl rfl rfl rfl rfl⟩

theorem ParseStep.bodyStep {s m : State} (h : ParseStep s.hdrrStart m) : BodyStep .hdrr s m := by
  unfold ParseStep at h
  rw [h]
  exact ⟨rfl, .of_same rfl rfl rfl rfl rfl rfl⟩

theorem ParseStep.bodyStep_setTree {s m : State} (h : ParseStep s.hdrrStart m) (r : NodeIdx) :
    BodyStep .hdrr s (m.setTree r) := by
  unfold ParseStep at h
  rw [h]
  exact ⟨rfl, .of_same rfl rfl rfl rfl rfl rfl⟩

theorem WriteStep.bodyStep_hdrw {s m : State} (h : WriteStep s.stkFree m) : BodyStep .hdrw s m := by
  refine ⟨?_, outputGrows_frame.trans (t := s.stkFree) (.of_same rfl rfl rfl rfl rfl rfl) h.outputGrows⟩
  rw [h.1.fields]
  rfl

theorem WriteStep.bodyStep_wrbits {n : BitVec 6} {s m : State} (h : WriteStep s m) : BodyStep (.wrbits n) s m :=
  ⟨h.1.fields, h.outputGrows⟩

theorem StreamStep.outputGrows {s t : State} (h : StreamStep s t) : OutputGrows s t := by
  have hmove : OutputGrows s { s with upos := t.upos, cur := t.cur } := .of_same rfl rfl rfl rfl rfl rfl
  exact outputGrows_frame.trans hmove (WriteStep.outputGrows h)

theorem StreamStep.bodyStep {s t : State} (h : StreamStep s t) : BodyStep .decode s t :=
  ⟨h.1.fields, h.outputGrows⟩

theorem EncodeStep.bodyStep {s t : State} (h : EncodeStep s t) : BodyStep .encode s t := by
  refine ⟨?_, h.1.outputGrows⟩
  have hfields := h.1.1.fields
  rw [h.2] at hfields
  exact hfields

theorem tbuildBody_leads (s : State) : (tbuildBody s).Leads (BodyStep .tbuild) (raisable .tbuild) s := by
  obtain ⟨m, r, hm, h⟩ | ⟨m, k, hk, hm, h⟩ | ⟨e, h⟩ := tbuildBody_cases s <;> rw [h]
  · exact .ok (hm.bodyStep_setTree r)
  · exact .raise hk hm.bodyStep
  · exact .stuck

theorem hdrrBody_leads (s : State) : (hdrrBody s).Leads (BodyStep .hdrr) (raisable .hdrr) s := by
  obtain ⟨m, r, hm, h⟩ | ⟨m, k, hk, hm, h⟩ | ⟨e, h⟩ := hdrrBody_cases s <;> rw [h]
  · exact .ok (hm.bodyStep_setTree r)
  · exact .raise hk hm.bodyStep
  · exact .stuck

/-- R151: CTGEN raises only for want of a tree, having taken `STK` and `SP`. -/
theorem ctgenBody_cases (s : State) :
    (∃ t, s.treeValid = true ∧ walk s.node walkLevels s.root 0#9 0#256 [] = some t ∧
      ctgenBody s = .ok () (s.stkFree.clearCode.setCodeTable t)) ∨
    (s.treeValid = false ∧ ctgenBody s = .raise .contract s.stkFree) ∨
    (s.treeValid = true ∧ walk s.node walkLevels s.root 0#9 0#256 [] = none ∧ ctgenBody s = .stuck .notATree) := by
  unfold ctgenBody
  split
  next hv =>
    cases hw : walk s.node walkLevels s.root 0#9 0#256 [] with
    | none => exact .inr (.inr ⟨hv, rfl, rfl⟩)
    | some t => exact .inl ⟨t, hv, rfl, rfl⟩
  next hv => exact .inr (.inl ⟨Bool.eq_false_of_not_eq_true hv, rfl⟩)

theorem ctgenBody_leads (s : State) : (ctgenBody s).Leads (BodyStep .ctgen) (raisable .ctgen) s := by
  obtain ⟨t, -, -, h⟩ | ⟨-, h⟩ | ⟨-, -, h⟩ := ctgenBody_cases s <;> rw [h]
  · exact .ok ⟨rfl, .of_same rfl rfl rfl rfl rfl rfl⟩
  · exact .raise (by simp [raisable]) ⟨rfl, .of_same rfl rfl rfl rfl rfl rfl⟩
  · exact .stuck

/-- R119: RDBITS raises only `E_IO`, with nothing changed. -/
theorem rdbitsBody_cases (n : BitVec 6) (s : State) :
    (∃ r u, rdbitsBody n s = .ok () (deliver r { s with upos := u })) ∨ rdbitsBody n s = .raise .io s := by
  unfold rdbitsBody
  rcases rdBits_cases (countOf n) s with ⟨-, h⟩ | ⟨-, -, v, -, h⟩ | ⟨-, -, h⟩ <;> rw [h]
  · exact .inl ⟨none, s.upos, rfl⟩
  · exact .inl ⟨some v, _, rfl⟩
  · exact .inr rfl

theorem rdbitsBody_leads (n : BitVec 6) (s : State) :
    (rdbitsBody n s).Leads (BodyStep (.rdbits n)) (raisable (.rdbits n)) s := by
  obtain ⟨r, u, h⟩ | h := rdbitsBody_cases n s <;> rw [h]
  · cases r <;> exact .ok ⟨rfl, .of_same rfl rfl rfl rfl rfl rfl⟩
  · exact .raise (by simp [raisable]) ⟨rfl, outputGrows_frame.refl s⟩

theorem flushOut_leads (s : State) : (flushOut s).Leads (BodyStep .flush) (raisable .flush) s := by
  have hzero : s.pcnt.toNat = 0 ↔ s.pcnt = 0#3 := BitVec.toNat_inj (y := 0#3)
  obtain ⟨-, h⟩ | ⟨hc, hp, h⟩ | ⟨hc, -, hb, h⟩ | ⟨hc, -, -, h⟩ := flushOut_cases s <;> rw [h]
  · exact .ok ⟨rfl, outputGrows_frame.refl s⟩
  · exact .ok ⟨rfl, .of_closing hc (.refl s) (hzero.mp hp) (outputGrows_frame.refl _)⟩
  · exact .ok ⟨rfl, .of_closing hc ((OutStep.clearAcc s).trans (.append _ hb)) rfl (.of_same rfl rfl rfl rfl rfl rfl)⟩
  · exact .raise (by simp [raisable]) ⟨rfl, .of_closing hc (.clearAcc s) rfl (outputGrows_frame.refl _)⟩

/-- R191: every legal command but INIT is accepted by `command`, and its body writes what its row of R37 lists and raises
only the kinds of its row of R209. -/
theorem exec_command_body {i : Instr} (hc : i.context = .command) (hi : i ≠ .init) (hwf : i.wf = true) :
    ∃ body, (∀ s, exec i s = command i body s) ∧ ∀ s, (body s).Leads (BodyStep i) (raisable i) s := by
  cases i with
  | fcount => exact ⟨_, fun _ => rfl, fun s => (fcountBody_leads s).mono ScanStep.bodyStep (List.Subset.refl _)⟩
  | tbuild => exact ⟨_, fun _ => rfl, tbuildBody_leads⟩
  | ctgen => exact ⟨_, fun _ => rfl, ctgenBody_leads⟩
  | hdrw =>
    exact ⟨hdrwBody, fun _ => rfl, fun s => (hdrwBody_leads s).after WriteStep.bodyStep_hdrw⟩
  | encode => exact ⟨_, fun _ => rfl, fun s => (encodeBody_leads s).mono EncodeStep.bodyStep (List.Subset.refl _)⟩
  | hdrr => exact ⟨_, fun _ => rfl, hdrrBody_leads⟩
  | decode => exact ⟨_, fun _ => rfl, fun s => (decodeBody_leads s).mono StreamStep.bodyStep (List.Subset.refl _)⟩
  | rdbits n => exact ⟨_, fun _ => if_pos hwf, rdbitsBody_leads n⟩
  | wrbits n =>
    exact ⟨_, fun _ => if_pos hwf, fun s => (wrBits_leads _ _ s).mono WriteStep.bodyStep_wrbits (List.Subset.refl _)⟩
  | flush => exact ⟨_, fun _ => rfl, flushOut_leads⟩
  | rewind => exact ⟨_, fun _ => rfl, fun s => .ok ⟨rfl, .of_same rfl rfl rfl rfl rfl rfl⟩⟩
  | init => exact absurd rfl hi
  | magic | tInternal | tLeaf | bLeft | bRight | compress | decompress => nomatch hc

/-- R85: RDBITS and WRBITS with an illegal count are illegal words. -/
theorem exec_illegal {i : Instr} (hc : i.context = .command) (hwf : i.wf = false) (s : State) :
    exec i s = illegalCommand (cmdWrite i) s := by
  cases i with
  | rdbits n | wrbits n => exact if_neg (ne_true_of_eq_false hwf)
  | fcount | tbuild | ctgen | hdrw | encode | hdrr | decode | flush | rewind | init => nomatch hwf
  | magic | tInternal | tLeaf | bLeft | bRight | compress | decompress => nomatch hc

/-- Everything a command other than INIT can do in `S_IDLE`: complete, raise, or be illegal. -/
theorem exec_ready_cases {i : Instr} {s t : State} (hc : i.context = .command) (hi : i ≠ .init) (hs : Ready s)
    (h : exec i s = .next t) :
    (∃ m, BodyStep i s.begin m ∧ t = m.complete) ∨
    (∃ k m, k ∈ raisable i ∧ BodyStep i s.begin m ∧ t = faultEntry k m) ∨
    (i.wf = false ∧ t = faultEntry .illCmd s) := by
  cases hwf : i.wf with
  | true =>
    obtain ⟨body, hexec, hbody⟩ := exec_command_body hc hi hwf
    obtain ⟨m, hm, rfl⟩ | ⟨k, m, hm, rfl⟩ := command_next hs ((hexec s).symm.trans h)
    · exact .inl ⟨m, (hbody _).of_ok hm, rfl⟩
    · obtain ⟨hk, hstep⟩ := (hbody _).of_raise hm
      exact .inr (.inl ⟨k, m, hk, hstep, rfl⟩)
  | false =>
    rw [exec_illegal hc hwf, illegalCommand_idle hs] at h
    exact .inr (.inr ⟨rfl, (Host.Outcome.next.inj h).symm⟩)

/-- A command other than INIT runs in `S_IDLE`, is ignored in `S_FAULT` and held while another runs. -/
theorem exec_command_cases {i : Instr} {s t : State} (hc : i.context = .command) (hi : i ≠ .init)
    (h : exec i s = .next t) : Ready s ∨ t = s ∨ ∃ op, t = s.hold op := by
  cases hs : s.sstate with
  | idle => exact .inl hs
  | fault =>
    rw [exec_of_fault hc hi hs] at h
    exact .inr (.inl (Host.Outcome.next.inj h).symm)
  | run p =>
    obtain ⟨body, hb⟩ | hb := exec_eq_command_or_illegalCommand hc hi <;> rw [hb s] at h
    · simp only [command, hs] at h
      exact .inr (.inr ⟨_, (Host.Outcome.next.inj h).symm⟩)
    · simp only [illegalCommand, hs] at h
      exact .inr (.inr ⟨_, (Host.Outcome.next.inj h).symm⟩)

/-! ## Tokens (R164) -/

/-- Only what a unit holds of a tree while it reads one, and `CUR`, may differ. -/
def TokenStep (s t : State) : Prop :=
  t = { s with cur := t.cur, nnodes := t.nnodes, node := t.node, stk := t.stk, sp := t.sp }

theorem tokenStep_frame : IsFrame TokenStep :=
  ⟨fun _ => rfl, fun h g => by unfold TokenStep at *; rw [g, h]⟩

theorem attach_tokenStep : ∀ (l : List StkEntry) (i : NodeIdx) (s : State), TokenStep s (attach l i s)
  | [], _, _ => rfl
  | (_, false) :: _, _, _ => rfl
  | (i, true) :: rest, r, s =>
    tokenStep_frame.trans (t := recordInternal i (i + 1#10) r s) rfl (attach_tokenStep rest i _)

theorem allocNode_token (s : State) : (allocNode s).Leads TokenStep [.badMagic, .malformed] s := by
  rcases allocNode_cases s with ⟨-, h⟩ | ⟨-, h⟩ <;> rw [h]
  · exact .ok rfl
  · exact .raise (by simp) (tokenStep_frame.refl s)

theorem recordLeaf_token (i : NodeIdx) (v : Symbol) (s : State) :
    (recordLeaf i v s).Leads TokenStep [.badMagic, .malformed] s := by
  rcases recordLeaf_cases i v s with ⟨-, h⟩ | ⟨-, h⟩ <;> rw [h]
  · exact .ok rfl
  · exact .raise (by simp) (tokenStep_frame.refl s)

theorem checkMagic_token (m : Word) (s : State) : (checkMagic m s).Leads TokenStep [.badMagic, .malformed] s := by
  rcases checkMagic_cases m s with ⟨-, h⟩ | ⟨-, h⟩ <;> rw [h]
  · exact .ok rfl
  · exact .raise (by simp) (tokenStep_frame.refl s)

theorem moveToChild_token (b : Bool) (s : State) : (moveToChild b s).Leads TokenStep [.badMagic, .malformed] s := by
  unfold moveToChild
  split
  · exact .stuck
  · split
    · exact .stuck
    · exact .ok rfl

theorem internalStep_token (s : State) : (internalStep s).Leads TokenStep [.badMagic, .malformed] s :=
  (allocNode_token s).bind tokenStep_frame fun _ _ _ => .ok rfl

theorem leafTokenStep_token (v : Symbol) (s : State) : (leafTokenStep v s).Leads TokenStep [.badMagic, .malformed] s :=
  (allocNode_token s).bind tokenStep_frame fun i m _ =>
    (recordLeaf_token i v m).bind tokenStep_frame fun _ m _ => .ok (attach_tokenStep _ _ m)

theorem token_next {r : Res Unit} {t : State} (h : token r = .next t) :
    r = .ok () t ∨ ∃ k m, r = .raise k m ∧ t = faultEntry k m := by
  cases r with
  | ok a m => obtain rfl := Host.Outcome.next.inj h; exact .inl rfl
  | raise k m => obtain rfl := Host.Outcome.next.inj h; exact .inr ⟨k, m, rfl, rfl⟩
  | stuck e => nomatch h

/-- A stream token acts on the unit that reads it, or faults after having done so in part. -/
theorem exec_token_cases {i : Instr} {s t : State} (hc : i.context = .header ∨ i.context = .tree ∨ i.context = .branch)
    (h : exec i s = .next t) : ∃ m, TokenStep s m ∧ (t = m ∨ ∃ k, t = faultEntry k m) := by
  have key {r : Res Unit} (hr : r.Leads TokenStep [.badMagic, .malformed] s) (ht : token r = .next t) :
      ∃ m, TokenStep s m ∧ (t = m ∨ ∃ k, t = faultEntry k m) := by
    obtain hok | ⟨k, m, hraise, rfl⟩ := token_next ht
    · exact ⟨t, hr.of_ok hok, .inl rfl⟩
    · exact ⟨m, (hr.of_raise hraise).2, .inr ⟨k, rfl⟩⟩
  cases i with
  | magic m => exact key (checkMagic_token m s) h
  | tInternal => exact key (internalStep_token s) h
  | tLeaf v => exact key (leafTokenStep_token v s) h
  | bLeft => exact key (moveToChild_token false s) h
  | bRight => exact key (moveToChild_token true s) h
  | fcount | tbuild | ctgen | hdrw | encode | hdrr | decode | rdbits | wrbits | flush | rewind | init | compress
  | decompress => simp [Instr.context] at hc

/-! ## All instructions: the output (R52, R53, R36) -/

theorem TokenStep.outputGrows {s t : State} (h : TokenStep s t) : OutputGrows s t := by
  unfold TokenStep at h
  rw [h]
  exact .of_same rfl rfl rfl rfl rfl rfl

/-- Where an instruction that is neither INIT nor a pseudo-instruction is read. -/
theorem Instr.context_cases {i : Instr} (hcom : i ≠ .compress) (hdec : i ≠ .decompress) :
    i.context = .command ∨ i.context = .header ∨ i.context = .tree ∨ i.context = .branch := by
  cases i with
  | compress => exact absurd rfl hcom
  | decompress => exact absurd rfl hdec
  | fcount | tbuild | ctgen | hdrw | encode | hdrr | decode | rdbits | wrbits | flush | rewind | init => exact .inl rfl
  | magic => exact .inr (.inl rfl)
  | tInternal | tLeaf => exact .inr (.inr (.inl rfl))
  | bLeft | bRight => exact .inr (.inr (.inr rfl))

theorem exec_outputGrows {i : Instr} {s t : State} (hi : i ≠ .init) (hcom : i ≠ .compress) (hdec : i ≠ .decompress)
    (h : exec i s = .next t) : OutputGrows s t := by
  obtain hc | hc := Instr.context_cases hcom hdec
  · obtain hs | rfl | ⟨op, rfl⟩ := exec_command_cases hc hi h
    · obtain ⟨m, hm, rfl⟩ | ⟨k, m, -, hm, rfl⟩ | ⟨-, rfl⟩ := exec_ready_cases hc hi hs h
      · exact outputGrows_frame.trans (outputGrows_frame.trans (begin_outputGrows s) hm.output) (complete_outputGrows m)
      · exact outputGrows_frame.trans (outputGrows_frame.trans (begin_outputGrows s) hm.output)
          (faultEntry_outputGrows k m)
      · exact faultEntry_outputGrows _ s
    · exact outputGrows_frame.refl _
    · exact .of_same rfl rfl rfl rfl rfl rfl
  · obtain ⟨m, hm, rfl | ⟨k, rfl⟩⟩ := exec_token_cases hc h
    · exact hm.outputGrows
    · exact outputGrows_frame.trans hm.outputGrows (faultEntry_outputGrows k m)

/-- Settles O46: every instruction but INIT and those that begin with it keeps a closed output. -/
theorem closedOutputStaysClosed : Obligations.ClosedOutputStaysClosed :=
  fun _ _ _ hi hcom hdec hclosed h => (exec_outputGrows hi hcom hdec h).closed hclosed

/-! ## All instructions: the input (R28, R52) -/

/-- What the host gave and no instruction takes: the input, `WDATA`, the parameters. -/
def InputKept (s t : State) : Prop :=
  t.ibuf = s.ibuf ∧ t.inLen = s.inLen ∧ t.wdata = s.wdata ∧ t.params = s.params

theorem inputKept_frame : IsFrame InputKept :=
  ⟨fun _ => ⟨rfl, rfl, rfl, rfl⟩, fun ⟨h1, h2, h3, h4⟩ ⟨g1, g2, g3, g4⟩ =>
    ⟨g1.trans h1, g2.trans h2, g3.trans h3, g4.trans h4⟩⟩

theorem faultEntry_inputKept (k : FaultKind) (s : State) : InputKept s (faultEntry k s) := by
  rw [faultEntry_fields]
  exact ⟨rfl, rfl, rfl, rfl⟩

theorem BodyStep.inputKept {i : Instr} {s t : State} (hc : i.context = .command) (h : BodyStep i s t) :
    InputKept s t := by
  rw [h.frame]
  cases i with
  | magic | tInternal | tLeaf | bLeft | bRight | compress | decompress => nomatch hc
  | fcount | tbuild | ctgen | hdrw | encode | hdrr | decode | rdbits | wrbits | flush | rewind | init =>
    exact ⟨rfl, rfl, rfl, rfl⟩

theorem exec_init_cases {s t : State} (h : exec .init s = .next t) : t = initState s ∨ ∃ op, t = s.hold op := by
  cases hs : s.sstate with
  | idle => exact .inl (Host.Outcome.next.inj (h.symm.trans (exec_init_of_ready hs)))
  | fault => exact .inl (Host.Outcome.next.inj (h.symm.trans (exec_init_of_fault hs)))
  | run p =>
    simp only [exec, execInit, hs] at h
    exact .inr ⟨_, (Host.Outcome.next.inj h).symm⟩

theorem exec_command_inputKept {i : Instr} {s t : State} (hc : i.context = .command) (h : exec i s = .next t) :
    InputKept s t := by
  by_cases hi : i = .init
  · subst hi
    obtain rfl | ⟨op, rfl⟩ := exec_init_cases h <;> exact ⟨rfl, rfl, rfl, rfl⟩
  · obtain hs | rfl | ⟨op, rfl⟩ := exec_command_cases hc hi h
    · obtain ⟨m, hm, rfl⟩ | ⟨k, m, -, hm, rfl⟩ | ⟨-, rfl⟩ := exec_ready_cases hc hi hs h
      · exact BodyStep.inputKept (s := s.begin) (t := m) hc hm
      · exact inputKept_frame.trans (BodyStep.inputKept (s := s.begin) hc hm) (faultEntry_inputKept k m)
      · exact faultEntry_inputKept _ s
    · exact inputKept_frame.refl _
    · exact ⟨rfl, rfl, rfl, rfl⟩

theorem andThen_eq_next {o : Host.Outcome State Fault Refusal} {f : State → Host.Outcome State Fault Refusal} {t : State}
    (h : andThen o f = .next t) : ∃ m, o = .next m ∧ f m = .next t := by
  cases o with
  | next m => exact ⟨m, rfl, h⟩
  | fault e => nomatch h
  | refused r => nomatch h

/-- R193, R194: a relation every command keeps is kept by the command sequences. -/
theorem compressSeq_frame {R : State → State → Prop} (hR : IsFrame R)
    (hexec : ∀ {i s t}, i.context = .command → exec i s = .next t → R s t) {s t : State}
    (h : compressSeq s = .next t) : R s t := by
  obtain ⟨m₁, h₁, h⟩ := andThen_eq_next h
  obtain ⟨m₂, h₂, h⟩ := andThen_eq_next h
  obtain ⟨m₃, h₃, h⟩ := andThen_eq_next h
  obtain ⟨m₄, h₄, h⟩ := andThen_eq_next h
  obtain ⟨m₅, h₅, h⟩ := andThen_eq_next h
  obtain ⟨m₆, h₆, h⟩ := andThen_eq_next h
  obtain ⟨m₇, h₇, h⟩ := andThen_eq_next h
  have r₁ : R s m₁ := hexec (i := .init) rfl h₁
  have r₂ : R s m₂ := hR.trans r₁ (hexec (i := .fcount) rfl h₂)
  have r₃ : R s m₃ := hR.trans r₂ (hexec (i := .tbuild) rfl h₃)
  have r₄ : R s m₄ := hR.trans r₃ (hexec (i := .ctgen) rfl h₄)
  have r₅ : R s m₅ := hR.trans r₄ (hexec (i := .rewind) rfl h₅)
  have r₆ : R s m₆ := hR.trans r₅ (hexec (i := .hdrw) rfl h₆)
  have r₇ : R s m₇ := hR.trans r₆ (hexec (i := .encode) rfl h₇)
  exact hR.trans r₇ (hexec (i := .flush) rfl h)

theorem decompressSeq_frame {R : State → State → Prop} (hR : IsFrame R)
    (hexec : ∀ {i s t}, i.context = .command → exec i s = .next t → R s t) {s t : State}
    (h : decompressSeq s = .next t) : R s t := by
  obtain ⟨m₁, h₁, h⟩ := andThen_eq_next h
  obtain ⟨m₂, h₂, h⟩ := andThen_eq_next h
  obtain ⟨m₃, h₃, h⟩ := andThen_eq_next h
  have r₁ : R s m₁ := hexec (i := .init) rfl h₁
  have r₂ : R s m₂ := hR.trans r₁ (hexec (i := .hdrr) rfl h₂)
  have r₃ : R s m₃ := hR.trans r₂ (hexec (i := .decode) rfl h₃)
  exact hR.trans r₃ (hexec (i := .flush) rfl h)

theorem exec_inputKept {i : Instr} {s t : State} (h : exec i s = .next t) : InputKept s t := by
  by_cases hcom : i = .compress
  · subst hcom
    simp only [exec, execCompress] at h
    split at h
    · obtain rfl := Host.Outcome.next.inj h
      exact ⟨rfl, rfl, rfl, rfl⟩
    · exact compressSeq_frame inputKept_frame exec_command_inputKept h
  · by_cases hdec : i = .decompress
    · subst hdec
      simp only [exec, execDecompress] at h
      split at h
      · obtain rfl := Host.Outcome.next.inj h
        exact ⟨rfl, rfl, rfl, rfl⟩
      · exact decompressSeq_frame inputKept_frame exec_command_inputKept h
    · obtain hc | hc := Instr.context_cases hcom hdec
      · exact exec_command_inputKept hc h
      · obtain ⟨m, hm, ht⟩ := exec_token_cases hc h
        have hkept : InputKept s m := by
          rw [show m = _ from hm]
          exact ⟨rfl, rfl, rfl, rfl⟩
        obtain rfl | ⟨k, rfl⟩ := ht
        · exact hkept
        · exact inputKept_frame.trans hkept (faultEntry_inputKept k m)

/-- Settles O45: from the frames of commands and tokens; a pseudo-instruction is a sequence of commands. -/
theorem inputKeptOutputAppended : Obligations.InputKeptOutputAppended := by
  refine ⟨fun i s t h => exec_inputKept h, fun i s t hi hcom hdec hinv h => ?_⟩
  obtain ⟨-, hp, -, ⟨hcap, -⟩, -⟩ := hinv
  exact ((exec_outputGrows hi hcom hdec h).grows hp hcap).2

/-! ## Commands that complete (R37) -/

theorem BodyStep.complete_frame {i : Instr} {s m : State} (hc : i.context = .command) (hi : i ≠ .init) (hs : Ready s)
    (h : BodyStep i s.begin m) : m.complete = frameOf i s m.complete := by
  have hidle : s = { s with sstate := .idle } := by rw [← hs]
  rw [h.frame, hidle]
  cases i with
  | magic | tInternal | tLeaf | bLeft | bRight | compress | decompress => nomatch hc
  | init => exact absurd rfl hi
  | fcount | tbuild | ctgen | hdrw | encode | hdrr | decode | rdbits | wrbits | flush | rewind => rfl

/-- Settles O44: a command that completes has run its body, whose frame is its row; INIT keeps what R190 lists. -/
theorem commandsWriteOnlyListedState : Obligations.CommandsWriteOnlyListedState := by
  intro i s t hc hs h hidle
  by_cases hi : i = .init
  · subst hi
    obtain rfl := Host.Outcome.next.inj (h.symm.trans (exec_init_of_ready hs))
    rfl
  · obtain ⟨m, hm, rfl⟩ | ⟨k, m, -, -, rfl⟩ | ⟨-, rfl⟩ := exec_ready_cases hc hi hs h
    · exact hm.complete_frame hc hi hs
    · exact SState.noConfusion hidle
    · exact SState.noConfusion hidle

end Sys2Proof.Machine
end

/-! # Proofs about faulting commands (60_exceptions.md) -/

section

namespace Sys2Proof.Machine

/-! ## Kinds (R209) -/

/-- A command that ends in the fault state has raised a kind of its row, or was an illegal word. -/
theorem exec_fault_cases {i : Instr} {s t : State} (hc : i.context = .command) (hs : Ready s)
    (h : exec i s = .next t) (ht : t.sstate = .fault) :
    (∃ k m, k ∈ raisable i ∧ BodyStep i s.begin m ∧ t = faultEntry k m) ∨
    (i.wf = false ∧ t = faultEntry .illCmd s) := by
  by_cases hi : i = .init
  · subst hi
    obtain rfl := Host.Outcome.next.inj (h.symm.trans (exec_init_of_ready hs))
    exact SState.noConfusion ht
  · obtain ⟨m, -, rfl⟩ | h := exec_ready_cases hc hi hs h
    · exact SState.noConfusion ht
    · exact h

/-! ## DECODE on an open output (R194, R206) -/

theorem wrBit_io (b : Bool) (s : State) : (wrBit b s).Leads OutStep [.io] s := by
  unfold wrBit
  split
  · unfold putByte
    split
    · exact .raise (by simp) (.clearAcc s)
    · exact .ok ((OutStep.clearAcc s).trans (.append _ (Bool.eq_false_of_not_eq_true ‹_›)))
  · exact .ok (.shiftAcc b ‹_›)

theorem outStep_frame : IsFrame OutStep := ⟨OutStep.refl, OutStep.trans⟩

theorem wrLoop_io (v : Word) : ∀ (k : Nat) (s : State), (wrLoop v k s).Leads OutStep [.io] s
  | 0, s => .ok (.refl s)
  | k + 1, s => (wrBit_io _ s).bind outStep_frame fun _ m _ => wrLoop_io v k m

/-- On an open output a write can only lack room. -/
theorem wrBits_open {n : Nat} {v : Word} {s : State} (hopen : s.oclosed = false) :
    (wrBits n v s).Leads WriteStep [.io] s := by
  rw [wrBits, hopen]
  exact (wrLoop_io v n s).mono (fun h => ⟨h, fun hc => absurd (hopen.symm.trans hc) nofun⟩) (List.Subset.refl _)

theorem StreamStep.oclosed {s t : State} (h : StreamStep s t) : t.oclosed = s.oclosed := h.1.oclosed

theorem emitStep_open {x : Symbol} {s : State} (hopen : s.oclosed = false) :
    (emitStep x s).Leads StreamStep [.io] s :=
  ((wrBits_open hopen).mono WriteStep.stream (List.Subset.refl _)).bind streamStep_frame
    fun _ m _ => .ok (streamStep_move m _ _)

theorem decodeLoop_open : ∀ (k : Nat) {s : State}, s.oclosed = false →
    (decodeLoop k s).Leads StreamStep [.truncated, .io] s
  | 0, _, _ => .stuck
  | k + 1, s, hopen => by
    unfold decodeLoop
    split
    · exact .stuck
    · split
      · split
        · exact .ok (streamStep_frame.refl s)
        · have hemit := (emitStep_open (x := ‹Node›.sym) (s := s) hopen).mono id (by simp : _ ⊆ [FaultKind.truncated, .io])
          exact hemit.bind streamStep_frame fun _ m hm =>
            decodeLoop_open k ((hemit.of_ok hm).oclosed.trans hopen)
      · have hbranch := branchStep_leads s
        exact hbranch.bind streamStep_frame fun _ m hm =>
          decodeLoop_open k ((hbranch.of_ok hm).oclosed.trans hopen)

theorem decodeStart_tree {s : State} (hv : s.treeValid = true) :
    (decodeStart s).Leads StreamStep [.malformed, .truncated, .io] s := by
  unfold decodeStart
  rw [if_pos hv]
  split
  · exact .stuck
  · split
    · exact .raise (by simp) (streamStep_frame.refl s)
    · exact .ok (streamStep_move s _ _)

/-- R194: with a tree and an open output DECODE raises no `E_CONTRACT`. -/
theorem decodeBody_open {s : State} (hv : s.treeValid = true) (hopen : s.oclosed = false) :
    (decodeBody s).Leads StreamStep [.malformed, .truncated, .io] s := by
  have hstart := decodeStart_tree hv
  exact hstart.bind streamStep_frame fun _ m hm =>
    (decodeLoop_open _ ((hstart.of_ok hm).oclosed.trans hopen)).mono id (by simp)

/-- R194: an HDRR that completes leaves a tree and the output as it was. -/
theorem hdrr_completes {s t : State} (hs : Ready s) (h : exec .hdrr s = .next t) (ht : t.sstate ≠ .fault) :
    Ready t ∧ t.treeValid = true ∧ t.oclosed = s.oclosed := by
  rw [exec_hdrr hs] at h
  obtain ⟨m, hm, rfl⟩ | ⟨k, m, -, rfl⟩ := finish_next h
  · obtain ⟨u, r, hu, hbody⟩ | ⟨u, k, -, -, hbody⟩ | ⟨e, hbody⟩ := hdrrBody_cases s.begin
    · obtain ⟨-, rfl⟩ := Res.ok.inj (hm.symm.trans hbody)
      refine ⟨rfl, rfl, ?_⟩
      show u.oclosed = s.oclosed
      rw [show u = _ from hu]
      rfl
    · nomatch hm.symm.trans hbody
    · nomatch hm.symm.trans hbody
  · exact absurd rfl ht

/-- R194: the kinds of a DECODE after an HDRR that completed. -/
theorem decode_fault_after_hdrr {s t : State} (hs : Ready s) (hv : s.treeValid = true) (hopen : s.oclosed = false)
    (h : exec .decode s = .next t) (ht : t.sstate = .fault) : ∃ k ∈ raisable .decompress, t.errCode = k.code := by
  rw [exec_decode hs] at h
  obtain ⟨m, -, rfl⟩ | ⟨k, m, hm, rfl⟩ := finish_next h
  · exact SState.noConfusion ht
  · have hk := ((decodeBody_open (s := s.begin) hv hopen).of_raise hm).1
    exact ⟨k, by revert hk; simp [raisable]; tauto, rfl⟩

theorem raisable_hdrr : raisable .hdrr = raisable .decompress := rfl

/-- R191: a command that is not INIT and not faulted leaves `S_IDLE`, one after a fault changes nothing. -/
theorem ready_or_fault {i : Instr} {s t : State} (hc : i.context = .command) (hs : Ready s)
    (h : exec i s = .next t) : Ready t ∨ t.sstate = .fault := by
  obtain ⟨-, ⟨ht, -⟩ | ⟨ht, -⟩⟩ := commandEnded_of_exec hc hs h
  · exact .inl ht
  · exact .inr ht

theorem exec_fault_same {i : Instr} {s t : State} (hc : i.context = .command) (hi : i ≠ .init) (hs : s.sstate = .fault)
    (h : exec i s = .next t) : t = s :=
  Host.Outcome.next.inj (h.symm.trans (exec_of_fault hc hi hs))

theorem decompressSeq_faultKinds {s t : State} (hb : s.busy = false) (h : decompressSeq s = .next t)
    (ht : t.sstate = .fault) : ∃ k ∈ raisable .decompress, t.errCode = k.code := by
  obtain ⟨s₁, h₁, h⟩ := andThen_eq_next h
  obtain ⟨s₂, h₂, h⟩ := andThen_eq_next h
  obtain ⟨s₃, h₃, h₄⟩ := andThen_eq_next h
  obtain rfl := Host.Outcome.next.inj (h₁.symm.trans (exec_init_of_not_busy hb))
  have hs₁ : Ready (initState s) := rfl
  obtain hs₂ | hs₂ := ready_or_fault (i := .hdrr) rfl hs₁ h₂
  · obtain ⟨-, hv, hopen⟩ := hdrr_completes hs₁ h₂ (by rw [hs₂]; nofun)
    obtain hs₃ | hs₃ := ready_or_fault (i := .decode) rfl hs₂ h₃
    · obtain ⟨k, m, hk, -, rfl⟩ | ⟨hwf, -⟩ := exec_fault_cases (i := .flush) rfl hs₃ h₄ ht
      · exact ⟨k, by revert hk; simp [raisable]; tauto, rfl⟩
      · nomatch hwf
    · obtain rfl := exec_fault_same (i := .flush) rfl nofun hs₃ h₄
      exact decode_fault_after_hdrr hs₂ hv hopen h₃ hs₃
  · obtain rfl := exec_fault_same (i := .decode) rfl nofun hs₂ h₃
    obtain rfl := exec_fault_same (i := .flush) rfl nofun hs₂ h₄
    obtain ⟨k, m, hk, -, rfl⟩ | ⟨hwf, -⟩ := exec_fault_cases (i := .hdrr) rfl hs₁ h₂ hs₂
    · exact ⟨k, hk, rfl⟩
    · nomatch hwf

/-- Settles O42: a body raises only the kinds of its row; in DECOMPRESS the tree and the open output leave DECODE
without `E_CONTRACT`. -/
theorem faultKindsPerCommand : Obligations.FaultKindsPerCommand := by
  refine ⟨fun i s t hc hwf hs h ht => ?_, fun s t ⟨hb, _⟩ h ht => ?_⟩
  · obtain ⟨k, m, hk, -, rfl⟩ | ⟨hill, -⟩ := exec_fault_cases hc hs h ht
    · exact ⟨k, hk, rfl⟩
    · nomatch hwf.symm.trans hill
  · have hexec : exec .decompress s = decompressSeq s := if_neg (by rw [hb]; nofun)
    exact decompressSeq_faultKinds hb (hexec.symm.trans h) ht

/-! ## What a fault leaves (R210, R211, R213) -/

theorem BodyStep.fault_frame {i : Instr} {s m : State} (k : FaultKind) (hc : i.context = .command) (hi : i ≠ .init)
    (h : BodyStep i s.begin m) : faultEntry k m = faultFrameOf i s (faultEntry k m) := by
  rw [faultEntry_fields, h.frame]
  cases i with
  | magic | tInternal | tLeaf | bLeft | bRight | compress | decompress => nomatch hc
  | init => exact absurd rfl hi
  | fcount | tbuild | ctgen | hdrw | encode | hdrr | decode | rdbits | wrbits | flush | rewind => rfl

/-- An illegal word writes nothing but what fault entry does. -/
theorem illegal_fault_frame {i : Instr} {s : State} (hc : i.context = .command) (hi : i.wf = false) :
    faultEntry .illCmd s = faultFrameOf i s (faultEntry .illCmd s) := by
  rw [faultEntry_fields]
  cases i with
  | rdbits | wrbits => rfl
  | fcount | tbuild | ctgen | hdrw | encode | hdrr | decode | flush | rewind | init => nomatch hi
  | magic | tInternal | tLeaf | bLeft | bRight | compress | decompress => nomatch hc

theorem closeQuietly_nothingPending {s : State} (h : s.oclosed = true → s.pcnt = 0#3) : s.closeQuietly.pcnt = 0#3 :=
  (closeQuietly_outputGrows s).nothingPending h (by rw [State.closeQuietly_fields])

/-- R210: the bytes fault entry leaves depend only on the output stream and the parameters. -/
theorem closeQuietly_congr {s t : State} (hp : t.params = s.params) (hc : t.oclosed = s.oclosed)
    (hb : t.obuf = s.obuf) (hl : t.outLen = s.outLen) (ha : t.pacc = s.pacc) (hn : t.pcnt = s.pcnt) :
    t.closeQuietly.obuf = s.closeQuietly.obuf ∧ t.closeQuietly.outLen = s.closeQuietly.outLen := by
  have hblock : t.outBlocked = s.outBlocked := by simp only [State.outBlocked, hp, hl]
  unfold State.closeQuietly
  rw [hblock, hc, hn]
  split_ifs
  · exact ⟨hb, hl⟩
  · exact ⟨hb, hl⟩
  · exact ⟨hb, hl⟩
  · simp [hb, hl, ha]

/-- A command that writes no output. -/
def writesNoOutput (i : Instr) : Prop :=
  i = .fcount ∨ i = .tbuild ∨ i = .ctgen ∨ i = .hdrr ∨ ∃ n, i = .rdbits n

theorem BodyStep.closeQuietly_same {i : Instr} {s m : State} (hi : writesNoOutput i) (h : BodyStep i s.begin m) :
    m.closeQuietly.obuf = s.closeQuietly.obuf ∧ m.closeQuietly.outLen = s.closeQuietly.outLen := by
  rw [h.frame]
  rcases hi with rfl | rfl | rfl | rfl | ⟨n, rfl⟩ <;> exact closeQuietly_congr rfl rfl rfl rfl rfl rfl

/-- R213: a builder that faults has cleared its flags and not set the root. -/
theorem tbuild_fault {s t : State} (hs : Ready s) (h : exec .tbuild s = .next t) (ht : t.sstate = .fault) :
    t.treeValid = false ∧ t.codeValid = false ∧ t.root = s.root := by
  have hexec : exec .tbuild s = finish (tbuildBody s.begin) := command_idle hs
  obtain ⟨m, -, rfl⟩ | ⟨k, m, hm, rfl⟩ := finish_next (hexec.symm.trans h)
  · exact SState.noConfusion ht
  · obtain ⟨u, r, -, hbody⟩ | ⟨u, k', -, hu, hbody⟩ | ⟨e, hbody⟩ := tbuildBody_cases s.begin
    · nomatch hm.symm.trans hbody
    · obtain ⟨-, rfl⟩ := Res.raise.inj (hm.symm.trans hbody)
      rw [faultEntry_fields, show m = _ from hu]
      exact ⟨rfl, rfl, rfl⟩
    · nomatch hm.symm.trans hbody

theorem hdrr_fault {s t : State} (hs : Ready s) (h : exec .hdrr s = .next t) (ht : t.sstate = .fault) :
    t.treeValid = false ∧ t.codeValid = false ∧ t.root = s.root := by
  obtain ⟨m, -, rfl⟩ | ⟨k, m, hm, rfl⟩ := finish_next ((exec_hdrr hs).symm.trans h)
  · exact SState.noConfusion ht
  · obtain ⟨u, r, -, hbody⟩ | ⟨u, k', -, hu, hbody⟩ | ⟨e, hbody⟩ := hdrrBody_cases s.begin
    · nomatch hm.symm.trans hbody
    · obtain ⟨-, rfl⟩ := Res.raise.inj (hm.symm.trans hbody)
      rw [faultEntry_fields, show m = _ from hu]
      exact ⟨rfl, rfl, rfl⟩
    · nomatch hm.symm.trans hbody

/-- R151: a CTGEN that faults found no tree and left the code table alone. -/
theorem ctgen_fault {s t : State} (hs : Ready s) (h : exec .ctgen s = .next t) (ht : t.sstate = .fault) :
    s.treeValid = false ∧ t.codeValid = s.codeValid ∧ t.code = s.code := by
  obtain ⟨m, -, rfl⟩ | ⟨k, m, hm, rfl⟩ := finish_next ((exec_ctgen hs).symm.trans h)
  · exact SState.noConfusion ht
  · obtain ⟨u, -, -, hbody⟩ | ⟨hv, hbody⟩ | ⟨-, -, hbody⟩ := ctgenBody_cases s.begin
    · nomatch hm.symm.trans hbody
    · obtain ⟨-, rfl⟩ := Res.raise.inj (hm.symm.trans hbody)
      rw [faultEntry_fields]
      exact ⟨hv, rfl, rfl⟩
    · nomatch hm.symm.trans hbody

theorem rdbits_fault {n : BitVec 6} {s t : State} (hs : Ready s) (h : exec (.rdbits n) s = .next t)
    (ht : t.sstate = .fault) : t.rdata = s.rdata ∧ t.eos = s.eos ∧ t.upos = s.upos := by
  cases hn : countOk n with
  | false =>
    obtain rfl := Host.Outcome.next.inj ((exec_rdbits_illegal hs hn).symm.trans h)
    rw [faultEntry_fields]
    exact ⟨rfl, rfl, rfl⟩
  | true =>
    have hexec : exec (.rdbits n) s = finish (rdbitsBody n s.begin) := exec_rdbits hs hn
    obtain ⟨m, -, rfl⟩ | ⟨k, m, hm, rfl⟩ := finish_next (hexec.symm.trans h)
    · exact SState.noConfusion ht
    · obtain ⟨r, u, hbody⟩ | hbody := rdbitsBody_cases n s.begin
      · nomatch hm.symm.trans hbody
      · obtain ⟨-, rfl⟩ := Res.raise.inj (hm.symm.trans hbody)
        rw [faultEntry_fields]
        exact ⟨rfl, rfl, rfl⟩

/-- What every command that ends in the fault state shares: fault entry over what its body wrote. -/
theorem exec_fault_common {i : Instr} {s t : State} (hc : i.context = .command) (hclosed : s.oclosed = true → s.pcnt = 0#3)
    (hs : Ready s) (h : exec i s = .next t) (ht : t.sstate = .fault) :
    t.err = true ∧ t.done = false ∧ t.errCode ≠ 0#3 ∧ t.oclosed = true ∧ t.pcnt = 0#3 ∧ t = faultFrameOf i s t ∧
    (writesNoOutput i → t.obuf = s.closeQuietly.obuf ∧ t.outLen = s.closeQuietly.outLen) := by
  have hi : i ≠ .init := by
    rintro rfl
    obtain rfl := Host.Outcome.next.inj (h.symm.trans (exec_init_of_ready hs))
    exact SState.noConfusion ht
  obtain ⟨k, m, -, hm, rfl⟩ | ⟨hill, rfl⟩ := exec_fault_cases hc hs h ht
  · exact ⟨rfl, rfl, k.code_ne_zero, faultEntry_oclosed k m, closeQuietly_nothingPending (hm.output.nothingPending hclosed),
      hm.fault_frame k hc hi, hm.closeQuietly_same⟩
  · exact ⟨rfl, rfl, FaultKind.illCmd.code_ne_zero, faultEntry_oclosed _ s, closeQuietly_nothingPending hclosed,
      illegal_fault_frame hc hill, fun _ => ⟨rfl, rfl⟩⟩

/-- Settles O43: fault entry closes and records over what the body wrote; CTGEN faults only without a tree, so under the
invariant without codes. -/
theorem faultsCloseAndInvalidate : Obligations.FaultsCloseAndInvalidate := by
  intro i s t hc hinv hs h ht
  obtain ⟨-, -, -, -, -, ⟨-, hclosed⟩, -, hcode, -⟩ := hinv
  obtain ⟨herr, hdone, hcode', hocl, hpcnt, hframe, hout⟩ := exec_fault_common hc hclosed hs h ht
  have hbuild : i = .tbuild ∨ i = .hdrr → t.treeValid = false ∧ t.codeValid = false ∧ t.root = s.root := by
    rintro (rfl | rfl)
    · exact tbuild_fault hs h ht
    · exact hdrr_fault hs h ht
  refine ⟨herr, hdone, hcode', hocl, hpcnt, fun hb => ⟨(hbuild hb).1, (hbuild hb).2.1⟩, ?ctgen, hframe,
    fun hb => (hbuild hb).2.2, ?table, ?rdbits, hout⟩
  case ctgen =>
    rintro rfl
    obtain ⟨hv, hkeep, -⟩ := ctgen_fault hs h ht
    refine hkeep.trans (Bool.eq_false_of_not_eq_true fun hcv => ?_)
    exact absurd ((hcode hcv).1.symm.trans hv) nofun
  case table =>
    rintro rfl
    exact (ctgen_fault hs h ht).2.2
  case rdbits =>
    rintro n rfl
    exact rdbits_fault hs h ht

end Sys2Proof.Machine
end

/-! # Proofs about accesses held while a command runs (10_state.md, 70_reset_and_hazards.md) -/

section

namespace Sys2Proof.Machine

/-! ## The queue across one step of a phase machine (R31) -/

/-- The host's pending accesses are left as they are. -/
def QueueKept (s t : State) : Prop := t.hostOps = s.hostOps

theorem queueKept_frame : IsFrame QueueKept := ⟨fun _ => rfl, fun h g => Eq.trans g h⟩

theorem faultEntry_queueKept (k : FaultKind) (s : State) : QueueKept s (faultEntry k s) := by
  rw [faultEntry_fields]
  exact rfl

theorem BuildStep.queueKept {s t : State} (h : BuildStep s t) : QueueKept s t := by
  rw [show t = _ from h]; exact rfl

theorem StreamStep.queueKept {s t : State} (h : StreamStep s t) : QueueKept s t := by
  rw [show t = _ from h.1.fields]; exact rfl

theorem TokenStep.queueKept {s t : State} (h : TokenStep s t) : QueueKept s t := by
  rw [show t = _ from h]; exact rfl

theorem OutStep.queueKept {s t : State} (h : OutStep s t) : QueueKept s t := by
  rw [h.fields]; exact rfl

/-- A phase ends where its part of the command does, or in fault entry. -/
theorem thenPhase_queueKept {α : Type} {r : Res α} {ks : List FaultKind} {f : α → State → State} {s t : State}
    (hr : r.Leads QueueKept ks s) (h : thenPhase r f = .next t) (hf : ∀ a m, QueueKept m (f a m)) : QueueKept s t := by
  cases hr with
  | ok g => obtain rfl := Host.Outcome.next.inj h; exact queueKept_frame.trans g (hf _ _)
  | raise hk g => obtain rfl := Host.Outcome.next.inj h; exact queueKept_frame.trans g (faultEntry_queueKept _ _)
  | stuck => nomatch h

theorem needBits_queueKept (n : Nat) (s : State) : (needBits n s).Leads QueueKept [.io, .truncated] s :=
  needBits_leads queueKept_frame (fun _ _ => rfl) (by simp) (by simp) n s

theorem fetchTreeToken_queueKept (s : State) :
    (fetchTreeToken s).Leads QueueKept [.io, .truncated, .malformed] s := by
  refine ((needBits_queueKept 1 s).mono id (by simp)).bind queueKept_frame fun b m _ => ?_
  split
  · exact .raise (by simp) (queueKept_frame.refl m)
  · split
    · exact .ok (queueKept_frame.refl m)
    · have hrd := rdBits_leads queueKept_frame (fun s n => rfl) (by simp : FaultKind.io ∈ [FaultKind.io])
        Config.leafBits m
      generalize rdBits Config.leafBits m = r at hrd ⊢
      cases hrd with
      | @ok a t g => cases a <;> first | exact .raise (by simp) g | exact .ok g
      | @raise k t hk g => exact .raise (by simpa using .inl (List.mem_singleton.mp hk)) g
      | stuck => exact .stuck

/-- R80: the bits of a token are read as a token. -/
theorem context_of_decode {c : Context} {bs rest : List Bool} {i : Instr} (hc : c = .header ∨ c = .tree ∨ c = .branch)
    (h : decode c bs = .ok (i, rest)) : i.context = .header ∨ i.context = .tree ∨ i.context = .branch := by
  obtain rfl | rfl | rfl := hc
  · simp only [decode] at h
    split at h
    · nomatch h
    · obtain ⟨rfl, -⟩ := Prod.mk.inj (Except.ok.inj h)
      exact .inl rfl
  · simp only [decode, decodeTree] at h
    split at h
    · nomatch h
    · obtain ⟨rfl, -⟩ := Prod.mk.inj (Except.ok.inj h)
      exact .inr (.inl rfl)
    · split_ifs at h
      obtain ⟨rfl, -⟩ := Prod.mk.inj (Except.ok.inj h)
      exact .inr (.inl rfl)
  · simp only [decode, decodeBranch] at h
    split at h
    · nomatch h
    · obtain ⟨rfl, -⟩ := Prod.mk.inj (Except.ok.inj h)
      exact .inr (.inr rfl)
    · obtain ⟨rfl, -⟩ := Prod.mk.inj (Except.ok.inj h)
      exact .inr (.inr rfl)

theorem runToken_queueKept {c : Context} {bs : List Bool} {k : FaultKind} {bad : State → State} {s t : State}
    (hc : c = .header ∨ c = .tree ∨ c = .branch) (hbad : ∀ s, QueueKept s (bad s))
    (h : runToken c bs k bad s = .next t) : QueueKept s t := by
  unfold runToken at h
  split at h
  next hd =>
    obtain ⟨m, hm, rfl | ⟨k, rfl⟩⟩ := exec_token_cases (context_of_decode hc hd) h
    · exact hm.queueKept
    · exact queueKept_frame.trans hm.queueKept (faultEntry_queueKept k m)
  next =>
    obtain rfl := Host.Outcome.next.inj h
    exact queueKept_frame.trans (hbad s) (faultEntry_queueKept k _)

/-- R72: a token is run, then the phase changes. -/
theorem afterToken_queueKept {c : Context} {bs : List Bool} {k : FaultKind} {bad : State → State} {p : State → Phase}
    {s t : State} (hc : c = .header ∨ c = .tree ∨ c = .branch) (h : afterToken (runToken c bs k bad s) p = .next t)
    (hbad : ∀ s, QueueKept s (bad s)) : QueueKept s t := by
  have hrun {m : State} (hm : runToken c bs k bad s = .next m) : QueueKept s m := runToken_queueKept hc hbad hm
  generalize runToken c bs k bad s = o at h hrun
  cases o with
  | next m =>
    have hm := hrun rfl
    simp only [afterToken] at h
    split at h <;> obtain rfl := Host.Outcome.next.inj h <;> exact hm
  | fault e => nomatch h
  | refused r => nomatch h

theorem tick_queueKept {p : Phase} {s t : State} (h : tick p s = .next t) : QueueKept s t := by
  cases p with
  | uCheck n =>
    simp only [tick] at h
    split at h <;> obtain rfl := Host.Outcome.next.inj h <;> rfl
  | uShift n k v =>
    simp only [tick] at h
    split at h
    · obtain rfl := Host.Outcome.next.inj h; exact faultEntry_queueKept _ s
    · split at h <;> obtain rfl := Host.Outcome.next.inj h <;> rfl
  | uDone n v => obtain rfl := Host.Outcome.next.inj h; rfl
  | uIdle r => obtain rfl := Host.Outcome.next.inj h; cases r <;> rfl
  | pShift k v =>
    cases k with
    | zero => obtain rfl := Host.Outcome.next.inj h; rfl
    | succ k =>
      simp only [tick] at h
      split at h
      · obtain rfl := Host.Outcome.next.inj h; rfl
      · split at h <;> obtain rfl := Host.Outcome.next.inj h <;> rfl
  | pEmit k v =>
    have hput : (putByte s.pacc s.clearAcc).Leads QueueKept [.io] s := by
      unfold putByte
      split
      · exact .raise (by simp) rfl
      · exact .ok rfl
    exact thenPhase_queueKept hput h fun _ _ => rfl
  | pIdle | tClear | hDone | dDone => obtain rfl := Host.Outcome.next.inj h; rfl
  | tScan i => obtain rfl := Host.Outcome.next.inj h; exact (leafStep_build s i).queueKept
  | tCheck =>
    simp only [tick] at h
    split at h
    · obtain rfl := Host.Outcome.next.inj h; exact faultEntry_queueKept _ s
    · split at h <;> obtain rfl := Host.Outcome.next.inj h <;> rfl
  | tPop1 | tPop2 a =>
    exact thenPhase_queueKept ((popMin_leads s).mono BuildStep.queueKept (List.Subset.refl _)) h fun _ _ => rfl
  | tMerge a b =>
    exact thenPhase_queueKept ((mergePair_leads a b s).mono BuildStep.queueKept (List.Subset.refl _))
      h fun _ _ => rfl
  | tDone =>
    have hfin : (treeFinish s).Leads QueueKept [] s := by
      unfold treeFinish
      split
      · exact .stuck
      · exact .ok rfl
    exact thenPhase_queueKept hfin h fun _ _ => rfl
  | hMagic =>
    have hr := needBits_queueKept Config.magicBits s
    simp only [tick] at h
    split at h
    next hm => exact queueKept_frame.trans (hr.of_ok hm) (afterToken_queueKept (.inl rfl) h fun _ => rfl)
    next hm =>
      obtain rfl := Host.Outcome.next.inj h
      exact queueKept_frame.trans (hr.of_raise hm).2 (faultEntry_queueKept _ _)
    next => nomatch h
  | hTree =>
    have hr := fetchTreeToken_queueKept s
    simp only [tick] at h
    split at h
    next hm => exact queueKept_frame.trans (hr.of_ok hm) (afterToken_queueKept (.inr (.inl rfl)) h fun _ => rfl)
    next hm =>
      obtain rfl := Host.Outcome.next.inj h
      exact queueKept_frame.trans (hr.of_raise hm).2 (faultEntry_queueKept _ _)
    next => nomatch h
  | dStart =>
    exact thenPhase_queueKept ((decodeStart_leads s).mono StreamStep.queueKept (List.Subset.refl _)) h fun _ _ => rfl
  | dTest =>
    simp only [tick] at h
    split at h
    · nomatch h
    · split at h <;> obtain rfl := Host.Outcome.next.inj h <;> rfl
  | dBit =>
    have hr := needBits_queueKept 1 s
    simp only [tick] at h
    split at h
    next hm => exact queueKept_frame.trans (hr.of_ok hm) (afterToken_queueKept (.inr (.inr rfl)) h fun _ => rfl)
    next hm =>
      obtain rfl := Host.Outcome.next.inj h
      exact queueKept_frame.trans (hr.of_raise hm).2 (faultEntry_queueKept _ _)
    next => nomatch h
  | dEmit =>
    simp only [tick] at h
    split at h
    · nomatch h
    · exact thenPhase_queueKept ((emitStep_leads _ s).mono StreamStep.queueKept (List.Subset.refl _)) h fun _ _ => rfl

/-- Settles O8: an access that is held leaves the step to the phase machine, which never looks at the queue; the other two
kinds are answered at once. -/
theorem accessesHeldWhileBusy : Obligations.AccessesHeldWhileBusy := by
  refine ⟨fun s t op rest hb ho hreset hstatus h => ?held, fun s rest hb ho => ?status, fun s c rest hb ho => ?reset⟩ <;>
    obtain ⟨p, hs⟩ := State.running_of_busy hb
  case held =>
    have hnothing : NothingUrgent s := fun op' hop => by
      rw [ho] at hop
      obtain rfl := Option.some.inj hop
      exact ⟨hreset, hstatus⟩
    exact tick_queueKept ((step_running hs hnothing).symm.trans h)
  case status =>
    refine ⟨_, step_running_statusRead hs ho, ?_, rfl⟩
    show (Config.freeWord s.freeCtr ||| 1#32).getLsbD 0 = true
    rw [BitVec.getLsbD_or]
    exact Bool.or_true _
  case reset => exact step_running_reset hs ho

end Sys2Proof.Machine
end

/-! # Proofs about FLUSH (40_bitio.md) -/

section

namespace Sys2Proof.Machine

open Sys2Proof.Laws (bitsN_length)

theorem bitsN_shiftLeft (n k v : Nat) : bitsN (n + k) (v * 2 ^ k) = bitsN n v ++ List.replicate k false := by
  induction k with
  | zero => simp
  | succ k ih =>
    have h2 : v * 2 ^ (k + 1) = 2 * (v * 2 ^ k) + false.toNat := by rw [Nat.pow_succ]; simp; ring
    rw [← Nat.add_assoc, h2, bitsN_succ_two_mul_add, ih, List.append_assoc, List.replicate_succ']

/-- R118: the pending bits at the top of the byte, zeros below. -/
theorem bitsN_padded (acc : Byte) (cnt : BitVec 3) :
    bitsN 8 (padded acc cnt).toNat = bitsN cnt.toNat acc.toNat ++ List.replicate (8 - cnt.toNat) false := by
  have hc := cnt.isLt
  have hbits := bitsN_shiftLeft cnt.toNat (8 - cnt.toNat) acc.toNat
  rw [Nat.add_sub_of_le (by omega)] at hbits
  rw [padded, BitVec.toNat_shiftLeft, Nat.shiftLeft_eq, bitsN_mod_two_pow _ (Nat.le_refl 8), hbits]

/-- R118: with pending bits and room for their byte, FLUSH appends it and closes. -/
theorem flushOut_pads {s : State} (hopen : s.oclosed = false) (hp : s.pcnt ≠ 0#3) (hok : s.params.Ok)
    (hcap : s.outLen.toNat < s.params.obufCap) (herr : s.outLen.toNat ∉ s.params.outErr) :
    ∃ m, flushOut s = .ok () m ∧ m.sstate = s.sstate ∧ m.oclosed = true ∧ m.pcnt = 0#3 ∧
      m.outLen.toNat = s.outLen.toNat + 1 ∧
      m.outBits = s.outBits ++ List.replicate (8 - s.pcnt.toNat) false ∧ ObufAppended s m := by
  have hfree : s.outBlocked = false := s.outBlocked_eq_false_iff.mpr ⟨by omega, herr⟩
  have hp' : s.pcnt.toNat ≠ 0 := fun h => hp (BitVec.eq_of_toNat_eq h)
  have hmax : s.outLen.toNat + 1 < 2 ^ 29 := by
    obtain ⟨-, -, -, hmax⟩ := hok
    rw [Config.capMax] at hmax
    omega
  have hlen : (s.outLen + 1#29).toNat = s.outLen.toNat + 1 := by
    rw [BitVec.toNat_add, BitVec.toNat_ofNat]; omega
  have hstep : OutStep s (s.clearAcc.append (padded s.pacc s.pcnt)) :=
    (OutStep.clearAcc s).trans (.append _ hfree)
  refine ⟨s.clearAcc.close.append (padded s.pacc s.pcnt), ?_, rfl, rfl, rfl, hlen, ?_, (hstep.grows hok (by omega)).2⟩
  · obtain ⟨hc, -⟩ | ⟨-, h0, -⟩ | ⟨-, -, -, h⟩ | ⟨-, -, hb, -⟩ := flushOut_cases s
    · nomatch hopen.symm.trans hc
    · exact absurd h0 hp'
    · exact h
    · nomatch hfree.symm.trans hb
  · rw [State.append_outBits (s := s.clearAcc.close) _ rfl hmax, bitsN_padded, ← List.append_assoc]
    rfl

/-- Settles O17: FLUSH appends the one byte of the pending bits and zeros. -/
theorem flushPadsWithZeros : Obligations.FlushPadsWithZeros := by
  intro s hs ⟨hopen, _⟩ hp ⟨hok, hcap, herr⟩
  have hc := s.pcnt.isLt
  have hone : (s.pcnt.toNat + (8 - s.pcnt.toNat)) / 8 = 1 := by omega
  rw [hone] at hcap herr
  obtain ⟨m, hm, hidle, hcl, -, hlen, hbits, happ⟩ := flushOut_pads (s := s.begin) hopen hp hok
    (show s.outLen.toNat < _ by simpa using hcap) (by simpa using herr 0 (by omega))
  refine ⟨m.complete, ?_, hbits, hlen, hcl, happ⟩
  rw [exec_flush hs, hm, finish_ok]

end Sys2Proof.Machine
end

/-! # Proofs that no body reads the sequencer's state or the queue (44_system.md) -/

section

namespace Sys2Proof.Machine

/-! ## Parts of commands in another state of the sequencer -/

/-- The same end of a part, with φ applied to its state. -/
def Res.mapState {α : Type} (φ : State → State) : Res α → Res α
  | .ok x s => .ok x (φ s)
  | .raise k s => .raise k (φ s)
  | .stuck e => .stuck e

/-- A part of a command that makes no difference between s and φ s. -/
def Commutes {α : Type} (φ : State → State) (f : State → Res α) : Prop := ∀ s, f (φ s) = (f s).mapState φ

section
variable {α β : Type} {φ : State → State}

theorem Commutes.ok (x : α) {g : State → State} (h : ∀ s, g (φ s) = φ (g s)) : Commutes φ fun s => .ok x (g s) :=
  fun s => congrArg (Res.ok x) (h s)

theorem Commutes.bind {f : State → Res α} {g : α → State → Res β} (hf : Commutes φ f) (hg : ∀ x, Commutes φ (g x)) :
    Commutes φ fun s => (f s).bind g := by
  intro s
  show (f (φ s)).bind g = ((f s).bind g).mapState φ
  rw [hf s]
  cases f s with
  | ok x m => exact hg x m
  | raise k m => rfl
  | stuck e => rfl

theorem Commutes.ite {c : State → Prop} [∀ s, Decidable (c s)] {f g : State → Res α} (hc : ∀ s, c (φ s) ↔ c s)
    (hf : Commutes φ f) (hg : Commutes φ g) : Commutes φ fun s => if c s then f s else g s := by
  intro s
  show (if c (φ s) then _ else _) = Res.mapState φ (if c s then _ else _)
  by_cases h : c s
  · rw [if_pos h, if_pos ((hc s).mpr h), hf s]
  · rw [if_neg h, if_neg fun h' => h ((hc s).mp h'), hg s]

theorem Commutes.raise (k : FaultKind) : Commutes φ fun s => (.raise k s : Res α) := fun _ => rfl

theorem Commutes.stuck (e : Fault) : Commutes φ fun _ => (.stuck e : Res α) := fun _ => rfl

end

/-- φ changes nothing that the reads of HDRR look at or write. -/
structure KeepsInput (φ : State → State) : Prop where
  upos : ∀ s, (φ s).upos = s.upos
  inLen : ∀ s, (φ s).inLen = s.inLen
  ibuf : ∀ s, (φ s).ibuf = s.ibuf
  params : ∀ s, (φ s).params = s.params
  nnodes : ∀ s, (φ s).nnodes = s.nnodes
  advance : ∀ s n, (φ s).advance n = φ (s.advance n)
  alloc : ∀ s, (φ s).alloc = φ s.alloc
  setNode : ∀ s i nd, (φ s).setNode i nd = φ (s.setNode i nd)

section
variable {φ : State → State} (hφ : KeepsInput φ)
include hφ

theorem readLoop_commutes (s : State) : ∀ (k p : Nat) (v : Word), readLoop (φ s) k p v = readLoop s k p v
  | 0, _, _ => rfl
  | k + 1, p, v => by
    have hbit : inBit (φ s) p = inBit s p := by simp only [inBit, getByte, hφ.params, hφ.ibuf]
    rw [readLoop, readLoop, hbit]
    cases inBit s p with
    | ok b => exact readLoop_commutes s k (p + 1) _
    | error e => rfl

theorem rdBits_commutes (n : Nat) : Commutes φ (rdBits n) := by
  intro s
  unfold rdBits
  rw [hφ.upos, hφ.inLen, readLoop_commutes hφ]
  split
  · rfl
  · cases readLoop s n s.upos.toNat 0#32 with
    | ok v => exact congrArg (Res.ok (some v)) (hφ.advance s n)
    | error k => rfl

theorem needBits_commutes (n : Nat) : Commutes φ (needBits n) :=
  (rdBits_commutes hφ n).bind fun r => by
    cases r with
    | none => exact .raise _
    | some v => exact .ok v fun _ => rfl

theorem allocNode_commutes : Commutes φ allocNode := by
  intro s
  unfold allocNode State.nodesFull
  rw [hφ.nnodes, hφ.alloc]
  split <;> rfl

theorem recordLeaf_commutes (i : NodeIdx) (v : Symbol) : Commutes φ (recordLeaf i v) :=
  .ite (c := fun _ => symbolOk v = true) (fun _ => Iff.rfl) (.ok () fun s => hφ.setNode s _ _) (.raise _)

theorem checkMagic_commutes (m : Word) : Commutes φ (checkMagic m) :=
  .ite (c := fun s => m = s.params.magic) (fun s => by rw [hφ.params]) (.ok () fun _ => rfl) (.raise _)

theorem deserTree_commutes : ∀ f, Commutes φ (deserTree f)
  | 0 => .stuck _
  | f + 1 => (needBits_commutes hφ 1).bind fun b => (allocNode_commutes hφ).bind fun i =>
    .ite (c := fun _ => b = 0#32) (fun _ => Iff.rfl)
      ((deserTree_commutes f).bind fun _ => (deserTree_commutes f).bind fun _ => .ok i fun s => hφ.setNode s _ _)
      ((needBits_commutes hφ _).bind fun _ => (recordLeaf_commutes hφ i _).bind fun _ => .ok i fun _ => rfl)

end

/-- The same machine with another `SSTATE` and another queue. -/
def State.recast (s : State) (a : SState) (q : List HostOp) : State := { s with sstate := a, hostOps := q }

theorem recast_keepsInput (a : SState) (q : List HostOp) : KeepsInput fun s => s.recast a q :=
  ⟨fun _ => rfl, fun _ => rfl, fun _ => rfl, fun _ => rfl, fun _ => rfl, fun _ _ => rfl, fun _ => rfl, fun _ _ _ => rfl⟩

/-- A part of a command that reads neither `SSTATE` nor the queue, and keeps both. -/
def Blind {α : Type} (f : State → Res α) : Prop := ∀ a q, Commutes (fun s => s.recast a q) f

section
variable {α β : Type}

theorem Blind.ok (x : α) {g : State → State} (h : ∀ a q s, g (s.recast a q) = (g s).recast a q) :
    Blind fun s => .ok x (g s) :=
  fun a q => .ok x (h a q)

theorem Blind.bind {f : State → Res α} {g : α → State → Res β} (hf : Blind f) (hg : ∀ x, Blind (g x)) :
    Blind fun s => (f s).bind g :=
  fun a q => (hf a q).bind fun x => hg x a q

theorem Blind.ite {c : State → Prop} [∀ s, Decidable (c s)] {f g : State → Res α} (hc : ∀ a q s, c (s.recast a q) ↔ c s)
    (hf : Blind f) (hg : Blind g) : Blind fun s => if c s then f s else g s :=
  fun a q => .ite (hc a q) (hf a q) (hg a q)

theorem Blind.raise (k : FaultKind) : Blind fun s => (.raise k s : Res α) := fun _ _ => .raise k

theorem Blind.stuck (e : Fault) : Blind fun _ => (.stuck e : Res α) := fun _ _ => .stuck e

end

/-! ## Streams (R112, R115, R118) -/

theorem rdBits_blind (n : Nat) : Blind (rdBits n) := fun a q => rdBits_commutes (recast_keepsInput a q) n

theorem needBits_blind (n : Nat) : Blind (needBits n) := fun a q => needBits_commutes (recast_keepsInput a q) n

theorem putByte_blind (b : Byte) : Blind (putByte b) :=
  .ite (c := fun s => s.outBlocked = true) (fun _ _ _ => Iff.rfl) (.raise _) (.ok () fun _ _ _ => rfl)

theorem wrBit_blind (b : Bool) : Blind (wrBit b) := by
  intro a q s
  have hpcnt : (s.recast a q).pcnt = s.pcnt := rfl
  unfold wrBit
  rw [hpcnt]
  split
  · exact putByte_blind _ a q s.clearAcc
  · rfl

theorem wrLoop_blind (v : Word) : ∀ k, Blind (wrLoop v k)
  | 0 => .ok () fun _ _ _ => rfl
  | k + 1 => (wrBit_blind _).bind fun _ => wrLoop_blind v k

theorem wrBits_blind (n : Nat) (v : Word) : Blind (wrBits n v) :=
  .ite (c := fun s => s.oclosed = true) (fun _ _ _ => Iff.rfl) (.raise _) (wrLoop_blind v n)

theorem flushOut_blind : Blind flushOut := by
  refine .ite (c := fun s => s.oclosed = true) (fun _ _ _ => Iff.rfl) (.ok () fun _ _ _ => rfl)
    (.ite (c := fun s => s.pcnt.toNat = 0) (fun _ _ _ => Iff.rfl) (.ok () fun _ _ _ => rfl) fun a q s => ?_)
  exact putByte_blind _ a q s.clearAcc.close

theorem closeQuietly_recast (a : SState) (q : List HostOp) (s : State) :
    (s.recast a q).closeQuietly = s.closeQuietly.recast a q := by
  have hclosed : (s.recast a q).oclosed = s.oclosed := rfl
  have hpcnt : (s.recast a q).pcnt = s.pcnt := rfl
  have hblock : (s.recast a q).outBlocked = s.outBlocked := rfl
  unfold State.closeQuietly
  rw [hclosed, hpcnt, hblock]
  split_ifs <;> rfl

/-- R210: fault entry overwrites `SSTATE`. -/
theorem faultEntry_recast (k : FaultKind) (a : SState) (q : List HostOp) (s : State) :
    faultEntry k (s.recast a q) = { faultEntry k s with hostOps := q } := by
  rw [faultEntry, closeQuietly_recast]
  rfl

/-! ## Bodies (R119 to R122, R131, R151, R155, R160, R172, R175) -/

theorem rdbitsBody_blind (n : BitVec 6) : Blind (rdbitsBody n) :=
  (rdBits_blind _).bind fun r => .ok () fun a q s => by cases r <;> rfl

theorem wrbitsBody_blind (n : BitVec 6) : Blind (wrbitsBody n) := fun a q s => wrBits_blind _ s.writeValue a q s

theorem rewindBody_blind : Blind rewindBody := fun _ _ _ => rfl

theorem countSymbol_blind (b : Nat) : Blind (countSymbol b) :=
  .ite (c := fun s => tooHeavy ((s.freqAt b).toNat + 1) = true) (fun _ _ _ => Iff.rfl) (.raise _) fun _ _ _ => rfl

theorem fcountLoop_blind : ∀ k, Blind (fcountLoop k)
  | 0 => .stuck _
  | k + 1 => (rdBits_blind _).bind fun r => by
    cases r with
    | none => exact .ok () fun _ _ _ => rfl
    | some v => exact (countSymbol_blind _).bind fun _ => fcountLoop_blind k

theorem fcountBody_blind : Blind fcountBody := by
  have h (n : Nat) : Blind fun s => (fcountLoop n s).bind fun _ s => .ok () (s.setFreq Config.eosSym 1#32) :=
    (fcountLoop_blind n).bind fun _ => .ok () fun _ _ _ => rfl
  exact fun a q s => h (s.inLen.toNat + 1) a q s.clearFreq

theorem leafStep_recast (a : SState) (q : List HostOp) (s : State) (x : Nat) :
    leafStep (s.recast a q) x = (leafStep s x).recast a q := by
  have hfreq : (s.recast a q).freqAt x = s.freqAt x := rfl
  unfold leafStep
  rw [hfreq]
  split <;> rfl

theorem foldl_leafStep_recast (a : SState) (q : List HostOp) : ∀ (l : List Nat) (s : State),
    l.foldl leafStep (s.recast a q) = (l.foldl leafStep s).recast a q
  | [], _ => rfl
  | x :: l, s => by
    rw [List.foldl_cons, List.foldl_cons, leafStep_recast, foldl_leafStep_recast a q l]

theorem leafPhase_recast (a : SState) (q : List HostOp) (s : State) :
    leafPhase (s.recast a q) = (leafPhase s).recast a q := foldl_leafStep_recast a q _ s

theorem popMin_blind : Blind popMin := by
  intro a q s
  have hlive : (s.recast a q).pqLive = s.pqLive := rfl
  unfold popMin pqPopMin
  rw [hlive]
  cases s.pqLive <;> rfl

theorem mergePair_blind (x y : PqEntry) : Blind (mergePair x y) :=
  .ite (c := fun _ => tooHeavy (weightSum x.weight y.weight) = true) (fun _ _ _ => Iff.rfl) (.raise _) fun _ _ _ => rfl

theorem mergeStep_blind : Blind mergeStep :=
  popMin_blind.bind fun x => popMin_blind.bind fun y => mergePair_blind x y

theorem mergeLoop_blind : ∀ k, Blind (mergeLoop k)
  | 0 => .ite (c := fun s => 1 < s.pqLen.toNat) (fun _ _ _ => Iff.rfl) (.stuck _) (.ok () fun _ _ _ => rfl)
  | k + 1 => .ite (c := fun s => 1 < s.pqLen.toNat) (fun _ _ _ => Iff.rfl)
    (mergeStep_blind.bind fun _ => mergeLoop_blind k) (.ok () fun _ _ _ => rfl)

theorem treeFinish_blind : Blind treeFinish := by
  intro a q s
  have hlive : (s.recast a q).pqLive = s.pqLive := rfl
  unfold treeFinish
  rw [hlive]
  cases s.pqLive <;> rfl

theorem treeMerge_blind : Blind treeMerge := by
  have h (n : Nat) : Blind fun s => (mergeLoop n s).bind fun _ s => treeFinish s :=
    (mergeLoop_blind n).bind fun _ => treeFinish_blind
  exact .ite (c := fun s => s.pqLen = 0#9) (fun _ _ _ => Iff.rfl) (.raise _) fun a q s => h s.pqLen.toNat a q s

theorem tbuildBody_blind : Blind tbuildBody := by
  intro a q s
  have hstart : (s.recast a q).treeStart = s.treeStart.recast a q := rfl
  rw [tbuildBody, hstart, leafPhase_recast, treeMerge_blind]
  rfl

theorem ctgenBody_blind : Blind ctgenBody := by
  intro a q s
  have hv : (s.recast a q).treeValid = s.treeValid := rfl
  have hn : (s.recast a q).node = s.node := rfl
  have hr : (s.recast a q).root = s.root := rfl
  unfold ctgenBody
  rw [hv, hn, hr]
  split
  · cases walk s.node walkLevels s.root 0#9 0#256 [] <;> rfl
  · rfl

theorem serTree_blind : ∀ f i, Blind (serTree f i)
  | 0, _ => .stuck _
  | f + 1, i => by
    intro a q s
    have hn : getNode (s.recast a q) i = getNode s i := rfl
    unfold serTree
    rw [hn]
    cases getNode s i with
    | none => rfl
    | some nd =>
      have hleaf : Blind (writeLeaf nd.sym) := (wrBits_blind _ _).bind fun _ => wrBits_blind _ _
      have hnode : Blind fun s => (wrBits 1 0#32 s).bind fun _ s =>
          (serTree f nd.left s).bind fun _ s => serTree f nd.right s :=
        (wrBits_blind _ _).bind fun _ => (serTree_blind f _).bind fun _ => serTree_blind f _
      dsimp only
      split
      · exact hleaf a q s
      · exact hnode a q s

theorem hdrwBody_blind : Blind hdrwBody := by
  have hwrite (m : Word) : Blind fun s => (wrBits Config.magicBits m s).bind fun _ s => serTree walkLevels s.root s :=
    (wrBits_blind _ _).bind fun _ a q s => serTree_blind walkLevels s.root a q s
  exact .ite (c := fun s => s.treeValid = true) (fun _ _ _ => Iff.rfl) (fun a q s => hwrite s.params.magic a q s.stkFree)
    fun _ _ _ => rfl

theorem checkMagic_blind (m : Word) : Blind (checkMagic m) := fun a q => checkMagic_commutes (recast_keepsInput a q) m

theorem deserTree_blind (f : Nat) : Blind (deserTree f) := fun a q => deserTree_commutes (recast_keepsInput a q) f

theorem hdrrBody_blind : Blind hdrrBody := by
  have h : Blind fun s => (needBits Config.magicBits s).bind fun m s => (checkMagic m s).bind fun _ s =>
      (deserTree deserLevels s).bind fun r s => .ok () (s.setTree r) :=
    (needBits_blind _).bind fun m => (checkMagic_blind m).bind fun _ => (deserTree_blind _).bind fun r =>
      .ok () fun _ _ _ => rfl
  exact fun a q s => h a q s.hdrrStart

theorem wrCode_blind (v : BitVec 256) : ∀ k, Blind (wrCode v k)
  | 0 => .ok () fun _ _ _ => rfl
  | k + 1 => (wrBits_blind _ _).bind fun _ => wrCode_blind v k

theorem writeSymbol_blind (x : Nat) : Blind (writeSymbol x) :=
  .ite (c := fun s => (codeAt s.code x).valid = true) (fun _ _ _ => Iff.rfl)
    (fun a q s => wrCode_blind (codeAt s.code x).val (codeAt s.code x).len.toNat a q s) (.raise _)

theorem encodeLoop_blind : ∀ k, Blind (encodeLoop k)
  | 0 => .stuck _
  | k + 1 => (rdBits_blind _).bind fun r => by
    cases r with
    | none => exact .ok () fun _ _ _ => rfl
    | some v => exact (writeSymbol_blind _).bind fun _ => encodeLoop_blind k

theorem encodeBody_blind : Blind encodeBody := by
  have h (n : Nat) : Blind fun s => (encodeLoop n s).bind fun _ s => writeSymbol Config.eosSym s :=
    (encodeLoop_blind n).bind fun _ => writeSymbol_blind _
  exact .ite (c := fun s => s.codeValid = true) (fun _ _ _ => Iff.rfl) (fun a q s => h (s.inLen.toNat + 1) a q s)
    (.raise _)

theorem moveToChild_blind (b : Bool) : Blind (moveToChild b) := by
  intro a q s
  have hn : getNode (s.recast a q) (s.recast a q).cur = getNode s s.cur := rfl
  unfold moveToChild
  rw [hn]
  cases getNode s s.cur with
  | none => rfl
  | some nd => cases hl : nd.leaf <;> simp only [hl] <;> rfl

theorem branchStep_blind : Blind branchStep := (needBits_blind 1).bind fun _ => moveToChild_blind _

theorem emitStep_blind (x : Symbol) : Blind (emitStep x) := (wrBits_blind _ _).bind fun _ => .ok () fun _ _ _ => rfl

theorem decodeLoop_blind : ∀ k, Blind (decodeLoop k)
  | 0 => .stuck _
  | k + 1 => by
    intro a q s
    have hn : getNode (s.recast a q) (s.recast a q).cur = getNode s s.cur := rfl
    unfold decodeLoop
    rw [hn]
    cases getNode s s.cur with
    | none => rfl
    | some nd =>
      have hemit : Blind fun s => (emitStep nd.sym s).bind fun _ s => decodeLoop k s :=
        (emitStep_blind _).bind fun _ => decodeLoop_blind k
      have hbranch : Blind fun s => (branchStep s).bind fun _ s => decodeLoop k s :=
        branchStep_blind.bind fun _ => decodeLoop_blind k
      dsimp only
      split
      · split
        · rfl
        · exact hemit a q s
      · exact hbranch a q s

theorem decodeStart_blind : Blind decodeStart := by
  intro a q s
  have hv : (s.recast a q).treeValid = s.treeValid := rfl
  have hn : getNode (s.recast a q) (s.recast a q).root = getNode s s.root := rfl
  unfold decodeStart
  rw [hv, hn]
  split
  · cases getNode s s.root with
    | none => rfl
    | some nd => dsimp only; split <;> rfl
  · rfl

theorem decodeBody_blind : Blind decodeBody := by
  exact decodeStart_blind.bind fun _ a q s => decodeLoop_blind (decodePasses s) a q s

end Sys2Proof.Machine
end

/-! # Proofs about the command sequences of the pseudo-instructions (44_system.md) -/

section

namespace Sys2Proof.Machine

/-! ## Commands with another queue (R193, R194) -/

/-- The same answer with another queue. -/
def requeue (q : List HostOp) : Host.Outcome State Fault Refusal → Host.Outcome State Fault Refusal
  | .next t => .next { t with hostOps := q }
  | .fault e => .fault e
  | .refused r => .refused r

theorem exec_command_blind {i : Instr} (hc : i.context = .command) (hi : i ≠ .init) (hwf : i.wf = true) :
    ∃ body, (∀ s, exec i s = command i body s) ∧ Blind body := by
  cases i with
  | fcount => exact ⟨_, fun _ => rfl, fcountBody_blind⟩
  | tbuild => exact ⟨_, fun _ => rfl, tbuildBody_blind⟩
  | ctgen => exact ⟨_, fun _ => rfl, ctgenBody_blind⟩
  | hdrw => exact ⟨_, fun _ => rfl, hdrwBody_blind⟩
  | encode => exact ⟨_, fun _ => rfl, encodeBody_blind⟩
  | hdrr => exact ⟨_, fun _ => rfl, hdrrBody_blind⟩
  | decode => exact ⟨_, fun _ => rfl, decodeBody_blind⟩
  | rdbits n => exact ⟨_, fun _ => if_pos hwf, rdbitsBody_blind n⟩
  | wrbits n => exact ⟨_, fun _ => if_pos hwf, wrbitsBody_blind n⟩
  | flush => exact ⟨_, fun _ => rfl, flushOut_blind⟩
  | rewind => exact ⟨_, fun _ => rfl, rewindBody_blind⟩
  | init => exact absurd rfl hi
  | magic | tInternal | tLeaf | bLeft | bRight | compress | decompress => nomatch hc

theorem finish_recast (r : Res Unit) (a : SState) (q : List HostOp) :
    finish (r.mapState fun s => s.recast a q) = requeue q (finish r) := by
  cases r with
  | ok x m => rfl
  | raise k m => exact congrArg Host.Outcome.next (faultEntry_recast k a q m)
  | stuck e => rfl

/-- Between commands, a legal command acts the same whatever is pending. -/
theorem exec_requeue {i : Instr} {s : State} (hc : i.context = .command) (hwf : i.wf = true) (hb : s.busy = false)
    (q : List HostOp) : exec i { s with hostOps := q } = requeue q (exec i s) := by
  have hb' : State.busy { s with hostOps := q } = false := hb
  by_cases hi : i = .init
  · subst hi
    rw [exec_init_of_not_busy hb, exec_init_of_not_busy hb']
    rfl
  · obtain hs | hs := State.busy_eq_false_iff.mp hb
    · obtain ⟨body, hexec, hblind⟩ := exec_command_blind hc hi hwf
      have hs' : Ready { s with hostOps := q } := hs
      rw [hexec, hexec, command_idle hs, command_idle hs']
      have hbegin : State.begin { s with hostOps := q } = s.begin.recast s.sstate q := rfl
      rw [hbegin, hblind, finish_recast]
    · have hs' : State.sstate { s with hostOps := q } = .fault := hs
      rw [exec_of_fault hc hi hs, exec_of_fault hc hi hs']
      rfl

theorem exec_not_busy {i : Instr} {s t : State} (hc : i.context = .command) (hb : s.busy = false)
    (h : exec i s = .next t) : t.busy = false := by
  obtain hs | hs := State.busy_eq_false_iff.mp hb
  · exact (commandEnded_of_exec hc hs h).1
  · by_cases hi : i = .init
    · subst hi
      obtain rfl := Host.Outcome.next.inj ((exec_init_of_fault hs).symm.trans h)
      rfl
    · obtain rfl := exec_fault_same hc hi hs h
      exact hb

theorem exec_command_queueKept {i : Instr} {s t : State} (hc : i.context = .command) (hb : s.busy = false)
    (h : exec i s = .next t) : QueueKept s t := by
  by_cases hi : i = .init
  · subst hi
    obtain rfl := Host.Outcome.next.inj ((exec_init_of_not_busy hb).symm.trans h)
    rfl
  · obtain hs | hs := State.busy_eq_false_iff.mp hb
    · have hbody {m : State} (hm : BodyStep i s.begin m) : QueueKept s m := by
        rw [hm.frame]
        cases i with
        | magic | tInternal | tLeaf | bLeft | bRight | compress | decompress => nomatch hc
        | init => exact absurd rfl hi
        | fcount | tbuild | ctgen | hdrw | encode | hdrr | decode | rdbits | wrbits | flush | rewind => rfl
      obtain ⟨m, hm, rfl⟩ | ⟨k, m, -, hm, rfl⟩ | ⟨-, rfl⟩ := exec_ready_cases hc hi hs h
      · exact hbody (m := m) hm
      · exact queueKept_frame.trans (hbody hm) (faultEntry_queueKept k m)
      · exact faultEntry_queueKept _ s
    · obtain rfl := exec_fault_same hc hi hs h
      exact queueKept_frame.refl _

/-! ## Command words one by one -/

@[simp] theorem andThen_next (o : Host.Outcome State Fault Refusal) : andThen o .next = o := by cases o <;> rfl

/-- The commands of a list, one after another. -/
def execSeq : List Instr → State → Host.Outcome State Fault Refusal
  | [], s => .next s
  | [i], s => exec i s
  | i :: j :: is, s => andThen (exec i s) (execSeq (j :: is))

theorem execSeq_cons (i : Instr) (is : List Instr) (s : State) :
    execSeq (i :: is) s = andThen (exec i s) (execSeq is) := by
  cases is with
  | nil => exact (andThen_next (exec i s)).symm
  | cons j is => rfl

theorem execSeq_queueKept {is : List Instr} {s t : State} (hc : ∀ i ∈ is, i.context = .command) (hb : s.busy = false)
    (h : execSeq is s = .next t) : QueueKept s t := by
  induction is generalizing s with
  | nil => obtain rfl := Host.Outcome.next.inj h; rfl
  | cons i is ih =>
    rw [execSeq_cons] at h
    obtain ⟨m, hm, h⟩ := andThen_eq_next h
    have hci := hc i List.mem_cons_self
    exact queueKept_frame.trans (exec_command_queueKept hci hb hm)
      (ih (fun j hj => hc j (List.mem_cons_of_mem _ hj)) (exec_not_busy hci hb hm) h)

section
variable {M : Host.Core} {s : M.State} (k : Nat)

theorem run_succ_next {t : M.State} (h : M.step s = .next t) : Host.Core.run M (k + 1) s = Host.Core.run M k t := by
  simp only [Host.Core.run, h]

theorem run_succ_fault {e : M.Fault} (h : M.step s = .fault e) : Host.Core.run M (k + 1) s = .fault e := by
  simp only [Host.Core.run, h]

theorem run_succ_refused {r : M.Refusal} (h : M.step s = .refused r) : Host.Core.run M (k + 1) s = .refused r := by
  simp only [Host.Core.run, h]

end

theorem core_run_succ (k : Nat) (s : State) :
    Host.Core.run core (k + 1) s = andThen (step s) (Host.Core.run core k) := by
  cases h : step s with
  | next t => exact run_succ_next (M := core) k h
  | fault e => exact run_succ_fault (M := core) k h
  | refused r => exact run_succ_refused (M := core) k h

/-- A machine between commands whose queue begins with a command word performs it first. -/
theorem run_command_word {s : State} {w : Word} {i : Instr} {rest : List HostOp} (k : Nat) (hb : s.busy = false)
    (hd : decodeWord w = .ok i) :
    Host.Core.run core (k + 1) { s with hostOps := .write .word 0 w :: rest } =
      andThen (exec i { s with hostOps := rest }) (Host.Core.run core k) := by
  have hb' : State.busy { s with hostOps := .write .word 0 w :: rest } = false := hb
  rw [core_run_succ, step_settled hb' rfl, perform_command, issue_ok hd]

/-- The steps that run command words end where the commands one after another end. -/
theorem run_command_words (q : List HostOp) {ws : List Word} {is : List Instr} {s : State}
    (h : List.Forall₂ (fun w i => decodeWord w = .ok i ∧ i.context = .command ∧ i.wf = true) ws is)
    (hb : s.busy = false) :
    Host.Core.run core ws.length { s with hostOps := ws.map (HostOp.write .word 0) ++ q } = requeue q (execSeq is s) := by
  induction h generalizing s with
  | nil => rfl
  | @cons w i ws is hw _ ih =>
    obtain ⟨hd, hc, hwf⟩ := hw
    rw [List.length_cons, List.map_cons, List.cons_append, run_command_word _ hb hd, exec_requeue hc hwf hb, execSeq_cons]
    cases hex : exec i s with
    | next t => exact ih (exec_not_busy hc hb hex)
    | fault e => rfl
    | refused r => rfl

theorem requeue_same {q : List HostOp} {o : Host.Outcome State Fault Refusal} (h : ∀ t, o = .next t → t.hostOps = q) :
    requeue q o = o := by
  cases o with
  | next t => rw [← h t rfl]; rfl
  | fault e => rfl
  | refused r => rfl

/-- Settles O52: word by word the queue runs the sequence, which is the one step and keeps what is pending behind it. -/
theorem pseudosAreTheirSequences : Obligations.PseudosAreTheirSequences := by
  intro s hb
  have hcom : exec .compress s = execSeq [.init, .fcount, .tbuild, .ctgen, .rewind, .hdrw, .encode, .flush] s :=
    if_neg (by rw [hb]; nofun)
  have hdec : exec .decompress s = execSeq [.init, .hdrr, .decode, .flush] s := if_neg (by rw [hb]; nofun)
  rw [hcom, hdec]
  refine ⟨(run_command_words s.hostOps (ws := compressWords) ?_ hb).trans (requeue_same fun t ht => ?_),
    (run_command_words s.hostOps (ws := decompressWords) ?_ hb).trans (requeue_same fun t ht => ?_)⟩
  · simp only [compressWords, List.forall₂_cons, List.Forall₂.nil, and_true]
    decide
  · exact execSeq_queueKept (by simp [Instr.context]) hb ht
  · simp only [decompressWords, List.forall₂_cons, List.Forall₂.nil, and_true]
    decide
  · exact execSeq_queueKept (by simp [Instr.context]) hb ht

end Sys2Proof.Machine
end

/-! # Proofs that the phase machines end as their commands (40_bitio.md, 41_tree_builder.md, 43_stream.md) -/

section

namespace Sys2Proof.Machine

/-! ## Runs of a phase machine -/

/-- After some number of steps of the phase machines the outcome is o. -/
def PhasesEnd (s : State) (o : Host.Outcome State Fault Refusal) : Prop := ∃ k, runPhases k s = o

theorem runPhases_succ {s : State} {p : Phase} (hs : s.sstate = .run p) (k : Nat) :
    runPhases (k + 1) s = andThen (tick p s) (runPhases k) := by
  rw [runPhases, hs]

theorem PhasesEnd.stop (s : State) : PhasesEnd s (.next s) := ⟨0, rfl⟩

section
variable {s t : State} {p : Phase} {o : Host.Outcome State Fault Refusal}

theorem PhasesEnd.step (h : PhasesEnd t o) (ht : tick p (s.goto p) = .next t) : PhasesEnd (s.goto p) o := by
  obtain ⟨k, hk⟩ := h
  exact ⟨k + 1, by rw [runPhases_succ rfl, ht]; exact hk⟩

theorem PhasesEnd.last (ht : tick p (s.goto p) = .next t) : PhasesEnd (s.goto p) (.next t) := (PhasesEnd.stop t).step ht

theorem PhasesEnd.stuck {e : Fault} (ht : tick p (s.goto p) = .fault e) : PhasesEnd (s.goto p) (.fault e) :=
  ⟨1, by rw [runPhases_succ rfl, ht]; rfl⟩

end

/-- Fault entry from a phase is fault entry from the command. -/
theorem faultEntry_goto (k : FaultKind) (s : State) (p : Phase) : faultEntry k (s.goto p) = faultEntry k s := by
  have hgoto : s.goto p = s.recast (.run p) s.hostOps := rfl
  have hq : (faultEntry k s).hostOps = s.hostOps := faultEntry_queueKept k s
  rw [hgoto, faultEntry_recast, ← hq]

/-- A blind part keeps the queue, and in a phase does what it does in the command. -/
theorem Blind.goto {α : Type} {f : State → Res α} (hf : Blind f) (s : State) (p : Phase) :
    f (s.goto p) = (f s).mapState fun m => m.goto p := by
  have hsame : (f s).mapState (fun m => m.recast s.sstate s.hostOps) = f s := (hf s.sstate s.hostOps s).symm
  have hgoto : f (s.goto p) = (f s).mapState fun m => m.recast (.run p) s.hostOps := hf (.run p) s.hostOps s
  rw [hgoto]
  cases hr : f s with
  | ok a m =>
    rw [hr] at hsame
    have hm : m.recast s.sstate s.hostOps = m := (Res.ok.inj hsame).2
    have hq : s.hostOps = m.hostOps := (congrArg State.hostOps hm : (m.recast s.sstate s.hostOps).hostOps = _)
    rw [hq]
    rfl
  | raise k m =>
    rw [hr] at hsame
    have hm : m.recast s.sstate s.hostOps = m := (Res.raise.inj hsame).2
    have hq : s.hostOps = m.hostOps := (congrArg State.hostOps hm : (m.recast s.sstate s.hostOps).hostOps = _)
    rw [hq]
    rfl
  | stuck e => rfl

/-- A phase runs one part of a command; where it goes on, so does the command. -/
theorem PhasesEnd.part {α : Type} {s : State} {p : Phase} {f : State → Res α} {g : α → Phase}
    {rest : α → State → Res Unit} (hf : Blind f)
    (ht : tick p (s.goto p) = thenPhase (f (s.goto p)) fun a m => m.goto (g a))
    (hrest : ∀ a m, f s = .ok a m → PhasesEnd (m.goto (g a)) (finish (rest a m))) :
    PhasesEnd (s.goto p) (finish ((f s).bind rest)) := by
  rw [hf.goto] at ht
  cases hr : f s with
  | ok a m => rw [hr] at ht; exact (hrest a m hr).step ht
  | raise k m => rw [hr] at ht; exact .last (ht.trans (congrArg Host.Outcome.next (faultEntry_goto k m p)))
  | stuck e => rw [hr] at ht; exact .stuck ht

/-- As `PhasesEnd.part`, for the part that ends the command. -/
theorem PhasesEnd.lastPart {s : State} {p : Phase} {f : State → Res Unit} (hf : Blind f)
    (ht : tick p (s.goto p) = thenPhase (f (s.goto p)) fun _ m => m.complete) :
    PhasesEnd (s.goto p) (finish (f s)) := by
  rw [hf.goto] at ht
  cases hr : f s with
  | ok a m => rw [hr] at ht; exact .last ht
  | raise k m => rw [hr] at ht; exact .last (ht.trans (congrArg Host.Outcome.next (faultEntry_goto k m p)))
  | stuck e => rw [hr] at ht; exact .stuck ht

theorem PhasesEnd.exists_start {s s₀ : State} {i : Instr} (hstart : startPhases i s = some s₀)
    (h : PhasesEnd s₀ (exec i s)) : ∃ s₀ k, startPhases i s = some s₀ ∧ runPhases k s₀ = exec i s := by
  obtain ⟨k, hk⟩ := h
  exact ⟨s₀, k, hstart, hk⟩

/-! ## UNPACK (R113) -/

/-- The result of a read that took its bits or met a byte that cannot be read. -/
def unpackResult (n : BitVec 6) (s : State) : Except FaultKind Word → Res Unit
  | .ok w => .ok () (deliver (some w) (s.advance (countOf n)))
  | .error e => .raise e s

theorem uIdle_ends (r : Option Word) (s : State) : PhasesEnd (s.goto (.uIdle r)) (finish (.ok () (deliver r s))) :=
  .last (by cases r <;> rfl)

/-- `U_SHIFT` from bit k on takes the bits that the loop of R112 takes. -/
theorem uShift_ends (n : BitVec 6) (s : State) : ∀ (j k : Nat) (v : Word), k + j + 1 = countOf n →
    PhasesEnd (s.goto (.uShift n k v)) (finish (unpackResult n s (readLoop s (j + 1) (s.upos.toNat + k) v))) := by
  intro j
  induction j with
  | zero =>
    intro k v hk
    have hbit : inBit (s.goto (.uShift n k v)) ((s.goto (.uShift n k v)).upos.toNat + k) = inBit s (s.upos.toNat + k) := rfl
    rw [readLoop]
    cases hb : inBit s (s.upos.toNat + k) with
    | ok b =>
      have htick : tick (.uShift n k v) (s.goto (.uShift n k v)) = .next (s.goto (.uDone n (shiftIn v b))) := by
        simp only [tick, hbit, hb]
        exact if_pos (by omega)
      refine PhasesEnd.step ?_ htick
      exact (uIdle_ends (some (shiftIn v b)) (s.advance (countOf n))).step rfl
    | error e =>
      refine .last ?_
      simp only [tick, hbit, hb]
      exact congrArg Host.Outcome.next (faultEntry_goto e s _)
  | succ j ih =>
    intro k v hk
    have hbit : inBit (s.goto (.uShift n k v)) ((s.goto (.uShift n k v)).upos.toNat + k) = inBit s (s.upos.toNat + k) := rfl
    rw [readLoop]
    cases hb : inBit s (s.upos.toNat + k) with
    | ok b =>
      have htick : tick (.uShift n k v) (s.goto (.uShift n k v)) = .next (s.goto (.uShift n (k + 1) (shiftIn v b))) := by
        simp only [tick, hbit, hb]
        exact if_neg (by omega)
      exact (ih (k + 1) (shiftIn v b) (by omega)).step htick
    | error e =>
      refine .last ?_
      simp only [tick, hbit, hb]
      exact congrArg Host.Outcome.next (faultEntry_goto e s _)

theorem unpack_ends {n : BitVec 6} (hn : countOk n = true) (s : State) :
    PhasesEnd (s.goto (.uCheck n)) (finish (rdbitsBody n s)) := by
  obtain ⟨hpos, -⟩ := (countOk_iff n).mp hn
  by_cases h : s.upos.toNat + countOf n > 8 * s.inLen.toNat
  · have hbody : rdbitsBody n s = .ok () (deliver none s) := by
      rw [rdbitsBody, rdBits, if_pos h]
      rfl
    rw [hbody]
    exact (uIdle_ends none s).step (if_pos h)
  · obtain ⟨j, hj⟩ := Nat.exists_eq_add_of_le' (show 1 ≤ countOf n from hpos)
    have hbody : rdbitsBody n s = unpackResult n s (readLoop s (j + 1) (s.upos.toNat + 0) 0#32) := by
      rw [rdbitsBody, rdBits, if_neg h, hj, Nat.add_zero]
      cases readLoop s (j + 1) s.upos.toNat 0#32 with
      | ok v => rw [unpackResult, hj]; rfl
      | error e => rfl
    rw [hbody]
    exact (uShift_ends n s j 0 0#32 (by omega)).step (if_neg h)

/-! ## PACK (R116) -/

theorem pIdle_ends (s : State) : PhasesEnd (s.goto .pIdle) (finish (.ok () s)) := .last rfl

/-- `P_SHIFT` with k bits left writes the bits that the loop of R115 writes. -/
theorem pShift_ends (v : Word) : ∀ (k : Nat) (s : State),
    PhasesEnd (s.goto (.pShift k v)) (finish (wrLoop v k s))
  | 0, s => (pIdle_ends s).step rfl
  | k + 1, s => by
    have hnext (m : State) : PhasesEnd (m.goto (if k = 0 then .pIdle else .pShift k v)) (finish (wrLoop v k m)) := by
      split
      next hk => subst hk; exact pIdle_ends m
      next => exact pShift_ends v k m
    rw [wrLoop, wrBit]
    by_cases h8 : s.pcnt.toNat + 1 = 8
    · rw [if_pos h8]
      have hemit : PhasesEnd ((s.shiftAcc (v.getLsbD k)).goto (.pEmit k v))
          (finish ((putByte (shiftInByte s.pacc (v.getLsbD k)) s.clearAcc).bind fun _ s => wrLoop v k s)) := by
        refine PhasesEnd.part (f := fun m => putByte (shiftInByte s.pacc (v.getLsbD k)) m.clearAcc) (g := fun _ => _)
          (s := s.shiftAcc (v.getLsbD k)) (fun a q m => putByte_blind _ a q m.clearAcc) rfl fun _ m _ => hnext m
      exact hemit.step (if_pos h8)
    · rw [if_neg h8, Res.bind_ok]
      refine (hnext (s.shiftAcc (v.getLsbD k))).step ((if_neg h8).trans ?_)
      split <;> rfl

theorem pack_ends (n : BitVec 6) {s : State} (hopen : s.oclosed = false) :
    PhasesEnd (s.goto (.pShift (countOf n) s.writeValue)) (finish (wrbitsBody n s)) := by
  rw [wrbitsBody, wrBits, hopen]
  exact pShift_ends _ _ s

/-- Settles O59: the shifting phases take the same bits as the loops, one a step. -/
theorem bitUnitPhasesEndAsCommands : Obligations.BitUnitPhasesEndAsCommands := by
  intro s n hs hn i hi
  obtain rfl | rfl : i = .rdbits n ∨ i = .wrbits n := by simpa using hi
  · have hexec : exec (.rdbits n) s = finish (rdbitsBody n s.begin) := exec_rdbits hs hn
    exact PhasesEnd.exists_start rfl (hexec ▸ unpack_ends hn s.begin)
  · have hexec : exec (.wrbits n) s = finish (wrbitsBody n s.begin) := exec_wrbits hs hn
    cases hc : s.oclosed with
    | false =>
      have hstart : startPhases (.wrbits n) s = some (s.begin.goto (.pShift (countOf n) s.begin.writeValue)) := by
        simp only [startPhases, hc]
        rfl
      exact PhasesEnd.exists_start hstart (hexec ▸ pack_ends n (s := s.begin) hc)
    | true =>
      have hstart : startPhases (.wrbits n) s = some (faultEntry .contract s.begin) := by
        simp only [startPhases, hc, if_true]
      have hbody : wrbitsBody n s.begin = .raise .contract s.begin := wrBits_closed (s := s.begin) hc
      rw [hbody, finish_raise] at hexec
      exact PhasesEnd.exists_start hstart (hexec ▸ .stop _)

end Sys2Proof.Machine
end

/-! # Proofs about the forest that TBUILD builds (41_tree_builder.md R134 to R137) -/

section

namespace Sys2Proof.Machine

/-! ## The forest -/

/-- What TBUILD has made so far: the nodes by index (R61) and the entries of `PQ` in key order (R65). -/
structure Forest where
  nodes : List Node
  queue : List PqEntry

/-- The node index of an entry as a number. -/
def PqEntry.index (e : PqEntry) : Nat := e.node.toNat

/-- The entry of the node made as the n-th: its index is its sequence number (R61). -/
def entryFor (nd : Node) (n : Nat) : PqEntry := { weight := nd.weight, seq := BitVec.ofNat 10 n, node := BitVec.ofNat 10 n }

/-- One more node and its entry (R135, R137). -/
def Forest.push (b : Forest) (nd : Node) : Forest :=
  { nodes := b.nodes ++ [nd], queue := pqPlace (entryFor nd b.nodes.length) b.queue }

/-- The leaves of the counted symbols, c.1 counted c.2 times (R135). -/
def Forest.ofCounts (cs : List (Nat × Word)) : Forest :=
  cs.foldl (fun b c => b.push (leafNode (BitVec.ofNat 9 c.1) c.2)) { nodes := [], queue := [] }

/-- The children of a node, left then right. -/
def Node.kids (nd : Node) : List Nat := if nd.leaf then [] else [nd.left.toNat, nd.right.toNat]

/-- The children in the order their parents were made, then the nodes that have no parent yet, by key. -/
def Forest.order (b : Forest) : List Nat := b.nodes.flatMap Node.kids ++ b.queue.map PqEntry.index

/-- R136: the key of node i is below that of node j. -/
def KeyBelow (nodes : List Node) (i j : Nat) : Prop :=
  ∃ a b, nodes[i]? = some a ∧ nodes[j]? = some b ∧ (a.weight.toNat < b.weight.toNat ∨ (a.weight = b.weight ∧ i < j))

/-- The tree below node i of a list of nodes. -/
def TreeIn (nodes : List Node) : Nat → Tree → Prop
  | i, .leaf x => ∃ nd, nodes[i]? = some nd ∧ nd.leaf = true ∧ nd.sym.toNat = x
  | i, .node l r => ∃ nd, nodes[i]? = some nd ∧ nd.leaf = false ∧ TreeIn nodes nd.left.toNat l ∧ TreeIn nodes nd.right.toNat r

/-- An entry of the queue carries its node's index, weight and sequence number. -/
def Forest.Keyed (b : Forest) : Prop :=
  ∀ e ∈ b.queue, e.seq = e.node ∧ ∃ nd, b.nodes[e.index]? = some nd ∧ nd.weight = e.weight

/-- The entries of the queue are roots of trees that share out the counted symbols and the nodes. -/
def Forest.Trees (cs : List (Nat × Word)) (b : Forest) : Prop :=
  ∃ tree : Nat → Tree, (∀ e ∈ b.queue, TreeIn b.nodes e.index (tree e.index)) ∧
    (b.queue.flatMap fun e => (tree e.index).symbols).Perm (cs.map Prod.fst) ∧
    (b.queue.map fun e => (tree e.index).size).sum = b.nodes.length

/-- R137: node i is internal, with two children made before it, and weighs their sum. -/
def MergedAt (nodes : List Node) (i : Nat) : Prop :=
  ∃ l r ln rn w, nodes[i]? = some (internalNode w l r) ∧ l.toNat < i ∧ r.toNat < i ∧
    nodes[l.toNat]? = some ln ∧ nodes[r.toNat]? = some rn ∧ w.toNat = ln.weight.toNat + rn.weight.toNat

/-- What holds of the forest over the counts cs, from the first leaf to the last merge. -/
structure Forest.Sound (cs : List (Nat × Word)) (b : Forest) : Prop where
  length : b.nodes.length + b.queue.length = 2 * cs.length
  keyed : b.Keyed
  perm : b.order.Perm (List.range b.nodes.length)
  keys : b.order.Pairwise (KeyBelow b.nodes)
  newest : ∀ n, b.nodes.length = n + 1 → n ∈ b.queue.map PqEntry.index
  weights : (b.queue.map fun e => e.weight.toNat).sum = (cs.map fun c => c.2.toNat).sum
  leaves : ∀ (k : Nat) (c : Nat × Word), cs[k]? = some c → b.nodes[k]? = some (leafNode (BitVec.ofNat 9 c.1) c.2)
  merged : ∀ i, cs.length ≤ i → i < b.nodes.length → MergedAt b.nodes i
  trees : b.Trees cs

/-! ## One more node -/

theorem getElem?_concat_of_some {α : Type} {l : List α} {i : Nat} {a : α} (h : l[i]? = some a) (x : α) :
    (l ++ [x])[i]? = some a := by
  rw [List.getElem?_append_left (List.getElem?_eq_some_iff.mp h).1, h]

theorem lt_length_of_getElem? {α : Type} {l : List α} {i : Nat} {a : α} (h : l[i]? = some a) : i < l.length :=
  (List.getElem?_eq_some_iff.mp h).1

theorem KeyBelow.concat {nodes : List Node} {i j : Nat} (h : KeyBelow nodes i j) (nd : Node) :
    KeyBelow (nodes ++ [nd]) i j := by
  obtain ⟨a, b, ha, hb, hlt⟩ := h
  exact ⟨a, b, getElem?_concat_of_some ha nd, getElem?_concat_of_some hb nd, hlt⟩

theorem TreeIn.concat {nodes : List Node} {i : Nat} {tr : Tree} (h : TreeIn nodes i tr) (nd : Node) :
    TreeIn (nodes ++ [nd]) i tr := by
  induction tr generalizing i with
  | leaf x =>
    obtain ⟨a, ha, hleaf, hx⟩ := h
    exact ⟨a, getElem?_concat_of_some ha nd, hleaf, hx⟩
  | node l r ihl ihr =>
    obtain ⟨a, ha, hleaf, hl, hr⟩ := h
    exact ⟨a, getElem?_concat_of_some ha nd, hleaf, ihl hl, ihr hr⟩

theorem MergedAt.concat {nodes : List Node} {i : Nat} (h : MergedAt nodes i) (nd : Node) : MergedAt (nodes ++ [nd]) i := by
  obtain ⟨l, r, ln, rn, w, hi, hl, hr, hln, hrn, hw⟩ := h
  exact ⟨l, r, ln, rn, w, getElem?_concat_of_some hi nd, hl, hr, getElem?_concat_of_some hln nd,
    getElem?_concat_of_some hrn nd, hw⟩

@[simp] theorem entryFor_index {nd : Node} {n : Nat} (h : n < 1024) : (entryFor nd n).index = n := by
  simp [PqEntry.index, entryFor, Nat.mod_eq_of_lt h]

theorem pqPlace_pairwise {r : PqEntry → PqEntry → Prop} {e : PqEntry} : ∀ {l : List PqEntry}, l.Pairwise r →
    (∀ x ∈ l, keyLt e x = true → r e x) → (∀ x ∈ l, keyLt e x = false → r x e) →
    (∀ x y z, r x y → r y z → r x z) → (pqPlace e l).Pairwise r
  | [], _, _, _, _ => by simp [pqPlace]
  | x :: xs, h, hlt, hge, htrans => by
    obtain ⟨hx, hxs⟩ := List.pairwise_cons.mp h
    unfold pqPlace
    split
    next hk =>
      have hex : r e x := hlt x List.mem_cons_self hk
      refine List.pairwise_cons.mpr ⟨fun y hy => ?_, h⟩
      rcases List.mem_cons.mp hy with rfl | hy
      · exact hex
      · exact htrans _ _ _ hex (hx y hy)
    next hk =>
      refine List.pairwise_cons.mpr ⟨fun y hy => ?_, pqPlace_pairwise hxs (fun y hy => hlt y (.tail _ hy))
        (fun y hy => hge y (.tail _ hy)) htrans⟩
      rcases List.mem_cons.mp ((pqPlace_perm e xs).mem_iff.mp hy) with rfl | hy
      · exact hge x List.mem_cons_self (by simpa using hk)
      · exact hx y hy

theorem KeyBelow.trans {nodes : List Node} {i j k : Nat} (h : KeyBelow nodes i j) (g : KeyBelow nodes j k) :
    KeyBelow nodes i k := by
  obtain ⟨a, b, ha, hb, hab⟩ := h
  obtain ⟨b', c, hb', hc, hbc⟩ := g
  obtain rfl : b = b' := Option.some.inj (hb.symm.trans hb')
  refine ⟨a, c, ha, hc, ?_⟩
  rcases hab with hab | ⟨hab, hij⟩ <;> rcases hbc with hbc | ⟨hbc, hjk⟩
  · exact .inl (by omega)
  · exact .inl (hbc ▸ hab)
  · exact .inl (hab ▸ hbc)
  · exact .inr ⟨hab.trans hbc, by omega⟩

theorem index_lt {nodes : List Node} {pre : List Nat} {q : List PqEntry}
    (hperm : (pre ++ q.map PqEntry.index).Perm (List.range nodes.length)) :
    (∀ i ∈ pre, i < nodes.length) ∧ ∀ e ∈ q, e.index < nodes.length := by
  constructor
  · exact fun i hi => List.mem_range.mp (hperm.mem_iff.mp (List.mem_append_left _ hi))
  · exact fun e he => List.mem_range.mp (hperm.mem_iff.mp (List.mem_append_right _ (List.mem_map_of_mem he)))

section
variable {nodes : List Node} {nd : Node} {pre : List Nat} {q : List PqEntry}

theorem order_perm_push (hn : nodes.length < 1024)
    (hperm : (pre ++ q.map PqEntry.index).Perm (List.range nodes.length)) :
    (pre ++ (pqPlace (entryFor nd nodes.length) q).map PqEntry.index).Perm (List.range (nodes ++ [nd]).length) := by
  have hplace : ((pqPlace (entryFor nd nodes.length) q).map PqEntry.index).Perm (q.map PqEntry.index ++ [nodes.length]) := by
    refine ((pqPlace_perm _ q).map PqEntry.index).trans ?_
    rw [List.map_cons, entryFor_index hn]
    exact (List.perm_append_singleton _ _).symm
  rw [List.length_append, List.length_singleton, List.range_succ]
  refine (hplace.append_left pre).trans ?_
  rw [← List.append_assoc]
  exact hperm.append_right _

/-- The new node comes after all whose weight is not above its own, and before the others. -/
theorem order_keys_push (hn : nodes.length < 1024)
    (hperm : (pre ++ q.map PqEntry.index).Perm (List.range nodes.length))
    (hkeys : (pre ++ q.map PqEntry.index).Pairwise (KeyBelow nodes))
    (hkeyed : ∀ e ∈ q, e.seq = e.node ∧ ∃ a, nodes[e.index]? = some a ∧ a.weight = e.weight)
    (hlow : ∀ i ∈ pre, ∃ a, nodes[i]? = some a ∧ a.weight.toNat ≤ nd.weight.toNat) :
    (pre ++ (pqPlace (entryFor nd nodes.length) q).map PqEntry.index).Pairwise (KeyBelow (nodes ++ [nd])) := by
  have hlast : (nodes ++ [nd])[nodes.length]? = some nd := by simp
  obtain ⟨hpre, hq⟩ := index_lt hperm
  obtain ⟨hkpre, hkq, hcross⟩ := List.pairwise_append.mp hkeys
  have hbelow (i : Nat) (hi : i < nodes.length) (a : Node) (ha : nodes[i]? = some a)
      (hle : a.weight.toNat ≤ nd.weight.toNat) : KeyBelow (nodes ++ [nd]) i nodes.length := by
    refine ⟨a, nd, getElem?_concat_of_some ha nd, hlast, ?_⟩
    by_cases hlt : a.weight.toNat < nd.weight.toNat
    · exact .inl hlt
    · exact .inr ⟨BitVec.eq_of_toNat_eq (by omega), hi⟩
  refine List.pairwise_append.mpr ⟨hkpre.imp fun h => h.concat nd, ?_, fun i hi j hj => ?_⟩
  · rw [List.pairwise_map] at hkq ⊢
    refine pqPlace_pairwise (hkq.imp fun h => h.concat nd) (fun e he hlt => ?_) (fun e he hge => ?_)
      fun x y z hxy hyz => hxy.trans hyz
    · obtain ⟨-, a, ha, hw⟩ := hkeyed e he
      rw [entryFor_index hn]
      have hseq : e.seq.toNat < nodes.length := by
        rw [(hkeyed e he).1]
        exact hq e he
      rw [keyLt_iff] at hlt
      refine ⟨nd, a, hlast, getElem?_concat_of_some ha nd, .inl ?_⟩
      rw [hw]
      refine hlt.resolve_right fun ⟨_, h⟩ => ?_
      simp only [entryFor, BitVec.toNat_ofNat] at h
      omega
    · obtain ⟨-, a, ha, hw⟩ := hkeyed e he
      rw [entryFor_index hn]
      refine hbelow _ (hq e he) a ha ?_
      rw [hw]
      by_contra hlt
      have hlt' : keyLt (entryFor nd nodes.length) e = true := (keyLt_iff _ _).mpr (.inl (by simpa [entryFor] using hlt))
      rw [hge] at hlt'
      cases hlt'
  · obtain ⟨e, he, rfl⟩ := List.mem_map.mp hj
    rcases List.mem_cons.mp ((pqPlace_perm _ q).mem_iff.mp he) with rfl | he
    · obtain ⟨a, ha, hle⟩ := hlow i hi
      rw [entryFor_index hn]
      exact hbelow i (hpre i hi) a ha hle
    · exact (hcross i hi _ (List.mem_map_of_mem he)).concat nd

theorem keyed_push (hn : nodes.length < 1024)
    (hkeyed : ∀ e ∈ q, e.seq = e.node ∧ ∃ a, nodes[e.index]? = some a ∧ a.weight = e.weight) :
    Forest.Keyed { nodes := nodes ++ [nd], queue := pqPlace (entryFor nd nodes.length) q } := by
  intro e he
  rcases List.mem_cons.mp ((pqPlace_perm _ q).mem_iff.mp he) with rfl | he
  · exact ⟨rfl, nd, by simp [entryFor_index hn], rfl⟩
  · obtain ⟨hseq, a, ha, hw⟩ := hkeyed e he
    exact ⟨hseq, a, getElem?_concat_of_some ha nd, hw⟩

/-- The trees of the entries stay, the new entry is the root of t. -/
theorem trees_push {tree : Nat → Tree} {t : Tree} {cs : List (Nat × Word)} (hn : nodes.length < 1024)
    (hq : ∀ e ∈ q, e.index < nodes.length) (htrees : ∀ e ∈ q, TreeIn nodes e.index (tree e.index))
    (ht : TreeIn (nodes ++ [nd]) nodes.length t)
    (hsym : (t.symbols ++ q.flatMap fun e => (tree e.index).symbols).Perm (cs.map Prod.fst))
    (hsize : t.size + (q.map fun e => (tree e.index).size).sum = nodes.length + 1) :
    Forest.Trees cs { nodes := nodes ++ [nd], queue := pqPlace (entryFor nd nodes.length) q } := by
  have hnew : Function.update tree nodes.length t (entryFor nd nodes.length).index = t := by
    rw [entryFor_index hn, Function.update_self]
  have hold (e : PqEntry) (he : e ∈ q) : Function.update tree nodes.length t e.index = tree e.index :=
    Function.update_of_ne (by have := hq e he; omega) _ _
  refine ⟨Function.update tree nodes.length t, fun e he => ?_, ?_, ?_⟩
  · rcases List.mem_cons.mp ((pqPlace_perm _ q).mem_iff.mp he) with rfl | he
    · rw [hnew, entryFor_index hn]
      exact ht
    · rw [hold e he]
      exact (htrees e he).concat nd
  · refine ((pqPlace_perm _ q).flatMap_right _).trans ?_
    rw [List.flatMap_cons, hnew, List.flatMap_congr fun e he => by rw [hold e he]]
    exact hsym
  · rw [((pqPlace_perm _ q).map _).sum_eq, List.map_cons, List.sum_cons, hnew,
      List.map_congr_left fun e he => by rw [hold e he], hsize]
    simp

end

/-! ## The leaves (R135) -/

theorem Forest.sound_nil : Forest.Sound [] { nodes := [], queue := [] } where
  length := rfl
  keyed := by intro e he; cases he
  perm := .refl _
  keys := .nil
  newest := by intro n hn; cases hn
  weights := rfl
  leaves := by intro k c hc; cases hc
  merged := by intro i _ hi; cases hi
  trees := ⟨fun _ => .leaf 0, by simp, .refl _, rfl⟩

@[simp] theorem leafNode_kids (x : Symbol) (w : Word) : (leafNode x w).kids = [] := rfl

@[simp] theorem internalNode_kids (w : Word) (l r : NodeIdx) : (internalNode w l r).kids = [l.toNat, r.toNat] := rfl

theorem Forest.Sound.push_leaf {cs : List (Nat × Word)} {b : Forest} (h : b.Sound cs) (hall : b.nodes.length = cs.length)
    (hroom : cs.length < 1024) (c : Nat × Word) (hc : c.1 < 512) :
    (b.push (leafNode (BitVec.ofNat 9 c.1) c.2)).Sound (cs ++ [c]) := by
  have hn : b.nodes.length < 1024 := hall ▸ hroom
  have hkids : b.nodes.flatMap Node.kids = [] := by
    refine List.flatMap_eq_nil_iff.mpr fun nd hnd => ?_
    obtain ⟨i, hi, rfl⟩ := List.mem_iff_getElem.mp hnd
    have hnode := h.leaves i _ (List.getElem?_eq_getElem (hall ▸ hi))
    rw [List.getElem?_eq_getElem hi, Option.some.injEq] at hnode
    rw [hnode, leafNode_kids]
  have hperm : ([] ++ b.queue.map PqEntry.index).Perm (List.range b.nodes.length) := by
    simpa [order, hkids] using h.perm
  have hkeys : ([] ++ b.queue.map PqEntry.index).Pairwise (KeyBelow b.nodes) := by
    simpa [order, hkids] using h.keys
  have horder : (b.push (leafNode (BitVec.ofNat 9 c.1) c.2)).order =
      [] ++ (b.push (leafNode (BitVec.ofNat 9 c.1) c.2)).queue.map PqEntry.index := by
    simp [order, Forest.push, hkids]
  obtain ⟨tree, htrees, hsym, hsize⟩ := h.trees
  refine ⟨?_, keyed_push hn h.keyed, ?_, ?_, fun n hlen => ?_, ?_, fun k d hd => ?_, fun i hi hlt => ?_, ?_⟩
  · have := h.length
    simp [Forest.push]
    omega
  · rw [horder]
    exact order_perm_push hn hperm
  · rw [horder]
    exact order_keys_push hn hperm hkeys h.keyed (by intro i hi; cases hi)
  · obtain rfl : b.nodes.length = n := by simpa [Forest.push] using hlen
    exact List.mem_map.mpr ⟨_, (pqPlace_perm _ _).mem_iff.mpr List.mem_cons_self, entryFor_index hn⟩
  · have hw := h.weights
    rw [Forest.push, ((pqPlace_perm _ _).map _).sum_eq]
    simp [hw, entryFor, leafNode]
    omega
  · by_cases hk : k < cs.length
    · rw [List.getElem?_append_left hk] at hd
      exact getElem?_concat_of_some (h.leaves k d hd) _
    · obtain rfl : k = cs.length := by
        have := lt_length_of_getElem? hd
        simp at this
        omega
      obtain rfl : c = d := by simpa using hd
      simp [Forest.push, ← hall]
  · simp [Forest.push] at hi hlt
    omega
  · refine trees_push hn (index_lt hperm).2 htrees (t := .leaf c.1)
      ⟨leafNode (BitVec.ofNat 9 c.1) c.2, by simp, rfl, ?_⟩ ?_ ?_
    · simp [leafNode, Nat.mod_eq_of_lt hc]
    · rw [List.map_append]
      exact (List.perm_append_comm).trans (hsym.append_right _)
    · rw [hsize]
      simp [Tree.size, Nat.add_comm]

theorem Forest.push_leaf_nodes_length (b : Forest) (nd : Node) : (b.push nd).nodes.length = b.nodes.length + 1 := by
  simp [push]

theorem Forest.ofCounts_concat (cs : List (Nat × Word)) (c : Nat × Word) :
    Forest.ofCounts (cs ++ [c]) = (Forest.ofCounts cs).push (leafNode (BitVec.ofNat 9 c.1) c.2) := by
  simp [ofCounts]

theorem Forest.ofCounts_nodes_length (cs : List (Nat × Word)) : (Forest.ofCounts cs).nodes.length = cs.length := by
  induction cs using List.reverseRecOn with
  | nil => rfl
  | append_singleton cs c ih => rw [ofCounts_concat, push_leaf_nodes_length, ih, List.length_append, List.length_singleton]

theorem Forest.ofCounts_sound {cs : List (Nat × Word)} (hlen : cs.length ≤ 257) (hcs : ∀ c ∈ cs, c.1 < 257) :
    (Forest.ofCounts cs).Sound cs := by
  induction cs using List.reverseRecOn with
  | nil => exact sound_nil
  | append_singleton cs c ih =>
    rw [List.length_append, List.length_singleton] at hlen
    rw [ofCounts_concat]
    exact (ih (by omega) fun d hd => hcs d (List.mem_append_left _ hd)).push_leaf (ofCounts_nodes_length cs) (by omega) c
      (by have := hcs c (by simp); omega)

/-! ## The merges (R136, R137) -/

/-- The forest after the merge of the first two entries x and y of its queue. -/
def Forest.merge (b : Forest) (x y : PqEntry) (rest : List PqEntry) : Forest :=
  Forest.push { nodes := b.nodes, queue := rest } (internalNode (x.weight + y.weight) x.node y.node)

theorem Forest.Sound.merge {cs : List (Nat × Word)} {b : Forest} {x y : PqEntry} {rest : List PqEntry} (h : b.Sound cs)
    (hroom : cs.length ≤ 257) (hq : b.queue = x :: y :: rest) (hsum : x.weight.toNat + y.weight.toNat < 2 ^ 32) :
    (b.merge x y rest).Sound cs := by
  have hlen := h.length
  rw [hq] at hlen
  simp only [List.length_cons] at hlen
  have hn : b.nodes.length < 1024 := by omega
  have hweight : (x.weight + y.weight).toNat = x.weight.toNat + y.weight.toNat := by
    rw [BitVec.toNat_add, Nat.mod_eq_of_lt hsum]
  have horder : b.order = b.nodes.flatMap Node.kids ++ [x.index, y.index] ++ rest.map PqEntry.index := by
    simp [order, hq]
  have hperm := h.perm
  have hkeys := h.keys
  rw [horder] at hperm hkeys
  have hkeyed := h.keyed
  simp only [Forest.Keyed, hq, List.forall_mem_cons] at hkeyed
  obtain ⟨⟨-, xn, hxn, hxw⟩, ⟨-, yn, hyn, hyw⟩, hkrest⟩ := hkeyed
  have horder' : (b.merge x y rest).order =
      b.nodes.flatMap Node.kids ++ [x.index, y.index] ++ (b.merge x y rest).queue.map PqEntry.index := by
    simp [order, Forest.merge, Forest.push, PqEntry.index]
  have hlow : ∀ i ∈ b.nodes.flatMap Node.kids ++ [x.index, y.index],
      ∃ a, b.nodes[i]? = some a ∧ a.weight.toNat ≤ (x.weight + y.weight).toNat := by
    rw [hweight]
    intro i hi
    rcases List.mem_append.mp hi with hi | hi
    · have hix : KeyBelow b.nodes i x.index :=
        (List.pairwise_append.mp (List.pairwise_append.mp hkeys).1).2.2 i hi _ List.mem_cons_self
      obtain ⟨a, xn', ha, hxn', hlt⟩ := hix
      obtain rfl : xn = xn' := Option.some.inj (hxn.symm.trans hxn')
      refine ⟨a, ha, ?_⟩
      rcases hlt with hlt | ⟨heq, -⟩
      · rw [hxw] at hlt
        omega
      · rw [heq, hxw]
        omega
    · rcases List.mem_pair.mp hi with rfl | rfl
      · exact ⟨xn, hxn, by rw [hxw]; omega⟩
      · exact ⟨yn, hyn, by rw [hyw]; omega⟩
  obtain ⟨tree, htrees, hsym, hsize⟩ := h.trees
  rw [hq] at htrees hsym hsize
  simp only [List.forall_mem_cons] at htrees
  obtain ⟨hxt, hyt, hrt⟩ := htrees
  refine ⟨?_, keyed_push hn hkrest, ?_, ?_, fun n hn' => ?_, ?_, fun k c hc => ?_, fun i hi hlt => ?_, ?_⟩
  · simp [Forest.merge, Forest.push]
    omega
  · rw [horder']
    exact order_perm_push hn hperm
  · rw [horder']
    exact order_keys_push hn hperm hkeys hkrest hlow
  · obtain rfl : b.nodes.length = n := by simpa [Forest.merge, Forest.push] using hn'
    exact List.mem_map.mpr ⟨_, (pqPlace_perm _ _).mem_iff.mpr List.mem_cons_self, entryFor_index hn⟩
  · have hw := h.weights
    rw [Forest.merge, Forest.push, ((pqPlace_perm _ _).map _).sum_eq, ← hw, hq]
    simp [entryFor, internalNode, -BitVec.toNat_add, hweight]
    omega
  · exact getElem?_concat_of_some (h.leaves k c hc) _
  · by_cases hold : i < b.nodes.length
    · exact (h.merged i hi hold).concat _
    · obtain rfl : i = b.nodes.length := by
        simp [Forest.merge, Forest.push] at hlt
        omega
      exact ⟨x.node, y.node, xn, yn, x.weight + y.weight, by simp [Forest.merge, Forest.push], lt_length_of_getElem? hxn,
        lt_length_of_getElem? hyn, getElem?_concat_of_some hxn _, getElem?_concat_of_some hyn _, by rw [hweight, hxw, hyw]⟩
  · refine trees_push hn (index_lt hperm).2 hrt (t := .node (tree x.index) (tree y.index))
      ⟨internalNode (x.weight + y.weight) x.node y.node, by simp, rfl, hxt.concat _, hyt.concat _⟩ ?_ ?_
    · simpa [Tree.symbols] using hsym
    · simp only [List.map_cons, List.sum_cons] at hsize
      change (tree x.index).size + (tree y.index).size + 1 + (rest.map fun e => (tree e.index).size).sum = b.nodes.length + 1
      omega

/-- At most k merges: the forest with one tree, or the forest at the merge that would pass 2^32 - 1 (R137). -/
def Forest.mergeAll : Nat → Forest → Except Forest Forest
  | 0, b => .ok b
  | k + 1, b =>
    match b.queue with
    | x :: y :: rest =>
      if tooHeavy (weightSum x.weight y.weight) then .error { nodes := b.nodes, queue := rest }
      else Forest.mergeAll k (b.merge x y rest)
    | _ => .ok b

theorem Forest.mergeAll_cases {cs : List (Nat × Word)} (hcs : cs ≠ []) (hroom : cs.length ≤ 257) :
    ∀ (k : Nat) (b : Forest), b.Sound cs → b.queue ≠ [] → b.queue.length ≤ k + 1 →
    (∃ b' e, b.mergeAll k = .ok b' ∧ b'.Sound cs ∧ b'.queue = [e]) ∨
    ((∃ b', b.mergeAll k = .error b' ∧ b'.nodes.length ≤ 513) ∧ 2 ^ 32 ≤ (cs.map fun c => c.2.toNat).sum)
  | 0, b, h, hne, hk => by
    obtain ⟨e, he⟩ := List.length_eq_one_iff.mp (show b.queue.length = 1 by
      have := List.length_pos_iff.mpr hne
      omega)
    exact .inl ⟨b, e, rfl, h, he⟩
  | k + 1, b, h, hne, hk => by
    rw [mergeAll]
    match hq : b.queue with
    | [] => exact absurd hq hne
    | [e] => exact .inl ⟨b, e, rfl, h, hq⟩
    | x :: y :: rest =>
      simp only
      split
      next hheavy =>
        have hlen := h.length
        rw [hq] at hlen
        simp only [List.length_cons] at hlen
        refine .inr ⟨⟨_, rfl, show b.nodes.length ≤ 513 by omega⟩, ?_⟩
        have hw := h.weights
        rw [hq] at hw
        simp only [List.map_cons, List.sum_cons] at hw
        have := (tooHeavy_iff _).mp hheavy
        rw [weightSum] at this
        omega
      next hheavy =>
        have hsum : x.weight.toNat + y.weight.toNat < 2 ^ 32 := by
          have := mt (tooHeavy_iff _).mpr hheavy
          rw [weightSum] at this
          omega
        refine mergeAll_cases hcs hroom k _ (h.merge hroom hq hsum) ?_ ?_
        · refine List.ne_nil_of_length_pos ?_
          simp [Forest.merge, Forest.push]
        · rw [hq] at hk
          simp [Forest.merge, Forest.push] at hk ⊢
          omega

end Sys2Proof.Machine
end

/-! # Proofs about TBUILD (41_tree_builder.md) -/

section

namespace Sys2Proof.Machine

/-! ## The nodes in `NODE` -/

/-- `NODE` with the given nodes from index 0 on. -/
def placeNodes (m : List (Nat × Node)) (nodes : List Node) : List (Nat × Node) :=
  nodes.zipIdx.foldl (fun m c => Store.put m c.2 c.1) m

theorem placeNodes_concat (m : List (Nat × Node)) (nodes : List Node) (nd : Node) :
    placeNodes m (nodes ++ [nd]) = Store.put (placeNodes m nodes) nodes.length nd := by
  simp [placeNodes, List.zipIdx_append]

theorem get?_placeNodes (m : List (Nat × Node)) (nodes : List Node) (i : Nat) :
    Store.get? (placeNodes m nodes) i = (nodes[i]?).or (Store.get? m i) := by
  induction nodes using List.reverseRecOn with
  | nil => rfl
  | append_singleton nodes nd ih =>
    rw [placeNodes_concat, Store.get?_put, ih]
    split
    next h => subst h; simp
    next h =>
      rcases Nat.lt_trichotomy i nodes.length with hi | hi | hi
      · rw [List.getElem?_append_left hi]
      · exact absurd hi h
      · rw [List.getElem?_eq_none (by omega), List.getElem?_eq_none (by simp; omega)]

theorem get?_placeNodes_of_some {m : List (Nat × Node)} {nodes : List Node} {i : Nat} {nd : Node}
    (h : nodes[i]? = some nd) : Store.get? (placeNodes m nodes) i = some nd := by
  rw [get?_placeNodes, h]
  rfl

theorem get?_placeNodes_of_le {m : List (Nat × Node)} {nodes : List Node} {i : Nat} (h : nodes.length ≤ i) :
    Store.get? (placeNodes m nodes) i = Store.get? m i := by
  rw [get?_placeNodes, List.getElem?_eq_none h]
  rfl

/-! ## Steps on the state and on the forest -/

/-- TBUILD started from s has come to m, with the forest b made. -/
structure BuiltFrom (s m : State) (b : Forest) : Prop where
  state : m = { s.treeStart with
    node := placeNodes s.node b.nodes, nnodes := BitVec.ofNat 10 b.nodes.length
    seq := BitVec.ofNat 10 b.nodes.length, pq := m.pq, pqLen := BitVec.ofNat 9 b.queue.length }
  entries : b.queue ≠ [] → m.pq = b.queue

section
variable {s m : State} {b : Forest}

theorem BuiltFrom.nnodes (h : BuiltFrom s m b) : m.nnodes = BitVec.ofNat 10 b.nodes.length := by rw [h.state]

theorem BuiltFrom.seq (h : BuiltFrom s m b) : m.seq = BitVec.ofNat 10 b.nodes.length := by rw [h.state]

theorem BuiltFrom.pqLen (h : BuiltFrom s m b) : m.pqLen = BitVec.ofNat 9 b.queue.length := by rw [h.state]

theorem BuiltFrom.node (h : BuiltFrom s m b) : m.node = placeNodes s.node b.nodes := by rw [h.state]

theorem BuiltFrom.freqAt (h : BuiltFrom s m b) (i : Nat) : m.freqAt i = s.freqAt i := by rw [h.state]; rfl

theorem BuiltFrom.nnodes_toNat (h : BuiltFrom s m b) (hn : b.nodes.length < 1024) : m.nnodes.toNat = b.nodes.length := by
  rw [h.nnodes, BitVec.toNat_ofNat, Nat.mod_eq_of_lt hn]

theorem BuiltFrom.pqLen_toNat (h : BuiltFrom s m b) (hq : b.queue.length < 512) : m.pqLen.toNat = b.queue.length := by
  rw [h.pqLen, BitVec.toNat_ofNat, Nat.mod_eq_of_lt hq]

theorem BuiltFrom.pqLive (h : BuiltFrom s m b) (hq : b.queue.length < 512) : m.pqLive = b.queue := by
  rw [State.pqLive, h.pqLen_toNat hq]
  by_cases hne : b.queue = []
  · rw [hne]; rfl
  · rw [h.entries hne, List.take_length]

theorem BuiltFrom.push (h : BuiltFrom s m b) (hn : b.nodes.length < 1024) (hq : b.queue.length < 512) (nd : Node) :
    BuiltFrom s (((m.setNode m.nnodes.toNat nd).alloc).enqueue nd.weight m.nnodes) (b.push nd) := by
  have hlive : (m.setNode m.nnodes.toNat nd).alloc.pqLive = b.queue := h.pqLive hq
  have hentry : { weight := nd.weight, seq := m.seq, node := m.nnodes } = entryFor nd b.nodes.length := by
    rw [h.seq, h.nnodes]; rfl
  have hpq : (((m.setNode m.nnodes.toNat nd).alloc).enqueue nd.weight m.nnodes).pq = (b.push nd).queue := by
    change pqPlace { weight := nd.weight, seq := m.seq, node := m.nnodes } (m.setNode m.nnodes.toNat nd).alloc.pqLive = _
    rw [hlive, hentry]
    rfl
  refine ⟨?_, fun _ => hpq⟩
  have hnode : Store.put m.node m.nnodes.toNat nd = placeNodes s.node (b.push nd).nodes := by
    rw [h.node, h.nnodes_toNat hn, ← placeNodes_concat]
    rfl
  have hnn : m.nnodes + 1#10 = BitVec.ofNat 10 (b.push nd).nodes.length := by
    rw [h.nnodes, Forest.push_leaf_nodes_length, BitVec.ofNat_add]
  have hseq : m.seq + 1#10 = BitVec.ofNat 10 (b.push nd).nodes.length := by
    rw [h.seq, Forest.push_leaf_nodes_length, BitVec.ofNat_add]
  have hlen : m.pqLen + 1#9 = BitVec.ofNat 9 (b.push nd).queue.length := by
    rw [h.pqLen, Forest.push, pqPlace_length, BitVec.ofNat_add]
  rw [hpq, ← hnode, ← hnn, ← hlen]
  have hrest : { s.treeStart with
      node := Store.put m.node m.nnodes.toNat nd, nnodes := m.nnodes + 1#10, seq := m.seq + 1#10
      pq := (b.push nd).queue, pqLen := m.pqLen + 1#9 } =
      ((m.setNode m.nnodes.toNat nd).alloc).enqueue nd.weight m.nnodes := by
    rw [← hpq]
    rw [h.state]
    rfl
  rw [← hrest, hseq, hnn]

theorem BuiltFrom.popMin {e : PqEntry} {rest : List PqEntry} {nodes : List Node}
    (h : BuiltFrom s m { nodes := nodes, queue := e :: rest }) (hq : rest.length < 511) :
    ∃ m', Machine.popMin m = .ok e m' ∧ BuiltFrom s m' { nodes := nodes, queue := rest } := by
  have hlive : m.pqLive = e :: rest := h.pqLive (by simp; omega)
  refine ⟨{ m with pq := rest, pqLen := m.pqLen - 1#9 }, ?_, ?_, fun _ => rfl⟩
  · rw [Machine.popMin, pqPopMin, hlive]
  · have hlen : m.pqLen - 1#9 = BitVec.ofNat 9 rest.length := by
      rw [h.pqLen, List.length_cons, BitVec.ofNat_add, BitVec.add_sub_cancel]
    rw [hlen]
    conv => lhs; rw [h.state]

end

/-! ## The leaf phase (R135) -/

/-- The counted symbols with their counts, in symbol order. -/
def State.counts (s : State) : List (Nat × Word) := s.counted.map fun i => (i, s.freqAt i)

theorem State.counts_length (s : State) : s.counts.length = s.counted.length := List.length_map _

theorem State.counted_length_le (s : State) : s.counted.length ≤ 257 :=
  (List.length_filter_le _ _).trans (by rw [List.length_range]; rfl)

theorem State.counts_lt (s : State) : ∀ c ∈ s.counts, c.1 < 257 := by
  intro c hc
  obtain ⟨i, hi, rfl⟩ := List.mem_map.mp hc
  exact List.mem_range.mp (List.mem_of_mem_filter hi)

theorem State.counts_fst (s : State) : s.counts.map Prod.fst = s.counted := by
  rw [State.counts, List.map_map]
  exact List.map_id' _

theorem State.totalCount_eq (s : State) : (s.counts.map fun c => c.2.toNat).sum = s.totalCount := by
  rw [State.counts, State.counted, State.totalCount, List.map_map]
  induction List.range Config.nsym with
  | nil => rfl
  | cons i l ih =>
    rw [List.filter_cons]
    split
    next h => simp [← ih]
    next h =>
      have h0 : s.freqAt i = 0#32 := by simpa using h
      simpa [h0] using ih

/-- The counts of the first n symbols. -/
def State.countsBelow (s : State) (n : Nat) : List (Nat × Word) :=
  ((List.range n).filter fun i => s.freqAt i ≠ 0#32).map fun i => (i, s.freqAt i)

theorem State.countsBelow_length_le (s : State) (n : Nat) : (s.countsBelow n).length ≤ n := by
  rw [State.countsBelow, List.length_map]
  exact (List.length_filter_le _ _).trans_eq List.length_range

theorem Forest.ofCounts_queue_length (cs : List (Nat × Word)) : (Forest.ofCounts cs).queue.length = cs.length := by
  induction cs using List.reverseRecOn with
  | nil => rfl
  | append_singleton cs c ih => rw [ofCounts_concat, push, pqPlace_length, ih, List.length_append, List.length_singleton]

theorem BuiltFrom.leafStep {s m : State} {b : Forest} (h : BuiltFrom s m b) (hn : b.nodes.length < 1024)
    (hq : b.queue.length < 512) (x : Nat) :
    BuiltFrom s (Machine.leafStep m x)
      (if s.freqAt x = 0#32 then b else b.push (leafNode (BitVec.ofNat 9 x) (s.freqAt x))) := by
  rw [Machine.leafStep, h.freqAt]
  split
  · exact h
  · exact h.push hn hq (leafNode (BitVec.ofNat 9 x) (s.freqAt x))

theorem leafSteps_built (s : State) : ∀ n, n ≤ 257 →
    BuiltFrom s ((List.range n).foldl leafStep s.treeStart) (Forest.ofCounts (s.countsBelow n))
  | 0, _ => ⟨rfl, fun h => absurd rfl h⟩
  | n + 1, hn => by
    have ih := leafSteps_built s n (by omega)
    have hlen := s.countsBelow_length_le n
    rw [List.range_succ, List.foldl_append, List.foldl_cons, List.foldl_nil]
    have hnext := ih.leafStep (by rw [Forest.ofCounts_nodes_length]; omega) (by rw [Forest.ofCounts_queue_length]; omega) n
    have hcounts : s.countsBelow (n + 1) =
        s.countsBelow n ++ if s.freqAt n = 0#32 then [] else [(n, s.freqAt n)] := by
      by_cases h0 : s.freqAt n = 0#32 <;> simp [State.countsBelow, List.range_succ, h0]
    rw [hcounts]
    split at hnext
    next h0 => rw [if_pos h0, List.append_nil]; exact hnext
    next h0 => rw [if_neg h0, Forest.ofCounts_concat]; exact hnext

theorem leafPhase_built (s : State) : BuiltFrom s (leafPhase s.treeStart) (Forest.ofCounts s.counts) :=
  leafSteps_built s 257 le_rfl

/-! ## The merges (R137) -/

theorem mergeStep_built {s m : State} {x y : PqEntry} {rest : List PqEntry} {nodes : List Node}
    (h : BuiltFrom s m { nodes := nodes, queue := x :: y :: rest }) (hn : nodes.length < 1024) (hq : rest.length < 510) :
    (tooHeavy (weightSum x.weight y.weight) = true ∧
      ∃ m', mergeStep m = .raise .overflow m' ∧ BuiltFrom s m' { nodes := nodes, queue := rest }) ∨
    (tooHeavy (weightSum x.weight y.weight) = false ∧
      ∃ m', mergeStep m = .ok () m' ∧
        BuiltFrom s m' (Forest.merge { nodes := nodes, queue := x :: y :: rest } x y rest)) := by
  obtain ⟨m₁, hx, h₁⟩ := h.popMin (by simp; omega)
  obtain ⟨m₂, hy, h₂⟩ := h₁.popMin (by omega)
  have hstep : mergeStep m = mergePair x y m₂ := by
    rw [mergeStep, hx, Res.bind_ok, hy, Res.bind_ok]
  rw [hstep, mergePair]
  cases hheavy : tooHeavy (weightSum x.weight y.weight) with
  | true => exact .inl ⟨rfl, m₂, if_pos rfl, h₂⟩
  | false =>
    refine .inr ⟨rfl, _, if_neg (by decide), ?_⟩
    exact h₂.push hn (show rest.length < 512 by omega) (internalNode (x.weight + y.weight) x.node y.node)

theorem Forest.mergeAll_heavy {k : Nat} {x y : PqEntry} {rest : List PqEntry} {nodes : List Node}
    (h : tooHeavy (weightSum x.weight y.weight) = true) :
    Forest.mergeAll (k + 1) { nodes := nodes, queue := x :: y :: rest } = .error { nodes := nodes, queue := rest } := if_pos h

theorem Forest.mergeAll_light {k : Nat} {x y : PqEntry} {rest : List PqEntry} {nodes : List Node}
    (h : tooHeavy (weightSum x.weight y.weight) = false) :
    Forest.mergeAll (k + 1) { nodes := nodes, queue := x :: y :: rest } =
      Forest.mergeAll k (Forest.merge { nodes := nodes, queue := x :: y :: rest } x y rest) :=
  if_neg (by rw [h]; decide)

/-- The loop r of R137 ends with the forest's outcome. -/
def LoopEnds (s : State) (r : Res Unit) : Except Forest Forest → Prop
  | .ok b => ∃ m, r = .ok () m ∧ BuiltFrom s m b
  | .error b => ∃ m, r = .raise .overflow m ∧ BuiltFrom s m b

/-- The loop on the state ends as the merges of the forest do. -/
theorem mergeLoop_built {cs : List (Nat × Word)} (hroom : cs.length ≤ 257) {s : State} : ∀ (k : Nat) (m : State) (b : Forest),
    b.Sound cs → BuiltFrom s m b → b.queue.length ≤ k + 1 →
    LoopEnds s (mergeLoop k m) (b.mergeAll k) := by
  intro k
  induction k with
  | zero =>
    intro m b hb h hk
    have hlen := h.pqLen_toNat (by omega)
    exact ⟨m, by rw [mergeLoop, hlen, if_neg (by omega)], h⟩
  | succ k ih =>
    intro m b hb h hk
    have hlen := hb.length
    have hcard : b.queue.length ≤ 257 ∧ b.nodes.length < 1024 := by
      have hle := (index_lt hb.perm).2
      constructor
      · by_contra hlt
        have := hb.perm.length_eq
        simp only [Forest.order, List.length_append, List.length_map, List.length_range] at this
        omega
      · omega
    have hpq := h.pqLen_toNat (by omega)
    obtain ⟨nodes, queue⟩ := b
    match queue with
    | [] => exact ⟨m, by rw [mergeLoop, hpq]; exact if_neg (by simp), h⟩
    | [e] => exact ⟨m, by rw [mergeLoop, hpq]; exact if_neg (by simp), h⟩
    | x :: y :: rest =>
      have hloop : mergeLoop (k + 1) m = (mergeStep m).bind fun _ s => mergeLoop k s := by
        rw [mergeLoop, hpq]
        exact if_pos (by simp)
      simp only [List.length_cons] at hcard hk
      rw [hloop]
      rcases mergeStep_built h hcard.2 (by omega) with ⟨hheavy, m', hm, hb'⟩ | ⟨hlight, m', hm, hb'⟩
      · rw [hm, Forest.mergeAll_heavy hheavy]
        exact ⟨m', rfl, hb'⟩
      · rw [hm, Forest.mergeAll_light hlight, Res.bind_ok]
        refine ih m' _ (hb.merge hroom rfl ?_) hb' ?_
        · have := mt (tooHeavy_iff _).mpr (Bool.eq_false_iff.mp hlight)
          rw [weightSum] at this
          omega
        · simp [Forest.merge, Forest.push]
          omega

/-! ## TBUILD (R134) -/

/-- The forest that TBUILD ends with: one tree, or what was made before the sum that would pass 2^32 - 1. -/
def State.forest (s : State) : Except Forest Forest := (Forest.ofCounts s.counts).mergeAll s.counts.length

theorem State.counts_sound (s : State) : (Forest.ofCounts s.counts).Sound s.counts :=
  Forest.ofCounts_sound (s.counts_length ▸ s.counted_length_le) s.counts_lt

theorem tbuildBody_empty {s : State} (h : s.counted = []) :
    ∃ m, tbuildBody s = .raise .contract m ∧ BuiltFrom s m { nodes := [], queue := [] } := by
  have hbuilt := leafPhase_built s
  have hcs : s.counts = [] := by rw [State.counts, h]; rfl
  rw [hcs] at hbuilt
  rw [tbuildBody]
  generalize leafPhase s.treeStart = m at hbuilt
  exact ⟨m, if_pos hbuilt.pqLen, hbuilt⟩

/-- How TBUILD ends where a symbol is counted: the tree of the counts, or `E_OVERFLOW` (R134, R137, R138). -/
theorem tbuildBody_counted {s : State} (h : s.counted ≠ []) :
    (s.totalCount < 2 ^ 32 ∧ ∃ b e m, s.forest = .ok b ∧ b.Sound s.counts ∧ b.queue = [e] ∧ BuiltFrom s m b ∧
      tbuildBody s = .ok () (m.setTree e.node)) ∨
    (2 ^ 32 ≤ s.totalCount ∧ ∃ b m, s.forest = .error b ∧ b.nodes.length ≤ 513 ∧ BuiltFrom s m b ∧
      tbuildBody s = .raise .overflow m) := by
  have hcard := s.counted_length_le
  rw [← s.counts_length] at hcard
  have hpos : 0 < s.counts.length := by
    rw [s.counts_length]
    exact List.length_pos_iff.mpr h
  have hq : (Forest.ofCounts s.counts).queue.length = s.counts.length := Forest.ofCounts_queue_length _
  have hbuilt := leafPhase_built s
  rw [tbuildBody]
  generalize leafPhase s.treeStart = m₀ at hbuilt
  have hlen : m₀.pqLen.toNat = s.counts.length := by rw [hbuilt.pqLen_toNat (by omega), hq]
  have hmerge : treeMerge m₀ = (mergeLoop s.counts.length m₀).bind fun _ s => treeFinish s := by
    rw [treeMerge, hlen]
    exact if_neg fun h0 => by rw [h0] at hlen; simp at hlen; omega
  have hloop := mergeLoop_built hcard s.counts.length m₀ _ s.counts_sound hbuilt (by omega)
  rw [hmerge]
  rcases Forest.mergeAll_cases (List.ne_nil_of_length_pos hpos) hcard s.counts.length _ s.counts_sound
    (List.ne_nil_of_length_pos (by omega)) (by omega) with ⟨b, e, hb, hsound, he⟩ | ⟨⟨b, hb, hcap⟩, htotal⟩
  · rw [hb] at hloop
    obtain ⟨m, hm, hbm⟩ := hloop
    refine .inl ⟨?_, b, e, m, hb, hsound, he, hbm, ?_⟩
    · rw [← s.totalCount_eq, ← hsound.weights, he]
      simp only [List.map_cons, List.map_nil, List.sum_singleton]
      exact e.weight.isLt
    · have hlive : m.pqLive = [e] := by rw [hbm.pqLive (by rw [he]; simp), he]
      rw [hm, Res.bind_ok, treeFinish, hlive]
  · rw [hb] at hloop
    obtain ⟨m, hm, hbm⟩ := hloop
    exact .inr ⟨s.totalCount_eq ▸ htotal, b, m, hb, hcap, hbm, by rw [hm]; rfl⟩

end Sys2Proof.Machine
end

/-! # Proofs about the tree that TBUILD leaves in `NODE` (41_tree_builder.md, 20_memory.md R64) -/

section

namespace Sys2Proof.Machine

/-! ## The last forest -/

/-- `NODE` lists every node of the list at its index. -/
def Lists (st : List (Nat × Node)) (nodes : List Node) : Prop := ∀ i nd, nodes[i]? = some nd → Store.get? st i = some nd

theorem Lists.get?_eq {st : List (Nat × Node)} {nodes : List Node} (h : Lists st nodes) {i : Nat} (hi : i < nodes.length) :
    Store.get? st i = nodes[i]? := by
  rw [List.getElem?_eq_getElem hi]
  exact h i _ (List.getElem?_eq_getElem hi)

theorem lists_placeNodes (m : List (Nat × Node)) (nodes : List Node) : Lists (placeNodes m nodes) nodes :=
  fun _ _ h => get?_placeNodes_of_some h

theorem TreeIn.treeAt {st : List (Nat × Node)} {nodes : List Node} (hst : Lists st nodes) {tr : Tree} :
    ∀ {f : Nat} {i : NodeIdx}, TreeIn nodes i.toNat tr → tr.levels ≤ f → Machine.treeAt st f i = some tr := by
  induction tr with
  | leaf x =>
    rintro f i ⟨nd, hnd, hleaf, rfl⟩ hf
    obtain ⟨f, rfl⟩ := Nat.exists_eq_add_of_le' (show 1 ≤ f from hf)
    exact treeAt_leaf (hst _ _ hnd) hleaf
  | node l r ihl ihr =>
    rintro f i ⟨nd, hnd, hleaf, hl, hr⟩ hf
    rw [Tree.levels] at hf
    obtain ⟨f, rfl⟩ := Nat.exists_eq_add_of_le' (show 1 ≤ f by omega)
    exact treeAt_node (hst _ _ hnd) hleaf (ihl hl (by omega)) (ihr hr (by omega))

theorem childIndices_succ (st : List (Nat × Node)) (n : Nat) :
    childIndices st (n + 1) = childIndices st n ++ ((Store.get? st n).map Node.kids).getD [] := by
  rw [childIndices, List.range_succ, List.flatMap_append, List.flatMap_singleton]
  cases h : Store.get? st n <;> rfl

theorem childIndices_eq_take {st : List (Nat × Node)} {nodes : List Node} (hst : Lists st nodes) :
    ∀ n, n ≤ nodes.length → childIndices st n = (nodes.take n).flatMap Node.kids
  | 0, _ => rfl
  | n + 1, hn => by
    rw [childIndices_succ, childIndices_eq_take hst n (by omega), hst.get?_eq (by omega), List.take_add_one,
      List.flatMap_append]
    cases nodes[n]? <;> simp

theorem childIndices_eq {st : List (Nat × Node)} {nodes : List Node} (hst : Lists st nodes) :
    childIndices st nodes.length = nodes.flatMap Node.kids := by
  rw [childIndices_eq_take hst _ le_rfl, List.take_length]

section
variable {cs : List (Nat × Word)} {b : Forest} {e : PqEntry} {st : List (Nat × Node)}

theorem Forest.Sound.nodes_length (h : b.Sound cs) (he : b.queue = [e]) : b.nodes.length = 2 * cs.length - 1 := by
  have hlen := h.length
  rw [he, List.length_singleton] at hlen
  omega

theorem Forest.Sound.counts_pos (h : b.Sound cs) (he : b.queue = [e]) : 1 ≤ cs.length := by
  have hlen := h.length
  rw [he, List.length_singleton] at hlen
  omega

/-- R138: the one node left is the last one made. -/
theorem Forest.Sound.root (h : b.Sound cs) (he : b.queue = [e]) : e.index + 1 = b.nodes.length := by
  have hlen := h.nodes_length he
  have hpos := h.counts_pos he
  obtain ⟨n, hn⟩ := Nat.exists_eq_add_of_le' (show 1 ≤ b.nodes.length by omega)
  have hmem := h.newest n hn
  rw [he, List.map_singleton, List.mem_singleton] at hmem
  omega

theorem Forest.Sound.order_eq (h : b.Sound cs) (he : b.queue = [e]) :
    b.order = b.nodes.flatMap Node.kids ++ [b.nodes.length - 1] := by
  have := h.root he
  rw [Forest.order, he, List.map_singleton]
  congr 2
  omega

/-- Every node but the root is a child, once. -/
theorem Forest.Sound.kids_perm (h : b.Sound cs) (he : b.queue = [e]) :
    (b.nodes.flatMap Node.kids).Perm (List.range (b.nodes.length - 1)) := by
  have hperm := h.perm
  have hroot := h.root he
  rw [h.order_eq he, show List.range b.nodes.length = List.range (b.nodes.length - 1) ++ [b.nodes.length - 1] by
    rw [← List.range_succ]; congr 1; omega] at hperm
  exact (List.perm_append_right_iff _).mp hperm

theorem Forest.Sound.kids_keys (h : b.Sound cs) (he : b.queue = [e]) :
    (b.nodes.flatMap Node.kids).Pairwise (KeyBelow b.nodes) := by
  have hkeys := h.keys
  rw [h.order_eq he] at hkeys
  exact (List.pairwise_append.mp hkeys).1

/-- A node is the leaf of a count, or the merge of two nodes made before it. -/
theorem Forest.Sound.node_cases (h : b.Sound cs) {i : Nat} (hi : i < b.nodes.length) :
    (∃ c, cs[i]? = some c ∧ b.nodes[i]? = some (leafNode (BitVec.ofNat 9 c.1) c.2)) ∨
    (cs.length ≤ i ∧ MergedAt b.nodes i) := by
  by_cases hlt : i < cs.length
  · exact .inl ⟨cs[i], List.getElem?_eq_getElem hlt, h.leaves i _ (List.getElem?_eq_getElem hlt)⟩
  · exact .inr ⟨by omega, h.merged i (by omega) hi⟩

theorem Forest.Sound.nodeOk (h : b.Sound cs) (he : b.queue = [e]) (hcs : ∀ c ∈ cs, c.1 < 257) {i : Nat}
    (hi : i < b.nodes.length) : Machine.nodeOk b.nodes.length (b.nodes[i]?) = true := by
  rcases h.node_cases hi with ⟨c, hc, hnode⟩ | ⟨-, l, r, ln, rn, w, hnode, hl, hr, -⟩
  · have hsym := hcs c (List.mem_of_getElem? hc)
    rw [hnode]
    simp [Machine.nodeOk, leafNode, Config.eosSym]
    omega
  · have hne : l ≠ r := by
      intro heq
      have hnodup := (h.kids_perm he).nodup_iff.mpr List.nodup_range
      have hkids := (List.nodup_flatMap.mp hnodup).1 _ (List.mem_of_getElem? hnode)
      rw [internalNode_kids, heq] at hkids
      simp at hkids
    rw [hnode]
    simp [Machine.nodeOk, internalNode, hne]
    exact ⟨decide_eq_true (by omega), decide_eq_true (by omega)⟩

/-- R64: the last forest is one well-formed tree over the counted symbols, in every `NODE` that lists it. -/
theorem Forest.Sound.wfTree (h : b.Sound cs) (he : b.queue = [e]) (hroom : cs.length ≤ 257)
    (hcs : ∀ c ∈ cs, c.1 < 257) :
    ∃ tr, tr.symbols.Perm (cs.map Prod.fst) ∧
      ∀ st, Lists st b.nodes → WfTree st b.nodes.length e.node ∧ treeAt st walkLevels e.node = some tr := by
  have hlen := h.nodes_length he
  have hpos := h.counts_pos he
  have hroot : e.node.toNat + 1 = b.nodes.length := h.root he
  obtain ⟨tree, htree, hsym, hsize⟩ := h.trees
  rw [he] at htree hsym hsize
  simp only [List.flatMap_singleton, List.map_singleton, List.sum_singleton] at hsym hsize
  refine ⟨tree e.index, hsym, fun st hst => ?_⟩
  have hat : treeAt st walkLevels e.node = some (tree e.index) := by
    refine (htree e List.mem_cons_self).treeAt hst ?_
    have := (tree e.index).two_mul_levels_le
    simp only [walkLevels, Config.maxCodeLen]
    omega
  refine ⟨⟨⟨by omega, by simp only [Config.nodeCap]; omega, by omega⟩, fun i hi => ?_, fun i hi => ?_, ?_⟩, hat⟩
  · rw [hst.get?_eq hi]
    exact h.nodeOk he hcs hi
  · rw [childIndices_eq hst, (h.kids_perm he).count_eq, List.count_range]
    split <;> split <;> omega
  · rw [hat]
    simp [hsize]

end

/-! ## Completed and faulted TBUILDs -/

theorem exec_tbuild {s : State} (hs : Ready s) : exec .tbuild s = finish (tbuildBody s.begin) := command_idle hs

/-- The state at the end of a TBUILD that made the forest b. -/
theorem exec_tbuild_ok {s : State} (hs : Ready s) (hne : s.counted ≠ []) (hsum : s.totalCount < 2 ^ 32) :
    ∃ b e, s.forest = .ok b ∧ b.Sound s.counts ∧ b.queue = [e] ∧
      exec .tbuild s = .next { s with
        node := placeNodes s.node b.nodes, nnodes := BitVec.ofNat 10 b.nodes.length, root := e.node, pq := [e]
        pqLen := 1#9, seq := BitVec.ofNat 10 b.nodes.length, treeValid := true, codeValid := false, done := true } := by
  rcases tbuildBody_counted (s := s.begin) hne with ⟨-, b, e, m, hb, hsound, he, hm, hbody⟩ | ⟨hge, -⟩
  · refine ⟨b, e, hb, hsound, he, ?_⟩
    have hpq : m.pq = [e] := by rw [hm.entries (by rw [he]; simp), he]
    have hidle : (m.setTree e.node).sstate = .idle := by
      rw [hm.state]
      exact hs
    rw [exec_tbuild hs, hbody, finish_ok_idle hidle, hm.state, hpq, he]
    rfl
  · exact absurd hsum (Nat.not_lt.mpr hge)

theorem exec_tbuild_empty {s : State} (hs : Ready s) (hnone : s.counted = []) :
    ∃ m, exec .tbuild s = .next (faultEntry .contract m) ∧ BuiltFrom s.begin m { nodes := [], queue := [] } := by
  obtain ⟨m, hbody, hm⟩ := tbuildBody_empty (s := s.begin) hnone
  exact ⟨m, by rw [exec_tbuild hs, hbody, finish_raise], hm⟩

theorem exec_tbuild_overflow {s : State} (hs : Ready s) (hsum : 2 ^ 32 ≤ s.totalCount) :
    ∃ b m, s.forest = .error b ∧ b.nodes.length ≤ 513 ∧ exec .tbuild s = .next (faultEntry .overflow m) ∧ BuiltFrom s.begin m b := by
  have hne : s.counted ≠ [] := by
    intro hnone
    have htotal := s.totalCount_eq
    rw [State.counts, hnone] at htotal
    simp at htotal
    omega
  rcases tbuildBody_counted (s := s.begin) hne with ⟨hlt, -⟩ | ⟨-, b, m, hb, hcap, hm, hbody⟩
  · exact absurd hsum (Nat.not_le.mpr hlt)
  · exact ⟨b, m, hb, hcap, by rw [exec_tbuild hs, hbody, finish_raise], hm⟩

/-- A TBUILD that completed had a count and a total below 2^32. -/
theorem of_tbuild_completes {s t : State} (hs : Ready s) (hexec : exec .tbuild s = .next t) (ht : t.sstate = .idle) :
    s.counted ≠ [] ∧ s.totalCount < 2 ^ 32 := by
  constructor
  · intro hnone
    obtain ⟨m, hm, -⟩ := exec_tbuild_empty hs hnone
    rw [hm] at hexec
    cases hexec
    cases ht
  · by_contra hge
    obtain ⟨b, m, -, -, hm, -⟩ := exec_tbuild_overflow hs (Nat.not_lt.mp hge)
    rw [hm] at hexec
    cases hexec
    cases ht

/-- Settles O21: the forest of the counts is one well-formed tree at the end, and the loop on the state makes that
forest. -/
theorem tbuildBuildsWellFormedTree : Obligations.TbuildBuildsWellFormedTree := by
  intro s hs hne hsum
  obtain ⟨b, e, -, hsound, he, hexec⟩ := exec_tbuild_ok hs hne hsum
  have hlen := hsound.nodes_length he
  have hpos := hsound.counts_pos he
  have hroot : e.node.toNat + 1 = b.nodes.length := hsound.root he
  have hcard := s.counted_length_le
  rw [s.counts_length] at hlen hpos
  have hst := lists_placeNodes s.node b.nodes
  obtain ⟨tr, hsym, htrees⟩ := hsound.wfTree he (s.counts_length ▸ hcard) s.counts_lt
  obtain ⟨hwf, htree⟩ := htrees _ hst
  have hn : (BitVec.ofNat 10 b.nodes.length).toNat = b.nodes.length := by
    rw [BitVec.toNat_ofNat, Nat.mod_eq_of_lt (by omega)]
  obtain ⟨-, nd, hnd, hw⟩ := hsound.keyed e (by simp [he])
  refine ⟨_, tr, hexec, ⟨rfl, hn.symm ▸ hwf, htree⟩, rfl, s.counts_fst ▸ hsym, hn.trans hlen, rfl, rfl, ?_, ?_, rfl, ?_⟩
  · simp only [hn]
    omega
  · have hweights := hsound.weights
    rw [he, s.totalCount_eq] at hweights
    simp only [List.map_singleton, List.sum_singleton] at hweights
    rw [show Store.get? (placeNodes s.node b.nodes) e.node.toNat = some nd from hst _ _ hnd, Option.map_some, hw, hweights]
  · intro i hi
    exact get?_placeNodes_of_le (hn ▸ hi)

theorem KeyBelow.nodeKeyLt {st : List (Nat × Node)} {nodes : List Node} {i j : Nat} (hst : Lists st nodes)
    (h : KeyBelow nodes i j) : NodeKeyLt st i j := by
  obtain ⟨a, b, ha, hb, hlt⟩ := h
  exact ⟨a, b, hst i a ha, hst j b hb, hlt⟩

/-- Settles O22: the children listed by parent, then the entries of `PQ`, ascend by key through every merge. -/
theorem tbuildNodeLayout : Obligations.TbuildNodeLayout := by
  intro s t hs hexec ht
  obtain ⟨hne, hsum⟩ := of_tbuild_completes hs hexec ht
  obtain ⟨b, e, -, hsound, he, hnext⟩ := exec_tbuild_ok hs hne hsum
  rw [hnext] at hexec
  cases hexec
  have hlen := hsound.nodes_length he
  have hcard := s.counted_length_le
  rw [s.counts_length] at hlen
  have hst := lists_placeNodes s.node b.nodes
  have hn : (BitVec.ofNat 10 b.nodes.length).toNat = b.nodes.length := by
    rw [BitVec.toNat_ofNat, Nat.mod_eq_of_lt (by omega)]
  simp only [hn, childIndices_eq hst]
  refine ⟨fun k sym hk => ?_, fun i hi hlt => ?_, hsound.kids_perm he, (hsound.kids_keys he).imp fun h => h.nodeKeyLt hst, ?_⟩
  · refine hst _ _ (hsound.leaves k (sym, s.freqAt sym) ?_)
    rw [State.counts, List.getElem?_map, hk]
    rfl
  · obtain ⟨l, r, ln, rn, w, hnode, hl, hr, hln, hrn, hw⟩ := hsound.merged i (s.counts_length ▸ hi) hlt
    exact ⟨l, r, ln, rn, w, hst _ _ hnode, hl, hr, hst _ _ hln, hst _ _ hrn, hw⟩
  · obtain ⟨hseq, nd, hnd, hw⟩ := hsound.keyed e (by simp [he])
    refine ⟨nd, hst _ _ hnd, ?_⟩
    obtain ⟨weight, seq, node⟩ := e
    obtain rfl : seq = node := hseq
    obtain rfl : nd.weight = weight := hw
    rfl

/-- Settles O23. -/
theorem tbuildFaults : Obligations.TbuildFaults := by
  intro s hs
  constructor
  · intro hnone
    obtain ⟨m, hexec, hm⟩ := exec_tbuild_empty hs hnone
    refine ⟨_, hexec, rfl, rfl, ?_, ?_, ?_, ?_⟩ <;>
      simp [faultEntry_fields] <;> rw [hm.state] <;> rfl
  · intro hge
    obtain ⟨b, m, -, -, hexec, hm⟩ := exec_tbuild_overflow hs hge
    refine ⟨_, hexec, rfl, rfl, ?_, ?_, ?_⟩ <;>
      simp [faultEntry_fields] <;> rw [hm.state] <;> rfl

/-! ## Small tables (R141) -/

theorem State.counts_of_counted {s : State} {l : List Nat} (h : s.counted = l) : s.counts = l.map fun i => (i, s.freqAt i) := by
  rw [State.counts, h]

theorem tbuild_one {s : State} {a : Nat} (hs : Ready s) (hsum : s.totalCount < 2 ^ 32) (h : s.counted = [a]) :
    ∃ t, exec .tbuild s = .next t ∧ t.tree = some (.leaf a) ∧ t.nnodes = 1#10 ∧ t.root = 0#10 := by
  obtain ⟨b, e, hb, hsound, he, hexec⟩ := exec_tbuild_ok hs (by rw [h]; simp) hsum
  have ha : a < 257 := s.counts_lt (a, s.freqAt a) (by rw [State.counts_of_counted h]; simp)
  obtain rfl : b = Forest.ofCounts [(a, s.freqAt a)] := by
    rw [State.forest, State.counts_of_counted h] at hb
    exact (Except.ok.inj hb).symm
  obtain rfl : e = entryFor (leafNode (BitVec.ofNat 9 a) (s.freqAt a)) 0 := (List.singleton_inj.mp he).symm
  refine ⟨_, hexec, ?_, rfl, rfl⟩
  have htree : TreeIn (Forest.ofCounts [(a, s.freqAt a)]).nodes 0 (.leaf a) :=
    ⟨leafNode (BitVec.ofNat 9 a) (s.freqAt a), rfl, rfl, by simp [leafNode]; omega⟩
  exact htree.treeAt (i := 0#10) (lists_placeNodes _ _) (by simp [Tree.levels, walkLevels])

/-- The indices of two leaves in the order of their weights, the first made first at equal weight. -/
def lighterFirst (wa wb : Word) : NodeIdx × NodeIdx := if wb < wa then (1#10, 0#10) else (0#10, 1#10)

theorem forest_two {a b : Nat} {wa wb : Word} {f : Forest}
    (h : (Forest.ofCounts [(a, wa), (b, wb)]).mergeAll 2 = .ok f) :
    ∃ w e, f.nodes = [leafNode (BitVec.ofNat 9 a) wa, leafNode (BitVec.ofNat 9 b) wb,
      internalNode w (lighterFirst wa wb).1 (lighterFirst wa wb).2] ∧ f.queue = [e] ∧ e.node = 2#10 := by
  have merge_eq (x y : PqEntry) (nodes : List Node) (hq : Forest.mergeAll 2 { nodes := nodes, queue := [x, y] } = .ok f) :
      f = Forest.merge { nodes := nodes, queue := [x, y] } x y [] := by
    cases hheavy : tooHeavy (weightSum x.weight y.weight) with
    | true => rw [Forest.mergeAll_heavy hheavy] at hq; cases hq
    | false =>
      rw [Forest.mergeAll_light hheavy] at hq
      exact (Except.ok.inj hq).symm
  have hforest : Forest.ofCounts [(a, wa), (b, wb)] =
      { nodes := [leafNode (BitVec.ofNat 9 a) wa, leafNode (BitVec.ofNat 9 b) wb]
        queue := if keyLt { weight := wb, seq := 1#10, node := 1#10 } { weight := wa, seq := 0#10, node := 0#10 } then
          [{ weight := wb, seq := 1#10, node := 1#10 }, { weight := wa, seq := 0#10, node := 0#10 }] else
          [{ weight := wa, seq := 0#10, node := 0#10 }, { weight := wb, seq := 1#10, node := 1#10 }] } := rfl
  have hkey : keyLt { weight := wb, seq := 1#10, node := 1#10 } { weight := wa, seq := 0#10, node := 0#10 } =
      decide (wb < wa) := by simp [keyLt]
  rw [hforest, hkey] at h
  by_cases hlt : wb < wa
  · simp only [hlt, decide_true, if_true] at h
    rw [merge_eq _ _ _ h, lighterFirst, if_pos hlt]
    exact ⟨_, _, rfl, rfl, rfl⟩
  · simp only [hlt, decide_false, Bool.false_eq_true, if_false] at h
    rw [merge_eq _ _ _ h, lighterFirst, if_neg hlt]
    exact ⟨_, _, rfl, rfl, rfl⟩

theorem tbuild_two {s : State} {a b : Nat} (hs : Ready s) (hsum : s.totalCount < 2 ^ 32) (h : s.counted = [a, b]) :
    ∃ t, exec .tbuild s = .next t ∧ t.nnodes = 3#10 ∧ t.root = 2#10 ∧
      t.tree = some (if s.freqAt b < s.freqAt a then .node (.leaf b) (.leaf a) else .node (.leaf a) (.leaf b)) := by
  obtain ⟨f, e, hf, hsound, he, hexec⟩ := exec_tbuild_ok hs (by rw [h]; simp) hsum
  have ha : a < 257 := s.counts_lt (a, s.freqAt a) (by rw [State.counts_of_counted h]; simp)
  have hb : b < 257 := s.counts_lt (b, s.freqAt b) (by rw [State.counts_of_counted h]; simp)
  rw [State.forest, State.counts_of_counted h] at hf
  obtain ⟨w, e', hnodes, hq, hroot⟩ := forest_two hf
  obtain rfl : e = e' := List.singleton_inj.mp (he.symm.trans hq)
  refine ⟨_, hexec, by rw [hnodes]; rfl, hroot, ?_⟩
  have hleafa : TreeIn f.nodes 0 (.leaf a) :=
    ⟨leafNode (BitVec.ofNat 9 a) (s.freqAt a), by rw [hnodes]; rfl, rfl, by simp [leafNode]; omega⟩
  have hleafb : TreeIn f.nodes 1 (.leaf b) :=
    ⟨leafNode (BitVec.ofNat 9 b) (s.freqAt b), by rw [hnodes]; rfl, rfl, by simp [leafNode]; omega⟩
  have htree : TreeIn f.nodes 2 (if s.freqAt b < s.freqAt a then .node (.leaf b) (.leaf a) else .node (.leaf a) (.leaf b)) := by
    have hlast : f.nodes[2]? = some (internalNode w (lighterFirst (s.freqAt a) (s.freqAt b)).1
      (lighterFirst (s.freqAt a) (s.freqAt b)).2) := by rw [hnodes]; rfl
    rw [lighterFirst] at hlast
    split
    next hlt => rw [if_pos hlt] at hlast; exact ⟨_, hlast, rfl, hleafb, hleafa⟩
    next hlt => rw [if_neg hlt] at hlast; exact ⟨_, hlast, rfl, hleafa, hleafb⟩
  refine TreeIn.treeAt (lists_placeNodes _ _) (i := e.node) (by rw [hroot]; exact htree) ?_
  split <;> exact (by decide : 2 ≤ walkLevels)

/-- Settles O24. -/
theorem tbuildSmallTables : Obligations.TbuildSmallTables :=
  fun _ hs hsum => ⟨fun _ h => tbuild_one hs hsum h, fun _ _ h => tbuild_two hs hsum h⟩

/-! ## The counts determine the tree -/

theorem State.counts_congr {s s' : State} (h : ∀ i, i < 257 → s.freqAt i = s'.freqAt i) : s.counts = s'.counts := by
  have hcounted : s.counted = s'.counted :=
    List.filter_congr fun i hi => by rw [h i (List.mem_range.mp hi)]
  rw [State.counts, State.counts, hcounted]
  exact List.map_congr_left fun i hi => by rw [h i (List.mem_range.mp (List.mem_of_mem_filter hi))]

/-- What of NODE a second list of counts with the same forest shares. -/
theorem get?_placeNodes_congr (m m' : List (Nat × Node)) {nodes : List Node} {i : Nat} (hi : i < nodes.length) :
    Store.get? (placeNodes m nodes) i = Store.get? (placeNodes m' nodes) i := by
  rw [(lists_placeNodes m nodes).get?_eq hi, (lists_placeNodes m' nodes).get?_eq hi]

theorem Forest.nodes_lt_of_ofNat {nodes : List Node} {i : Nat} (h : i < (BitVec.ofNat 10 nodes.length).toNat) :
    i < nodes.length := lt_of_lt_of_le h (by rw [BitVec.toNat_ofNat]; exact Nat.mod_le _ _)

theorem faultEntry_node (k : FaultKind) (s : State) : (faultEntry k s).node = s.node := by rw [faultEntry_fields]

theorem tbuild_congr {s s' t t' : State} (hs : Ready s) (hs' : Ready s') (h : ∀ i, i < 257 → s.freqAt i = s'.freqAt i)
    (hexec : exec .tbuild s = .next t) (hexec' : exec .tbuild s' = .next t') :
    t.sstate = t'.sstate ∧ t.nnodes = t'.nnodes ∧ (t.sstate = .idle → t.root = t'.root) ∧
      ∀ i, i < t.nnodes.toNat → Store.get? t.node i = Store.get? t'.node i := by
  have hcounts := State.counts_congr h
  have hforest : s.forest = s'.forest := by rw [State.forest, State.forest, hcounts]
  have hcounted : s.counted = s'.counted := by rw [← s.counts_fst, ← s'.counts_fst, hcounts]
  have htotal : s.totalCount = s'.totalCount := by rw [← s.totalCount_eq, ← s'.totalCount_eq, hcounts]
  by_cases hnone : s.counted = []
  · obtain ⟨m, hm, hbuilt⟩ := exec_tbuild_empty hs hnone
    obtain ⟨m', hm', hbuilt'⟩ := exec_tbuild_empty hs' (hcounted ▸ hnone)
    cases hm.symm.trans hexec
    cases hm'.symm.trans hexec'
    have hn := (faultEntry_nnodes .contract m).trans hbuilt.nnodes
    have hn' := (faultEntry_nnodes .contract m').trans hbuilt'.nnodes
    refine ⟨rfl, hn.trans hn'.symm, (fun hidle => by cases hidle), fun i hi => ?_⟩
    rw [hn] at hi
    cases hi
  · by_cases hsum : s.totalCount < 2 ^ 32
    · obtain ⟨b, e, hb, hsound, he, hnext⟩ := exec_tbuild_ok hs hnone hsum
      obtain ⟨b', e', hb', hsound', he', hnext'⟩ := exec_tbuild_ok hs' (hcounted ▸ hnone) (htotal ▸ hsum)
      obtain rfl : b = b' := Except.ok.inj (hb.symm.trans (hforest.trans hb'))
      obtain rfl : e = e' := List.singleton_inj.mp (he.symm.trans he')
      cases hnext.symm.trans hexec
      cases hnext'.symm.trans hexec'
      exact ⟨hs.trans hs'.symm, rfl, fun _ => rfl, fun i hi => get?_placeNodes_congr _ _ (Forest.nodes_lt_of_ofNat hi)⟩
    · obtain ⟨b, m, hb, -, hm, hbuilt⟩ := exec_tbuild_overflow hs (Nat.not_lt.mp hsum)
      obtain ⟨b', m', hb', -, hm', hbuilt'⟩ := exec_tbuild_overflow hs' (Nat.not_lt.mp (htotal ▸ hsum))
      obtain rfl : b = b' := Except.error.inj (hb.symm.trans (hforest.trans hb'))
      cases hm.symm.trans hexec
      cases hm'.symm.trans hexec'
      have hn := (faultEntry_nnodes .overflow m).trans hbuilt.nnodes
      have hn' := (faultEntry_nnodes .overflow m').trans hbuilt'.nnodes
      refine ⟨rfl, hn.trans hn'.symm, (fun hidle => by cases hidle), fun i hi => ?_⟩
      rw [hn] at hi
      rw [faultEntry_node, hbuilt.node, faultEntry_node, hbuilt'.node]
      exact get?_placeNodes_congr _ _ (Forest.nodes_lt_of_ofNat hi)

/-! ## A second TBUILD -/

/-- v is listed at index i with only smaller indices in front. -/
def ListedInOrder (m : List (Nat × Node)) (i : Nat) (v : Node) : Prop :=
  ∃ pre post, m = pre ++ (i, v) :: post ∧ ∀ c ∈ pre, c.1 < i

theorem put_past {pre post : List (Nat × Node)} {i : Nat} (v : Node) (h : ∀ c ∈ pre, c.1 < i) :
    Store.put (pre ++ post) i v = pre ++ Store.put post i v := by
  induction pre with
  | nil => rfl
  | cons c pre ih =>
    obtain ⟨hc, hpre⟩ := List.forall_mem_cons.mp h
    rw [List.cons_append, Store.put, if_neg (by omega), if_neg (by omega), ih hpre]
    rfl

theorem ListedInOrder.put_eq {m : List (Nat × Node)} {i : Nat} {v : Node} (h : ListedInOrder m i v) : Store.put m i v = m := by
  obtain ⟨pre, post, rfl, hpre⟩ := h
  rw [put_past v hpre, Store.put, if_neg (lt_irrefl i), if_pos rfl]

theorem listedInOrder_put (m : List (Nat × Node)) (i : Nat) (v : Node) : ListedInOrder (Store.put m i v) i v := by
  induction m with
  | nil => exact ⟨[], [], rfl, by simp⟩
  | cons c m ih =>
    rw [Store.put]
    split
    · exact ⟨[], c :: m, rfl, by simp⟩
    · split
      · exact ⟨[], m, rfl, by simp⟩
      · obtain ⟨pre, post, hput, hpre⟩ := ih
        exact ⟨c :: pre, post, by rw [hput]; rfl, List.forall_mem_cons.mpr ⟨by omega, hpre⟩⟩

theorem ListedInOrder.put_later {m : List (Nat × Node)} {i j : Nat} {v : Node} (h : ListedInOrder m i v) (hij : i < j)
    (w : Node) : ListedInOrder (Store.put m j w) i v := by
  obtain ⟨pre, post, rfl, hpre⟩ := h
  refine ⟨pre, Store.put post j w, ?_, hpre⟩
  rw [put_past w fun c hc => (hpre c hc).trans hij, Store.put, if_neg (by omega), if_neg (by omega)]

theorem listedInOrder_placeNodes (m : List (Nat × Node)) (nodes : List Node) :
    ∀ i v, nodes[i]? = some v → ListedInOrder (placeNodes m nodes) i v := by
  induction nodes using List.reverseRecOn with
  | nil => intro i v h; cases h
  | append_singleton nodes nd ih =>
    intro i v h
    rw [placeNodes_concat]
    rcases Nat.lt_or_ge i nodes.length with hi | hi
    · exact (ih i v (by rwa [List.getElem?_append_left hi] at h)).put_later hi nd
    · obtain rfl : i = nodes.length := by
        have := lt_length_of_getElem? h
        simp at this
        omega
      obtain rfl : nd = v := by simpa using h
      exact listedInOrder_put _ _ _

theorem placeNodes_eq_self {m : List (Nat × Node)} {nodes : List Node}
    (h : ∀ i v, nodes[i]? = some v → ListedInOrder m i v) : placeNodes m nodes = m := by
  induction nodes using List.reverseRecOn with
  | nil => rfl
  | append_singleton nodes nd ih =>
    rw [placeNodes_concat, ih fun i v hv => h i v (getElem?_concat_of_some hv nd)]
    exact (h _ _ (by simp)).put_eq

theorem placeNodes_placeNodes (m : List (Nat × Node)) (nodes : List Node) :
    placeNodes (placeNodes m nodes) nodes = placeNodes m nodes :=
  placeNodes_eq_self (listedInOrder_placeNodes m nodes)

/-- Settles O25: the forest is made of the counts alone, and its nodes already stand where a second TBUILD puts them. -/
theorem tbuildDependsOnCountsOnly : Obligations.TbuildDependsOnCountsOnly := by
  refine ⟨fun s s' t t' hs hs' h hexec hexec' => tbuild_congr hs hs' h hexec hexec', fun s t hs hexec ht => ?_⟩
  obtain ⟨hne, hsum⟩ := of_tbuild_completes hs hexec ht
  obtain ⟨b, e, hb, hsound, he, hnext⟩ := exec_tbuild_ok hs hne hsum
  cases hnext.symm.trans hexec
  obtain ⟨b', e', hb', hsound', he', hnext'⟩ := exec_tbuild_ok ht hne hsum
  obtain rfl : b = b' := Except.ok.inj (hb.symm.trans hb')
  obtain rfl : e = e' := List.singleton_inj.mp (he.symm.trans he')
  rw [hnext', placeNodes_placeNodes]

end Sys2Proof.Machine
end

/-! # Proofs about codes and the header that HDRW writes (30_encoding.md, 42_codes_header.md) -/

section

namespace Sys2Proof.Machine

open Sys2Proof.Laws (bitsN_length)

/-! ## The codes of a tree (R92) -/

/-- The codes of a tree whose root is internal, one level down. -/
theorem Tree.mem_codes_node {l r : Tree} {c : Nat × List Bool} :
    c ∈ (Tree.node l r).codes ↔
      (∃ p, (c.1, p) ∈ l.codes ∧ c.2 = false :: p) ∨ ∃ p, (c.1, p) ∈ r.codes ∧ c.2 = true :: p := by
  obtain ⟨x, q⟩ := c
  simp only [Tree.codes, List.mem_append, List.mem_map, Prod.exists, Prod.mk.injEq]
  constructor
  · rintro (⟨_, p, h, rfl, rfl⟩ | ⟨_, p, h, rfl, rfl⟩)
    · exact .inl ⟨p, h, rfl⟩
    · exact .inr ⟨p, h, rfl⟩
  · rintro (⟨p, h, rfl⟩ | ⟨p, h, rfl⟩)
    · exact .inl ⟨x, p, h, rfl, rfl⟩
    · exact .inr ⟨x, p, h, rfl, rfl⟩

theorem Tree.path_length_lt {tr : Tree} : ∀ {c : Nat × List Bool}, c ∈ tr.codes → c.2.length < tr.levels := by
  induction tr with
  | leaf x =>
    intro c h
    rw [List.mem_singleton.mp h]
    exact Nat.one_pos
  | node l r ihl ihr =>
    intro c h
    rw [Tree.levels]
    obtain ⟨p, hp, hc⟩ | ⟨p, hp, hc⟩ := Tree.mem_codes_node.mp h
    · have : p.length < l.levels := ihl hp
      rw [hc, List.length_cons]
      omega
    · have : p.length < r.levels := ihr hp
      rw [hc, List.length_cons]
      omega

/-- A path that begins another path of the tree ends at the same leaf. -/
theorem Tree.codes_prefixFree {tr : Tree} : ∀ {c d : Nat × List Bool}, c ∈ tr.codes → d ∈ tr.codes → c.2 <+: d.2 → c = d := by
  induction tr with
  | leaf x =>
    intro c d hc hd _
    rw [List.mem_singleton.mp hc, List.mem_singleton.mp hd]
  | node l r ihl ihr =>
    rintro ⟨x, p⟩ ⟨y, q⟩ hc hd hpre
    obtain ⟨p', hp, rfl⟩ | ⟨p', hp, rfl⟩ := Tree.mem_codes_node.mp hc <;>
      obtain ⟨q', hq, rfl⟩ | ⟨q', hq, rfl⟩ := Tree.mem_codes_node.mp hd <;>
      obtain ⟨hb, hpre⟩ := List.cons_prefix_cons.mp hpre
    · cases ihl hp hq hpre; rfl
    · cases hb
    · cases hb
    · cases ihr hp hq hpre; rfl

theorem Tree.mem_codes_of_codeOf {tr : Tree} {x : Nat} {p : List Bool} (h : tr.codeOf x = some p) : (x, p) ∈ tr.codes := by
  obtain ⟨c, hc, rfl⟩ := Option.map_eq_some_iff.mp h
  obtain ⟨hmem, hx⟩ := List.mem_filter.mp (List.mem_of_getLast? hc)
  obtain rfl : c.1 = x := by simpa using hx
  exact hmem

theorem WfTree.levels_le {nodes : List (Nat × Node)} {n : Nat} {root : NodeIdx} {tr : Tree} (h : WfTree nodes n root)
    (htree : treeAt nodes walkLevels root = some tr) : tr.levels ≤ 257 := by
  obtain ⟨⟨-, hcap, -⟩, -, -, hsize⟩ := h
  rw [htree, Option.map_some, Option.some.injEq] at hsize
  have := tr.two_mul_levels_le
  simp only [Config.nodeCap] at hcap
  omega

theorem WfTree.exists_tree {nodes : List (Nat × Node)} {n : Nat} {root : NodeIdx} (h : WfTree nodes n root) :
    ∃ tr, treeAt nodes walkLevels root = some tr := by
  obtain ⟨-, -, -, hsize⟩ := h
  obtain ⟨tr, htree, -⟩ := Option.map_eq_some_iff.mp hsize
  exact ⟨tr, htree⟩

/-- A valid flag over a well-formed tree: the tree that `NODE` holds. -/
theorem TreeOk.holdsTree {s : State} (h : TreeOk s) (hvalid : s.treeValid = true) : ∃ tr, HoldsTree s tr := by
  obtain ⟨tr, htree⟩ := (h hvalid).exists_tree
  exact ⟨tr, hvalid, h hvalid, htree⟩

/-- R66, R151: the entry of a path of at most 256 bits stands for that path. -/
theorem codeBits_entryOf {p : List Bool} (h : p.length ≤ 256) : codeBits (entryOf (some p)) = p := by
  have hlen : (BitVec.ofNat 9 p.length).toNat = p.length := by rw [BitVec.toNat_ofNat]; omega
  have hval : (BitVec.ofNat 256 (val p)).toNat = val p := by
    rw [BitVec.toNat_ofNat]
    exact Nat.mod_eq_of_lt ((val_lt p).trans_le (Nat.pow_le_pow_right (by decide) h))
  rw [codeBits, entryOf]
  simp only [hlen, hval]
  exact bitsN_val rfl

/-- R42 item 6: a valid code table is that of the tree. -/
theorem CodeOk.code_eq {s : State} (hcode : CodeOk s) (htreeOk : TreeOk s) (hvalid : s.codeValid = true) :
    ∃ tr, HoldsTree s tr ∧ s.code = tr.codeTable := by
  obtain ⟨htv, hwalk⟩ := hcode hvalid
  obtain ⟨tr, htr⟩ := htreeOk.holdsTree htv
  have ⟨_, _, htree⟩ := htr
  have htable : walk s.node walkLevels s.root 0#9 0#256 [] = some tr.codeTable :=
    walk_eq_assignCodes 0 0 [] htree htr.symbols_le
  exact ⟨tr, htr, Option.some.inj (hwalk.symm.trans htable)⟩

/-- What the table of a tree holds: valid entries are the paths of leaves, in full. -/
theorem HoldsTree.code_of_valid {s : State} {tr : Tree} (h : HoldsTree s tr) {x : Nat}
    (hv : (codeAt tr.codeTable x).valid = true) : (x, codeBits (codeAt tr.codeTable x)) ∈ tr.codes := by
  have ⟨_, hwf, htree⟩ := h
  rw [Tree.codeAt_codeTable] at hv ⊢
  cases hc : tr.codeOf x with
  | none => rw [hc] at hv; cases hv
  | some p =>
    have hmem := Tree.mem_codes_of_codeOf hc
    have hlen : p.length < tr.levels := Tree.path_length_lt hmem
    rw [codeBits_entryOf (by have := hwf.levels_le htree; omega)]
    exact hmem

/-- Settles O27: the table is that of a tree, and no path of a tree begins another one. -/
theorem codesArePrefixFree : Obligations.CodesArePrefixFree := by
  intro s hinv hvalid a b hab ha hb hpre
  obtain ⟨-, -, -, -, -, -, htreeOk, hcodeOk, -⟩ := hinv
  obtain ⟨tr, htr, hcode⟩ := CodeOk.code_eq hcodeOk htreeOk hvalid
  rw [hcode] at ha hb hpre
  exact hab (congrArg Prod.fst (Tree.codes_prefixFree (htr.code_of_valid ha) (htr.code_of_valid hb) hpre))

/-! ## HDRW (R155, R156) -/

theorem Tree.leaves_pos (tr : Tree) : 1 ≤ tr.leaves := by
  induction tr with
  | leaf x => exact le_rfl
  | node l r ihl ihr =>
    rw [Tree.leaves] at ihl ⊢
    rw [Tree.symbols, List.length_append]
    omega

theorem Tree.ser_length (tr : Tree) : tr.ser.length = 11 * tr.leaves - 1 := by
  induction tr with
  | leaf x => rw [Tree.ser, List.length_cons, bitsN_length]; rfl
  | node l r ihl ihr =>
    have hl := l.leaves_pos
    have hr := r.leaves_pos
    have hleaves : (Tree.node l r).leaves = l.leaves + r.leaves := by
      rw [Tree.leaves, Tree.symbols, List.length_append]
      rfl
    rw [Tree.ser_node_length, ihl, ihr, hleaves]
    omega

theorem hdrwBody_closed {s : State} (hvalid : s.treeValid = true) (hclosed : s.oclosed = true) :
    hdrwBody s = .raise .contract s.stkFree := by
  rw [hdrwBody, if_pos hvalid, wrBits_closed (s := s.stkFree) hclosed, Res.bind_raise]

theorem OutStep.onlyOutput_visible {s m : State} (hstep : OutStep s.begin.stkFree m) (hok : s.params.Ok)
    (hcap : s.outLen.toNat ≤ s.params.obufCap) : OnlyOutput s.visible { m with done := true }.visible := by
  obtain ⟨-, hgrows⟩ := hstep.grows hok hcap
  exact ⟨by rw [hstep.fields]; rfl, hgrows⟩

/-- Settles O28: HDRW is one write of the header's bits, completed, refused or cut. -/
theorem hdrwWritesHeader : Obligations.HdrwWritesHeader := by
  intro s tr hs htr
  obtain ⟨hvalid, -, htree⟩ := htr
  have hlen : (bitsN 32 s.params.magic.toNat ++ tr.ser).length = 32 + tr.ser.length := by
    rw [List.length_append, bitsN_length]
  have hbody (hopen : s.oclosed = false) :
      hdrwBody s.begin = writeAll (bitsN 32 s.params.magic.toNat ++ tr.ser) s.begin.stkFree :=
    hdrwBody_eq_writeAll hvalid htree hopen
  refine ⟨fun ⟨hopen, hpacc⟩ hroom => ?_, fun hclosed => ?_, fun j ⟨hopen, _⟩ hblocked => ?_⟩
  · have ⟨hok, hcap, _⟩ := hroom
    obtain ⟨m, hm, hstep, hbits⟩ := writeAll_ok (s := s.begin.stkFree) _ (hlen.symm ▸ hroom)
    refine ⟨{ m with done := true }, ?_, hstep.onlyOutput_visible hok (Nat.le_of_add_right_le hcap), ?_, tr.ser_length⟩
    · rw [exec_hdrw hs, hbody hopen, hm, finish_ok_idle (hstep.sstate.trans hs)]
    · rw [List.append_assoc]
      exact hbits
  · rw [exec_hdrw hs, hdrwBody_closed (s := s.begin) hvalid hclosed]
    exact ⟨_, rfl, faultEntry_stkFree_visible _ _⟩
  · obtain ⟨m, hm, hstep, hcnt, hacc, hlen', happended, hbits⟩ :=
      writeAll_blocked (s := s.begin.stkFree) (hlen.symm ▸ hblocked)
    refine ⟨m.lostOutput m, ?_, ?_, hlen', happended, (State.lostOutput_outBits hcnt).trans hbits⟩
    · rw [exec_hdrw hs, hbody hopen, hm, finish_raise, faultEntry_io_clear (hstep.oclosed.trans hopen) hcnt hacc]
    · rw [hstep.fields]
      rfl

end Sys2Proof.Machine
end

/-! # Proofs about HDRR token by token (42_codes_header.md R160, R161) -/

section

namespace Sys2Proof.Machine

open Sys2Proof.Laws (bitsN_length)

/-! ## Trees as tokens (R88 to R91) -/

/-- The tokens of a serialized tree, in preorder. -/
def Tree.tokens : Tree → List TreeToken
  | .leaf x => [some x]
  | .node l r => none :: (l.tokens ++ r.tokens)

theorem Tree.ser_eq_tokens (tr : Tree) : tr.ser = tr.tokens.flatMap tokenBits := by
  induction tr with
  | leaf x => simp [Tree.ser, Tree.tokens, tokenBits]
  | node l r ihl ihr => simp [Tree.ser, Tree.tokens, tokenBits, ihl, ihr]

theorem Tree.tokens_length (tr : Tree) : tr.tokens.length = tr.size := by
  induction tr with
  | leaf x => rfl
  | node l r ihl ihr =>
    rw [Tree.tokens, List.length_cons, List.length_append, ihl, ihr, Tree.size]

theorem openTrees_tokens (tr : Tree) : ∀ n, openTrees (n + 1) tr.tokens = n := by
  induction tr with
  | leaf x => intro n; simp [Tree.tokens]
  | node l r ihl ihr =>
    intro n
    rw [Tree.tokens, openTrees_internal, openTrees_append, ihl, ihr]

theorem openTrees_le_succ : ∀ (n : Nat) (ts : List TreeToken), openTrees n ts ≤ openTrees (n + 1) ts
  | n, [] => by simp
  | 0, _ :: _ => by simp
  | n + 1, none :: ts => openTrees_le_succ (n + 2) ts
  | n + 1, some _ :: ts => openTrees_le_succ n ts

/-- Tokens that leave no tree open begin with the tokens of a whole tree. -/
theorem exists_tokens_append : ∀ (k : Nat) (ts : List TreeToken), ts.length ≤ k → openTrees 1 ts = 0 →
    ∃ tr vs, ts = Tree.tokens tr ++ vs
  | _, [], _, h => by simp at h
  | k + 1, some x :: ts, _, _ => ⟨.leaf x, ts, rfl⟩
  | k + 1, none :: ts, hk, h => by
    rw [List.length_cons] at hk
    rw [openTrees_internal] at h
    have hl : openTrees 1 ts = 0 := Nat.le_zero.mp (h ▸ openTrees_le_succ 1 ts)
    obtain ⟨l, us, rfl⟩ := exists_tokens_append k ts (by omega) hl
    rw [List.length_append] at hk
    rw [openTrees_append, openTrees_tokens] at h
    obtain ⟨r, vs, rfl⟩ := exists_tokens_append k us (by omega) h
    exact ⟨.node l r, vs, by simp [Tree.tokens]⟩

/-- The tokens of a tree hold its symbols. -/
theorem Tree.mem_symbols_iff (tr : Tree) (x : Nat) : x ∈ tr.symbols ↔ some x ∈ tr.tokens := by
  induction tr with
  | leaf y => simp [Tree.symbols, Tree.tokens]
  | node l r ihl ihr => simp [Tree.symbols, Tree.tokens, ihl, ihr]

/-- Where a serialized tree is cut: after whole tokens that begin it, or in a leaf field. -/
theorem Tree.cut_tokens {tr : Tree} : ∀ {q : List Bool}, q <+: tr.ser → q ≠ tr.ser →
    ∃ ts, 0 < openTrees 1 ts ∧ (∀ x, some x ∈ ts → x ∈ tr.symbols) ∧ ts.length < tr.size ∧
      (q = ts.flatMap tokenBits ∨ ∃ f, f.length < 9 ∧ q = ts.flatMap tokenBits ++ true :: f) := by
  induction tr with
  | leaf x =>
    intro q hq hne
    refine ⟨[], by simp, by simp, Nat.one_pos, ?_⟩
    cases q with
    | nil => exact .inl rfl
    | cons b f =>
      obtain ⟨rfl, hf⟩ := List.cons_prefix_cons.mp hq
      refine .inr ⟨f, lt_of_le_of_ne (bitsN_length 9 x ▸ hf.length_le) fun hlen => hne ?_, rfl⟩
      rw [Tree.ser, hf.eq_of_length (hlen.trans (bitsN_length 9 x).symm)]
  | node l r ihl ihr =>
    intro q hq hne
    cases q with
    | nil => exact ⟨[], by simp, by simp, Nat.succ_pos _, .inl rfl⟩
    | cons b q =>
      obtain ⟨rfl, hq' : q <+: l.ser ++ r.ser⟩ := List.cons_prefix_cons.mp hq
      have hne' : q ≠ l.ser ++ r.ser := fun h => hne (by rw [h, Tree.ser])
      rcases List.prefix_or_prefix_of_prefix hq' (List.prefix_append l.ser r.ser) with hql | ⟨q', rfl⟩
      · by_cases heq : q = l.ser
        · refine ⟨none :: l.tokens, ?_, ?_, ?_, .inl ?_⟩
          · rw [openTrees_internal, openTrees_tokens]
            exact Nat.one_pos
          · intro x hx
            exact List.mem_append_left _ ((l.mem_symbols_iff x).mpr (by simpa using hx))
          · rw [List.length_cons, l.tokens_length, Tree.size]
            have := r.size_pos
            omega
          · rw [heq, l.ser_eq_tokens]
            rfl
        · obtain ⟨ts, hopen, hsym, hlen, hbits⟩ := ihl hql heq
          refine ⟨none :: ts, hopen.trans_le (openTrees_le_succ 1 ts), ?_, ?_, ?_⟩
          · intro x hx
            exact List.mem_append_left _ (hsym x (by simpa using hx))
          · rw [List.length_cons, Tree.size]
            omega
          · rcases hbits with rfl | ⟨f, hf, rfl⟩
            · exact .inl rfl
            · exact .inr ⟨f, hf, rfl⟩
      · have hqr : q' <+: r.ser := (List.prefix_append_right_inj _).mp hq'
        obtain ⟨ts, hopen, hsym, hlen, hbits⟩ := ihr hqr fun h => hne' (by rw [h])
        refine ⟨none :: (l.tokens ++ ts), ?_, ?_, ?_, ?_⟩
        · rw [openTrees_internal, openTrees_append, openTrees_tokens]
          exact hopen
        · intro x hx
          rcases List.mem_append.mp (show some x ∈ l.tokens ++ ts by simpa using hx) with hx | hx
          · exact List.mem_append_left _ ((l.mem_symbols_iff x).mpr hx)
          · exact List.mem_append_right _ (hsym x hx)
        · rw [List.length_cons, List.length_append, l.tokens_length, Tree.size]
          omega
        · rcases hbits with rfl | ⟨f, hf, rfl⟩
          · exact .inl (by rw [l.ser_eq_tokens, List.flatMap_cons, List.flatMap_append]; rfl)
          · refine .inr ⟨f, hf, ?_⟩
            rw [l.ser_eq_tokens, List.flatMap_cons, List.flatMap_append, List.append_assoc, List.append_assoc]
            rfl

/-! ## Reads of bits that are there (R112) -/

theorem BitsReadable.left {s : State} {p a b : Nat} (h : BitsReadable s p (a + b)) : BitsReadable s p a :=
  fun k hk => h k (by omega)

theorem BitsReadable.right {s : State} {p a b : Nat} (h : BitsReadable s p (a + b)) : BitsReadable s (p + a) b :=
  fun k hk => by
    rw [Nat.add_assoc]
    exact h (a + k) (by omega)

section
variable {n : Nat} {s : State} {bs rest : List Bool}

theorem upos_le_of_bits (hn : 1 ≤ n) (hlen : bs.length = n) (h : s.restBits = bs ++ rest) :
    s.upos.toNat + n ≤ 8 * s.inLen.toNat :=
  upos_add_le_of_restBits hn (by rw [h, List.length_append]; omega)

theorem restBits_advance_of_bits (hn : 1 ≤ n) (hlen : bs.length = n) (h : s.restBits = bs ++ rest) :
    (s.advance n).restBits = rest := by
  rw [State.restBits_advance (upos_le_of_bits hn hlen h), h, List.drop_left' hlen]

theorem needBits_bits (hn : 1 ≤ n) (hlen : bs.length = n) (hread : BitsReadable s s.upos.toNat n)
    (h : s.restBits = bs ++ rest) : needBits n s = .ok (BitVec.ofNat 32 (val bs)) (s.advance n) := by
  rw [needBits, rdBits_value (upos_le_of_bits hn hlen h) hread, Res.bind_ok, h, List.take_left' hlen]

theorem needBits_io (hn : 1 ≤ n) (hlen : n ≤ s.restBits.length) (hfail : BitsUnreadable s s.upos.toNat n) :
    needBits n s = .raise .io s := by
  rw [needBits, rdBits_io (upos_add_le_of_restBits hn hlen) hfail, Res.bind_raise]

end

/-! ## The head of `DeserTree()` (R160, R161) -/

section
variable {f : Nat} {s : State} {rest : List Bool}

/-- The marker bit is read first. -/
theorem deserTree_raise_marker {k : FaultKind} (h : needBits 1 s = .raise k s) : deserTree (f + 1) s = .raise k s := by
  rw [deserTree, h, Res.bind_raise]

/-- Room for the node is checked when its marker bit is read. -/
theorem deserTree_full {b : Bool} (h : s.restBits = b :: rest) (hread : BitsReadable s s.upos.toNat 1)
    (hfull : s.nnodes.toNat = 513) : deserTree (f + 1) s = .raise .malformed (s.advance 1) := by
  have halloc : allocNode (s.advance 1) = .raise .malformed (s.advance 1) :=
    ((allocNode_cases (s.advance 1)).resolve_left fun h => h.1 hfull).2
  rw [deserTree, needBits_bits (bs := [b]) le_rfl rfl hread h, Res.bind_ok, halloc, Res.bind_raise]

variable (hroom : s.nnodes.toNat < 513)
include hroom

theorem deserTree_marker {b : Bool} (h : s.restBits = b :: rest) (hread : BitsReadable s s.upos.toNat 1) :
    deserTree (f + 1) s =
      if b then (needBits 9 s.openNode).bind fun v m =>
        (recordLeaf s.nnodes (v.setWidth 9) m).bind fun _ m => .ok s.nnodes m
      else (deserTree f s.openNode).bind fun l m =>
        (deserTree f m).bind fun r m => .ok s.nnodes (recordInternal s.nnodes l r m) := by
  rw [deserTree, needBits_bits (bs := [b]) le_rfl rfl hread h, Res.bind_ok, allocNode_ok (s := s.advance 1) hroom,
    Res.bind_ok]
  cases b <;> rfl

theorem deserTree_internalToken (h : s.restBits = false :: rest) (hread : BitsReadable s s.upos.toNat 1) :
    deserTree (f + 1) s = (deserTree f s.openNode).bind fun l m =>
      (deserTree f m).bind fun r m => .ok s.nnodes (recordInternal s.nnodes l r m) := by
  rw [deserTree_marker hroom h hread]
  rfl

theorem deserTree_raise_field {k : FaultKind} (h : s.restBits = true :: rest) (hread : BitsReadable s s.upos.toNat 1)
    (hfield : needBits 9 s.openNode = .raise k s.openNode) : deserTree (f + 1) s = .raise k s.openNode := by
  rw [deserTree_marker hroom h hread, if_pos rfl, hfield, Res.bind_raise]

/-- A leaf field that is there is recorded, or refused as reserved (R91). -/
theorem deserTree_field {x : Nat} (h : s.restBits = true :: (bitsN 9 x ++ rest))
    (hread : BitsReadable s s.upos.toNat 10) :
    deserTree (f + 1) s =
      (recordLeaf s.nnodes (BitVec.ofNat 9 x) (s.openNode.advance 9)).bind fun _ m => .ok s.nnodes m := by
  have hle : s.upos.toNat + 1 ≤ 8 * s.inLen.toNat := upos_le_of_bits (bs := [true]) le_rfl rfl h
  have hrest : s.openNode.restBits = bitsN 9 x ++ rest := restBits_advance_of_bits (bs := [true]) le_rfl rfl h
  have hread9 : BitsReadable s.openNode s.openNode.upos.toNat 9 := by
    rw [State.openNode_upos hle]
    exact (BitsReadable.right (a := 1) (b := 9) hread : _)
  have hv : (BitVec.ofNat 32 (val (bitsN 9 x))).setWidth 9 = BitVec.ofNat 9 x := by
    rw [val_bitsN]
    refine BitVec.eq_of_toNat_eq ?_
    rw [BitVec.toNat_setWidth, BitVec.toNat_ofNat, BitVec.toNat_ofNat]
    omega
  rw [deserTree_marker hroom h (BitsReadable.left (a := 1) (b := 9) hread), if_pos rfl,
    needBits_bits (by omega) (bitsN_length 9 x) hread9 hrest, Res.bind_ok, hv]

end

/-! ## Tokens read (R160) -/

/-- From s to t the tokens are read: their bits are consumed, a node allocated for each, no other entry of `NODE` and
nothing else changed. -/
structure TokensRead (s t : State) (ts : List TreeToken) : Prop where
  fields : t = { s with upos := t.upos, nnodes := t.nnodes, node := t.node }
  upos : t.upos.toNat = s.upos.toNat + (ts.flatMap tokenBits).length
  nnodes : t.nnodes.toNat = s.nnodes.toNat + ts.length
  kept : ∀ i, i < s.nnodes.toNat ∨ t.nnodes.toNat ≤ i → Store.get? t.node i = Store.get? s.node i

theorem TokensRead.refl (s : State) : TokensRead s s [] := ⟨rfl, rfl, rfl, fun _ _ => rfl⟩

theorem TokensRead.trans {s m t : State} {us vs : List TreeToken} (h : TokensRead s m us) (g : TokensRead m t vs) :
    TokensRead s t (us ++ vs) where
  fields := by rw [g.fields, h.fields]
  upos := by rw [g.upos, h.upos, List.flatMap_append, List.length_append, Nat.add_assoc]
  nnodes := by rw [g.nnodes, h.nnodes, List.length_append, Nat.add_assoc]
  kept i hi := by
    have h1 := h.nnodes
    have h2 := g.nnodes
    rw [g.kept i (by omega), h.kept i (by omega)]

theorem TokensRead.openNode {s : State} (hroom : s.nnodes.toNat < 513) (hle : s.upos.toNat + 1 ≤ 8 * s.inLen.toNat) :
    TokensRead s s.openNode [none] where
  fields := by cases s; rfl
  upos := State.openNode_upos hle
  nnodes := State.openNode_nnodes hroom
  kept _ _ := rfl

theorem TreeRead.tokensRead {s t : State} {tr : Tree} (h : TreeRead s t tr) : TokensRead s t tr.tokens :=
  ⟨h.fields, by rw [h.upos, tr.ser_eq_tokens], by rw [h.nnodes, tr.tokens_length], h.kept⟩

section
variable {s t : State} {ts : List TreeToken} {rest : List Bool}

theorem TokensRead.inBits (h : TokensRead s t ts) : t.inBits = s.inBits := by rw [h.fields]; rfl

theorem TokensRead.params (h : TokensRead s t ts) : t.params = s.params := by rw [h.fields]

theorem TokensRead.restBits (h : TokensRead s t ts) (hs : s.restBits = ts.flatMap tokenBits ++ rest) : t.restBits = rest := by
  rw [State.restBits, h.inBits, h.upos, ← List.drop_drop]
  exact (congrArg (List.drop _) hs).trans (List.drop_left' rfl)

theorem TokensRead.readable (h : TokensRead s t ts) {n : Nat}
    (hread : BitsReadable s s.upos.toNat ((ts.flatMap tokenBits).length + n)) : BitsReadable t t.upos.toNat n := by
  have hread' := BitsReadable.right hread
  rw [h.upos]
  unfold BitsReadable
  rw [h.params]
  exact hread'

end

/-- `deserTree_reads`, asking only that the bits of the tree can be read. -/
theorem deserTree_readsTree {tr : Tree} : ∀ {f : Nat} {s : State} {rest : List Bool}, tr.levels ≤ f →
    BitsReadable s s.upos.toNat tr.ser.length → s.nnodes.toNat + tr.size ≤ 513 → (∀ x ∈ tr.symbols, x ≤ 256) →
    s.restBits = tr.ser ++ rest → ∃ t, deserTree f s = .ok s.nnodes t ∧ TreeRead s t tr := by
  induction tr with
  | leaf x =>
    intro f s rest hf hread hroom hsym h
    obtain ⟨f, rfl⟩ := Nat.exists_eq_add_of_le' (show 1 ≤ f from hf)
    have hx : x ≤ 256 := hsym x (List.mem_singleton_self x)
    have hlen : (Tree.leaf x).ser.length = 10 := congrArg Nat.succ (bitsN_length 9 x)
    rw [hlen] at hread
    have hrec := (recordLeaf_cases s.nnodes (BitVec.ofNat 9 x) (s.openNode.advance 9)).resolve_right fun hc => by
      rw [BitVec.toNat_ofNat] at hc
      omega
    refine ⟨_, ?_, .leaf x hroom (upos_le_of_bits (by omega) hlen h)⟩
    rw [deserTree_field hroom h hread, hrec.2, Res.bind_ok]
  | node l r ihl ihr =>
    intro f s rest hf hread hroom hsym h
    have hsize : (Tree.node l r).size = l.size + r.size + 1 := rfl
    rw [Tree.levels] at hf
    rw [Tree.ser_node_length] at hread
    obtain ⟨f, rfl⟩ := Nat.exists_eq_add_of_le' (show 1 ≤ f by omega)
    rw [Tree.ser, List.cons_append, List.append_assoc] at h
    have hle : s.upos.toNat + 1 ≤ 8 * s.inLen.toNat := upos_le_of_bits (bs := [false]) le_rfl rfl h
    have hopen := TokensRead.openNode (s := s) (by omega) hle
    have hrest : s.openNode.restBits = l.ser ++ (r.ser ++ rest) := hopen.restBits h
    have hreadl : BitsReadable s.openNode s.openNode.upos.toNat (l.ser.length + r.ser.length) :=
      hopen.readable (by rw [← Nat.add_assoc]; exact hread)
    have hnopen : s.openNode.nnodes.toNat = s.nnodes.toNat + 1 := State.openNode_nnodes (by omega)
    obtain ⟨m, hm, hl⟩ := ihl (f := f) (s := s.openNode) (by omega) hreadl.left (by omega)
      (fun x hx => hsym x (List.mem_append_left _ hx)) hrest
    have hmid := hl.nnodes
    obtain ⟨t, ht, hr⟩ := ihr (f := f) (s := m) (by omega)
      (hl.tokensRead.readable (by rw [← l.ser_eq_tokens]; exact hreadl)) (by omega)
      (fun x hx => hsym x (List.mem_append_right _ hx)) (hl.restBits hrest)
    refine ⟨_, ?_, .node hle hroom hl hr⟩
    rw [deserTree_internalToken (by omega) h (BitsReadable.left (Nat.add_assoc _ _ _ ▸ hread)), hm, Res.bind_ok, ht,
      Res.bind_ok]

/-- After tokens that begin a tree, what `DeserTree` raises at the next node it raises as a whole. -/
theorem deserTree_tokens (k : Nat) : ∀ {f : Nat} {s : State} {ts : List TreeToken} {rest : List Bool}, ts.length ≤ k →
    0 < openTrees 1 ts → (∀ x, some x ∈ ts → x ≤ 256) → s.nnodes.toNat + ts.length ≤ 513 → 514 ≤ f + s.nnodes.toNat →
    BitsReadable s s.upos.toNat (ts.flatMap tokenBits).length → s.restBits = ts.flatMap tokenBits ++ rest →
    ∃ g t, TokensRead s t ts ∧ ∀ e m, deserTree (g + 1) t = .raise e m → deserTree f s = .raise e m := by
  induction k with
  | zero =>
    intro f s ts rest hk _ _ hroom hf _ _
    obtain rfl := List.length_eq_zero_iff.mp (Nat.le_zero.mp hk)
    obtain ⟨g, rfl⟩ := Nat.exists_eq_add_of_le' (show 1 ≤ f by rw [List.length_nil] at hroom; omega)
    exact ⟨g, s, .refl s, fun e m h => h⟩
  | succ k ih =>
    intro f s ts rest hk hopen hsym hroom hf hread h
    obtain ⟨f, rfl⟩ := Nat.exists_eq_add_of_le' (show 1 ≤ f by omega)
    match ts with
    | [] => exact ⟨f, s, .refl s, fun e m h => h⟩
    | some x :: ts => simp at hopen
    | none :: ts =>
      rw [List.length_cons] at hk hroom
      have hbits : s.restBits = false :: (ts.flatMap tokenBits ++ rest) := h
      have hread' : BitsReadable s s.upos.toNat (1 + (ts.flatMap tokenBits).length) := by
        rw [Nat.add_comm]
        exact hread
      have hle : s.upos.toNat + 1 ≤ 8 * s.inLen.toNat := upos_le_of_bits (bs := [false]) le_rfl rfl hbits
      have hnode := TokensRead.openNode (s := s) (by omega) hle
      have hnopen : s.openNode.nnodes.toNat = s.nnodes.toNat + 1 := State.openNode_nnodes (by omega)
      have hrest : s.openNode.restBits = ts.flatMap tokenBits ++ rest := hnode.restBits hbits
      have hreadn : BitsReadable s.openNode s.openNode.upos.toNat (ts.flatMap tokenBits).length := hnode.readable hread'
      have hhead := deserTree_internalToken (f := f) (by omega) hbits hread'.left
      have hsym' : ∀ x, some x ∈ ts → x ≤ 256 := fun x hx => hsym x (.tail _ hx)
      by_cases hleft : 0 < openTrees 1 ts
      · obtain ⟨g, t, ht, hraise⟩ := ih (f := f) (s := s.openNode) (by omega) hleft hsym' (by omega) (by omega) hreadn hrest
        exact ⟨g, t, hnode.trans ht, fun e m he => by rw [hhead, hraise e m he, Res.bind_raise]⟩
      · obtain ⟨l, us, rfl⟩ := exists_tokens_append k ts (by omega) (by omega)
        rw [List.length_append, l.tokens_length] at hk hroom
        rw [openTrees_internal, openTrees_append, openTrees_tokens] at hopen
        rw [List.flatMap_append, List.length_append, ← l.ser_eq_tokens] at hreadn
        rw [List.flatMap_append, List.append_assoc, ← l.ser_eq_tokens] at hrest
        have hlevels := l.two_mul_levels_le
        have hpos := l.size_pos
        obtain ⟨m, hm, hl⟩ := deserTree_readsTree (f := f) (s := s.openNode) (by omega) hreadn.left (by omega)
          (fun x hx => hsym' x (List.mem_append_left _ ((l.mem_symbols_iff x).mp hx))) hrest
        have hmid := hl.nnodes
        obtain ⟨g, t, ht, hraise⟩ := ih (f := f) (s := m) (ts := us) (by omega) hopen
          (fun x hx => hsym' x (List.mem_append_right _ hx)) (by omega) (by omega)
          (hl.tokensRead.readable (by rw [← l.ser_eq_tokens]; exact hreadn)) (hl.restBits hrest)
        refine ⟨g, t, hnode.trans (hl.tokensRead.trans ht), fun e m' he => ?_⟩
        rw [hhead, hm, Res.bind_ok, hraise e m' he, Res.bind_raise]

end Sys2Proof.Machine
end

/-! # Proofs about what HDRR accepts and refuses (42_codes_header.md, 60_exceptions.md) -/

section

namespace Sys2Proof.Machine

open Sys2Proof.Laws (bitsN_length)

/-! ## `STK` and `SP` aside (R29) -/

/-- Fault entry neither reads nor writes `STK` and `SP`. -/
theorem faultEntry_visible_congr {k : FaultKind} {s t : State} (h : t.visible = s.visible) :
    (faultEntry k t).visible = (faultEntry k s).visible := by
  have ht : t = { s with stk := t.stk, sp := t.sp, freeCtr := t.freeCtr } := by
    have hst : ∀ u : State, u = { u.visible with stk := u.stk, sp := u.sp, freeCtr := u.freeCtr } := fun _ => rfl
    exact (hst t).trans (by rw [h]; rfl)
  have hblock : t.outBlocked = s.outBlocked := by rw [ht]; rfl
  have hclosed : t.oclosed = s.oclosed := by rw [ht]
  have hpcnt : t.pcnt = s.pcnt := by rw [ht]
  unfold faultEntry State.closeQuietly
  rw [hblock, hclosed, hpcnt]
  generalize t.stk = stk at ht
  generalize t.sp = sp at ht
  generalize t.freeCtr = ctr at ht
  rw [ht]
  split_ifs <;> rfl

/-! ## HDRR after the magic value -/

/-- HDRR started from s has consumed a bits and allocated n nodes. -/
structure HeaderAt (s m : State) (a n : Nat) : Prop where
  fields : m = { s.begin.hdrrStart with
    upos := s.upos + BitVec.ofNat 32 a, nnodes := BitVec.ofNat 10 n, node := m.node }
  kept : ∀ i, n ≤ i → Store.get? m.node i = Store.get? s.node i

section
variable {s m : State} {a n : Nat}

theorem headerAt_start (s : State) : HeaderAt s s.begin.hdrrStart 0 0 := by
  refine ⟨?_, fun _ _ => rfl⟩
  rw [show BitVec.ofNat 32 0 = 0#32 from rfl, BitVec.add_zero]
  rfl

theorem HeaderAt.advance (h : HeaderAt s m a n) (k : Nat) : HeaderAt s (m.advance k) (a + k) n := by
  refine ⟨?_, h.kept⟩
  rw [BitVec.ofNat_add, ← BitVec.add_assoc]
  conv => lhs; rw [h.fields]
  rfl

theorem HeaderAt.openNode (h : HeaderAt s m a n) : HeaderAt s m.openNode (a + 1) (n + 1) := by
  have hadv := h.advance 1
  refine ⟨?_, fun i hi => h.kept i (by omega)⟩
  rw [BitVec.ofNat_add (n := 10), State.openNode]
  conv => lhs; rw [hadv.fields]
  rfl

theorem TokensRead.headerAt {ts : List TreeToken} (hle : s.upos.toNat + 32 ≤ 8 * s.inLen.toNat)
    (h : TokensRead s.treeBitsStart m ts) : HeaderAt s m (32 + (ts.flatMap tokenBits).length) ts.length := by
  have hn : m.nnodes.toNat = ts.length := by rw [h.nnodes]; exact Nat.zero_add _
  have hu : m.upos = s.upos + BitVec.ofNat 32 (32 + (ts.flatMap tokenBits).length) := by
    have hstart : s.treeBitsStart.upos.toNat = s.upos.toNat + 32 := State.advance_toNat (s := s.begin.hdrrStart) hle
    have hm := h.upos
    rw [hstart] at hm
    have := m.upos.isLt
    refine BitVec.eq_of_toNat_eq ?_
    rw [BitVec.toNat_add, BitVec.toNat_ofNat]
    omega
  refine ⟨?_, fun i hi => h.kept i (.inr (hn ▸ hi))⟩
  rw [← hu, ← NodeIdx.eq_ofNat hn]
  exact h.fields

/-- R211, R213: the state in which HDRR faults. -/
theorem HeaderAt.headerFault (h : HeaderAt s m a n) (k : FaultKind) : HeaderFault k s (faultEntry k m) a n := by
  have hnode := faultEntry_node k m
  refine ⟨?_, fun i hi => by rw [hnode]; exact h.kept i hi⟩
  refine faultEntry_visible_congr ?_
  rw [hnode]
  conv => lhs; rw [h.fields]
  rfl

theorem HeaderAt.upos_toNat (h : HeaderAt s m a n) (hle : s.upos.toNat + a ≤ 8 * s.inLen.toNat) :
    m.upos.toNat = s.upos.toNat + a := by
  have := s.inLen.isLt
  rw [h.fields, BitVec.toNat_add, BitVec.toNat_ofNat]
  omega

end

/-- R158: the magic value that is `MAGIC` is consumed, then the tree is read. -/
theorem hdrrBody_magic {s : State} {rest : List Bool} (hread : BitsReadable s s.upos.toNat 32)
    (h : s.restBits = bitsN 32 s.params.magic.toNat ++ rest) :
    hdrrBody s.begin = (deserTree deserLevels s.treeBitsStart).bind fun r m => .ok () (m.setTree r) := by
  have hmagic : BitVec.ofNat 32 (val (bitsN 32 s.params.magic.toNat)) = s.params.magic := by
    rw [val_bitsN, Nat.mod_eq_of_lt s.params.magic.isLt, BitVec.ofNat_toNat, BitVec.setWidth_eq]
  have hneed : needBits 32 s.begin.hdrrStart = _ :=
    needBits_bits (s := s.begin.hdrrStart) (by omega) (bitsN_length 32 _) hread h
  have hcheck : checkMagic s.params.magic s.treeBitsStart = .ok () s.treeBitsStart := if_pos rfl
  rw [hdrrBody, Config.magicBits, hneed, Res.bind_ok, hmagic, ← State.treeBitsStart, hcheck, Res.bind_ok]

/-- The tokens of a header that begin a tree, and what comes after them. -/
structure HeaderTokens (s : State) (ts : List TreeToken) (rest : List Bool) : Prop where
  bits : s.restBits = bitsN 32 s.params.magic.toNat ++ ts.flatMap tokenBits ++ rest
  prefixOk : TreePrefix ts
  length : ts.length ≤ 513
  readable : BitsReadable s s.upos.toNat (32 + (ts.flatMap tokenBits).length)

section
variable {s : State} {ts : List TreeToken} {rest : List Bool}

theorem HeaderTokens.upos_le (h : HeaderTokens s ts rest) :
    s.upos.toNat + (32 + (ts.flatMap tokenBits).length + rest.length) ≤ 8 * s.inLen.toNat := by
  have hlen := congrArg List.length h.bits
  rw [State.restBits_length, List.length_append, List.length_append, bitsN_length] at hlen
  omega

/-- After the tokens, what `DeserTree` raises at the next node HDRR raises. -/
theorem HeaderTokens.raises (hs : Ready s) (h : HeaderTokens s ts rest) :
    ∃ g t, HeaderAt s t (32 + (ts.flatMap tokenBits).length) ts.length ∧ t.restBits = rest ∧
      t.upos.toNat = s.upos.toNat + 32 + (ts.flatMap tokenBits).length ∧ t.nnodes.toNat = ts.length ∧
      t.params = s.params ∧
      ∀ k m, deserTree (g + 1) t = .raise k m → exec .hdrr s = .next (faultEntry k m) := by
  obtain ⟨hopen, hsym⟩ := h.prefixOk
  have hle := h.upos_le
  have hbits := h.bits
  have hread := h.readable
  rw [List.append_assoc] at hbits
  have hstart : s.treeBitsStart.upos.toNat = s.upos.toNat + 32 :=
    State.advance_toNat (s := s.begin.hdrrStart) (show s.upos.toNat + 32 ≤ 8 * s.inLen.toNat by omega)
  have hrest : s.treeBitsStart.restBits = ts.flatMap tokenBits ++ rest :=
    restBits_advance_of_bits (s := s.begin.hdrrStart) (by omega) (bitsN_length 32 _) hbits
  have hreadt : BitsReadable s.treeBitsStart s.treeBitsStart.upos.toNat (ts.flatMap tokenBits).length := by
    rw [hstart]
    exact hread.right
  obtain ⟨g, t, ht, hraise⟩ := deserTree_tokens ts.length (f := deserLevels) (s := s.treeBitsStart) le_rfl hopen
    (fun x hx => hsym _ hx x rfl) (show 0 + ts.length ≤ 513 by have := h.length; omega) le_rfl hreadt hrest
  refine ⟨g, t, ht.headerAt (by omega), ht.restBits hrest, by rw [ht.upos, hstart], ?_, ht.params, fun k m hm => ?_⟩
  · rw [ht.nnodes]
    exact Nat.zero_add _
  · rw [exec_hdrr hs, hdrrBody_magic hread.left hbits, hraise k m hm, Res.bind_raise, finish_raise]

/-- A marker bit that is missing or cannot be read. -/
theorem HeaderTokens.marker_fault (hs : Ready s) (h : HeaderTokens s ts rest) {k : FaultKind}
    (hk : ∀ t : State, t.restBits = rest → t.upos.toNat = s.upos.toNat + 32 + (ts.flatMap tokenBits).length →
      t.params = s.params → needBits 1 t = .raise k t) :
    ∃ t, exec .hdrr s = .next t ∧ HeaderFault k s t (32 + (ts.flatMap tokenBits).length) ts.length := by
  obtain ⟨g, t, ht, hrest, hupos, -, hparams, hraise⟩ := h.raises hs
  exact ⟨_, hraise k t (deserTree_raise_marker (hk t hrest hupos hparams)), ht.headerFault k⟩

/-- A leaf field that is missing or cannot be read. -/
theorem HeaderTokens.field_fault {f : List Bool} (hs : Ready s) (h : HeaderTokens s ts (true :: f)) (hroom : ts.length < 513)
    (hmarker : (s.upos.toNat + 32 + (ts.flatMap tokenBits).length) / 8 ∉ s.params.inErr) {k : FaultKind}
    (hk : ∀ t : State, t.restBits = f → t.upos.toNat = s.upos.toNat + 32 + (ts.flatMap tokenBits).length + 1 →
      t.params = s.params → needBits 9 t = .raise k t) :
    ∃ t, exec .hdrr s = .next t ∧
      HeaderFault k s t (32 + (ts.flatMap tokenBits).length + 1) (ts.length + 1) := by
  obtain ⟨g, t, ht, hrest, hupos, hnodes, hparams, hraise⟩ := h.raises hs
  have hread : BitsReadable t t.upos.toNat 1 := fun j hj => by
    obtain rfl : j = 0 := by omega
    rw [hupos, hparams]
    exact hmarker
  have hle : t.upos.toNat + 1 ≤ 8 * t.inLen.toNat := upos_le_of_bits (bs := [true]) le_rfl rfl hrest
  have hfield : needBits 9 t.openNode = .raise k t.openNode :=
    hk t.openNode (restBits_advance_of_bits (bs := [true]) le_rfl rfl hrest)
      (by rw [State.openNode_upos hle, hupos]) hparams
  exact ⟨_, hraise k _ (deserTree_raise_field (by omega) hrest hread hfield), ht.openNode.headerFault k⟩

end

/-! ## The header HDRR accepts, and read errors (R160 to R162, R203) -/

/-- R64: a tree read in preorder is well-formed. -/
theorem PreorderAt.node_cases {nodes : List (Nat × Node)} {tr : Tree} : ∀ {i k : Nat}, PreorderAt nodes i tr → i ≤ k →
    k < i + tr.size →
    (∃ x ∈ tr.symbols, Store.get? nodes k = some (leafNode (BitVec.ofNat 9 x) 0#32)) ∨
    (∃ d, k + 1 + d < i + tr.size ∧ 0 < d ∧
      Store.get? nodes k = some (internalNode 0#32 (BitVec.ofNat 10 (k + 1)) (BitVec.ofNat 10 (k + 1 + d)))) := by
  induction tr with
  | leaf x =>
    intro i k h hik hk
    obtain rfl : i = k := by rw [Tree.size] at hk; omega
    exact .inl ⟨x, List.mem_singleton_self x, h⟩
  | node l r ihl ihr =>
    intro i k h hik hk
    obtain ⟨hroot, hl, hr⟩ := h
    rw [Tree.size] at hk ⊢
    have hlpos := l.size_pos
    have hrpos := r.size_pos
    rcases Nat.lt_or_ge i k with hlt | hge
    · rcases Nat.lt_or_ge k (i + 1 + l.size) with hkl | hkr
      · rcases ihl hl hlt hkl with ⟨x, hx, hnode⟩ | ⟨d, hd, hpos, hnode⟩
        · exact .inl ⟨x, List.mem_append_left _ hx, hnode⟩
        · exact .inr ⟨d, by omega, hpos, hnode⟩
      · rcases ihr hr hkr (by omega) with ⟨x, hx, hnode⟩ | ⟨d, hd, hpos, hnode⟩
        · exact .inl ⟨x, List.mem_append_right _ hx, hnode⟩
        · exact .inr ⟨d, by omega, hpos, hnode⟩
    · obtain rfl : i = k := by omega
      exact .inr ⟨l.size, by omega, hlpos, hroot⟩

/-- The children of the nodes from i on: every node of the tree but its root, once. -/
theorem PreorderAt.children_perm {nodes : List (Nat × Node)} {tr : Tree} : ∀ {i : Nat}, PreorderAt nodes i tr →
    i + tr.size ≤ 1024 →
    ((List.range' i tr.size).flatMap fun k => ((Store.get? nodes k).map Node.kids).getD []).Perm
      (List.range' (i + 1) (tr.size - 1)) := by
  induction tr with
  | leaf x =>
    intro i h _
    have h' : Store.get? nodes i = some (leafNode (BitVec.ofNat 9 x) 0#32) := h
    simp [Tree.size, h']
  | node l r ihl ihr =>
    intro i h hi
    obtain ⟨hroot, hl, hr⟩ := h
    have hlpos := l.size_pos
    have hrpos := r.size_pos
    rw [Tree.size] at hi ⊢
    have hkids : ((Store.get? nodes i).map Node.kids).getD [] = [i + 1, i + 1 + l.size] := by
      rw [hroot]
      simp [Nat.mod_eq_of_lt (show i + 1 < 1024 by omega), Nat.mod_eq_of_lt (show i + 1 + l.size < 1024 by omega)]
    have hsplit : List.range' i (l.size + r.size + 1) =
        i :: (List.range' (i + 1) l.size ++ List.range' (i + 1 + l.size) r.size) := by
      rw [List.range'_succ, List.range'_append_1]
    have hgoal : List.range' (i + 1) (l.size + r.size + 1 - 1) =
        (i + 1) :: List.range' (i + 1 + 1) (l.size - 1) ++
          ((i + 1 + l.size) :: List.range' (i + 1 + l.size + 1) (r.size - 1)) := by
      rw [← List.range'_succ, ← List.range'_succ, Nat.sub_add_cancel hlpos, Nat.sub_add_cancel hrpos,
        List.range'_append_1]
      rfl
    rw [hsplit, hgoal, List.flatMap_cons, List.flatMap_append, hkids, List.cons_append, List.cons_append, List.nil_append,
      List.cons_append]
    exact ((((ihl hl (by omega)).append (ihr hr (by omega))).cons _).trans List.perm_middle.symm).cons _

/-- R160: the tree read from a header is well-formed. -/
theorem PreorderAt.wfTree {nodes : List (Nat × Node)} {tr : Tree} (h : PreorderAt nodes 0 tr) (hsize : tr.size ≤ 513)
    (hsym : ∀ x ∈ tr.symbols, x ≤ 256) : WfTree nodes tr.size 0#10 := by
  have hpos := tr.size_pos
  have hodd : tr.size % 2 = 1 := by
    clear h hsize hsym hpos
    induction tr with
    | leaf x => rfl
    | node l r ihl ihr => rw [Tree.size]; omega
  refine ⟨⟨hodd, hsize, hpos⟩, fun i hi => ?_, fun i hi => ?_, ?_⟩
  · rcases h.node_cases (Nat.zero_le i) (by omega) with ⟨x, hx, hnode⟩ | ⟨d, hd, hdpos, hnode⟩
    · have := hsym x hx
      rw [hnode]
      simp [nodeOk, leafNode, Config.eosSym]
      omega
    · rw [hnode]
      have h1 : (BitVec.ofNat 10 (i + 1)).toNat = i + 1 := by rw [BitVec.toNat_ofNat]; omega
      have h2 : (BitVec.ofNat 10 (i + 1 + d)).toNat = i + 1 + d := by rw [BitVec.toNat_ofNat]; omega
      have hne : BitVec.ofNat 10 (i + 1) ≠ BitVec.ofNat 10 (i + 1 + d) := fun heq => by
        have := congrArg BitVec.toNat heq
        omega
      simp only [nodeOk, internalNode, Bool.false_eq_true, if_false, h1, h2, Bool.and_eq_true, decide_eq_true_eq]
      exact ⟨⟨⟨trivial, by omega⟩, by omega⟩, decide_eq_true hne⟩
  · have hkids : childIndices nodes tr.size =
        (List.range' 0 tr.size).flatMap fun k => ((Store.get? nodes k).map Node.kids).getD [] := by
      rw [childIndices, List.range_eq_range']
      refine List.flatMap_congr fun k _ => ?_
      cases Store.get? nodes k <;> rfl
    rw [hkids, (h.children_perm (by omega)).count_eq]
    change _ = if i = 0 then 0 else 1
    split
    next h0 => exact List.count_eq_zero.mpr fun hmem => by have := List.mem_range'_1.mp hmem; omega
    next h0 => exact List.count_eq_one_of_mem List.nodup_range' (List.mem_range'_1.mpr ⟨by omega, by omega⟩)
  · rw [show (0#10 : NodeIdx) = BitVec.ofNat 10 0 from rfl, h.treeAt ?_ (by omega) hsym]
    · rfl
    · have := tr.two_mul_levels_le
      rw [walkLevels, Config.maxCodeLen]
      omega

/-- Settles O29: a whole tree is read as `deserTree_reads` says; after tokens that begin one, the next read raises
`E_IO`. -/
theorem hdrrReadsHeader : Obligations.HdrrReadsHeader := by
  refine ⟨?_, ?_, ?_, ?_⟩
  · intro s tr rest hs hread hsize hsym h
    rw [List.append_assoc] at h
    obtain ⟨m, hexec, htr⟩ := exec_hdrr_tree hs hread hsize hsym h
    have hle : s.upos.toNat + 32 ≤ 8 * s.inLen.toNat := upos_le_of_bits (by omega) (bitsN_length 32 _) h
    have hn : m.nnodes.toNat = tr.size := htr.nnodes.trans (Nat.zero_add _)
    have hpre : PreorderAt m.node 0 tr := htr.tree
    refine ⟨_, hexec, ⟨rfl, hn.symm ▸ hpre.wfTree hsize hsym, htr.state_tree hsize hsym⟩, ?_, rfl, hn, ?_, ?_, ?_, ?_⟩
    · rw [htr.fields]
      rfl
    · exact htr.upos.trans (by rw [show s.treeBitsStart.upos.toNat = s.upos.toNat + 32 from
        State.advance_toNat (s := s.begin.hdrrStart) hle])
    · rw [htr.fields]
      rfl
    · intro i nd hi hnd
      rcases hpre.node_cases (Nat.zero_le i) (show i < 0 + tr.size by rw [Nat.zero_add]; exact hn ▸ hi) with
        ⟨x, -, hnode⟩ | ⟨d, hd, -, hnode⟩
      · cases hnode.symm.trans hnd
        exact ⟨rfl, fun hleaf => by cases hleaf⟩
      · cases hnode.symm.trans hnd
        refine ⟨rfl, fun _ => ?_⟩
        rw [internalNode, BitVec.toNat_ofNat]
        omega
    · exact fun i hi => htr.kept i (.inr hi)
  · intro s hs hlen hfail
    have hneed : needBits 32 s.begin.hdrrStart = .raise .io s.begin.hdrrStart :=
      needBits_io (s := s.begin.hdrrStart) (by omega) hlen hfail
    refine ⟨_, ?_, (headerAt_start s).headerFault .io⟩
    rw [exec_hdrr hs, hdrrBody, Config.magicBits, hneed, Res.bind_raise, finish_raise]
  · intro s ts b rest hs hts hlen h hread hfail
    refine HeaderTokens.marker_fault hs ⟨h, hts, hlen, hread⟩ fun t hrest hupos hparams => ?_
    refine needBits_io le_rfl (by rw [hrest]; simp) ⟨0, Nat.one_pos, ?_⟩
    rw [hupos, hparams]
    exact hfail
  · intro s ts v rest hs hts hlen h hread hfail
    have htokens : HeaderTokens s ts (true :: (bitsN 9 v.toNat ++ rest)) :=
      ⟨by rw [h]; simp, hts, by omega, hread.left⟩
    refine htokens.field_fault hs hlen ?_ fun t hrest hupos hparams => ?_
    · have := hread (32 + (ts.flatMap tokenBits).length) (by omega)
      rwa [← Nat.add_assoc] at this
    · refine needBits_io (by omega) (by rw [hrest, List.length_append, bitsN_length]; omega) ?_
      rw [hupos]
      unfold BitsUnreadable
      rw [hparams]
      exact hfail

/-! ## Cut and malformed headers (R161, R202, R204) -/

theorem HeaderTokens.of_readable {s : State} {ts : List TreeToken} {rest : List Bool} (hread : Readable s)
    (hts : TreePrefix ts) (hlen : ts.length ≤ 513)
    (h : s.restBits = bitsN 32 s.params.magic.toNat ++ ts.flatMap tokenBits ++ rest) : HeaderTokens s ts rest := by
  refine ⟨h, hts, hlen, fun k hk => hread _ ?_⟩
  have hlen' := congrArg List.length h
  rw [State.restBits_length, List.length_append, List.length_append, bitsN_length] at hlen'
  omega

section
variable {s : State} {ts : List TreeToken} (hs : Ready s) (hread : Readable s) (hts : TreePrefix ts)
include hs hread hts

theorem hdrr_cut_marker (hlen : ts.length ≤ 513) (h : s.restBits = bitsN 32 s.params.magic.toNat ++ ts.flatMap tokenBits) :
    ∃ t, exec .hdrr s = .next t ∧ HeaderFault .truncated s t (32 + (ts.flatMap tokenBits).length) ts.length := by
  refine HeaderTokens.marker_fault (rest := []) hs (.of_readable hread hts hlen (by rw [h, List.append_nil]))
    fun t hrest _ _ => needBits_truncated (by rw [hrest]; simp)

theorem hdrr_cut_field {f : List Bool} (hlen : ts.length < 513) (hf : f.length < 9)
    (h : s.restBits = bitsN 32 s.params.magic.toNat ++ ts.flatMap tokenBits ++ true :: f) :
    ∃ t, exec .hdrr s = .next t ∧
      HeaderFault .truncated s t (32 + (ts.flatMap tokenBits).length + 1) (ts.length + 1) := by
  have htokens : HeaderTokens s ts (true :: f) := .of_readable hread hts hlen.le h
  have hle := htokens.upos_le
  rw [List.length_cons] at hle
  exact htokens.field_fault hs hlen (hread _ (by omega)) fun t hrest _ _ => needBits_truncated (by rw [hrest]; exact hf)

end

/-- What a header fault shows of the flags and the code. -/
theorem HeaderFault.flags {k : FaultKind} {s t : State} {a n : Nat} (h : HeaderFault k s t a n) :
    t.sstate = .fault ∧ t.errCode = k.code ∧ t.treeValid = false ∧ t.codeValid = false := by
  obtain ⟨hvis, -⟩ := h
  refine ⟨congrArg State.sstate hvis, congrArg State.errCode hvis, (congrArg State.treeValid hvis).trans ?_,
    (congrArg State.codeValid hvis).trans ?_⟩
  · exact (faultEntry_treeValid k _)
  · exact (faultEntry_codeValid k _)

/-- Settles O31: a cut header is one of the two cuts after whole tokens, or shorter than the magic value. -/
theorem hdrrCutHeaderIsTruncated : Obligations.HdrrCutHeaderIsTruncated := by
  refine ⟨?_, fun s ts hs hread hts hlen h => hdrr_cut_marker hs hread hts hlen h,
    fun s ts f hs hread hts hlen hf h => hdrr_cut_field hs hread hts hlen hf h⟩
  intro s tr hs hread hsize hsym hpre hne
  by_cases hshort : s.restBits.length < 32
  · refine ⟨_, by rw [exec_hdrr hs, hdrrBody_truncated hshort, finish_raise], ?_⟩
    simp [State.hdrrStart, FaultKind.code]
  · have hmagic : bitsN 32 s.params.magic.toNat <+: s.restBits :=
      List.prefix_of_prefix_length_le (List.prefix_append _ tr.ser) hpre (by rw [bitsN_length]; omega)
    obtain ⟨q, hq⟩ := hmagic
    rw [← hq] at hpre hne
    have hqpre : q <+: tr.ser := (List.prefix_append_right_inj _).mp hpre
    obtain ⟨ts, hopen, hsyms, hlen, hbits⟩ := Tree.cut_tokens hqpre fun h => hne (by rw [h])
    have hts : TreePrefix ts := ⟨hopen, fun c hc v hv => hsym v (hsyms v (by rw [← hv]; exact hc))⟩
    rcases hbits with rfl | ⟨f, hf, rfl⟩
    · obtain ⟨t, hexec, ht⟩ := hdrr_cut_marker hs hread hts (by omega) hq.symm
      exact ⟨t, hexec, ht.flags⟩
    · obtain ⟨t, hexec, ht⟩ := hdrr_cut_field (f := f) hs hread hts (by omega) hf (by rw [← hq, List.append_assoc])
      exact ⟨t, hexec, ht.flags⟩

theorem HeaderFault.position {k : FaultKind} {s t : State} {a n : Nat} (h : HeaderFault k s t a n) (hn : n < 1024)
    (hle : s.upos.toNat + a ≤ 8 * s.inLen.toNat) : t.upos.toNat = s.upos.toNat + a ∧ t.nnodes.toNat = n := by
  have := s.inLen.isLt
  obtain ⟨hvis, -⟩ := h
  have hu := (congrArg State.upos hvis).trans (faultEntry_upos k _)
  have hnn := (congrArg State.nnodes hvis).trans (faultEntry_nnodes k _)
  constructor
  · rw [show t.upos = _ from hu, BitVec.toNat_add, BitVec.toNat_ofNat]
    omega
  · rw [show t.nnodes = _ from hnn, BitVec.toNat_ofNat, Nat.mod_eq_of_lt hn]

/-- Settles O32: the field of a reserved leaf is read and refused, and a 514th node finds `NODE` full. -/
theorem hdrrRefusesMalformed : Obligations.HdrrRefusesMalformed := by
  intro s hs hread
  constructor
  · intro ts v rest hts hlen hv h
    have htokens : HeaderTokens s ts (true :: (bitsN 9 v.toNat ++ rest)) :=
      .of_readable hread hts hlen.le (by rw [h]; simp)
    have hle := htokens.upos_le
    rw [List.length_cons, List.length_append, bitsN_length] at hle
    obtain ⟨g, t, ht, hrest, hupos, hnodes, hparams, hraise⟩ := htokens.raises hs
    have hread10 : BitsReadable t t.upos.toNat 10 := fun j hj => by
      rw [hparams]
      exact hread _ (by omega)
    have hrec : recordLeaf t.nnodes (BitVec.ofNat 9 v.toNat) (t.openNode.advance 9) = .raise .malformed _ :=
      ((recordLeaf_cases _ _ _).resolve_left fun hc => by
        rw [BitVec.ofNat_toNat, BitVec.setWidth_eq] at hc
        omega).2
    have hfault : HeaderFault .malformed s (faultEntry .malformed (t.openNode.advance 9))
        (32 + (ts.flatMap tokenBits).length + 10) (ts.length + 1) := (ht.openNode.advance 9).headerFault .malformed
    obtain ⟨hu, hn⟩ := hfault.position (by omega) (by omega)
    obtain ⟨hst, hcode, hvalid, -⟩ := hfault.flags
    refine ⟨_, hraise .malformed _ ?_, hst, hcode, hvalid, by rw [hu]; omega, hn, hfault⟩
    rw [deserTree_field (by omega) hrest hread10, hrec, Res.bind_raise]
  · intro ts b rest hts hlen h
    have htokens : HeaderTokens s ts (b :: rest) := .of_readable hread hts hlen.le h
    have hle := htokens.upos_le
    rw [List.length_cons] at hle
    obtain ⟨g, t, ht, hrest, hupos, hnodes, hparams, hraise⟩ := htokens.raises hs
    have hread1 : BitsReadable t t.upos.toNat 1 := fun j hj => by
      rw [hparams]
      exact hread _ (by omega)
    have hfault : HeaderFault .malformed s (faultEntry .malformed (t.advance 1))
        (32 + (ts.flatMap tokenBits).length + 1) 513 := hlen ▸ (ht.advance 1).headerFault .malformed
    obtain ⟨hu, hn⟩ := hfault.position (by omega) (by omega)
    obtain ⟨hst, hcode, hvalid, -⟩ := hfault.flags
    exact ⟨_, hraise .malformed _ (deserTree_full hrest hread1 (by omega)), hst, hcode, hvalid, by rw [hu]; omega,
      BitVec.eq_of_toNat_eq hn, hfault⟩

end Sys2Proof.Machine
end

/-! # Proofs about ENCODE (43_stream.md R172 to R174) -/

section

namespace Sys2Proof.Machine

/-! ## Writes at another position of the input -/

/-- The same state at another stream position and node. -/
def State.moved (s : State) (u : Word) (c : NodeIdx) : State := { s with upos := u, cur := c }

theorem putByte_moved (u : Word) (c : NodeIdx) (b : Byte) : Commutes (fun s => s.moved u c) (putByte b) :=
  .ite (c := fun s => s.outBlocked = true) (fun _ => Iff.rfl) (.raise .io) (.ok () fun _ => rfl)

/-- No write reads or changes `UPOS` or `CUR`. -/
theorem wrBit_moved (u : Word) (c : NodeIdx) (b : Bool) : Commutes (fun s => s.moved u c) (wrBit b) :=
  .ite (c := fun s => s.pcnt.toNat + 1 = 8) (fun _ => Iff.rfl)
    (fun s => putByte_moved u c (shiftInByte s.pacc b) s.clearAcc) (.ok () fun _ => rfl)

theorem writeAll_moved (u : Word) (c : NodeIdx) : ∀ bs, Commutes (fun s => s.moved u c) (writeAll bs)
  | [] => .ok () fun _ => rfl
  | b :: bs => (wrBit_moved u c b).bind fun _ => writeAll_moved u c bs

theorem writeAll_ok_moved {bs : List Bool} {s t : State} (h : writeAll bs s = .ok () t) (u : Word) (c : NodeIdx) :
    writeAll bs (s.moved u c) = .ok () (t.moved u c) := by
  rw [writeAll_moved u c bs s, h]
  rfl

/-- The bits can be written, one after another. -/
def Writes (bs : List Bool) (s : State) : Prop := ∃ t, writeAll bs s = .ok () t

theorem Writes.left {as bs : List Bool} {s : State} (h : Writes (as ++ bs) s) : Writes as s := by
  obtain ⟨t, ht⟩ := h
  rw [writeAll_append] at ht
  obtain ⟨_, m, hm, -⟩ := Res.bind_eq_ok.mp ht
  exact ⟨m, hm⟩

theorem writes_nil (s : State) : Writes [] s := ⟨s, rfl⟩

theorem Room.writes {bs : List Bool} {s : State} (h : Room s bs.length) : Writes bs s := by
  obtain ⟨t, ht, -⟩ := writeAll_ok bs h
  exact ⟨t, ht⟩

theorem Room.left {s : State} {a b : Nat} (h : Room s (a + b)) : Room s a := by
  obtain ⟨hok, hcap, hfree⟩ := h
  exact ⟨hok, by omega, fun j hj => hfree j (by omega)⟩

/-! ## The code of one symbol (R173) -/

theorem bitsN_ofBool (b : Bool) : bitsN 1 ((BitVec.ofBool b).setWidth 32).toNat = [b] := by cases b <;> rfl

theorem wrCode_eq_writeAll (v : BitVec 256) : ∀ (k : Nat) {s : State}, s.oclosed = false →
    wrCode v k s = writeAll (bitsN k v.toNat) s
  | 0, _, _ => rfl
  | k + 1, s, hopen => by
    rw [wrCode, wrBits_eq_writeAll 1 _ hopen, bitsN_ofBool]
    exact writeAll_bind (bs := [v.toNat.testBit k]) fun m hm => wrCode_eq_writeAll v k (hm.oclosed.trans hopen)

/-- The code of x in the table of s. -/
def State.codeBitsOf (s : State) (x : Nat) : List Bool := codeBits (codeAt s.code x)

/-- The codes of the symbols one after another. -/
def State.codesOf (s : State) (xs : List Nat) : List Bool := xs.flatMap s.codeBitsOf

section
variable {s : State} {x : Nat}

theorem writeSymbol_eq_writeAll (hv : (codeAt s.code x).valid = true) (h : s.oclosed = false ∨ s.codeBitsOf x = []) :
    writeSymbol x s = writeAll (s.codeBitsOf x) s := by
  rw [writeSymbol, if_pos hv]
  cases hopen : s.oclosed with
  | false => exact wrCode_eq_writeAll _ _ hopen
  | true =>
    have hnil : s.codeBitsOf x = [] := h.resolve_left (by rw [hopen]; decide)
    have hlen : (codeAt s.code x).len.toNat = 0 := by
      have := congrArg List.length hnil
      rwa [State.codeBitsOf, codeBits, Sys2Proof.Laws.bitsN_length] at this
    rw [hnil, hlen]
    rfl

theorem writeSymbol_closed (hv : (codeAt s.code x).valid = true) (hclosed : s.oclosed = true) (hne : s.codeBitsOf x ≠ []) :
    writeSymbol x s = .raise .contract s := by
  rw [writeSymbol, if_pos hv]
  cases hlen : (codeAt s.code x).len.toNat with
  | zero => exact absurd (by rw [State.codeBitsOf, codeBits, hlen]; rfl) hne
  | succ k => rw [wrCode, wrBits_closed hclosed, Res.bind_raise]

theorem writeSymbol_invalid (hv : (codeAt s.code x).valid = false) : writeSymbol x s = .raise .contract s :=
  if_neg (ne_true_of_eq_false hv)

end

/-! ## The reading loop (R172) -/

theorem encodeLoop_head {n x : Nat} {xs : List Nat} {s : State} (h : s.restSymbols = x :: xs)
    (hread : BitsReadable s s.upos.toNat 8) :
    encodeLoop (n + 1) s = (writeSymbol x (s.advance 8)).bind fun _ m => encodeLoop n m := by
  have hx : (BitVec.ofNat 32 x).toNat = x := by
    have := State.restSymbols_lt (h ▸ List.mem_cons_self)
    rw [BitVec.toNat_ofNat]; omega
  rw [encodeLoop, rdBits_symbol_value h hread, Res.bind_ok]
  simp only [hx]

theorem encodeLoop_eos {n : Nat} {s : State} (h : s.restSymbols = []) : encodeLoop (n + 1) s = .ok () s := by
  rw [encodeLoop, rdBits_symbol_eos h, Res.bind_ok]

theorem encodeLoop_io {n x : Nat} {xs : List Nat} {s : State} (h : s.restSymbols = x :: xs)
    (hfail : BitsUnreadable s s.upos.toNat 8) : encodeLoop (n + 1) s = .raise .io s := by
  rw [encodeLoop, rdBits_symbol_io h hfail, Res.bind_raise]

/-- From s to t, n bits of the input are consumed and the bits written; `CUR` may have moved. -/
structure StreamTo (s t : State) (n : Nat) (bits : List Bool) : Prop where
  upos : t.upos = s.upos + BitVec.ofNat 32 n
  written : writeAll bits (s.moved t.upos t.cur) = .ok () t

section
variable {s t : State} {n : Nat} {bits : List Bool}

theorem StreamTo.outStep (h : StreamTo s t n bits) : OutStep (s.moved t.upos t.cur) t := by
  have hout := writeAll_out bits (s.moved t.upos t.cur)
  rw [h.written] at hout
  exact hout

theorem StreamTo.code (h : StreamTo s t n bits) : t.code = s.code := by rw [h.outStep.fields]; rfl

theorem StreamTo.node (h : StreamTo s t n bits) : t.node = s.node := by rw [h.outStep.fields]; rfl

theorem StreamTo.root (h : StreamTo s t n bits) : t.root = s.root := by rw [h.outStep.fields]; rfl

theorem StreamTo.params (h : StreamTo s t n bits) : t.params = s.params := h.outStep.params

theorem StreamTo.oclosed (h : StreamTo s t n bits) : t.oclosed = s.oclosed := h.outStep.oclosed

theorem StreamTo.sstate (h : StreamTo s t n bits) : t.sstate = s.sstate := h.outStep.sstate

theorem StreamTo.inLen (h : StreamTo s t n bits) : t.inLen = s.inLen := by rw [h.outStep.fields]; rfl

theorem StreamTo.inBits (h : StreamTo s t n bits) : t.inBits = s.inBits := by rw [h.outStep.fields]; rfl

theorem StreamTo.refl (s : State) : StreamTo s s 0 [] := ⟨(BitVec.add_zero _).symm, rfl⟩

theorem StreamTo.move (h : StreamTo s t n bits) (k : Nat) (c : NodeIdx) :
    StreamTo s (t.moved (t.upos + BitVec.ofNat 32 k) c) (n + k) bits := by
  refine ⟨?_, writeAll_ok_moved h.written _ c⟩
  rw [BitVec.ofNat_add, ← BitVec.add_assoc, ← h.upos]
  rfl

/-- What is written next, as seen from the start. -/
theorem StreamTo.writeAll_next (h : StreamTo s t n bits) (bs : List Bool) :
    writeAll bs t = (writeAll (bits ++ bs) s).mapState fun m => m.moved t.upos t.cur := by
  rw [← writeAll_moved t.upos t.cur (bits ++ bs) s, writeAll_append, h.written, Res.bind_ok]

theorem StreamTo.writes_next (h : StreamTo s t n bits) {bs : List Bool} (hw : Writes (bits ++ bs) s) : Writes bs t := by
  obtain ⟨u, hu⟩ := hw
  exact ⟨_, by rw [h.writeAll_next, hu]; rfl⟩

theorem StreamTo.write {m : State} {bs : List Bool} (h : StreamTo s t n bits) (hm : writeAll bs t = .ok () m) :
    StreamTo s m n (bits ++ bs) ∧ m.upos = t.upos ∧ m.cur = t.cur := by
  have hout := writeAll_out bs t
  rw [hm] at hout
  have hupos : m.upos = t.upos := by rw [OutStep.fields hout]
  have hcur : m.cur = t.cur := by rw [OutStep.fields hout]
  refine ⟨⟨hupos.trans h.upos, ?_⟩, hupos, hcur⟩
  rw [hupos, hcur, writeAll_append, h.written, Res.bind_ok, hm]

theorem StreamTo.outBits (h : StreamTo s t n bits) (hp : s.params.Ok) (hcap : s.outLen.toNat ≤ s.params.obufCap) :
    t.outBits = s.outBits ++ bits := outBits_of_writeAll_ok (s := s.moved t.upos t.cur) hp hcap h.written

theorem StreamTo.appended (h : StreamTo s t n bits) (hp : s.params.Ok) (hcap : s.outLen.toNat ≤ s.params.obufCap) :
    ObufAppended s t := (h.outStep.grows hp hcap).2

theorem StreamTo.frame (h : StreamTo s t n bits) :
    t = { s with
      upos := t.upos, cur := t.cur, pacc := t.pacc, pcnt := t.pcnt, obuf := t.obuf, outLen := t.outLen } := by
  conv => lhs; rw [h.outStep.fields]
  rfl

theorem StreamTo.fields (h : StreamTo s t n bits) :
    t = { s with
      upos := s.upos + BitVec.ofNat 32 n, cur := t.cur, pacc := t.pacc, pcnt := t.pcnt, obuf := t.obuf
      outLen := t.outLen } := h.upos ▸ h.frame

/-- With an empty write no byte goes out. -/
theorem StreamTo.eq_of_nil (h : StreamTo s t n []) : t = { s with upos := s.upos + BitVec.ofNat 32 n, cur := t.cur } := by
  rw [← h.upos]
  exact (Res.ok.inj h.written).2.symm

theorem StreamTo.upos_toNat (h : StreamTo s t n bits) (hn : n ≤ s.restBits.length) :
    t.upos.toNat = s.upos.toNat + n := by
  rw [State.restBits_length] at hn
  have := s.inLen.isLt
  have := s.upos.isLt
  rw [h.upos, BitVec.toNat_add, BitVec.toNat_ofNat]
  omega

theorem StreamTo.restBits (h : StreamTo s t n bits) (hn : n ≤ s.restBits.length) : t.restBits = s.restBits.drop n := by
  rw [State.restBits, h.upos_toNat hn, h.inBits, State.restBits, List.drop_drop]

theorem StreamTo.readable (h : StreamTo s t n bits) (hn : n ≤ s.restBits.length) {k : Nat}
    (hread : BitsReadable s s.upos.toNat (n + k)) : BitsReadable t t.upos.toNat k := by
  rw [h.upos_toNat hn]
  unfold BitsReadable
  rw [h.params]
  exact hread.right

end

/-- From s to t, n symbols are consumed and the bits written. -/
structure EncodedTo (s t : State) (n : Nat) (bits : List Bool) : Prop where
  stream : StreamTo s t (8 * n) bits
  cur : t.cur = s.cur

section
variable {s t : State} {n : Nat} {bits : List Bool}

theorem EncodedTo.upos (h : EncodedTo s t n bits) : t.upos = s.upos + BitVec.ofNat 32 (8 * n) := h.stream.upos

theorem EncodedTo.outStep (h : EncodedTo s t n bits) : OutStep (s.moved t.upos s.cur) t := h.cur ▸ h.stream.outStep

theorem EncodedTo.code (h : EncodedTo s t n bits) : t.code = s.code := h.stream.code

theorem EncodedTo.oclosed (h : EncodedTo s t n bits) : t.oclosed = s.oclosed := h.stream.oclosed

theorem EncodedTo.refl (s : State) : EncodedTo s s 0 [] := ⟨.refl s, rfl⟩

theorem EncodedTo.advance (h : EncodedTo s t n bits) : EncodedTo s (t.advance 8) (n + 1) bits :=
  ⟨h.stream.move 8 t.cur, h.cur⟩

theorem EncodedTo.write {m : State} {bs : List Bool} (h : EncodedTo s t n bits) (hm : writeAll bs t = .ok () m) :
    EncodedTo s m n (bits ++ bs) := by
  obtain ⟨hstream, -, hcur⟩ := h.stream.write hm
  exact ⟨hstream, hcur.trans h.cur⟩

theorem EncodedTo.writeAll_next (h : EncodedTo s t n bits) (bs : List Bool) :
    writeAll bs t = (writeAll (bits ++ bs) s).mapState fun m => m.moved t.upos s.cur := by
  rw [h.stream.writeAll_next, h.cur]

theorem EncodedTo.writes_next (h : EncodedTo s t n bits) {bs : List Bool} (hw : Writes (bits ++ bs) s) : Writes bs t :=
  h.stream.writes_next hw

theorem EncodedTo.outBits (h : EncodedTo s t n bits) (hp : s.params.Ok) (hcap : s.outLen.toNat ≤ s.params.obufCap) :
    t.outBits = s.outBits ++ bits := h.stream.outBits hp hcap

theorem EncodedTo.upos_toNat (h : EncodedTo s t n bits) (hn : n ≤ s.restSymbols.length) :
    t.upos.toNat = s.upos.toNat + 8 * n := by
  refine h.stream.upos_toNat ?_
  rw [State.restSymbols_length] at hn
  rw [State.restBits_length]
  omega

/-- The state ENCODE faults in, the output as it is in t. -/
theorem EncodedTo.fields (h : EncodedTo s t n bits) :
    t = { s with
      upos := s.upos + BitVec.ofNat 32 (8 * n), pacc := t.pacc, pcnt := t.pcnt, obuf := t.obuf, outLen := t.outLen } := by
  have hfields := h.stream.fields
  rw [h.cur] at hfields
  exact hfields

theorem EncodedTo.appended (h : EncodedTo s t n bits) (hp : s.params.Ok) (hcap : s.outLen.toNat ≤ s.params.obufCap) :
    ObufAppended s t := h.stream.appended hp hcap

/-- With an empty write no byte goes out. -/
theorem EncodedTo.eq_of_nil (h : EncodedTo s t n []) : t = { s with upos := s.upos + BitVec.ofNat 32 (8 * n) } := by
  have hfields := h.stream.eq_of_nil
  rw [h.cur] at hfields
  exact hfields

end

/-- k passes over readable bytes write the codes of the next k symbols. -/
theorem encodeLoop_symbols (k : Nat) {s : State} (hk : k ≤ s.restSymbols.length)
    (hread : BitsReadable s s.upos.toNat (8 * k))
    (hvalid : ∀ y ∈ s.restSymbols.take k, (codeAt s.code y).valid = true)
    (hfree : s.oclosed = false ∨ s.codesOf (s.restSymbols.take k) = [])
    (hwrites : Writes (s.codesOf (s.restSymbols.take k)) s) :
    ∃ t, (∀ n, encodeLoop (k + n) s = encodeLoop n t) ∧ EncodedTo s t k (s.codesOf (s.restSymbols.take k)) ∧
      t.restSymbols = s.restSymbols.drop k := by
  induction k with
  | zero => exact ⟨s, fun n => by rw [Nat.zero_add], .refl s, rfl⟩
  | succ k ih =>
    obtain ⟨x, hx⟩ : ∃ x, s.restSymbols[k]? = some x := ⟨_, List.getElem?_eq_getElem hk⟩
    have htake : s.restSymbols.take (k + 1) = s.restSymbols.take k ++ [x] := by
      rw [List.take_add_one, hx]; rfl
    have hcodes : s.codesOf (s.restSymbols.take (k + 1)) = s.codesOf (s.restSymbols.take k) ++ s.codeBitsOf x := by
      rw [htake, State.codesOf, List.flatMap_append, List.flatMap_singleton]; rfl
    rw [hcodes] at hfree hwrites
    rw [htake] at hvalid
    obtain ⟨t, hloop, hto, hrest⟩ := ih (by omega) (BitsReadable.left (b := 8) hread)
      (fun y hy => hvalid y (List.mem_append_left _ hy)) (hfree.imp_right fun h => (List.append_eq_nil_iff.mp h).1) hwrites.left
    have hhead : t.restSymbols = x :: s.restSymbols.drop (k + 1) := by
      rw [hrest, List.drop_eq_getElem_cons hk]
      rw [List.getElem?_eq_getElem hk, Option.some.injEq] at hx
      rw [hx]
    have hparams : t.params = s.params := hto.outStep.params
    have hread8 : BitsReadable t t.upos.toNat 8 := fun j hj => by
      rw [hto.upos_toNat (by omega), hparams, Nat.add_assoc]
      exact hread (8 * k + j) (by omega)
    have hadv := hto.advance
    have hcode : (t.advance 8).code = s.code := hadv.code
    obtain ⟨m, hm⟩ := hadv.writes_next hwrites
    have hwrite : writeSymbol x (t.advance 8) = .ok () m := by
      have hbits : (t.advance 8).codeBitsOf x = s.codeBitsOf x := by rw [State.codeBitsOf, hcode]; rfl
      rw [writeSymbol_eq_writeAll (by rw [hcode]; exact hvalid x (by simp))
        (by rw [hbits, hadv.oclosed]; exact hfree.imp_right fun h => (List.append_eq_nil_iff.mp h).2), hbits, hm]
    have hmto := hadv.write hm
    refine ⟨m, fun n => ?_, hcodes ▸ hmto, ?_⟩
    · rw [Nat.add_right_comm, Nat.add_assoc, hloop, encodeLoop_head hhead hread8, hwrite, Res.bind_ok]
    · have hadvrest := State.restSymbols_advance hhead
      have hfields := (writeAll_out (s.codeBitsOf x) (t.advance 8))
      rw [hm] at hfields
      rw [← hadvrest, OutStep.fields hfields]
      rfl

/-! ## The command (R172) -/

/-- The symbols that ENCODE writes: those from the current position on, then the terminator. -/
def State.encodeSymbols (s : State) : List Nat := s.restSymbols ++ [256]

/-- ENCODE gets to the symbol x, reads it, and writes its code. -/
theorem encodeBody_reaches {s : State} {pre post : List Nat} {x : Nat} (hcv : s.codeValid = true)
    (hsplit : s.encodeSymbols = pre ++ x :: post)
    (hread : BitsReadable s s.upos.toNat (8 * min (pre.length + 1) s.restSymbols.length))
    (hvalid : ∀ y ∈ pre, (codeAt s.code y).valid = true) (hfree : s.oclosed = false ∨ s.codesOf pre = [])
    (hwrites : Writes (s.codesOf pre) s) :
    ∃ t, EncodedTo s t (min (pre.length + 1) s.restSymbols.length) (s.codesOf pre) ∧
      (∀ k m, writeSymbol x t = .raise k m → encodeBody s = .raise k m) ∧
      (post = [] → encodeBody s = writeSymbol x t) := by
  have hlen := congrArg List.length hsplit
  simp only [State.encodeSymbols, List.length_append, List.length_cons, List.length_nil] at hlen
  have hle : pre.length ≤ s.restSymbols.length := by omega
  have hpre : s.restSymbols.take pre.length = pre := by
    have := congrArg (List.take pre.length) hsplit
    rwa [State.encodeSymbols, List.take_append_of_le_length hle, List.take_left] at this
  have hfuel := s.restSymbols_length_le
  have hread' : BitsReadable s s.upos.toNat (8 * pre.length) := fun j hj => hread j (by omega)
  obtain ⟨t, hloop, hto, hrest⟩ := encodeLoop_symbols pre.length hle hread' (by rwa [hpre]) (by rwa [hpre]) (by rwa [hpre])
  rw [hpre] at hto
  obtain ⟨n, hn⟩ := Nat.exists_eq_add_of_le (show pre.length + 1 ≤ s.inLen.toNat + 1 by omega)
  have hbody : encodeBody s = (encodeLoop (n + 1) t).bind fun _ s => writeSymbol 256 s := by
    rw [encodeBody, if_pos hcv, hn, Nat.add_assoc, Nat.add_comm 1, hloop]
    rfl
  have hdrop : s.restSymbols.drop pre.length ++ [256] = x :: post := by
    have := congrArg (List.drop pre.length) hsplit
    rwa [State.encodeSymbols, List.drop_append_of_le_length hle, List.drop_left] at this
  cases hsym : s.restSymbols.drop pre.length with
  | nil =>
    rw [hsym, List.nil_append, List.cons.injEq] at hdrop
    obtain ⟨rfl, -⟩ := hdrop
    have hlen' := congrArg List.length hsym
    rw [List.length_drop, List.length_nil] at hlen'
    have hmin : min (pre.length + 1) s.restSymbols.length = pre.length := by omega
    have hwrite : encodeBody s = writeSymbol 256 t := by
      rw [hbody, encodeLoop_eos (hrest.trans hsym), Res.bind_ok]
    exact ⟨t, by rw [hmin]; exact hto, fun k m hm => hwrite.trans hm, fun _ => hwrite⟩
  | cons y ys =>
    rw [hsym, List.cons_append, List.cons.injEq] at hdrop
    obtain ⟨rfl, hpost⟩ := hdrop
    have hlen' := congrArg List.length hsym
    rw [List.length_drop, List.length_cons] at hlen'
    have hmin : min (pre.length + 1) s.restSymbols.length = pre.length + 1 := by omega
    rw [hmin] at hread ⊢
    have hread8 : BitsReadable t t.upos.toNat 8 := fun j hj => by
      rw [hto.upos_toNat hle, hto.outStep.params, Nat.add_assoc]
      exact hread (8 * pre.length + j) (by omega)
    have hhead := encodeLoop_head (n := n) (hrest.trans hsym) hread8
    refine ⟨t.advance 8, hto.advance, fun k m hm => ?_, fun hnil => ?_⟩
    · rw [hbody, hhead, hm, Res.bind_raise, Res.bind_raise]
    · rw [hnil] at hpost
      simp at hpost

/-- The symbol after the first k cannot be read. -/
theorem encodeBody_io {s : State} {k : Nat} (hcv : s.codeValid = true) (hk : k < s.restSymbols.length)
    (hread : BitsReadable s s.upos.toNat (8 * k)) (hfail : BitsUnreadable s (s.upos.toNat + 8 * k) 8)
    (hvalid : ∀ y ∈ s.restSymbols.take k, (codeAt s.code y).valid = true)
    (hfree : s.oclosed = false ∨ s.codesOf (s.restSymbols.take k) = [])
    (hwrites : Writes (s.codesOf (s.restSymbols.take k)) s) :
    ∃ t, EncodedTo s t k (s.codesOf (s.restSymbols.take k)) ∧ encodeBody s = .raise .io t := by
  obtain ⟨t, hloop, hto, hrest⟩ := encodeLoop_symbols k hk.le hread hvalid hfree hwrites
  have hfuel := s.restSymbols_length_le
  obtain ⟨n, hn⟩ := Nat.exists_eq_add_of_le (show k + 1 ≤ s.inLen.toNat + 1 by omega)
  have hfail' : BitsUnreadable t t.upos.toNat 8 := by
    rw [hto.upos_toNat hk.le]
    unfold BitsUnreadable
    rw [hto.outStep.params]
    exact hfail
  refine ⟨t, hto, ?_⟩
  rw [encodeBody, if_pos hcv, hn, Nat.add_assoc, Nat.add_comm 1, hloop,
    encodeLoop_io (hrest.trans (List.drop_eq_getElem_cons hk)) hfail', Res.bind_raise]

theorem exec_encode_body {s : State} (hs : Ready s) : exec .encode s = finish (encodeBody s.begin) := command_idle hs

section
variable {s : State} (hs : Ready s) (hcv : s.codeValid = true)
include hs hcv

/-- The codes of all symbols go out in one write. -/
theorem exec_encode_ok (hread : Readable s) (hvalid : ∀ x ∈ s.encodeSymbols, (codeAt s.code x).valid = true)
    (hfree : s.oclosed = false ∨ s.codesOf s.encodeSymbols = []) (hwrites : Writes (s.codesOf s.encodeSymbols) s.begin) :
    ∃ m, exec .encode s = .next { m with done := true } ∧
      EncodedTo s.begin m s.restSymbols.length (s.codesOf s.encodeSymbols) := by
  have hcodes : s.codesOf s.encodeSymbols = s.codesOf s.restSymbols ++ s.codeBitsOf 256 := by
    rw [State.encodeSymbols, State.codesOf, List.flatMap_append, List.flatMap_singleton]; rfl
  rw [hcodes] at hfree hwrites ⊢
  have hlen := s.restSymbols_length
  have hmin : min (s.restSymbols.length + 1) s.begin.restSymbols.length = s.restSymbols.length :=
    min_eq_right (Nat.le_succ s.restSymbols.length)
  have hreadable : BitsReadable s s.upos.toNat (8 * min (s.restSymbols.length + 1) s.restSymbols.length) :=
    fun j hj => hread _ (by omega)
  obtain ⟨t, hto, -, hlast⟩ := encodeBody_reaches (s := s.begin) (pre := s.restSymbols) (post := []) (x := 256) hcv rfl
    hreadable (fun y hy => hvalid y (List.mem_append_left _ hy))
    (hfree.imp_right fun h => (List.append_eq_nil_iff.mp h).1) hwrites.left
  rw [hmin] at hto
  obtain ⟨m, hm⟩ := hto.writes_next hwrites
  have hbits : t.codeBitsOf 256 = s.codeBitsOf 256 := by rw [State.codeBitsOf, hto.code]; rfl
  have hwrite : writeSymbol 256 t = .ok () m := by
    rw [writeSymbol_eq_writeAll (by rw [hto.code]; exact hvalid 256 (by simp [State.encodeSymbols]))
      (by rw [hbits, hto.oclosed]; exact hfree.imp_right fun h => (List.append_eq_nil_iff.mp h).2), hbits, hm]
  have hmto := hto.write hm
  refine ⟨m, ?_, hmto⟩
  rw [exec_encode_body hs, hlast rfl, hwrite, finish_ok_idle (hmto.outStep.sstate.trans hs)]

/-- Where ENCODE cannot write the code of x. -/
theorem exec_encode_raise {pre post : List Nat} {x : Nat} (hsplit : s.encodeSymbols = pre ++ x :: post)
    (hread : BitsReadable s s.upos.toNat (8 * min (pre.length + 1) s.restSymbols.length))
    (hvalid : ∀ y ∈ pre, (codeAt s.code y).valid = true) (hfree : s.oclosed = false ∨ s.codesOf pre = [])
    (hwrites : Writes (s.codesOf pre) s.begin) :
    ∃ t, EncodedTo s.begin t (min (pre.length + 1) s.restSymbols.length) (s.codesOf pre) ∧
      ∀ k m, writeSymbol x t = .raise k m → exec .encode s = .next (faultEntry k m) := by
  obtain ⟨t, hto, hraise, -⟩ := encodeBody_reaches (s := s.begin) hcv hsplit hread hvalid hfree hwrites
  exact ⟨t, hto, fun k m hm => by rw [exec_encode_body hs, hraise k m hm, finish_raise]⟩

end

/-- Settles O34: the codes are one write from the position after the symbols read. -/
theorem encodeWritesCodes : Obligations.EncodeWritesCodes := by
  intro s hs hcv hpacc
  refine ⟨fun hread hvalid hfree hroom => ?_, fun pre post x hclosed hsplit hpre hx hne hread => ?_,
    fun k hk hread hfail hvalid hfree hroom => ?_, fun pre post x j hopen hsplit hvalid hread hj hblocked => ?_⟩
  · have hcap : s.outLen.toNat ≤ s.params.obufCap := Nat.le_of_add_right_le hroom.2.1
    obtain ⟨m, hexec, hm⟩ := exec_encode_ok hs hcv hread hvalid hfree (Room.writes (s := s.begin) hroom)
    refine ⟨_, hexec, hm.outBits (s := s.begin) hroom.1 hcap, hm.upos_toNat (s := s.begin) le_rfl, ?_,
      hm.appended (s := s.begin) hroom.1 hcap⟩
    rw [hm.outStep.fields]
    rfl
  · have hnil : s.codesOf pre = [] := List.flatMap_eq_nil_iff.mpr fun y hy => (hpre y hy).2
    obtain ⟨t, hto, hraise⟩ := exec_encode_raise hs hcv hsplit hread (fun y hy => (hpre y hy).1) (.inr hnil)
      (hnil ▸ writes_nil _)
    rw [hnil] at hto
    have hcode : t.code = s.code := hto.code
    have hcontract : writeSymbol x t = .raise .contract t :=
      writeSymbol_closed (by rw [hcode]; exact hx) (hto.oclosed.trans hclosed) (by rw [State.codeBitsOf, hcode]; exact hne)
    rw [hraise _ _ hcontract, hto.eq_of_nil]
    rfl
  · have hcap : s.outLen.toNat ≤ s.params.obufCap := Nat.le_of_add_right_le hroom.2.1
    obtain ⟨m, hm, hbody⟩ := encodeBody_io (s := s.begin) hcv hk hread hfail hvalid hfree (Room.writes (s := s.begin) hroom)
    have hmin : min k s.restSymbols.length = k := by omega
    refine ⟨_, m, by rw [exec_encode_body hs, hbody, finish_raise], rfl, ?_, hm.outBits (s := s.begin) hroom.1 hcap,
      hm.appended (s := s.begin) hroom.1 hcap⟩
    have hfields := hm.fields
    rw [← hmin] at hfields
    exact hfields
  · have hcodes : s.codesOf (pre ++ [x]) = s.codesOf pre ++ s.codeBitsOf x := by
      rw [State.codesOf, List.flatMap_append, List.flatMap_singleton]; rfl
    obtain ⟨hok, hjlt, hjcap, hjfree, hjblock⟩ := hblocked
    have hroom : Room s (s.codesOf pre).length := by
      have hj' : (s.pcnt.toNat + (s.codesOf pre).length) / 8 ≤ j := hj
      exact ⟨hok, by omega, fun i hi => hjfree i (by omega)⟩
    obtain ⟨t, hto, hraise⟩ := exec_encode_raise hs hcv hsplit hread
      (fun y hy => hvalid y (List.mem_append_left _ hy)) (.inl hopen) (Room.writes (s := s.begin) hroom)
    obtain ⟨m, hm, hstep, hcnt, hacc, hlen, happended, hbits⟩ :=
      writeAll_blocked (s := s.begin) (bs := s.codesOf (pre ++ [x])) ⟨hok, hjlt, hjcap, hjfree, hjblock⟩
    have hcode : t.code = s.code := hto.code
    have hxbits : t.codeBitsOf x = s.codeBitsOf x := by rw [State.codeBitsOf, hcode]; rfl
    have hwrite : writeSymbol x t = .raise .io (m.moved t.upos s.cur) := by
      rw [writeSymbol_eq_writeAll (by rw [hcode]; exact hvalid x (by simp)) (.inl (hto.oclosed.trans hopen)), hxbits,
        hto.writeAll_next]
      have hm' : writeAll (s.codesOf pre ++ s.codeBitsOf x) s.begin = .raise .io m := hcodes ▸ hm
      exact congrArg (Res.mapState _) hm'
    have hfault : faultEntry .io (m.moved t.upos s.cur) = (m.moved t.upos s.cur).lostOutput (m.moved t.upos s.cur) :=
      faultEntry_io_clear (hstep.oclosed.trans hopen) hcnt hacc
    refine ⟨_, (hraise _ _ hwrite).trans (congrArg Host.Outcome.next hfault), ?_, hlen, happended, ?_⟩
    · rw [hto.upos, hstep.fields]
      rfl
    · exact (State.lostOutput_outBits (m := m.moved t.upos s.cur) hcnt).trans hbits

/-- Settles O35: the codes before the symbol are written, the symbol is read, and its entry is invalid. -/
theorem encodeWithoutCodeFaults : Obligations.EncodeWithoutCodeFaults := by
  intro s pre post x hs hread hcv ⟨hopen, _⟩ hsplit hpre hx hroom
  have hcap : s.outLen.toNat ≤ s.params.obufCap := Nat.le_of_add_right_le hroom.2.1
  have hlen := s.restSymbols_length
  obtain ⟨t, hto, hraise⟩ := exec_encode_raise hs hcv hsplit (fun j hj => hread _ (by omega)) hpre (.inl hopen)
    (Room.writes (s := s.begin) hroom)
  have hcontract : writeSymbol x t = .raise .contract t := writeSymbol_invalid (by rw [hto.code]; exact hx)
  have hupos : (faultEntry .contract t).upos = t.upos := faultEntry_upos _ _
  refine ⟨_, hraise _ _ hcontract, rfl, rfl, ?_, t, hto.outStep.sstate.trans hs, rfl, ?_,
    hto.outBits (s := s.begin) hroom.1 hcap⟩
  · rw [hupos]
    exact hto.upos_toNat (s := s.begin) (min_le_right _ _)
  · rw [hupos, hto.upos]
    exact hto.fields

end Sys2Proof.Machine
end

/-! # Proofs about DECODE on coded streams (43_stream.md R175, R177, R180) -/

section

namespace Sys2Proof.Machine

open Sys2Proof.Laws (bitsN_length)

/-! ## Paths in a tree (R92) -/

/-- The subtree that a path leads to. -/
def Tree.sub : Tree → List Bool → Option Tree
  | tr, [] => some tr
  | .leaf _, _ :: _ => none
  | .node l r, b :: q => if b then r.sub q else l.sub q

@[simp] theorem Tree.sub_nil (tr : Tree) : tr.sub [] = some tr := by cases tr <;> rfl

theorem Tree.sub_of_mem_codes {tr : Tree} : ∀ {c : Nat × List Bool}, c ∈ tr.codes → tr.sub c.2 = some (.leaf c.1) := by
  induction tr with
  | leaf x =>
    intro c h
    rw [List.mem_singleton.mp h]
    rfl
  | node l r ihl ihr =>
    rintro ⟨x, q⟩ h
    obtain ⟨p, hp, rfl⟩ | ⟨p, hp, rfl⟩ := Tree.mem_codes_node.mp h
    · exact ihl hp
    · exact ihr hp

/-- A path that begins a code without being it ends at an internal node. -/
theorem Tree.sub_of_prefix {tr : Tree} : ∀ {c : Nat × List Bool} {q : List Bool}, c ∈ tr.codes → q <+: c.2 → q ≠ c.2 →
    ∃ l r, tr.sub q = some (.node l r) := by
  induction tr with
  | leaf x =>
    intro c q h hq hne
    rw [List.mem_singleton.mp h] at hq hne
    exact absurd (List.prefix_nil.mp hq) hne
  | node l r ihl ihr =>
    rintro ⟨x, p'⟩ q h hq hne
    cases q with
    | nil => exact ⟨l, r, rfl⟩
    | cons b q =>
      obtain ⟨p, hp, rfl⟩ | ⟨p, hp, rfl⟩ := Tree.mem_codes_node.mp h <;>
        obtain ⟨rfl, hq'⟩ := List.cons_prefix_cons.mp hq
      · exact ihl hp hq' fun h => hne (by rw [h])
      · exact ihr hp hq' fun h => hne (by rw [h])

/-! ## The walk down a path (R175, R177) -/

theorem branchStep_bit {s : State} {nd : Node} {b : Bool} {rest : List Bool} (h : getNode s s.cur = some nd)
    (hleaf : nd.leaf = false) (hbits : s.restBits = b :: rest) (hread : BitsReadable s s.upos.toNat 1) :
    branchStep s = .ok () ((s.advance 1).setCur (if b then nd.right else nd.left)) := by
  rw [branchStep, needBits_bits (bs := [b]) le_rfl rfl hread hbits, Res.bind_ok, bitValue_ne_zero]
  exact moveToChild_ok (s := s.advance 1) h hleaf

/-- `CUR` is at the root of a tree that `NODE` holds. -/
def CurTree (s : State) (tr : Tree) : Prop := ∃ f, treeAt s.node f s.cur = some tr

theorem CurTree.leaf {s : State} {x : Nat} (h : CurTree s (.leaf x)) :
    ∃ nd, getNode s s.cur = some nd ∧ nd.leaf = true ∧ nd.sym.toNat = x := by
  obtain ⟨f, hf⟩ := h
  cases f with
  | zero => cases hf
  | succ f =>
    obtain ⟨nd, hnd, ⟨hleaf, hx⟩ | ⟨-, l, r, -, -, hnode⟩⟩ := treeAt_succ_eq_some hf
    · exact ⟨nd, hnd, hleaf, (Tree.leaf.inj hx).symm⟩
    · cases hnode

theorem CurTree.node {s : State} {l r : Tree} (h : CurTree s (.node l r)) :
    ∃ nd, getNode s s.cur = some nd ∧ nd.leaf = false ∧
      ∀ (b : Bool) (u : Word), CurTree (s.moved u (if b then nd.right else nd.left)) (if b then r else l) := by
  obtain ⟨f, hf⟩ := h
  cases f with
  | zero => cases hf
  | succ f =>
    obtain ⟨nd, hnd, ⟨-, hx⟩ | ⟨hleaf, l', r', hl, hr, hnode⟩⟩ := treeAt_succ_eq_some hf
    · cases hx
    · cases hnode
      refine ⟨nd, hnd, hleaf, fun b u => ⟨f, ?_⟩⟩
      cases b
      · exact hl
      · exact hr

/-- The loop walks down a path whose bits are there. -/
theorem decodeLoop_walk {rest : List Bool} {sub' : Tree} : ∀ {q : List Bool} {s : State} {sub : Tree},
    CurTree s sub → sub.sub q = some sub' → s.restBits = q ++ rest → BitsReadable s s.upos.toNat q.length →
    ∃ t, (∀ k, decodeLoop (q.length + k) s = decodeLoop k t) ∧ t = s.moved (s.upos + BitVec.ofNat 32 q.length) t.cur ∧
      CurTree t sub' := by
  intro q
  induction q with
  | nil =>
    intro s sub hcur hsub _ _
    rw [Tree.sub_nil, Option.some.injEq] at hsub
    refine ⟨s, fun k => by rw [List.length_nil, Nat.zero_add], ?_, hsub ▸ hcur⟩
    rw [List.length_nil, show BitVec.ofNat 32 0 = 0#32 from rfl, BitVec.add_zero]
    rfl
  | cons b q ih =>
    intro s sub hcur hsub hbits hread
    cases sub with
    | leaf x => cases hsub
    | node l r =>
      obtain ⟨nd, hnd, hleaf, hchild⟩ := hcur.node
      have hread' : BitsReadable s s.upos.toNat (1 + q.length) := by
        rw [Nat.add_comm]
        exact hread
      have hle : s.upos.toNat + 1 ≤ 8 * s.inLen.toNat := upos_le_of_bits (bs := [b]) le_rfl rfl hbits
      have hstep := branchStep_bit hnd hleaf hbits hread'.left
      have hupos : (s.advance 1).upos.toNat = s.upos.toNat + 1 := State.advance_toNat hle
      have hrest : (s.advance 1).restBits = q ++ rest := restBits_advance_of_bits (bs := [b]) le_rfl rfl hbits
      have hreadq : BitsReadable (s.advance 1) (s.advance 1).upos.toNat q.length := by
        rw [hupos]
        exact hread'.right
      have hsub' : (if b then r else l).sub q = some sub' := by
        rw [← hsub]
        cases b <;> rfl
      obtain ⟨t, hloop, ht, htcur⟩ := ih (s := (s.advance 1).setCur (if b then nd.right else nd.left))
        (hchild b (s.advance 1).upos) hsub' hrest hreadq
      refine ⟨t, fun k => ?_, ?_, htcur⟩
      · rw [List.length_cons, Nat.add_right_comm, decodeLoop_internal hnd hleaf, hstep, Res.bind_ok, hloop]
      · rw [List.length_cons, Nat.add_comm, BitVec.ofNat_add, ← BitVec.add_assoc]
        exact ht

/-! ## Symbols emitted (R175) -/

/-- The bytes of the symbols, as bits. -/
def emitted (cs : List (Nat × List Bool)) : List Bool := cs.flatMap fun c => bitsN 8 c.1

theorem emitted_concat (cs : List (Nat × List Bool)) (c : Nat × List Bool) :
    emitted (cs ++ [c]) = emitted cs ++ bitsN 8 c.1 := by
  rw [emitted, List.flatMap_append, List.flatMap_singleton]
  rfl

theorem emitted_length (cs : List (Nat × List Bool)) : (emitted cs).length = 8 * cs.length := by
  simp [emitted, List.length_flatMap, bitsN_length, Nat.mul_comm]

theorem emitStep_of_open {s : State} (x : Symbol) (hopen : s.oclosed = false) :
    emitStep x s = (writeAll (bitsN 8 x.toNat) s).bind fun _ m => .ok () (m.setCur m.root) := by
  have hx : (x.setWidth 32).toNat = x.toNat := BitVec.toNat_setWidth_of_le (by omega)
  rw [emitStep, wrBits_eq_writeAll _ _ hopen, hx]
  rfl

theorem emitStep_of_closed {s : State} (x : Symbol) (hclosed : s.oclosed = true) : emitStep x s = .raise .contract s := by
  rw [emitStep, wrBits_closed hclosed, Res.bind_raise]

/-- In the loop of DECODE started from s: the codes of n bits are read, their symbols emitted, `CUR` is at the root. -/
structure AtRoot (s t : State) (n : Nat) (bits : List Bool) : Prop where
  stream : StreamTo s t n bits
  cur : t.cur = s.root

section
variable {s t : State} {tr : Tree} {n : Nat} {bits rest : List Bool}

theorem AtRoot.curTree (h : AtRoot s t n bits) (htree : s.tree = some tr) : CurTree t tr :=
  ⟨walkLevels, by rw [h.stream.node, h.cur]; exact htree⟩

/-- From the root, a path whose bits are there is walked. -/
theorem AtRoot.walk (h : AtRoot s t n bits) (htree : s.tree = some tr) {q : List Bool} {sub : Tree}
    (hsub : tr.sub q = some sub) (hn : n ≤ s.restBits.length) (hbits : s.restBits.drop n = q ++ rest)
    (hread : BitsReadable s s.upos.toNat (n + q.length)) :
    ∃ m, (∀ k, decodeLoop (q.length + k) t = decodeLoop k m) ∧ StreamTo s m (n + q.length) bits ∧ CurTree m sub := by
  obtain ⟨m, hloop, hm, hcur⟩ := decodeLoop_walk (h.curTree htree) hsub ((h.stream.restBits hn).trans hbits)
    (h.stream.readable hn hread)
  refine ⟨m, hloop, ?_, hcur⟩
  rw [hm]
  exact h.stream.move _ _

/-- One more code read and its symbol emitted. -/
theorem AtRoot.symbol (h : AtRoot s t n bits) (htree : s.tree = some tr) {c : Nat × List Bool} (hc : c ∈ tr.codes)
    (hx : c.1 ≠ 256) (hn : n ≤ s.restBits.length) (hbits : s.restBits.drop n = c.2 ++ rest)
    (hread : BitsReadable s s.upos.toNat (n + c.2.length)) (hopen : s.oclosed = false)
    (hwrites : Writes (bits ++ bitsN 8 c.1) s) :
    ∃ m, (∀ k, decodeLoop (c.2.length + 1 + k) t = decodeLoop k m) ∧ AtRoot s m (n + c.2.length) (bits ++ bitsN 8 c.1) := by
  obtain ⟨u, hloop, hu, hcur⟩ := h.walk htree (Tree.sub_of_mem_codes hc) hn hbits hread
  obtain ⟨nd, hnd, hleaf, hsym⟩ := hcur.leaf
  obtain ⟨m, hm⟩ := hu.writes_next hwrites
  obtain ⟨hstream, hupos, -⟩ := hu.write hm
  have hemit : emitStep nd.sym u = .ok () (m.setCur m.root) := by
    rw [emitStep_of_open _ (hu.oclosed.trans hopen), hsym, hm, Res.bind_ok]
  refine ⟨m.setCur m.root, fun k => ?_, ⟨?_, ?_⟩⟩
  · rw [Nat.add_assoc, hloop, Nat.add_comm 1, decodeLoop_symbol hnd hleaf (hsym ▸ hx), hemit, Res.bind_ok]
  · have hmove := hstream.move 0 m.root
    rw [show BitVec.ofNat 32 0 = 0#32 from rfl, BitVec.add_zero, Nat.add_zero] at hmove
    exact hmove
  · exact hstream.root

end

/-- All the codes read and their symbols emitted. -/
theorem decodeLoop_symbols {s t : State} {tr : Tree} (htree : s.tree = some tr) (hroot : AtRoot s t 0 [])
    {cs : List (Nat × List Bool)} : ∀ {rest : List Bool}, (∀ c ∈ cs, c ∈ tr.codes ∧ c.1 ≠ 256) →
    s.restBits = cs.flatMap Prod.snd ++ rest → BitsReadable s s.upos.toNat (cs.flatMap Prod.snd).length →
    (s.oclosed = false ∨ cs = []) → Writes (emitted cs) s →
    ∃ m, (∀ k, decodeLoop ((cs.flatMap Prod.snd).length + cs.length + k) t = decodeLoop k m) ∧
      AtRoot s m (cs.flatMap Prod.snd).length (emitted cs) := by
  induction cs using List.reverseRecOn with
  | nil =>
    intro rest _ _ _ _ _
    exact ⟨t, fun k => by simp, hroot⟩
  | append_singleton cs c ih =>
    intro rest hcs hbits hread hfree hwrites
    have hflat : (cs ++ [c]).flatMap Prod.snd = cs.flatMap Prod.snd ++ c.2 := by
      rw [List.flatMap_append, List.flatMap_singleton]
    have hopen : s.oclosed = false := hfree.resolve_right (by simp)
    rw [hflat] at hbits hread ⊢
    rw [emitted_concat] at hwrites ⊢
    rw [List.length_append] at hread ⊢
    rw [List.append_assoc] at hbits
    obtain ⟨u, hloop, hu⟩ := ih (fun d hd => hcs d (List.mem_append_left _ hd)) hbits hread.left (.inl hopen) hwrites.left
    obtain ⟨hc, hx⟩ := hcs c (by simp)
    have hlen := congrArg List.length hbits
    rw [List.length_append] at hlen
    obtain ⟨m, hloop', hm⟩ := hu.symbol htree hc hx (by omega) (by rw [hbits, List.drop_left]) hread hopen hwrites
    refine ⟨m, fun k => ?_, hm⟩
    rw [← hloop' k, ← hloop, List.length_append, List.length_singleton]
    congr 1
    omega

/-! ## DECODE (R175, R176) -/

/-- DECODE accepts the tree: its root is internal or the end-of-stream leaf. -/
def Tree.decodable : Tree → Prop
  | .leaf x => x = 256
  | .node _ _ => True

theorem decodeStart_ok {s : State} {tr : Tree} (hvalid : s.treeValid = true) (htree : s.tree = some tr)
    (hdec : tr.decodable) : decodeStart s = .ok () (s.setCur s.root) := by
  obtain ⟨nd, hnd, ⟨hleaf, rfl⟩ | ⟨hleaf, l, r, -, -, rfl⟩⟩ := treeAt_succ_eq_some htree
  · exact decodeStart_eos hvalid hnd hdec
  · have hget : getNode s s.root = some nd := hnd
    simp [decodeStart, hvalid, hget, hleaf]

/-- In a tree with a non-empty path every path is non-empty. -/
theorem Tree.path_pos {l r : Tree} {c : Nat × List Bool} (h : c ∈ (Tree.node l r).codes) : 1 ≤ c.2.length := by
  obtain ⟨p, -, hc⟩ | ⟨p, -, hc⟩ := Tree.mem_codes_node.mp h <;> simp [hc]

theorem Tree.length_le_bits {tr : Tree} (hdec : tr.decodable) {cs : List (Nat × List Bool)}
    (hcs : ∀ c ∈ cs, c ∈ tr.codes ∧ c.1 ≠ 256) : cs.length ≤ (cs.flatMap Prod.snd).length := by
  cases tr with
  | leaf x =>
    obtain rfl : x = 256 := hdec
    have hnil : cs = [] := List.eq_nil_iff_forall_not_mem.mpr fun c hc => by
      obtain ⟨hmem, hx⟩ := hcs c hc
      exact hx (congrArg Prod.fst (List.mem_singleton.mp hmem))
    simp [hnil]
  | node l r =>
    rw [List.length_flatMap]
    refine List.length_le_sum_of_one_le _ ?_ |>.trans_eq' (by simp)
    intro n hn
    obtain ⟨c, hc, rfl⟩ := List.mem_map.mp hn
    exact Tree.path_pos (hcs c hc).1

/-- DECODE reads the codes, emits their symbols, and has passes left for the rest of the input. -/
theorem decodeBody_reaches {s : State} {tr : Tree} {cs : List (Nat × List Bool)} {rest : List Bool}
    (hvalid : s.treeValid = true) (htree : s.tree = some tr) (hdec : tr.decodable)
    (hcs : ∀ c ∈ cs, c ∈ tr.codes ∧ c.1 ≠ 256) (hbits : s.restBits = cs.flatMap Prod.snd ++ rest)
    (hread : BitsReadable s s.upos.toNat (cs.flatMap Prod.snd).length) (hfree : s.oclosed = false ∨ cs = [])
    (hwrites : Writes (emitted cs) s) :
    ∃ t k, AtRoot s t (cs.flatMap Prod.snd).length (emitted cs) ∧ rest.length < k ∧ decodeBody s = decodeLoop k t := by
  have hroot : AtRoot s (s.setCur s.root) 0 [] := ⟨⟨(BitVec.add_zero _).symm, rfl⟩, rfl⟩
  obtain ⟨t, hloop, ht⟩ := decodeLoop_symbols htree hroot hcs hbits hread hfree hwrites
  have hlen := congrArg List.length hbits
  rw [State.restBits_length, List.length_append] at hlen
  have hcount := Tree.length_le_bits hdec hcs
  obtain ⟨k, hk⟩ := Nat.exists_eq_add_of_le
    (show (cs.flatMap Prod.snd).length + cs.length ≤ decodePasses s by rw [decodePasses]; omega)
  refine ⟨t, k, ht, ?_, ?_⟩
  · rw [decodePasses] at hk
    omega
  · have hpasses : decodePasses (s.setCur s.root) = decodePasses s := rfl
    rw [decodeBody, decodeStart_ok hvalid htree hdec, Res.bind_ok, hpasses, hk, hloop]

/-- As `decodeBody_reaches`, with a path walked from the root after the codes. -/
theorem decodeBody_walks {s : State} {tr sub : Tree} {cs : List (Nat × List Bool)} {q rest : List Bool}
    (hvalid : s.treeValid = true) (htree : s.tree = some tr) (hdec : tr.decodable)
    (hcs : ∀ c ∈ cs, c ∈ tr.codes ∧ c.1 ≠ 256) (hsub : tr.sub q = some sub)
    (hbits : s.restBits = cs.flatMap Prod.snd ++ q ++ rest)
    (hread : BitsReadable s s.upos.toNat (cs.flatMap Prod.snd ++ q).length) (hfree : s.oclosed = false ∨ cs = [])
    (hwrites : Writes (emitted cs) s) :
    ∃ t k, StreamTo s t (cs.flatMap Prod.snd ++ q).length (emitted cs) ∧ CurTree t sub ∧ t.restBits = rest ∧
      decodeBody s = decodeLoop (k + 1) t := by
  rw [List.append_assoc] at hbits
  rw [List.length_append] at hread ⊢
  obtain ⟨u, k, hu, hk, hbody⟩ := decodeBody_reaches hvalid htree hdec hcs hbits hread.left hfree hwrites
  have hlen := congrArg List.length hbits
  rw [List.length_append, List.length_append] at hlen
  obtain ⟨t, hloop, ht, hcur⟩ := hu.walk htree hsub (by omega) (by rw [hbits, List.drop_left]) hread
  rw [List.length_append] at hk
  obtain ⟨n, rfl⟩ := Nat.exists_eq_add_of_le (show q.length + 1 ≤ k by omega)
  refine ⟨t, n, ht, hcur, ?_, ?_⟩
  · rw [ht.restBits (by omega), hbits, ← List.append_assoc, ← List.length_append, List.drop_left]
  · rw [hbody, Nat.add_assoc, hloop, Nat.add_comm 1]

theorem decodable_of_eos {tr : Tree} {e : List Bool} (h : (256, e) ∈ tr.codes) : tr.decodable := by
  cases tr with
  | leaf x => exact (congrArg Prod.fst (List.mem_singleton.mp h)).symm
  | node l r => trivial

theorem decodable_of_path {tr : Tree} {c : Nat × List Bool} (h : c ∈ tr.codes) (hne : c.2 ≠ []) : tr.decodable := by
  cases tr with
  | leaf x => rw [List.mem_singleton.mp h] at hne; exact absurd rfl hne
  | node l r => trivial

/-- What `NODE` holds at `CUR` at the end. -/
theorem CurTree.leaf_entry {s : State} {x : Nat} (h : CurTree s (.leaf x)) :
    (Store.get? s.node s.cur.toNat).map (fun nd => (nd.leaf, nd.sym.toNat)) = some (true, x) := by
  obtain ⟨nd, hnd, hleaf, hsym⟩ := h.leaf
  rw [show Store.get? s.node s.cur.toNat = some nd from hnd, Option.map_some, hleaf, hsym]

section
variable {s : State} {tr : Tree} {cs : List (Nat × List Bool)} (hs : Ready s) (hvalid : s.treeValid = true)
  (htree : s.tree = some tr) (hcs : ∀ c ∈ cs, c ∈ tr.codes ∧ c.1 ≠ 256)
include hs hvalid htree hcs

/-- Codes and a terminator: DECODE completes right after it. -/
theorem exec_decode_ok {e rest : List Bool} (he : (256, e) ∈ tr.codes)
    (hbits : s.restBits = cs.flatMap Prod.snd ++ e ++ rest)
    (hread : BitsReadable s s.upos.toNat (cs.flatMap Prod.snd ++ e).length) (hfree : s.oclosed = false ∨ cs = [])
    (hwrites : Writes (emitted cs) s.begin) :
    ∃ m, exec .decode s = .next { m with done := true } ∧
      StreamTo s.begin m (cs.flatMap Prod.snd ++ e).length (emitted cs) ∧ CurTree m (.leaf 256) := by
  obtain ⟨m, k, hm, hcur, -, hbody⟩ := decodeBody_walks (s := s.begin) hvalid htree (decodable_of_eos he) hcs
    (Tree.sub_of_mem_codes he) hbits hread hfree hwrites
  obtain ⟨nd, hnd, hleaf, hsym⟩ := hcur.leaf
  refine ⟨m, ?_, hm, hcur⟩
  rw [exec_decode hs, hbody, decodeLoop_eos hnd hleaf hsym, finish_ok_idle (hm.sstate.trans hs)]

/-- At an internal node, the read of the next bit faults. -/
theorem exec_decode_bit_fault {p : Nat × List Bool} {q rest : List Bool} (hp : p ∈ tr.codes) (hq : q <+: p.2) (hne : q ≠ p.2)
    (hbits : s.restBits = cs.flatMap Prod.snd ++ q ++ rest)
    (hread : BitsReadable s s.upos.toNat (cs.flatMap Prod.snd ++ q).length) (hfree : s.oclosed = false ∨ cs = [])
    (hwrites : Writes (emitted cs) s.begin) {k : FaultKind}
    (hfault : ∀ m : State, m.restBits = rest → m.upos.toNat = s.upos.toNat + (cs.flatMap Prod.snd ++ q).length →
      m.params = s.params → needBits 1 m = .raise k m) :
    ∃ m, exec .decode s = .next (faultEntry k m) ∧ StreamTo s.begin m (cs.flatMap Prod.snd ++ q).length (emitted cs) ∧
      ∃ l r, CurTree m (.node l r) := by
  obtain ⟨l, r, hsub⟩ := Tree.sub_of_prefix hp hq hne
  have hpne : p.2 ≠ [] := fun h => hne (by rw [h] at hq ⊢; exact List.prefix_nil.mp hq)
  obtain ⟨m, n, hm, hcur, hrest, hbody⟩ := decodeBody_walks (s := s.begin) hvalid htree (decodable_of_path hp hpne) hcs
    hsub hbits hread hfree hwrites
  obtain ⟨nd, hnd, hleaf, -⟩ := hcur.node
  have hle : (cs.flatMap Prod.snd ++ q).length ≤ s.begin.restBits.length := by
    rw [show s.begin.restBits = s.restBits from rfl, hbits, List.length_append (as := _ ++ q)]
    omega
  refine ⟨m, ?_, hm, l, r, hcur⟩
  rw [exec_decode hs, hbody, decodeLoop_internal hnd hleaf, branchStep, hfault m hrest (hm.upos_toNat hle) hm.params,
    Res.bind_raise, Res.bind_raise, finish_raise]

/-- At the leaf of a symbol, the write of its byte faults. -/
theorem exec_decode_emit_fault {x : Nat} {p rest : List Bool} (hp : (x, p) ∈ tr.codes) (hx : x ≠ 256) (hne : p ≠ [])
    (hbits : s.restBits = cs.flatMap Prod.snd ++ p ++ rest)
    (hread : BitsReadable s s.upos.toNat (cs.flatMap Prod.snd ++ p).length) (hfree : s.oclosed = false ∨ cs = [])
    (hwrites : Writes (emitted cs) s.begin) :
    ∃ m, StreamTo s.begin m (cs.flatMap Prod.snd ++ p).length (emitted cs) ∧ CurTree m (.leaf x) ∧
      ∀ k u, (∀ sym : Symbol, sym.toNat = x → emitStep sym m = .raise k u) → exec .decode s = .next (faultEntry k u) := by
  obtain ⟨m, n, hm, hcur, -, hbody⟩ := decodeBody_walks (s := s.begin) hvalid htree (decodable_of_path hp hne) hcs
    (Tree.sub_of_mem_codes hp) hbits hread hfree hwrites
  obtain ⟨nd, hnd, hleaf, hsym⟩ := hcur.leaf
  refine ⟨m, hm, hcur, fun k u hu => ?_⟩
  rw [exec_decode hs, hbody, decodeLoop_symbol hnd hleaf (hsym ▸ hx), hu _ hsym, Res.bind_raise, finish_raise]

end

/-- A tree entry looks the same in a state with the same `NODE` and `CUR`. -/
theorem eosEntry_of_curTree {s : State} (h : CurTree s (.leaf 256)) :
    (Store.get? s.node s.cur.toNat).map (fun nd => (nd.leaf, nd.sym)) = some (true, 256#9) := by
  obtain ⟨nd, hnd, hleaf, hsym⟩ := h.leaf
  have h9 : nd.sym = 256#9 := BitVec.eq_of_toNat_eq hsym
  rw [show Store.get? s.node s.cur.toNat = some nd from hnd, Option.map_some, hleaf, h9]

theorem StreamTo.counts {s t : State} {n : Nat} {cs : List (Nat × List Bool)} (h : StreamTo s t n (emitted cs))
    (hp : s.params.Ok) (hcap : s.outLen.toNat ≤ s.params.obufCap) :
    t.pcnt = s.pcnt ∧ t.outLen.toNat = s.outLen.toNat + cs.length := by
  have hcount := bitCount_of_outBits (h.outBits hp hcap)
  rw [emitted_length] at hcount
  have hs := s.pcnt.isLt
  have ht := t.pcnt.isLt
  exact ⟨BitVec.eq_of_toNat_eq (by omega), by omega⟩

theorem Room.writes_emitted {s : State} {cs : List (Nat × List Bool)} (h : Room s (8 * cs.length)) :
    Writes (emitted cs) s.begin := Room.writes (s := s.begin) ((emitted_length cs).symm ▸ h)

/-- Settles O36: DECODE walks the codes in one sweep from the root; each clause is what happens at the node it reaches. -/
theorem decodeEmitsSymbols : Obligations.DecodeEmitsSymbols := by
  intro s tr cs hs htr hpacc hcs
  obtain ⟨hvalid, -, htree⟩ := htr
  refine ⟨fun e rest hread he hbits hfree hroom => ?_, fun x p rest hclosed hp hx hne hbits hread => ?_,
    fun p q rest b hp hq hne hbits hread hfail hfree hroom => ?_, fun x p rest hopen hp hx hne hbits hread hblocked => ?_⟩
  · have hlen := congrArg List.length hbits
    rw [State.restBits_length, List.length_append] at hlen
    have hcap : s.outLen.toNat ≤ s.params.obufCap := Nat.le_of_add_right_le hroom.2.1
    obtain ⟨m, hexec, hm, hcur⟩ := exec_decode_ok hs hvalid htree hcs he hbits (fun j hj => hread _ (by omega)) hfree
      hroom.writes_emitted
    have hle : (cs.flatMap Prod.snd ++ e).length ≤ s.restBits.length := by
      rw [hbits, List.length_append (as := _ ++ e)]
      omega
    obtain ⟨hpcnt, hcount⟩ := hm.counts (s := s.begin) hroom.1 hcap
    refine ⟨_, hexec, hm.outBits (s := s.begin) hroom.1 hcap, hcount, hpcnt, ?_, eosEntry_of_curTree hcur, ?_,
      hm.appended (s := s.begin) hroom.1 hcap⟩
    · rw [Nat.add_assoc, ← List.length_append]
      exact hm.upos_toNat (s := s.begin) hle
    · rw [hm.frame]
      rfl
  · obtain ⟨m, hm, hcur, hraise⟩ := exec_decode_emit_fault (cs := []) hs hvalid htree (by simp) hp hx hne hbits hread
      (.inr rfl) (writes_nil _)
    have hm' : m = { s.begin with upos := s.upos + BitVec.ofNat 32 p.length, cur := m.cur } := StreamTo.eq_of_nil hm
    have hentry := hcur.leaf_entry
    rw [hm.node] at hentry
    refine ⟨m.cur, ?_, hentry⟩
    rw [hraise .contract m fun sym _ => emitStep_of_closed sym (hm.oclosed.trans hclosed)]
    exact congrArg (fun u => Host.Outcome.next (faultEntry .contract u)) hm'
  · have hcap : s.outLen.toNat ≤ s.params.obufCap := Nat.le_of_add_right_le hroom.2.1
    obtain ⟨m, hexec, hm, l, r, hcur⟩ := exec_decode_bit_fault (k := .io) hs hvalid htree hcs hp hq hne hbits hread hfree
      hroom.writes_emitted fun m hrest hupos hparams =>
        needBits_io le_rfl (by rw [hrest]; simp) ⟨0, Nat.one_pos, by rw [hupos, hparams]; exact hfail⟩
    obtain ⟨nd, hnd, hleaf, -⟩ := hcur.node
    refine ⟨_, m, hexec, rfl, hm.fields, hm.outBits (s := s.begin) hroom.1 hcap, hm.appended (s := s.begin) hroom.1 hcap, ?_⟩
    have hget : Store.get? s.node m.cur.toNat = some nd := by
      have : Store.get? m.node m.cur.toNat = some nd := hnd
      rwa [hm.node] at this
    rw [hget, Option.map_some, hleaf]
  · obtain ⟨hok, hjlt, hjcap, hjfree, hjblock⟩ := hblocked
    have hpcnt := s.pcnt.isLt
    have hroom : Room s (8 * cs.length) := ⟨hok, by omega, fun i hi => hjfree i (by omega)⟩
    obtain ⟨m, hm, hcur, hraise⟩ := exec_decode_emit_fault hs hvalid htree hcs hp hx hne hbits hread (.inl hopen)
      hroom.writes_emitted
    have hemitted : emitted (cs ++ [(x, p)]) = emitted cs ++ bitsN 8 x := emitted_concat cs (x, p)
    have hlen : (emitted (cs ++ [(x, p)])).length = 8 * (cs.length + 1) := by
      rw [emitted_length, List.length_append, List.length_singleton]
    obtain ⟨u, hu, hstep, hcnt, hacc, hcut⟩ := writeAll_blocked (s := s.begin) (bs := emitted (cs ++ [(x, p)])) (j := cs.length)
      ⟨hok, hlen.symm ▸ hjlt, hjcap, hjfree, hjblock⟩
    obtain ⟨houtLen, happended, houtBits⟩ := hcut
    have hemit (sym : Symbol) (hsym : sym.toNat = x) : emitStep sym m = .raise .io (u.moved m.upos m.cur) := by
      rw [emitStep_of_open _ (hm.oclosed.trans hopen), hsym, hm.writeAll_next, ← hemitted, hu]
      rfl
    have hfault : faultEntry .io (u.moved m.upos m.cur) = (u.moved m.upos m.cur).lostOutput (u.moved m.upos m.cur) :=
      faultEntry_io_clear (hstep.oclosed.trans hopen) hcnt hacc
    have hentry := hcur.leaf_entry
    rw [hm.node] at hentry
    refine ⟨_, (hraise _ _ hemit).trans (congrArg Host.Outcome.next hfault), ?_,
      ⟨houtLen, happended, (State.lostOutput_outBits (m := u.moved m.upos m.cur) hcnt).trans houtBits⟩, hentry⟩
    rw [hm.upos, hstep.fields]
    rfl

/-! ## A cut stream (R180, R202, R212) -/

theorem State.outBits_of_bytes {s : State} (h : s.pcnt = 0#3) : s.outBits = s.output.flatMap fun b => bitsN 8 b.toNat := by
  rw [State.outBits, h, State.output, List.flatMap_map]
  exact List.append_nil _

/-- With nothing pending, the bits of the output determine its bytes. -/
theorem output_of_outBits {s t : State} {bytes : List Byte} (hs : s.pcnt = 0#3) (ht : t.pcnt = 0#3)
    (h : t.outBits = s.outBits ++ bytes.flatMap fun b => bitsN 8 b.toNat) : t.output = s.output ++ bytes := by
  rw [State.outBits_of_bytes hs, State.outBits_of_bytes ht, ← List.flatMap_append] at h
  have hsym := congrArg symbolsOf h
  rw [symbolsOf_bytes, symbolsOf_bytes] at hsym
  exact List.map_injective_iff.mpr (fun _ _ h => BitVec.eq_of_toNat_eq h) hsym

theorem emitted_bytes (cs : List (Nat × List Bool)) :
    emitted cs = (cs.map fun c => BitVec.ofNat 8 c.1).flatMap fun b => bitsN 8 b.toNat := by
  rw [emitted, List.flatMap_map]
  exact List.flatMap_congr fun c _ => by rw [BitVec.toNat_ofNat]; exact (bitsN_mod_two_pow c.1 le_rfl).symm

/-- Fault entry with nothing pending leaves the output. -/
theorem faultEntry_output {k : FaultKind} {m : State} (h : m.pcnt = 0#3) :
    (faultEntry k m).outLen = m.outLen ∧ (faultEntry k m).obuf = m.obuf := by
  rw [faultEntry]
  cases hc : m.oclosed with
  | true => rw [State.closeQuietly_of_closed hc]; exact ⟨rfl, rfl⟩
  | false => rw [State.closeQuietly_of_nothing_pending hc h]; exact ⟨rfl, rfl⟩

/-- Settles O38: at the cut the read of the next bit finds the end of the input. -/
theorem decodeCutCodeIsTruncated : Obligations.DecodeCutCodeIsTruncated := by
  intro s tr cs p q hs hread htr hopen hpcnt hpacc hcs hp hq hne hbits hroom
  obtain ⟨hvalid, -, htree⟩ := htr
  have hlen := congrArg List.length hbits
  rw [State.restBits_length] at hlen
  have hcap : s.outLen.toNat ≤ s.params.obufCap := Nat.le_of_add_right_le hroom.2.1
  obtain ⟨m, hexec, hm, -⟩ := exec_decode_bit_fault (rest := []) (k := .truncated) hs hvalid htree hcs hp hq hne
    (by rw [hbits, List.append_nil]) (fun j hj => hread _ (by omega)) (.inl hopen) hroom.writes_emitted
    fun m hrest _ _ => needBits_truncated (by rw [hrest]; exact Nat.one_pos)
  obtain ⟨hmpcnt, -⟩ := hm.counts (s := s.begin) hroom.1 hcap
  obtain ⟨houtLen, hobuf⟩ := faultEntry_output (k := .truncated) (hmpcnt.trans hpcnt)
  have hout : (faultEntry .truncated m).output = m.output := by rw [State.output, houtLen, hobuf]; rfl
  refine ⟨_, hexec, rfl, rfl, ?_, ?_, ?_⟩
  · rw [faultEntry_upos, hbits]
    exact hm.upos_toNat (s := s.begin) (by rw [show s.begin.restBits = s.restBits from rfl, hbits])
  · rw [hout]
    refine output_of_outBits hpcnt (hmpcnt.trans hpcnt) ?_
    rw [← emitted_bytes]
    exact hm.outBits (s := s.begin) hroom.1 hcap
  · have happended := hm.appended (s := s.begin) hroom.1 hcap
    unfold ObufAppended
    rw [houtLen, hobuf]
    exact happended

end Sys2Proof.Machine
end

/-! # What HDRR can end in, and the tables of a good state (10_state.md, 42_codes_header.md) -/

section

namespace Sys2Proof.Machine

/-! ## The memories of the tables (R42, R50) -/

/-- `FREQ` in canonical form. -/
def FreqOk (m : List (Nat × Word)) : Prop := Store.Canonical 0#32 m ∧ ∀ c ∈ m, c.1 < Config.nsym

/-- `NODE` with its indices rising and in range. -/
def NodesOk (m : List (Nat × Node)) : Prop := Store.Rising m ∧ ∀ c ∈ m, c.1 < Config.nodeCap

/-- `CODE` in canonical form. -/
def CodesOk (m : List (Nat × CodeEntry)) : Prop :=
  Store.Canonical CodeEntry.invalid m ∧ ∀ c ∈ m, c.1 < Config.nsym

theorem FreqOk.nil : FreqOk [] := ⟨Store.canonical_nil _, by simp⟩

theorem FreqOk.write {m : List (Nat × Word)} (h : FreqOk m) {i : Nat} (hi : i < 257) (v : Word) :
    FreqOk (Store.write 0#32 m i v) :=
  ⟨Store.canonical_write h.1 i v, Store.bounded_write h.2 hi v⟩

theorem NodesOk.put {m : List (Nat × Node)} (h : NodesOk m) {i : Nat} (hi : i < 513) (nd : Node) :
    NodesOk (Store.put m i nd) :=
  ⟨Store.rising_put h.1 i nd, Store.bounded_put h.2 hi nd⟩

theorem NodesOk.placeNodes {m : List (Nat × Node)} (h : NodesOk m) {nodes : List Node} (hlen : nodes.length ≤ 513) :
    NodesOk (Machine.placeNodes m nodes) := by
  induction nodes using List.reverseRecOn with
  | nil => exact h
  | append_singleton nodes nd ih =>
    rw [List.length_append, List.length_singleton] at hlen
    rw [placeNodes_concat]
    exact (ih (by omega)).put hlen nd

theorem CodesOk.nil : CodesOk [] := ⟨Store.canonical_nil _, by simp⟩

/-- The walk writes an entry for every leaf it meets, each of a symbol up to 256. -/
theorem CodesOk.walk {nodes : List (Nat × Node)} : ∀ {f : Nat} {i : NodeIdx} {len : BitVec 9} {v : BitVec 256}
    {t u : List (Nat × CodeEntry)}, CodesOk t → Machine.walk nodes f i len v t = some u → CodesOk u
  | f + 1, i, len, v, t, u, ht, h => by
    rw [Machine.walk] at h
    split at h
    next => exact absurd h (by simp)
    next nd _ =>
      split at h
      next =>
        split at h
        next => exact absurd h (by simp)
        next hsym =>
          rw [← Option.some.inj h]
          exact ⟨Store.canonical_write ht.1 _ _, Store.bounded_write ht.2 (Nat.lt_succ_of_le (not_lt.mp hsym)) _⟩
      next =>
        split at h
        next => exact absurd h (by simp)
        next m hm => exact CodesOk.walk (CodesOk.walk ht hm) h

/-! ## The outcomes of `DeserTree` (R160) -/

/-- `DeserTree` from s has read a tree it can hold, or has raised; `NODE` keeps its form. -/
inductive DeserEnds (s : State) : Res NodeIdx → Prop
  | ok {tr : Tree} {t : State} (read : TreeRead s t tr) (symbols : ∀ x ∈ tr.symbols, x ≤ 256)
      (room : t.nnodes.toNat ≤ 513) (nodes : NodesOk s.node → NodesOk t.node) : DeserEnds s (.ok s.nnodes t)
  | raise {k : FaultKind} {t : State} (nodes : NodesOk s.node → NodesOk t.node) : DeserEnds s (.raise k t)

/-- The leaf case of `DeserTree`, with its node allocated. -/
theorem deserLeaf_ends {s : State} (hroom : s.nnodes.toNat < 513) (hle : s.upos.toNat + 1 ≤ 8 * s.inLen.toNat) :
    DeserEnds s ((needBits Config.leafBits s.openNode).bind fun v m =>
      (recordLeaf s.nnodes (v.setWidth 9) m).bind fun _ m => .ok s.nnodes m) := by
  obtain ⟨v, -, hfield, hv⟩ | ⟨-, hv⟩ | hv := needBits_cases Config.leafBits s.openNode
  · rw [hv, Res.bind_ok]
    obtain ⟨hsym, hleaf⟩ | ⟨-, hleaf⟩ := recordLeaf_cases s.nnodes (v.setWidth 9) (s.openNode.advance 9)
    · have hupos : s.openNode.upos.toNat = s.upos.toNat + 1 := State.openNode_upos hle
      have hread := TreeRead.leaf (v.setWidth 9).toNat hroom (s := s)
        (by change s.openNode.upos.toNat + 9 ≤ 8 * s.inLen.toNat at hfield; omega)
      rw [BitVec.ofNat_toNat, BitVec.setWidth_eq] at hread
      change DeserEnds s ((recordLeaf s.nnodes (v.setWidth 9) (s.openNode.advance 9)).bind _)
      rw [hleaf, Res.bind_ok]
      have hn := hread.nnodes
      refine .ok hread (by simpa [Tree.symbols] using hsym) ?_ fun h => NodesOk.put h hroom _
      rw [hn, Tree.size]
      omega
    · change DeserEnds s ((recordLeaf s.nnodes (v.setWidth 9) (s.openNode.advance 9)).bind _)
      rw [hleaf]
      exact .raise id
  · rw [hv]
    exact .raise id
  · rw [hv]
    exact .raise id

theorem deserTree_ends : ∀ (f : Nat) (s : State), s.nnodes.toNat ≤ 513 → 514 ≤ f + s.nnodes.toNat →
    DeserEnds s (deserTree f s)
  | 0, s, hn, hf => by omega
  | f + 1, s, hn, hf => by
    rw [deserTree]
    obtain ⟨b, -, hle, hb⟩ | ⟨-, hb⟩ | hb := needBits_cases 1 s
    case inr.inl => exact hb ▸ .raise id
    case inr.inr => exact hb ▸ .raise id
    case inl =>
      rw [hb, Res.bind_ok]
      obtain ⟨hroom, ha⟩ | ⟨hfull, ha⟩ := allocNode_cases (s.advance 1)
      case inr => exact ha ▸ .raise id
      case inl =>
        have hroom : s.nnodes.toNat < 513 := lt_of_le_of_ne hn hroom
        have hopen : s.openNode.nnodes.toNat = s.nnodes.toNat + 1 := State.openNode_nnodes hroom
        rw [ha, Res.bind_ok]
        split
        next =>
          have hl := deserTree_ends f s.openNode (by omega) (by omega)
          change DeserEnds s ((deserTree f s.openNode).bind _)
          generalize deserTree f s.openNode = rl at hl
          cases hl with
          | raise hk => exact .raise hk
          | @ok l m hread hsyml hm hkl =>
            have hmn := hread.nnodes
            have hr := deserTree_ends f m hm (by omega)
            rw [Res.bind_ok]
            generalize deserTree f m = rr at hr
            cases hr with
            | raise hk => exact .raise fun h => hk (hkl h)
            | @ok r t hread' hsymr ht hkr =>
              have htn := hread'.nnodes
              have hsize : s.nnodes.toNat + (Tree.node l r).size ≤ 513 := by rw [Tree.size]; omega
              have hsyms : ∀ x ∈ (Tree.node l r).symbols, x ≤ 256 := by
                intro x hx
                obtain hx | hx := List.mem_append.mp hx
                exacts [hsyml x hx, hsymr x hx]
              exact .ok (hread.node hle hsize hread') hsyms ht fun h => NodesOk.put (hkr (hkl h)) hroom _
        next => exact deserLeaf_ends hroom hle

end Sys2Proof.Machine

end

/-! # Proofs about the invariant (10_state.md R42) -/

section

namespace Sys2Proof.Machine

/-! ## The tables of a good state -/

/-- What the invariant says of the tree, the codes and the counts. -/
structure TablesOk (s : State) : Prop where
  tree : TreeOk s
  code : CodeOk s
  freq : FreqOk s.freq
  nodes : NodesOk s.node
  codes : CodesOk s.code

/-- What the invariant says of the rest: parameters, streams and flags. -/
structure StreamsOk (s : State) : Prop where
  params : s.params.Ok
  packer : PackerOk s
  lengths : LengthsOk s
  closed : ClosedOk s
  ibuf : s.ibuf.wf ∧ ∀ c ∈ s.ibuf, c.1 < s.params.ibufCap
  obuf : s.obuf.wf ∧ ∀ c ∈ s.obuf, c.1 < s.params.obufCap

theorem inv_iff (s : State) : Inv s ↔ s.busy = false ∧ FlagsOk s ∧ StreamsOk s ∧ TablesOk s := by
  constructor
  · rintro ⟨hbusy, hp, hpack, hlen, hflags, hclosed, htree, hcode, hibuf, hobuf, hfreq, hnode, hcodes⟩
    exact ⟨hbusy, hflags, ⟨hp, hpack, hlen, hclosed, hibuf, hobuf⟩, ⟨htree, hcode, hfreq, hnode, hcodes⟩⟩
  · rintro ⟨hbusy, hflags, hs, ht⟩
    exact ⟨hbusy, hs.params, hs.packer, hs.lengths, hflags, hs.closed, ht.tree, ht.code, hs.ibuf, hs.obuf, ht.freq,
      ht.nodes, ht.codes⟩

theorem Inv.tables {s : State} (h : Inv s) : TablesOk s := ((inv_iff s).mp h).2.2.2

theorem Inv.streams {s : State} (h : Inv s) : StreamsOk s := ((inv_iff s).mp h).2.2.1

theorem Inv.flags {s : State} (h : Inv s) : FlagsOk s := ((inv_iff s).mp h).2.1

theorem Inv.not_busy {s : State} (h : Inv s) : s.busy = false := h.1

/-- In `S_IDLE` no fault is on record. -/
theorem Inv.no_fault {s : State} (h : Inv s) (hs : Ready s) : s.err = false ∧ s.errCode = 0#3 := by
  obtain ⟨hcode, hstate, -⟩ := h.flags
  have herr : ¬ s.err = true := fun he => by
    have := hs.symm.trans (hstate.mp he)
    exact absurd this (by simp)
  exact ⟨by simpa using herr, by simpa using fun hne => herr (hcode.mpr hne)⟩

/-- The two states have the same tree, codes and counts. -/
structure SameTables (s t : State) : Prop where
  treeValid : t.treeValid = s.treeValid
  codeValid : t.codeValid = s.codeValid
  root : t.root = s.root
  nnodes : t.nnodes = s.nnodes
  node : t.node = s.node
  code : t.code = s.code
  freq : t.freq = s.freq

theorem TablesOk.congr {s t : State} (h : TablesOk s) (hst : SameTables s t) : TablesOk t where
  tree := by
    unfold TreeOk
    rw [hst.treeValid, hst.node, hst.nnodes, hst.root]
    exact h.tree
  code := by
    unfold CodeOk
    rw [hst.codeValid, hst.treeValid, hst.node, hst.root, hst.code]
    exact h.code
  freq := hst.freq ▸ h.freq
  nodes := hst.node ▸ h.nodes
  codes := hst.code ▸ h.codes

theorem faultEntry_sameTables (k : FaultKind) (s : State) : SameTables s (faultEntry k s) := by
  rw [faultEntry_fields]
  exact ⟨rfl, rfl, rfl, rfl, rfl, rfl, rfl⟩

theorem TablesOk.faultEntry {s : State} (h : TablesOk s) (k : FaultKind) : TablesOk (Machine.faultEntry k s) :=
  h.congr (faultEntry_sameTables k s)

/-- With no tree marked valid only the forms of the memories are left to show. -/
theorem TablesOk.of_no_tree {s : State} (ht : s.treeValid = false) (hc : s.codeValid = false) (hfreq : FreqOk s.freq)
    (hnodes : NodesOk s.node) (hcodes : CodesOk s.code) : TablesOk s where
  tree h := by rw [ht] at h; exact absurd h (by simp)
  code h := by rw [hc] at h; exact absurd h (by simp)
  freq := hfreq
  nodes := hnodes
  codes := hcodes

/-! ## What each command does to the tables -/

/-- FCOUNT keeps `FREQ` in form: a symbol read in eight bits is below 256. -/
def CountStep (s t : State) : Prop := FreqOk s.freq → FreqOk t.freq

theorem countStep_frame : IsFrame CountStep := ⟨fun _ => id, fun h g hs => g (h hs)⟩

theorem fcountLoop_count : ∀ (k : Nat) (s : State), (fcountLoop k s).Leads CountStep (raisable .fcount) s
  | 0, _ => .stuck
  | k + 1, s => by
    rw [fcountLoop]
    refine .bind countStep_frame (rdBits_leads countStep_frame (fun _ _ => id) (by decide) _ s) fun r m hr => ?_
    cases r with
    | none => exact .ok id
    | some v =>
      have hv : v.toNat < 256 := by
        have hneed : needBits Config.symBits s = .ok v m := by rw [needBits, hr]; rfl
        obtain ⟨hle, rfl, -⟩ := needBits_eq_ok hneed
        have hlt := val_lt (s.restBits.take Config.symBits)
        have hpow := Nat.pow_le_pow_right (n := 2) (by omega) (List.length_take_le Config.symBits s.restBits)
        rw [BitVec.toNat_ofNat]
        exact lt_of_le_of_lt (Nat.mod_le _ _) (lt_of_lt_of_le hlt hpow)
      refine .bind countStep_frame (?_ : (countSymbol v.toNat m).Leads CountStep (raisable .fcount) m) fun _ _ _ =>
        fcountLoop_count k _
      unfold countSymbol
      split
      · exact .raise (by decide) id
      · exact .ok fun h => FreqOk.write h (by omega) _

theorem fcountBody_count (s : State) : (fcountBody s).Leads CountStep (raisable .fcount) s.clearFreq :=
  .bind countStep_frame (fcountLoop_count _ _) fun _ _ _ => .ok fun h =>
    FreqOk.write (i := 256) h (by decide) 1#32

/-- A command that leaves the tables alone. -/
theorem BodyStep.sameTables {i : Instr} {s m : State} (h : BodyStep i s m)
    (hi : i ∈ [Instr.hdrw, .encode, .decode, .flush, .rewind] ∨ ∃ n, i = .rdbits n ∨ i = .wrbits n) :
    SameTables s m := by
  have hf := h.frame
  obtain hi | ⟨n, rfl | rfl⟩ := hi
  · simp only [List.mem_cons, List.not_mem_nil, or_false] at hi
    obtain rfl | rfl | rfl | rfl | rfl := hi <;> rw [hf] <;> exact ⟨rfl, rfl, rfl, rfl, rfl, rfl, rfl⟩
  · rw [hf]
    exact ⟨rfl, rfl, rfl, rfl, rfl, rfl, rfl⟩
  · rw [hf]
    exact ⟨rfl, rfl, rfl, rfl, rfl, rfl, rfl⟩

theorem exec_fcount_tables {s t : State} (hs : Ready s) (h : TablesOk s) (hexec : exec .fcount s = .next t) :
    TablesOk t := by
  rw [exec_fcount hs] at hexec
  have key : ∀ m, ScanStep s.begin m → CountStep s.begin.clearFreq m → TablesOk m := by
    intro m hm hc
    have hfreq : FreqOk m.freq := hc FreqOk.nil
    rw [hm]
    exact ⟨h.tree, h.code, hfreq, h.nodes, h.codes⟩
  obtain ⟨m, hm, rfl⟩ | ⟨k, m, hm, rfl⟩ := finish_next hexec
  · exact (key m ((fcountBody_leads _).of_ok hm) ((fcountBody_count _).of_ok hm)).congr
      ⟨rfl, rfl, rfl, rfl, rfl, rfl, rfl⟩
  · exact (key m ((fcountBody_leads _).of_raise hm).2 ((fcountBody_count _).of_raise hm).2).faultEntry k

theorem exec_tbuild_tables {s t : State} (hs : Ready s) (h : TablesOk s) (hexec : exec .tbuild s = .next t) :
    TablesOk t := by
  have key : ∀ b m, b.nodes.length ≤ 513 → BuiltFrom s.begin m b → TablesOk m := by
    intro b m hlen hm
    rw [hm.state]
    exact .of_no_tree rfl rfl h.freq (h.nodes.placeNodes hlen) h.codes
  by_cases hne : s.counted = []
  · obtain ⟨m, hm, hbuilt⟩ := exec_tbuild_empty hs hne
    rw [hm] at hexec
    exact Host.Outcome.next.inj hexec ▸ (key _ m (Nat.zero_le _) hbuilt).faultEntry _
  · obtain hsum | hsum := Nat.lt_or_ge s.totalCount (2 ^ 32)
    · obtain ⟨t', tr, ht', htree, hcv, -, hn, -, -, -, -, hframe, -⟩ := tbuildBuildsWellFormedTree s hs hne hsum
      obtain ⟨b, e, -, hsound, he, hok⟩ := exec_tbuild_ok hs hne hsum
      rw [ht'] at hexec hok
      obtain rfl := Host.Outcome.next.inj hexec
      have hlen : b.nodes.length ≤ 513 := by
        have := hsound.nodes_length he
        have := s.counted_length_le
        rw [s.counts_length] at *
        omega
      have hnodes : NodesOk t'.node := by
        rw [Host.Outcome.next.inj hok]
        exact h.nodes.placeNodes hlen
      refine ⟨fun _ => htree.2.1, fun hc => ?_, ?_, hnodes, ?_⟩
      · rw [hcv] at hc
        exact absurd hc (by simp)
      · rw [hframe]
        exact h.freq
      · rw [hframe]
        exact h.codes
    · obtain ⟨b, m, -, hlen, hm, hbuilt⟩ := exec_tbuild_overflow hs hsum
      rw [hm] at hexec
      exact Host.Outcome.next.inj hexec ▸ (key b m hlen hbuilt).faultEntry _

theorem exec_ctgen_tables {s t : State} (hs : Ready s) (h : TablesOk s) (hexec : exec .ctgen s = .next t) :
    TablesOk t := by
  rw [exec_ctgen hs] at hexec
  obtain ⟨u, hv, hw, hbody⟩ | ⟨-, hbody⟩ | ⟨-, -, hbody⟩ := ctgenBody_cases s.begin
  · rw [hbody] at hexec
    rw [← Host.Outcome.next.inj hexec]
    exact ⟨h.tree, fun _ => ⟨hv, hw⟩, h.freq, h.nodes, CodesOk.walk CodesOk.nil hw⟩
  · rw [hbody] at hexec
    rw [← Host.Outcome.next.inj hexec]
    exact TablesOk.faultEntry (s := s.begin.stkFree) (h.congr ⟨rfl, rfl, rfl, rfl, rfl, rfl, rfl⟩) _
  · rw [hbody] at hexec
    exact absurd hexec (by simp [finish])

/-- HDRR ends with the tree it read marked valid, or with no tree. -/
theorem hdrrBody_tables {s : State} (h : TablesOk s) :
    (∃ m, hdrrBody s = .ok () m ∧ TablesOk m) ∨ ∃ k m, hdrrBody s = .raise k m ∧ TablesOk m := by
  have hmem : ∀ m : State, ParseStep s.hdrrStart m → NodesOk m.node → TablesOk m := by
    intro m hm hnodes
    rw [hm]
    exact .of_no_tree rfl rfl h.freq hnodes h.codes
  have hstart : ∀ n, TablesOk (s.hdrrStart.advance n) := fun _ => .of_no_tree rfl rfl h.freq h.nodes h.codes
  have h0 : TablesOk s.hdrrStart := .of_no_tree rfl rfl h.freq h.nodes h.codes
  unfold hdrrBody
  obtain ⟨w, -, hle, hw⟩ | ⟨-, hw⟩ | hw := needBits_cases Config.magicBits s.hdrrStart
  case inr.inl => exact hw ▸ .inr ⟨_, _, rfl, h0⟩
  case inr.inr => exact hw ▸ .inr ⟨_, _, rfl, h0⟩
  case inl =>
    rw [hw, Res.bind_ok]
    obtain ⟨-, hm⟩ | ⟨-, hm⟩ := checkMagic_cases w (s.hdrrStart.advance Config.magicBits)
    case inr => exact hm ▸ .inr ⟨_, _, rfl, hstart _⟩
    case inl =>
      rw [hm, Res.bind_ok]
      have hends := deserTree_ends deserLevels (s.hdrrStart.advance Config.magicBits) (Nat.zero_le 513) (Nat.le_refl 514)
      have hlead := deserTree_leads deserLevels (s.hdrrStart.advance Config.magicBits)
      generalize deserTree deserLevels (s.hdrrStart.advance Config.magicBits) = r at hends hlead
      cases hends with
      | @raise k t hnodes =>
        have hstep : ParseStep s.hdrrStart t := by
          have := (hlead.of_raise rfl).2
          rw [this]
          rfl
        exact .inr ⟨k, t, rfl, hmem t hstep (hnodes h.nodes)⟩
      | @ok tr t hread hsyms hroom hnodes =>
        have hn : t.nnodes.toNat = tr.size := hread.nnodes.trans (Nat.zero_add _)
        have hwf : WfTree t.node t.nnodes.toNat 0#10 := hn ▸ PreorderAt.wfTree hread.tree (hn ▸ hroom) hsyms
        refine .inl ⟨_, rfl, fun _ => hwf, fun hc => ?_, ?_, hnodes h.nodes, ?_⟩
        · rw [State.setTree_codeValid, hread.fields] at hc
          exact absurd hc (by simp [State.hdrrStart, State.advance, State.clearValid, State.stkFree])
        · rw [State.setTree_freq, hread.fields]
          exact h.freq
        · rw [State.setTree_code, hread.fields]
          exact h.codes

theorem exec_hdrr_tables {s t : State} (hs : Ready s) (h : TablesOk s) (hexec : exec .hdrr s = .next t) :
    TablesOk t := by
  rw [exec_hdrr hs] at hexec
  have hb : TablesOk s.begin := h.congr ⟨rfl, rfl, rfl, rfl, rfl, rfl, rfl⟩
  obtain ⟨m, hm, htab⟩ | ⟨k, m, hm, htab⟩ := hdrrBody_tables hb
  · rw [hm] at hexec
    exact Host.Outcome.next.inj hexec ▸ htab.congr ⟨rfl, rfl, rfl, rfl, rfl, rfl, rfl⟩
  · rw [hm] at hexec
    exact Host.Outcome.next.inj hexec ▸ htab.faultEntry k

/-- No command spoils the tables. -/
theorem exec_ready_tables {i : Instr} {s t : State} (hc : i.context = .command) (hi : i ≠ .init) (hs : Ready s)
    (h : TablesOk s) (hexec : exec i s = .next t) : TablesOk t := by
  have plain : (i ∈ [Instr.hdrw, .encode, .decode, .flush, .rewind] ∨ ∃ n, i = .rdbits n ∨ i = .wrbits n) →
      TablesOk t := by
    intro hplain
    have hb : TablesOk s.begin := h.congr ⟨rfl, rfl, rfl, rfl, rfl, rfl, rfl⟩
    obtain ⟨m, hm, rfl⟩ | ⟨k, m, -, hm, rfl⟩ | ⟨-, rfl⟩ := exec_ready_cases hc hi hs hexec
    · exact (hb.congr (hm.sameTables hplain)).congr ⟨rfl, rfl, rfl, rfl, rfl, rfl, rfl⟩
    · exact (hb.congr (hm.sameTables hplain)).faultEntry k
    · exact h.faultEntry _
  cases i with
  | fcount => exact exec_fcount_tables hs h hexec
  | tbuild => exact exec_tbuild_tables hs h hexec
  | ctgen => exact exec_ctgen_tables hs h hexec
  | hdrr => exact exec_hdrr_tables hs h hexec
  | hdrw | encode | decode | flush | rewind => exact plain (.inl (by simp))
  | rdbits n => exact plain (.inr ⟨n, .inl rfl⟩)
  | wrbits n => exact plain (.inr ⟨n, .inr rfl⟩)
  | init => exact absurd rfl hi
  | magic | tInternal | tLeaf | bLeft | bRight | compress | decompress => exact absurd hc (by simp [Instr.context])

end Sys2Proof.Machine

end

/-! # Every step keeps the invariant (10_state.md R42) -/

section

namespace Sys2Proof.Machine

/-! ## Commands -/

/-- No command but INIT touches the record of a fault before it ends. -/
theorem BodyStep.record {i : Instr} {s m : State} (hc : i.context = .command) (hi : i ≠ .init) (h : BodyStep i s m) :
    m.err = s.err ∧ m.errCode = s.errCode := by
  rw [h.frame]
  cases i with
  | magic | tInternal | tLeaf | bLeft | bRight | compress | decompress => nomatch hc
  | init => exact absurd rfl hi
  | fcount | tbuild | ctgen | hdrw | encode | hdrr | decode | rdbits | wrbits | flush | rewind => exact ⟨rfl, rfl⟩

theorem faultEntry_flagsOk (k : FaultKind) (s : State) : FlagsOk (faultEntry k s) := by
  have := k.code_ne_zero
  unfold FlagsOk
  simp [this]

theorem exec_ready_flags {i : Instr} {s t : State} (hc : i.context = .command) (hi : i ≠ .init) (hs : Ready s)
    (h : Inv s) (hexec : exec i s = .next t) : FlagsOk t ∧ (t.err = true → t.oclosed = true) := by
  obtain ⟨m, hm, rfl⟩ | ⟨k, m, -, -, rfl⟩ | ⟨-, rfl⟩ := exec_ready_cases hc hi hs hexec
  · obtain ⟨herr, hcode⟩ := hm.record hc hi
    obtain ⟨herr₀, hcode₀⟩ := h.no_fault hs
    have herr : m.err = false := herr.trans herr₀
    have hcode : m.errCode = 0#3 := hcode.trans hcode₀
    unfold FlagsOk
    simp [herr, hcode]
  · exact ⟨faultEntry_flagsOk k m, fun _ => faultEntry_oclosed k m⟩
  · exact ⟨faultEntry_flagsOk _ s, fun _ => faultEntry_oclosed _ s⟩

theorem exec_ready_streams {i : Instr} {s t : State} (hc : i.context = .command) (hi : i ≠ .init)
    (h : StreamsOk s) (hexec : exec i s = .next t) (herr : t.err = true → t.oclosed = true) : StreamsOk t := by
  have hout : OutputGrows s t := exec_outputGrows hi (by rintro rfl; nomatch hc) (by rintro rfl; nomatch hc) hexec
  obtain ⟨hibuf, hin, -, hparams⟩ := exec_inputKept hexec
  obtain ⟨hcap, hlen⟩ := h.lengths
  constructor
  · exact hparams ▸ h.params
  · exact hout.packer h.packer
  · exact ⟨hparams ▸ (hout.grows h.params hcap).1, hin ▸ hparams ▸ hlen⟩
  · exact ⟨herr, hout.nothingPending h.closed.2⟩
  · rw [hibuf, hparams]
    exact h.ibuf
  · rw [hparams]
    exact hout.form h.params hcap h.obuf

theorem initState_inv {s : State} (h : Inv s) : Inv (initState s) := by
  obtain ⟨hp, -, ⟨-, hin⟩, -, hibuf, hobuf⟩ := h.streams
  have ht := h.tables
  refine (inv_iff _).mpr ⟨rfl, ?_, ⟨hp, Nat.one_pos, ⟨Nat.zero_le _, hin⟩, ⟨nofun, nofun⟩, hibuf, hobuf⟩,
    .of_no_tree rfl rfl FreqOk.nil ht.nodes ht.codes⟩
  simp [FlagsOk, initState]

/-- A command keeps the invariant. -/
theorem exec_command_inv {i : Instr} {s t : State} (hc : i.context = .command) (h : Inv s)
    (hexec : exec i s = .next t) : Inv t := by
  by_cases hi : i = .init
  · subst hi
    rw [exec_init_of_not_busy h.not_busy] at hexec
    exact Host.Outcome.next.inj hexec ▸ initState_inv h
  · obtain hs | hs := State.busy_eq_false_iff.mp h.not_busy
    · obtain ⟨hflags, hclosed⟩ := exec_ready_flags hc hi hs h hexec
      exact (inv_iff t).mpr ⟨(commandEnded_of_exec hc hs hexec).1, hflags,
        exec_ready_streams hc hi h.streams hexec hclosed, exec_ready_tables hc hi hs h.tables hexec⟩
    · rw [exec_of_fault hc hi hs] at hexec
      exact Host.Outcome.next.inj hexec ▸ h

/-- The invariant goes from the first state to the second. -/
def InvKept (s t : State) : Prop := Inv s → Inv t

theorem invKept_frame : IsFrame InvKept := ⟨fun _ => id, fun h g hs => g (h hs)⟩

/-- So do the sequences of the pseudo-instructions. -/
theorem exec_pseudo_inv {p : Pseudo} {s t : State} (h : Inv s) (hexec : exec p.instr s = .next t) : Inv t := by
  have hcommand : ∀ {i s t}, i.context = .command → exec i s = .next t → InvKept s t :=
    fun hc he hs => exec_command_inv hc hs he
  have hidle : ¬ s.busy = true := by simp [h.not_busy]
  cases p with
  | compress => exact compressSeq_frame invKept_frame hcommand ((if_neg hidle).symm.trans hexec) h
  | decompress => exact decompressSeq_frame invKept_frame hcommand ((if_neg hidle).symm.trans hexec) h

/-! ## Host accesses -/

/-- What the host's side holds is not part of the invariant. -/
theorem Inv.with_host {s : State} (h : Inv s) (q : List HostOp) (v : Word) (n : Nat) :
    Inv { s with hostOps := q, hostData := v, freeCtr := n } := h

theorem hostWrite_inv {s : State} (h : Inv s) (size : AccessSize) (off : Nat) (v : Word) :
    Inv (hostWrite size off v s) := by
  obtain ⟨hbusy, hflags, hst, ht⟩ := (inv_iff s).mp h
  obtain ⟨-, -, hw⟩ | ⟨-, -, hw⟩ | ⟨i, hi, hw⟩ | ⟨i, hi, hw⟩ | hw := hostWrite_cases size off v s
  · rw [hw, writeInLen]
    split
    next hv =>
      have hle : (v.setWidth 29).toNat ≤ s.params.ibufCap :=
        le_trans (by rw [BitVec.toNat_setWidth]; exact Nat.mod_le _ _) hv
      exact (inv_iff _).mpr ⟨hbusy, hflags,
        ⟨hst.params, hst.packer, ⟨hst.lengths.1, hle⟩, hst.closed, hst.ibuf, hst.obuf⟩,
        ht.congr ⟨rfl, rfl, rfl, rfl, rfl, rfl, rfl⟩⟩
    next => exact h
  · rw [hw]
    exact h
  · obtain ⟨-, -, -, -, hi⟩ := place_eq_freq hi
    rw [hw]
    exact (inv_iff _).mpr ⟨hbusy, hflags, ⟨hst.params, hst.packer, hst.lengths, hst.closed, hst.ibuf, hst.obuf⟩,
      ⟨ht.tree, ht.code, ht.freq.write hi v, ht.nodes, ht.codes⟩⟩
  · obtain ⟨-, -, hi⟩ := place_eq_ibuf hi
    rw [hw]
    exact (inv_iff _).mpr ⟨hbusy, hflags,
      ⟨hst.params, hst.packer, hst.lengths, hst.closed,
        ⟨Memory.wf_write hst.ibuf.1 _ _, Store.bounded_write hst.ibuf.2 hi _⟩, hst.obuf⟩,
      ht.congr ⟨rfl, rfl, rfl, rfl, rfl, rfl, rfl⟩⟩
  · rw [hw]
    exact h

theorem issue_inv {w : Word} {s t : State} (h : Inv s) (ht : issue w s = .next t) : Inv t := by
  cases hw : decodeWord w with
  | ok i =>
    rw [issue_ok hw] at ht
    exact exec_command_inv (context_of_decodeWord hw) h ht
  | error e =>
    rw [issue_illegal (by simp [hw])] at ht
    obtain hs | hs := State.busy_eq_false_iff.mp h.not_busy
    · rw [illegalCommand_idle hs] at ht
      have hout := faultEntry_outputGrows .illCmd s
      obtain ⟨hibuf, hin, -, hparams⟩ := faultEntry_inputKept .illCmd s
      obtain ⟨-, -, hst, htab⟩ := (inv_iff s).mp h
      obtain ⟨hcap, hlen⟩ := hst.lengths
      rw [← Host.Outcome.next.inj ht]
      refine (inv_iff _).mpr ⟨rfl, faultEntry_flagsOk _ s, ⟨hparams ▸ hst.params, hout.packer hst.packer,
        ⟨hparams ▸ (hout.grows hst.params hcap).1, hin ▸ hparams ▸ hlen⟩,
        ⟨fun _ => faultEntry_oclosed _ s, hout.nothingPending hst.closed.2⟩, ?_, ?_⟩, htab.faultEntry _⟩
      · rw [hibuf, hparams]
        exact hst.ibuf
      · rw [hparams]
        exact hout.form hst.params hcap hst.obuf
    · rw [illegalCommand_fault hs] at ht
      exact Host.Outcome.next.inj ht ▸ h

theorem perform_inv {op : HostOp} {s t : State} (h : Inv s) (ht : perform op s = .next t) : Inv t := by
  cases op with
  | read size off =>
    rw [← Host.Outcome.next.inj ht, hostRead_frame]
    exact h
  | write size off data =>
    by_cases hcmd : size = .word ∧ off = 0
    · obtain ⟨rfl, rfl⟩ := hcmd
      exact issue_inv h (perform_command data s ▸ ht)
    · rw [perform_write hcmd] at ht
      exact Host.Outcome.next.inj ht ▸ hostWrite_inv h size off data
  | pseudo p => exact exec_pseudo_inv h ht
  | reset c => exact Host.Outcome.next.inj ht ▸ resetWith_inv c h.streams.params

/-- Settles O47: in a state of the invariant no command runs, so a step waits or performs the next access. -/
theorem stepKeepsInvariant : Obligations.StepKeepsInvariant := by
  intro s t h hstep
  cases ho : s.hostOps with
  | nil =>
    rw [step_waits h.not_busy ho] at hstep
    exact Host.Outcome.next.inj hstep ▸ h
  | cons op rest =>
    rw [step_settled h.not_busy ho] at hstep
    exact perform_inv (s := { s with hostOps := rest }) h hstep

end Sys2Proof.Machine

end

/-! # No step stops (00_scope.md, 20_memory.md R64, R68) -/

section

namespace Sys2Proof.Machine

/-! ## Parts of commands that never stick -/

/-- The part of a command ends with a value or raises. -/
def Res.NeverStuck {α : Type} (r : Res α) : Prop := ∀ e, r ≠ .stuck e

section
variable {α β : Type} {s : State}

theorem Res.NeverStuck.ok (a : α) (s : State) : (Res.ok a s).NeverStuck := nofun

theorem Res.NeverStuck.raise (k : FaultKind) (s : State) : (Res.raise k s : Res α).NeverStuck := nofun

theorem Res.NeverStuck.bind {r : Res α} {f : α → State → Res β} (hr : r.NeverStuck)
    (hf : ∀ a m, r = .ok a m → (f a m).NeverStuck) : (r.bind f).NeverStuck := by
  intro e he
  obtain he | ⟨a, m, ha, he⟩ := Res.bind_eq_stuck.mp he
  · exact hr e he
  · exact hf a m ha e he

theorem Res.NeverStuck.finish {r : Res Unit} (h : r.NeverStuck) : ∃ t, Machine.finish r = .next t := by
  cases r with
  | ok _ m => exact ⟨_, rfl⟩
  | raise k m => exact ⟨_, rfl⟩
  | stuck e => exact absurd rfl (h e)

theorem rdBits_neverStuck (n : Nat) (s : State) : (rdBits n s).NeverStuck := by
  obtain ⟨-, h⟩ | ⟨-, -, v, -, h⟩ | ⟨-, -, h⟩ := rdBits_cases n s <;> rw [h]
  exacts [.ok _ _, .ok _ _, .raise _ _]

theorem needBits_neverStuck (n : Nat) (s : State) : (needBits n s).NeverStuck := by
  obtain ⟨v, -, -, h⟩ | ⟨-, h⟩ | h := needBits_cases n s <;> rw [h]
  exacts [.ok _ _, .raise _ _, .raise _ _]

theorem putByte_neverStuck (b : Byte) (s : State) : (putByte b s).NeverStuck := by
  unfold putByte
  split
  exacts [.raise _ _, .ok _ _]

theorem wrBit_neverStuck (b : Bool) (s : State) : (wrBit b s).NeverStuck := by
  unfold wrBit
  split
  exacts [putByte_neverStuck _ _, .ok _ _]

theorem writeAll_neverStuck : ∀ (bs : List Bool) (s : State), (writeAll bs s).NeverStuck
  | [], _ => .ok _ _
  | b :: bs, s => (wrBit_neverStuck b s).bind fun _ m _ => writeAll_neverStuck bs m

theorem wrBits_neverStuck (n : Nat) (v : Word) (s : State) : (wrBits n v s).NeverStuck := by
  unfold wrBits
  split
  · exact .raise _ _
  · rw [wrLoop_eq_writeAll]
    exact writeAll_neverStuck _ _

theorem flushOut_neverStuck (s : State) : (flushOut s).NeverStuck := by
  obtain ⟨-, h⟩ | ⟨-, -, h⟩ | ⟨-, -, -, h⟩ | ⟨-, -, -, h⟩ := flushOut_cases s <;> rw [h]
  exacts [.ok _ _, .ok _ _, .ok _ _, .raise _ _]

theorem emitStep_neverStuck (x : Symbol) (s : State) : (emitStep x s).NeverStuck :=
  (wrBits_neverStuck _ _ _).bind fun _ _ _ => .ok _ _

theorem wrCode_neverStuck (v : BitVec 256) : ∀ (k : Nat) (s : State), (wrCode v k s).NeverStuck
  | 0, _ => .ok _ _
  | k + 1, _ => (wrBits_neverStuck _ _ _).bind fun _ m _ => wrCode_neverStuck v k m

theorem writeSymbol_neverStuck (x : Nat) (s : State) : (writeSymbol x s).NeverStuck := by
  unfold writeSymbol
  split
  exacts [wrCode_neverStuck _ _ _, .raise _ _]

theorem countSymbol_neverStuck (b : Nat) (s : State) : (countSymbol b s).NeverStuck := by
  unfold countSymbol
  split
  exacts [.raise _ _, .ok _ _]

/-! ## The loops over the symbols of the input (R11, R131, R172) -/

/-- A symbol read is a symbol fewer to read. -/
theorem restSymbols_length_of_rdBits {v : Word} {m : State} (h : rdBits Config.symBits s = .ok (some v) m) :
    m.restSymbols.length + 1 = s.restSymbols.length := by
  have hneed : needBits Config.symBits s = .ok v m := by rw [needBits, h]; rfl
  obtain ⟨hle, -, rfl⟩ := needBits_eq_ok hneed
  have hupos := State.advance_toNat hle
  have hin : (s.advance Config.symBits).inLen = s.inLen := rfl
  rw [State.restSymbols_length, State.restSymbols_length, hupos, hin]
  simp only [Config.symBits] at *
  omega

theorem fcountLoop_neverStuck {k : Nat} {s : State} (h : s.restSymbols.length < k) : (fcountLoop k s).NeverStuck := by
  induction k generalizing s with
  | zero => exact absurd h (Nat.not_lt_zero _)
  | succ k ih =>
    rw [fcountLoop]
    refine (rdBits_neverStuck _ s).bind fun r m hr => ?_
    cases r with
    | none => exact .ok _ _
    | some v =>
      have hlen := restSymbols_length_of_rdBits hr
      refine (countSymbol_neverStuck v.toNat m).bind fun _ u hu => ih ?_
      have hsame : u.restSymbols = m.restSymbols := by
        unfold countSymbol at hu
        split at hu
        · nomatch hu
        · obtain ⟨-, rfl⟩ := Res.ok.inj hu
          rfl
      rw [hsame]
      omega

theorem encodeLoop_neverStuck {k : Nat} {s : State} (h : s.restSymbols.length < k) : (encodeLoop k s).NeverStuck := by
  induction k generalizing s with
  | zero => exact absurd h (Nat.not_lt_zero _)
  | succ k ih =>
    rw [encodeLoop]
    refine (rdBits_neverStuck _ s).bind fun r m hr => ?_
    cases r with
    | none => exact .ok _ _
    | some v =>
      have hlen := restSymbols_length_of_rdBits hr
      refine (writeSymbol_neverStuck v.toNat m).bind fun _ u hu => ih ?_
      have hsame : u.restSymbols = m.restSymbols := by
        rw [((writeSymbol_leads v.toNat m).of_ok hu).1.fields]
        rfl
      rw [hsame]
      omega

theorem fcountBody_neverStuck (s : State) : (fcountBody s).NeverStuck := by
  refine (fcountLoop_neverStuck ?_).bind fun _ _ _ => .ok _ _
  exact Nat.lt_succ_of_le (State.restSymbols_length_le s.clearFreq)

theorem encodeBody_neverStuck (s : State) : (encodeBody s).NeverStuck := by
  unfold encodeBody
  split
  · exact (encodeLoop_neverStuck (Nat.lt_succ_of_le s.restSymbols_length_le)).bind fun _ m _ =>
      writeSymbol_neverStuck _ _
  · exact .raise _ _

end

/-! ## The loop of DECODE (R175, R179) -/

/-- The passes the loop of DECODE still needs: two for a bit that ends a code, one more to emit the symbol it is at. -/
def State.passes (s : State) : Nat :=
  match getNode s s.cur with
  | none => 1
  | some nd =>
    if nd.leaf then (if nd.sym.toNat = 256 then 1 else 2 * s.restBits.length + 2) else 2 * s.restBits.length + 1

/-- R176: the root is no leaf of a symbol to emit. -/
def RootOk (s : State) : Prop := ∀ nd, getNode s s.root = some nd → nd.leaf = true → nd.sym.toNat = 256

theorem State.passes_pos (s : State) : 1 ≤ s.passes := by
  unfold State.passes
  split
  · exact Nat.le_refl 1
  · split_ifs <;> omega

theorem State.passes_le (s : State) : s.passes ≤ 2 * s.restBits.length + 2 := by
  unfold State.passes
  split
  · omega
  · split_ifs <;> omega

section
variable {s m : State} {nd : Node}

theorem State.passes_internal (h : getNode s s.cur = some nd) (hleaf : nd.leaf = false) :
    s.passes = 2 * s.restBits.length + 1 := by
  simp [State.passes, h, hleaf]

theorem State.passes_symbol (h : getNode s s.cur = some nd) (hleaf : nd.leaf = true) (hsym : nd.sym.toNat ≠ 256) :
    s.passes = 2 * s.restBits.length + 2 := by
  simp [State.passes, h, hleaf, hsym]

theorem RootOk.passes_le (hroot : RootOk s) (hcur : s.cur = s.root) : s.passes ≤ 2 * s.restBits.length + 1 := by
  unfold State.passes
  split
  · omega
  next nd hnd =>
    split_ifs with hleaf hsym
    · omega
    · exact absurd (hroot nd (hcur ▸ hnd) hleaf) hsym
    · omega

theorem RootOk.stream (hroot : RootOk s) (h : StreamStep s m) : RootOk m := by
  have hf := h.1.fields
  unfold RootOk getNode
  rw [hf]
  exact hroot

/-- A bit read lowers the passes. -/
theorem State.passes_branch (h : getNode s s.cur = some nd) (hleaf : nd.leaf = false) (hm : branchStep s = .ok () m) :
    m.passes < s.passes := by
  obtain ⟨b, -, hsplit, -⟩ := branchStep_eq_ok h hleaf hm
  have hle := m.passes_le
  rw [State.passes_internal h hleaf, hsplit, List.length_cons]
  omega

/-- So does a symbol emitted. -/
theorem State.passes_emit (hroot : RootOk s) (h : getNode s s.cur = some nd) (hleaf : nd.leaf = true)
    (hsym : nd.sym.toNat ≠ 256) (hm : emitStep nd.sym s = .ok () m) : m.passes < s.passes := by
  have hstep := (emitStep_leads nd.sym s).of_ok hm
  have hcur : m.cur = m.root ∧ m.restBits = s.restBits := by
    obtain ⟨_, u, hu, hm⟩ := Res.bind_eq_ok.mp hm
    obtain ⟨-, rfl⟩ := Res.ok.inj hm
    refine ⟨rfl, ?_⟩
    rw [((wrBits_leads _ _ s).of_ok hu).1.fields]
    rfl
  have hle := (hroot.stream hstep).passes_le hcur.1
  rw [hcur.2] at hle
  rw [State.passes_symbol h hleaf hsym]
  omega

end

/-- What the loop needs of the state: the walk stays in the tree. -/
structure WalkOk (s : State) (tr : Tree) : Prop where
  root : RootOk s
  tree : s.tree = some tr
  cur : ∃ sub, CurTree s sub

theorem WalkOk.branch {s m : State} {tr : Tree} {nd : Node} (h : WalkOk s tr) (hnd : getNode s s.cur = some nd)
    (hleaf : nd.leaf = false) (hm : branchStep s = .ok () m) : WalkOk m tr := by
  have hstep := (branchStep_leads s).of_ok hm
  obtain ⟨b, rfl, -, -⟩ := branchStep_eq_ok hnd hleaf hm
  refine ⟨h.root.stream hstep, h.tree, ?_⟩
  obtain ⟨sub, hsub⟩ := h.cur
  cases sub with
  | leaf x =>
    obtain ⟨nd', hnd', hleaf', -⟩ := hsub.leaf
    obtain rfl := Option.some.inj (hnd.symm.trans hnd')
    rw [hleaf] at hleaf'
    nomatch hleaf'
  | node l r =>
    obtain ⟨nd', hnd', -, hchild⟩ := hsub.node
    obtain rfl := Option.some.inj (hnd.symm.trans hnd')
    exact ⟨_, hchild b _⟩

theorem WalkOk.emit {s m : State} {tr : Tree} {x : Symbol} (h : WalkOk s tr) (hm : emitStep x s = .ok () m) :
    WalkOk m tr := by
  have hstep := (emitStep_leads x s).of_ok hm
  have htree : m.tree = some tr := by
    have hf := hstep.1.fields
    unfold State.tree
    rw [hf]
    exact h.tree
  refine ⟨h.root.stream hstep, htree, tr, walkLevels, ?_⟩
  obtain ⟨_, u, -, hm⟩ := Res.bind_eq_ok.mp hm
  obtain ⟨-, rfl⟩ := Res.ok.inj hm
  exact htree

theorem decodeLoop_neverStuck {tr : Tree} : ∀ {k : Nat} {s : State}, WalkOk s tr → s.passes ≤ k →
    (decodeLoop k s).NeverStuck
  | 0, s, h, hk => absurd s.passes_pos (by omega)
  | k + 1, s, h, hk => by
    obtain ⟨sub, hsub⟩ := h.cur
    obtain ⟨nd, hnd⟩ : ∃ nd, getNode s s.cur = some nd := by
      cases sub with
      | leaf x => exact hsub.leaf.imp fun _ h => h.1
      | node l r => exact hsub.node.imp fun _ h => h.1
    cases hleaf : nd.leaf with
    | true =>
      by_cases hsym : nd.sym.toNat = 256
      · rw [decodeLoop_eos hnd hleaf hsym]
        exact .ok _ _
      · rw [decodeLoop_symbol hnd hleaf hsym]
        refine (emitStep_neverStuck _ _).bind fun _ m hm => decodeLoop_neverStuck (h.emit hm) ?_
        have := State.passes_emit h.root hnd hleaf hsym hm
        omega
    | false =>
      rw [decodeLoop_internal hnd hleaf]
      refine Res.NeverStuck.bind ?_ fun _ m hm => decodeLoop_neverStuck (h.branch hnd hleaf hm) ?_
      · refine (needBits_neverStuck 1 s).bind fun b m hm => ?_
        obtain ⟨-, -, rfl⟩ := needBits_eq_ok hm
        rw [moveToChild_ok (s := s.advance 1) hnd hleaf]
        exact .ok _ _
      · have := State.passes_branch hnd hleaf hm
        omega

/-- A start of DECODE that completes has put `CUR` at a root that can be decoded from. -/
theorem rootOk_of_decodeStart {s m : State} (h : decodeStart s = .ok () m) : RootOk s := by
  intro nd hnd hleaf
  by_contra hsym
  cases hvalid : s.treeValid with
  | true =>
    rw [decodeStart_malformed hvalid hnd hleaf hsym] at h
    nomatch h
  | false =>
    rw [decodeStart, if_neg (by simp [hvalid])] at h
    nomatch h

theorem passes_of_decodeStart {s m : State} (h : decodeStart s = .ok () m) : RootOk m ∧ m.passes ≤ decodePasses m := by
  have hroot := rootOk_of_decodeStart h
  obtain rfl := decodeStart_eq_ok h
  have hm : RootOk (s.setCur s.root) := hroot
  refine ⟨hm, ?_⟩
  have hle := hm.passes_le rfl
  rw [State.restBits_length] at hle
  unfold decodePasses
  omega

theorem decodeBody_neverStuck {s : State} (h : TreeOk s) : (decodeBody s).NeverStuck := by
  refine Res.NeverStuck.bind ?_ fun _ m hm => ?_
  · unfold decodeStart
    split
    next hvalid =>
      obtain ⟨tr, -, -, htree⟩ := h.holdsTree hvalid
      obtain ⟨nd, hnd, -⟩ := treeAt_succ_eq_some htree
      rw [getNode, hnd]
      dsimp only
      split
      exacts [.raise _ _, .ok _ _]
    next => exact .raise _ _
  · obtain ⟨hroot, hpasses⟩ := passes_of_decodeStart hm
    have hvalid : s.treeValid = true := by
      by_contra hv
      rw [decodeStart, if_neg hv] at hm
      nomatch hm
    obtain ⟨tr, -, -, htree⟩ := h.holdsTree hvalid
    obtain rfl := decodeStart_eq_ok hm
    exact decodeLoop_neverStuck ⟨hroot, htree, tr, walkLevels, htree⟩ hpasses

/-! ## Commands over the tree -/

theorem ctgenBody_neverStuck {s : State} (h : TreeOk s) : (ctgenBody s).NeverStuck := by
  obtain ⟨u, -, -, hbody⟩ | ⟨-, hbody⟩ | ⟨hvalid, hwalk, -⟩ := ctgenBody_cases s
  · exact hbody ▸ .ok _ _
  · exact hbody ▸ .raise _ _
  · obtain ⟨tr, htr⟩ := h.holdsTree hvalid
    have hsome := walk_eq_assignCodes 0 0 [] htr.2.2 htr.symbols_le
    exact absurd (hwalk.symm.trans hsome) (by simp)

theorem hdrwBody_neverStuck {s : State} (h : TreeOk s) : (hdrwBody s).NeverStuck := by
  cases hvalid : s.treeValid with
  | false => rw [hdrwBody, if_neg (by simp [hvalid])]; exact .raise _ _
  | true =>
    obtain ⟨tr, -, -, htree⟩ := h.holdsTree hvalid
    cases hopen : s.oclosed with
    | false =>
      rw [hdrwBody_eq_writeAll hvalid htree hopen]
      exact writeAll_neverStuck _ _
    | true => rw [hdrwBody_closed hvalid hopen]; exact .raise _ _

theorem tbuildBody_neverStuck (s : State) : (tbuildBody s).NeverStuck := by
  by_cases hne : s.counted = []
  · obtain ⟨m, hm, -⟩ := tbuildBody_empty hne
    exact hm ▸ .raise _ _
  · obtain ⟨-, b, e, m, -, -, -, -, hm⟩ | ⟨-, b, m, -, -, -, hm⟩ := tbuildBody_counted hne
    · exact hm ▸ .ok _ _
    · exact hm ▸ .raise _ _

theorem hdrrBody_neverStuck (s : State) : (hdrrBody s).NeverStuck := by
  refine (needBits_neverStuck _ _).bind fun w m hm => ?_
  obtain ⟨-, -, rfl⟩ := needBits_eq_ok hm
  refine Res.NeverStuck.bind ?_ fun _ u hu => Res.NeverStuck.bind ?_ fun _ _ _ => .ok _ _
  · unfold checkMagic
    split
    exacts [.ok _ _, .raise _ _]
  · have hn : u.nnodes.toNat = 0 := by
      rw [(checkMagic_leads w _).of_ok hu]
      unfold checkMagic at hu
      split at hu
      · obtain ⟨-, rfl⟩ := Res.ok.inj hu
        rfl
      · nomatch hu
    have hends := deserTree_ends deserLevels u (by omega) (by rw [hn]; decide)
    generalize deserTree deserLevels u = r at hends
    cases hends with
    | ok => exact .ok _ _
    | raise => exact .raise _ _

theorem rdbitsBody_neverStuck (n : BitVec 6) (s : State) : (rdbitsBody n s).NeverStuck :=
  (rdBits_neverStuck _ _).bind fun _ _ _ => .ok _ _

/-! ## Steps -/

theorem exec_ready_next {i : Instr} {s : State} (hc : i.context = .command) (hs : Ready s) (h : TreeOk s) :
    ∃ t, exec i s = .next t := by
  cases hwf : i.wf with
  | false => exact ⟨_, (exec_illegal hc hwf s).trans (illegalCommand_idle hs)⟩
  | true =>
    cases i with
    | fcount => exact exec_fcount hs ▸ (fcountBody_neverStuck _).finish
    | tbuild => exact exec_tbuild hs ▸ (tbuildBody_neverStuck _).finish
    | ctgen => exact exec_ctgen hs ▸ (ctgenBody_neverStuck (s := s.begin) h).finish
    | hdrw => exact exec_hdrw hs ▸ (hdrwBody_neverStuck (s := s.begin) h).finish
    | encode => exact exec_encode hs ▸ (encodeBody_neverStuck _).finish
    | hdrr => exact exec_hdrr hs ▸ (hdrrBody_neverStuck _).finish
    | decode => exact exec_decode hs ▸ (decodeBody_neverStuck (s := s.begin) h).finish
    | rdbits n => exact exec_rdbits hs hwf ▸ (rdbitsBody_neverStuck n _).finish
    | wrbits n => exact exec_wrbits hs hwf ▸ (wrBits_neverStuck _ _ _).finish
    | flush => exact exec_flush hs ▸ (flushOut_neverStuck _).finish
    | rewind => exact ⟨_, command_idle hs⟩
    | init => exact ⟨_, exec_init_of_ready hs⟩
    | magic | tInternal | tLeaf | bLeft | bRight | compress | decompress => nomatch hc

theorem exec_command_next {i : Instr} {s : State} (hc : i.context = .command) (h : Inv s) :
    ∃ t, exec i s = .next t := by
  obtain hs | hs := State.busy_eq_false_iff.mp h.not_busy
  · exact exec_ready_next hc hs h.tables.tree
  · by_cases hi : i = .init
    · exact ⟨_, hi ▸ exec_init_of_fault hs⟩
    · exact ⟨_, exec_of_fault hc hi hs⟩

/-- A command, then what is known to answer in every state of the invariant. -/
theorem andThen_command_next {i : Instr} {s : State} {f : State → Host.Outcome State Fault Refusal}
    (hc : i.context = .command) (h : Inv s) (hf : ∀ m, Inv m → ∃ t, f m = .next t) :
    ∃ t, andThen (exec i s) f = .next t := by
  obtain ⟨m, hm⟩ := exec_command_next hc h
  rw [hm]
  exact hf m (exec_command_inv hc h hm)

theorem exec_pseudo_next {p : Pseudo} {s : State} (h : Inv s) : ∃ t, exec p.instr s = .next t := by
  have hidle : ¬ s.busy = true := by simp [h.not_busy]
  cases p with
  | compress =>
    rw [show exec Pseudo.compress.instr s = compressSeq s from if_neg hidle]
    exact andThen_command_next (i := .init) rfl h fun _ h => andThen_command_next (i := .fcount) rfl h fun _ h =>
      andThen_command_next (i := .tbuild) rfl h fun _ h => andThen_command_next (i := .ctgen) rfl h fun _ h =>
      andThen_command_next (i := .rewind) rfl h fun _ h => andThen_command_next (i := .hdrw) rfl h fun _ h =>
      andThen_command_next (i := .encode) rfl h fun _ h => exec_command_next (i := .flush) rfl h
  | decompress =>
    rw [show exec Pseudo.decompress.instr s = decompressSeq s from if_neg hidle]
    exact andThen_command_next (i := .init) rfl h fun _ h => andThen_command_next (i := .hdrr) rfl h fun _ h =>
      andThen_command_next (i := .decode) rfl h fun _ h => exec_command_next (i := .flush) rfl h

theorem perform_next {op : HostOp} {s : State} (h : Inv s) : ∃ t, perform op s = .next t := by
  cases op with
  | read size off => exact ⟨_, rfl⟩
  | write size off data =>
    by_cases hcmd : size = .word ∧ off = 0
    · obtain ⟨rfl, rfl⟩ := hcmd
      rw [perform_command]
      cases hw : decodeWord data with
      | ok i =>
        rw [issue_ok hw]
        exact exec_command_next (context_of_decodeWord hw) h
      | error e =>
        rw [issue_illegal (by simp [hw])]
        obtain hs | hs := State.busy_eq_false_iff.mp h.not_busy
        · exact ⟨_, illegalCommand_idle hs⟩
        · exact ⟨_, illegalCommand_fault hs⟩
    · exact ⟨_, perform_write hcmd data s⟩
  | pseudo p => exact exec_pseudo_next h
  | reset c => exact ⟨_, rfl⟩

/-- Settles O48: each loop has the passes it needs, and the walks stay in the well-formed tree. -/
theorem invariantStatesNeverStop : Obligations.InvariantStatesNeverStop := by
  intro s h
  cases ho : s.hostOps with
  | nil => exact ⟨s, step_waits h.not_busy ho⟩
  | cons op rest =>
    rw [step_settled h.not_busy ho]
    exact perform_next (s := { s with hostOps := rest }) h

end Sys2Proof.Machine

end

/-! # The state machines of TB and DEC (41_tree_builder.md R140, 43_stream.md R178) -/

section

namespace Sys2Proof.Machine

/-! ## TB (R140) -/

theorem leafStep_goto (s : State) (p : Phase) (x : Nat) : leafStep (s.goto p) x = (leafStep s x).goto p := by
  have hq : (leafStep s x).hostOps = s.hostOps := (leafStep_build s x).queueKept
  have hgoto : (leafStep s x).goto p = (leafStep s x).recast (.run p) s.hostOps := by rw [← hq]; rfl
  rw [hgoto]
  exact leafStep_recast (.run p) s.hostOps s x

theorem popMin_pqLen {s m : State} {e : PqEntry} (h : popMin s = .ok e m) : m.pqLen = s.pqLen - 1#9 := by
  obtain ⟨-, hp⟩ | ⟨e', rest, -, hp⟩ := popMin_cases s
  · exact absurd (hp.symm.trans h) (by simp)
  · rw [hp] at h
    exact (Res.ok.inj h).2 ▸ rfl

theorem mergePair_pqLen {a b : PqEntry} {s m : State} (h : mergePair a b s = .ok () m) : m.pqLen = s.pqLen + 1#9 := by
  obtain ⟨-, hp⟩ | ⟨-, hp⟩ := mergePair_cases a b s
  · rw [hp] at h
    exact (Res.ok.inj h).2 ▸ rfl
  · exact absurd (hp.symm.trans h) (by simp)

theorem tDone_ends (s : State) : PhasesEnd (s.goto .tDone) (finish (treeFinish s)) := .lastPart treeFinish_blind rfl

/-- `T_CHECK`, with the pops and the merge it leads to, runs the loop of R137. -/
theorem tCheck_loop : ∀ (k : Nat) (s : State), s.pqLen ≠ 0#9 → s.pqLen.toNat ≤ k + 1 →
    PhasesEnd (s.goto .tCheck) (finish ((mergeLoop k s).bind fun _ m => treeFinish m)) := by
  intro k
  have last : ∀ (k : Nat) (s : State), s.pqLen = 1#9 →
      PhasesEnd (s.goto .tCheck) (finish ((mergeLoop k s).bind fun _ m => treeFinish m)) := by
    intro k s h1
    have hloop : mergeLoop k s = .ok () s := by
      cases k with
      | zero => exact if_neg (by rw [h1]; decide)
      | succ k => exact if_neg (by rw [h1]; decide)
    have htick : tick .tCheck (s.goto .tCheck) = .next (s.goto .tDone) := by
      change (if s.pqLen = 0#9 then _ else if s.pqLen = 1#9 then _ else _) = _
      rw [h1]
      rfl
    rw [hloop]
    exact (tDone_ends s).step htick
  induction k with
  | zero => exact fun s h0 hk => last 0 s (by bv_omega)
  | succ k ih =>
    intro s h0 hk
    by_cases h1 : s.pqLen = 1#9
    · exact last _ s h1
    · have htick : tick .tCheck (s.goto .tCheck) = .next (s.goto .tPop1) := by
        change (if s.pqLen = 0#9 then _ else if s.pqLen = 1#9 then _ else _) = _
        rw [if_neg h0, if_neg h1]
        rfl
      have hmany : 1 < s.pqLen.toNat := by bv_omega
      have hloop : mergeLoop (k + 1) s = (mergeStep s).bind fun _ m => mergeLoop k m := if_pos hmany
      simp only [hloop, mergeStep, Res.bind_assoc]
      refine PhasesEnd.step (.part popMin_blind rfl fun a m hm => ?_) htick
      refine .part popMin_blind rfl fun b u hu => ?_
      refine .part (mergePair_blind a b) rfl fun _ v hv => ih v ?_ ?_
      all_goals
        have hm := popMin_pqLen hm
        have hu := popMin_pqLen hu
        have hv := mergePair_pqLen hv
        bv_omega

theorem tCheck_ends (s : State) : PhasesEnd (s.goto .tCheck) (finish (treeMerge s)) := by
  unfold treeMerge
  split
  next h0 =>
    have htick : tick .tCheck (s.goto .tCheck) = .next (faultEntry .contract (s.goto .tCheck)) := if_pos h0
    exact .last (htick.trans (congrArg _ (faultEntry_goto _ _ _)))
  next h0 => exact tCheck_loop _ s h0 (Nat.le_succ _)

/-- `T_SCAN` from symbol i on makes the leaves of the symbols from i to 256. -/
theorem tScan_ends : ∀ (j i : Nat) (s : State), i + j = 256 →
    PhasesEnd (s.goto (.tScan i)) (finish (treeMerge ((List.range' i (j + 1)).foldl leafStep s)))
  | 0, i, s, h => by
    have htick : tick (.tScan i) (s.goto (.tScan i)) = .next ((leafStep s i).goto .tCheck) := by
      change Host.Outcome.next ((leafStep (s.goto (.tScan i)) i).goto _) = _
      rw [leafStep_goto, if_pos (show Config.eosSym ≤ i by simp only [Config.eosSym]; omega)]
      rfl
    exact (tCheck_ends _).step htick
  | j + 1, i, s, h => by
    have htick : tick (.tScan i) (s.goto (.tScan i)) = .next ((leafStep s i).goto (.tScan (i + 1))) := by
      change Host.Outcome.next ((leafStep (s.goto (.tScan i)) i).goto _) = _
      rw [leafStep_goto, if_neg (show ¬ Config.eosSym ≤ i by simp only [Config.eosSym]; omega)]
      rfl
    exact (tScan_ends j (i + 1) (leafStep s i) (by omega)).step htick

theorem tbuild_phases {s : State} (hs : Ready s) :
    ∃ s₀ k, startPhases .tbuild s = some s₀ ∧ runPhases k s₀ = exec .tbuild s := by
  refine PhasesEnd.exists_start rfl ?_
  have hbody : tbuildBody s.begin = treeMerge ((List.range' 0 257).foldl leafStep s.begin.treeStart) := by
    rw [← List.range_eq_range']
    rfl
  rw [exec_tbuild hs, hbody]
  exact (tScan_ends 256 0 s.begin.treeStart rfl).step rfl

/-! ## DEC (R178) -/

/-- `D_BIT` reads the bit and runs its branch token. -/
theorem tick_dBit {s : State} (hs : s.sstate = .run .dBit) :
    tick .dBit s = thenPhase (branchStep s) fun _ m => m.goto .dTest := by
  rw [tick, branchStep]
  obtain ⟨v, -, -, hv⟩ | ⟨-, hv⟩ | hv := needBits_cases 1 s <;> rw [hv]
  case inr.inl => rfl
  case inr.inr => rfl
  case inl =>
    have hexec : ∀ b : Bool, runToken .branch [b] .malformed id (s.advance 1) = token (moveToChild b (s.advance 1)) := by
      intro b
      cases b <;> rfl
    dsimp only
    rw [hexec, Res.bind_ok, moveToChild]
    have hrun : ∀ i, ((s.advance 1).setCur i).sstate ≠ .fault := fun i => by
      change s.sstate ≠ .fault
      rw [hs]
      simp
    cases getNode (s.advance 1) (s.advance 1).cur with
    | none => rfl
    | some nd =>
      dsimp only
      split
      · rfl
      · exact if_neg (hrun _)

theorem decodeLoop_phases : ∀ (k : Nat) (s : State), RootOk s → s.passes ≤ k →
    PhasesEnd (s.goto .dTest) (finish (decodeLoop k s))
  | 0, s, _, hk => absurd s.passes_pos (by omega)
  | k + 1, s, hroot, hk => by
    have htest : tick .dTest (s.goto .dTest) = match getNode s s.cur with
        | none => .fault .nodeNotWritten
        | some nd =>
          if nd.leaf then .next (s.goto (if nd.sym.toNat = Config.eosSym then .dDone else .dEmit))
          else .next (s.goto .dBit) := rfl
    cases hnd : getNode s s.cur with
    | none =>
      rw [hnd] at htest
      have hloop : decodeLoop (k + 1) s = .stuck .nodeNotWritten := by rw [decodeLoop, hnd]
      rw [hloop]
      exact .stuck htest
    | some nd =>
      rw [hnd] at htest
      dsimp only at htest
      cases hleaf : nd.leaf with
      | false =>
        rw [hleaf] at htest
        rw [decodeLoop_internal hnd hleaf]
        refine PhasesEnd.step (.part branchStep_blind (tick_dBit rfl) fun _ m hm => ?_) htest
        have := State.passes_branch hnd hleaf hm
        exact decodeLoop_phases k m (hroot.stream ((branchStep_leads s).of_ok hm)) (by omega)
      | true =>
        rw [hleaf, if_pos rfl] at htest
        by_cases hsym : nd.sym.toNat = 256
        · rw [if_pos (show nd.sym.toNat = Config.eosSym from hsym)] at htest
          rw [decodeLoop_eos hnd hleaf hsym]
          exact (PhasesEnd.last (s := s) (p := .dDone) rfl).step htest
        · rw [if_neg (show ¬ nd.sym.toNat = Config.eosSym from hsym)] at htest
          rw [decodeLoop_symbol hnd hleaf hsym]
          have hemit : tick .dEmit (s.goto .dEmit) =
              thenPhase (emitStep nd.sym (s.goto .dEmit)) fun _ m => m.goto .dTest := by
            have hget : getNode (s.goto .dEmit) (s.goto .dEmit).cur = some nd := hnd
            rw [tick, hget]
          refine PhasesEnd.step (.part (emitStep_blind nd.sym) hemit fun _ m hm => ?_) htest
          have := State.passes_emit hroot hnd hleaf hsym hm
          exact decodeLoop_phases k m (hroot.stream ((emitStep_leads nd.sym s).of_ok hm)) (by omega)

theorem decode_phases {s : State} (hs : Ready s) :
    ∃ s₀ k, startPhases .decode s = some s₀ ∧ runPhases k s₀ = exec .decode s := by
  refine PhasesEnd.exists_start rfl ?_
  rw [exec_decode hs]
  refine .part decodeStart_blind rfl fun _ m hm => ?_
  obtain ⟨hroot, hpasses⟩ := passes_of_decodeStart hm
  exact decodeLoop_phases _ m hroot hpasses

end Sys2Proof.Machine

end

/-! # The token machine of HDRR (42_codes_header.md R161, R164) -/

section

namespace Sys2Proof.Machine

open Sys2Proof.Laws (bitsN_length)

/-! ## One token of the tree -/

/-- The bits of one token are read, its node allocated and a leaf recorded: whether the node is a leaf, and its index. -/
def nodeToken (s : State) : Res (Bool × NodeIdx) :=
  (needBits 1 s).bind fun b s =>
    (allocNode s).bind fun i s =>
      if b = 0#32 then .ok (false, i) s
      else
        (needBits Config.leafBits s).bind fun v s =>
          (recordLeaf i (v.setWidth 9) s).bind fun _ s => .ok (true, i) s

/-- A leaf is attached to the stack, an internal node waits on it (R164). -/
def waitOrAttach (n : Bool × NodeIdx) (s : State) : State :=
  if n.1 then attach s.stkLive n.2 s else s.stkSet ((n.2, false) :: s.stkLive)

theorem nodeToken_commutes {φ : State → State} (hφ : KeepsInput φ) : Commutes φ nodeToken :=
  (needBits_commutes hφ 1).bind fun b => (allocNode_commutes hφ).bind fun i =>
    .ite (c := fun _ => b = 0#32) (fun _ => Iff.rfl) (.ok (false, i) fun _ => rfl)
      ((needBits_commutes hφ _).bind fun _ => (recordLeaf_commutes hφ i _).bind fun _ => .ok (true, i) fun _ => rfl)

/-- `DeserTree` reads one token, and after an internal one two trees. -/
theorem deserTree_succ (f : Nat) (s : State) :
    deserTree (f + 1) s = (nodeToken s).bind fun n m =>
      if n.1 then .ok n.2 m
      else (deserTree f m).bind fun l m => (deserTree f m).bind fun r m => .ok n.2 (recordInternal n.2 l r m) := by
  rw [deserTree, nodeToken, Res.bind_assoc]
  refine congrArg _ (funext fun b => funext fun m => ?_)
  rw [Res.bind_assoc]
  refine congrArg _ (funext fun i => funext fun m => ?_)
  by_cases hb : b = 0#32
  · rw [if_pos hb, if_pos hb]
    rfl
  · rw [if_neg hb, if_neg hb, Res.bind_assoc]
    simp only [Res.bind_assoc, Res.bind_ok, if_pos]

/-- A token read uses up a bit and takes the next node. -/
theorem nodeToken_cases {s : State} (hn : s.nnodes.toNat ≤ 513) :
    (∃ leaf m, nodeToken s = .ok (leaf, s.nnodes) m ∧ m.restBits.length < s.restBits.length ∧
      m.nnodes = s.nnodes + 1#10 ∧ s.nnodes.toNat < 513) ∨
    ∃ k m, nodeToken s = .raise k m := by
  rw [nodeToken]
  obtain ⟨b, -, hle, hb⟩ | ⟨-, hb⟩ | hb := needBits_cases 1 s
  case inr.inl => exact hb ▸ .inr ⟨_, _, rfl⟩
  case inr.inr => exact hb ▸ .inr ⟨_, _, rfl⟩
  case inl =>
    rw [hb, Res.bind_ok]
    obtain ⟨hroom, ha⟩ | ⟨-, ha⟩ := allocNode_cases (s.advance 1)
    case inr => exact ha ▸ .inr ⟨_, _, rfl⟩
    case inl =>
      have hroom : s.nnodes.toNat < 513 := lt_of_le_of_ne hn hroom
      rw [ha, Res.bind_ok]
      have hupos : s.openNode.upos.toNat = s.upos.toNat + 1 := State.openNode_upos hle
      have hshort : s.openNode.restBits.length < s.restBits.length := by
        rw [State.restBits_length, State.restBits_length, hupos]
        change 8 * s.inLen.toNat - _ < _
        omega
      split
      next => exact .inl ⟨_, _, rfl, hshort, rfl, hroom⟩
      next =>
        change _ ∨ ∃ k m, (needBits Config.leafBits s.openNode).bind _ = _
        change (∃ leaf m, (needBits Config.leafBits s.openNode).bind _ = _ ∧ _) ∨ _
        obtain ⟨v, -, hle9, hv⟩ | ⟨-, hv⟩ | hv := needBits_cases Config.leafBits s.openNode
        case inr.inl => exact hv ▸ .inr ⟨_, _, rfl⟩
        case inr.inr => exact hv ▸ .inr ⟨_, _, rfl⟩
        case inl =>
          rw [hv, Res.bind_ok]
          obtain ⟨-, hr⟩ | ⟨-, hr⟩ := recordLeaf_cases (s.advance 1).nnodes (v.setWidth 9) (s.openNode.advance Config.leafBits)
          · rw [hr]
            refine .inl ⟨_, _, rfl, ?_, rfl, hroom⟩
            refine lt_of_le_of_lt ?_ hshort
            change (s.openNode.advance Config.leafBits).restBits.length ≤ _
            rw [State.restBits_advance hle9, List.length_drop]
            exact Nat.sub_le _ _
          · rw [hr]
            exact .inr ⟨_, _, rfl⟩

/-! ## The phase `H_TREE` -/

theorem readLoop_alloc (s : State) : ∀ (k p : Nat) (v : Word), readLoop s.alloc k p v = readLoop s k p v
  | 0, _, _ => rfl
  | k + 1, p, v => by
    rw [readLoop, readLoop]
    change (match inBit s p with | .ok b => readLoop s.alloc k (p + 1) (shiftIn v b) | .error e => .error e) = _
    cases inBit s p with
    | ok b => exact readLoop_alloc s k (p + 1) _
    | error e => rfl

/-- Reading does not look at the node counter. -/
theorem rdBits_alloc (n : Nat) (s : State) : rdBits n s.alloc = (rdBits n s).mapState State.alloc := by
  unfold rdBits
  rw [readLoop_alloc]
  change (if s.upos.toNat + n > 8 * s.inLen.toNat then _ else _) = _
  split
  · rfl
  · change (match readLoop s n s.upos.toNat 0#32 with | .ok v => _ | .error k => _) = _
    cases readLoop s n s.upos.toNat 0#32 <;> rfl

theorem afterToken_next {s : State} (h : s.sstate ≠ .fault) (p : State → Phase) :
    afterToken (.next s) p = .next (s.goto (p s)) :=
  if_neg h

/-- The field of a leaf token is a symbol, or the token is none (R91). -/
theorem decode_leafField (v : Word) :
    decode .tree (true :: bitsN 9 v.toNat) =
      if symbolOk (v.setWidth 9) then .ok (.tLeaf (v.setWidth 9), []) else .error .reservedLeaf := by
  have hbits : bitsN 9 v.toNat = bitsN 9 (v.setWidth 9 : Symbol).toNat ++ [] := by
    rw [List.append_nil, BitVec.toNat_setWidth, bitsN_mod_two_pow _ le_rfl]
  have hlen : ¬(bitsN 9 (v.setWidth 9 : Symbol).toNat ++ []).length < Config.leafBits := by
    rw [List.length_append, bitsN_length, Config.leafBits]
    decide
  rw [hbits, decode, decodeTree, if_neg hlen, symbolOf_take_bitsN, List.drop_left' (bitsN_length 9 _)]

/-- A leaf token with room for its node. -/
theorem runToken_leaf {s : State} (v : Word) (halloc : allocNode s = .ok s.nnodes s.alloc) (hs : s.sstate ≠ .fault) :
    afterToken (runToken .tree (true :: bitsN 9 v.toNat) .malformed State.alloc s) treePhase =
      thenPhase ((recordLeaf s.nnodes (v.setWidth 9) s.alloc).bind fun _ m => .ok (true, s.nnodes) m) fun n m =>
        (waitOrAttach n m).goto (treePhase (waitOrAttach n m)) := by
  rw [runToken, decode_leafField]
  by_cases hsym : symbolOk (v.setWidth 9) = true
  · have hrec : recordLeaf s.nnodes (v.setWidth 9) s.alloc = .ok () _ := if_pos hsym
    have hexec : exec (.tLeaf (v.setWidth 9)) s =
        .next (attach (s.alloc.setNode s.nnodes.toNat (leafNode (v.setWidth 9) 0#32)).stkLive s.nnodes
          (s.alloc.setNode s.nnodes.toNat (leafNode (v.setWidth 9) 0#32))) := by
      change token (leafTokenStep _ s) = _
      rw [leafTokenStep, halloc, Res.bind_ok, hrec]
      rfl
    rw [if_pos hsym, hrec]
    dsimp only
    rw [hexec, afterToken_next]
    · rfl
    · rw [attach_tokenStep _ _ (s.alloc.setNode _ _)]
      exact hs
  · have hrec : recordLeaf s.nnodes (v.setWidth 9) s.alloc = .raise .malformed s.alloc := if_neg hsym
    rw [if_neg hsym, hrec]
    rfl

/-- `H_TREE` reads one token and runs it. -/
theorem tick_hTree {s : State} (hs : s.sstate = .run .hTree) :
    tick .hTree s =
      thenPhase (nodeToken s) fun n m => (waitOrAttach n m).goto (treePhase (waitOrAttach n m)) := by
  rw [tick, fetchTreeToken, nodeToken]
  obtain ⟨b, -, -, hb⟩ | ⟨-, hb⟩ | hb := needBits_cases 1 s <;> rw [hb]
  case inr.inl => rfl
  case inr.inr => rfl
  case inl =>
    rw [Res.bind_ok, Res.bind_ok]
    have hrun : (s.advance 1).sstate ≠ .fault := by
      rw [State.advance_sstate, hs]
      simp
    obtain ⟨hroom, ha⟩ | ⟨hfull, ha⟩ := allocNode_cases (s.advance 1)
    case inr =>
      rw [ha, if_pos (show (s.advance 1).nodesFull = true from decide_eq_true hfull)]
      rfl
    case inl =>
      have hnotFull : ¬ (s.advance 1).nodesFull = true := fun h => hroom (of_decide_eq_true h)
      rw [ha, if_neg hnotFull, Res.bind_ok]
      by_cases hb0 : b = 0#32
      · have hexec : runToken .tree [false] .malformed State.alloc (s.advance 1) =
            .next ((s.advance 1).alloc.stkSet (((s.advance 1).nnodes, false) :: (s.advance 1).alloc.stkLive)) := by
          change token (internalStep (s.advance 1)) = _
          rw [internalStep, ha]
          rfl
        rw [if_pos hb0, if_pos hb0]
        dsimp only
        rw [hexec, afterToken_next (by exact hrun)]
        rfl
      · rw [if_neg hb0, if_neg hb0, needBits, rdBits_alloc]
        obtain ⟨-, hr⟩ | ⟨-, -, v, -, hr⟩ | ⟨-, -, hr⟩ := rdBits_cases Config.leafBits (s.advance 1)
        · rw [hr]
          rfl
        · rw [hr]
          exact runToken_leaf v (if_neg hnotFull) hrun
        · rw [hr]
          rfl

/-! ## What is left to read (R164) -/

/-- `DeserTree` with the calls HDRR gives it. -/
def readTree (s : State) : Res NodeIdx := deserTree deserLevels s

/-- One more call changes nothing: a node is allocated at every level. -/
theorem deserTree_fuel : ∀ (f : Nat) (s : State), s.nnodes.toNat ≤ 513 → 514 ≤ f + s.nnodes.toNat →
    deserTree (f + 1) s = deserTree f s
  | 0, s, hn, hf => by omega
  | f + 1, s, hn, hf => by
    rw [deserTree_succ (f + 1), deserTree_succ f]
    obtain ⟨leaf, m, hm, -, hnodes, hroom⟩ | ⟨k, m, hm⟩ := nodeToken_cases hn
    · rw [hm, Res.bind_ok, Res.bind_ok]
      have hmn : m.nnodes.toNat = s.nnodes.toNat + 1 := by rw [hnodes]; bv_omega
      have hends := deserTree_ends f m (by omega) (by omega)
      rw [deserTree_fuel f m (by omega) (by omega)]
      cases leaf with
      | true => rfl
      | false =>
        simp only [Bool.false_eq_true, if_false]
        generalize deserTree f m = r at hends
        cases hends with
        | raise => rfl
        | @ok tr u hread _ hu _ =>
          have hun := hread.nnodes
          rw [Res.bind_ok, Res.bind_ok, deserTree_fuel f u hu (by omega)]
    · rw [hm]
      rfl

/-- `DeserTree` reads one token, and after an internal one two trees. -/
theorem readTree_eq {s : State} (hn : s.nnodes.toNat ≤ 513) :
    readTree s = (nodeToken s).bind fun n m =>
      if n.1 then .ok n.2 m
      else (readTree m).bind fun l m => (readTree m).bind fun r m => .ok n.2 (recordInternal n.2 l r m) := by
  rw [readTree, ← deserTree_fuel deserLevels s hn (Nat.le_add_right _ _), deserTree_succ]
  rfl

/-- What the recursion still does once the subtree with root r is read: the nodes on the stack wait for it. -/
def resume : List StkEntry → NodeIdx → State → Res NodeIdx
  | [], r, s => .ok r s
  | (i, false) :: rest, l, s => (readTree s).bind fun r s => resume rest i (recordInternal i l r s)
  | (i, true) :: rest, r, s => resume rest i (recordInternal i (i + 1#10) r s)

/-- The left child of a node follows it: r is the root of the subtree the stack waits for (R64 item 6). -/
def Waits : List StkEntry → NodeIdx → Prop
  | [], _ => True
  | (i, false) :: rest, r => r = i + 1#10 ∧ Waits rest i
  | (i, true) :: rest, _ => Waits rest i

/-- All that is left to read with the stack l. -/
def readRest (l : List StkEntry) (s : State) : Res NodeIdx := (readTree s).bind (resume l)

theorem readRest_eq {l : List StkEntry} {s : State} (hn : s.nnodes.toNat ≤ 513) :
    readRest l s = (nodeToken s).bind fun n m => if n.1 then resume l n.2 m else readRest ((n.2, false) :: l) m := by
  rw [readRest, readTree_eq hn, Res.bind_assoc]
  refine congrArg _ (funext fun n => funext fun m => ?_)
  split
  · rfl
  · rw [readRest, Res.bind_assoc]
    refine congrArg _ (funext fun i => funext fun m => ?_)
    rw [Res.bind_assoc]
    rfl

/-- The state of HDRR in phase `H_TREE`, with the explicit stack l. -/
def State.inTree (s : State) (l : List StkEntry) (c : Nat) : State :=
  { s with stk := l, sp := BitVec.ofNat 10 l.length, freeCtr := c, sstate := .run .hTree }

theorem inTree_keepsInput (l : List StkEntry) (c : Nat) : KeepsInput fun s => s.inTree l c :=
  ⟨fun _ => rfl, fun _ => rfl, fun _ => rfl, fun _ => rfl, fun _ => rfl, fun _ _ => rfl, fun _ => rfl, fun _ _ _ => rfl⟩

theorem inTree_stkLive {l : List StkEntry} (h : l.length < 1024) (s : State) (c : Nat) : (s.inTree l c).stkLive = l := by
  change l.take (BitVec.ofNat 10 l.length).toNat = l
  rw [BitVec.toNat_ofNat, Nat.mod_eq_of_lt h, List.take_length]

/-- After a subtree is attached the stack is empty and the tree complete, or it holds what the recursion still does. -/
theorem attach_resumes (l₀ : List StkEntry) (c : Nat) : ∀ (l : List StkEntry) (r : NodeIdx) (s : State), Waits l r →
    ∃ l' s', attach l r (s.inTree l₀ c) = s'.inTree l' c ∧ l'.length ≤ l.length ∧ s'.restBits = s.restBits ∧
      s'.nnodes = s.nnodes ∧
      ((l' = [] ∧ ∃ i, resume l r s = .ok i s') ∨
        (l' ≠ [] ∧ (∀ x, Waits l' x) ∧ resume l r s = readRest l' s'))
  | [], r, s, _ => ⟨[], s, rfl, Nat.le_refl _, rfl, rfl, .inl ⟨rfl, r, rfl⟩⟩
  | (i, false) :: rest, r, s, h => by
    obtain ⟨rfl, hrest⟩ := h
    exact ⟨(i, true) :: rest, s, rfl, Nat.le_refl _, rfl, rfl, .inr ⟨List.cons_ne_nil _ _, fun _ => hrest, rfl⟩⟩
  | (i, true) :: rest, r, s, h => by
    obtain ⟨l', s', hattach, hlen, hbits, hnodes, hends⟩ :=
      attach_resumes l₀ c rest i (recordInternal i (i + 1#10) r s) h
    exact ⟨l', s', hattach, Nat.le_succ_of_le hlen, hbits, hnodes, hends⟩

/-! ## The phases end where the command does -/

/-- The phases from s end where HDRR ends with the outcome r of its reading, `STK` and `SP` aside. -/
def HeaderEnds (s : State) (r : Res NodeIdx) : Prop :=
  ∃ k t u, runPhases k s = .next t ∧ finish (r.bind fun _ m => .ok () (m.setTree 0#10)) = .next u ∧
    t.visible = u.visible

theorem HeaderEnds.step {s t : State} {p : Phase} {r : Res NodeIdx} (hs : s.sstate = .run p) (h : HeaderEnds t r)
    (ht : tick p s = .next t) : HeaderEnds s r := by
  obtain ⟨k, u, v, hk, hr, huv⟩ := h
  exact ⟨k + 1, u, v, by rw [runPhases_succ hs, ht]; exact hk, hr, huv⟩

theorem HeaderEnds.raise {s m m' : State} {p : Phase} {k : FaultKind} (hs : s.sstate = .run p)
    (ht : tick p s = .next (faultEntry k m')) (h : (faultEntry k m').visible = (faultEntry k m).visible) :
    HeaderEnds s (.raise k m) :=
  ⟨1, _, _, by rw [runPhases_succ hs, ht]; rfl, rfl, h⟩

/-- Fault entry sees neither the stack nor the phase. -/
theorem faultEntry_inTree (k : FaultKind) (s : State) (l : List StkEntry) (c : Nat) :
    (faultEntry k (s.inTree l c)).visible = (faultEntry k s).visible := by
  have hgoto : s.inTree l c = State.goto { s with stk := l, sp := BitVec.ofNat 10 l.length, freeCtr := c } .hTree := rfl
  rw [hgoto, faultEntry_goto]
  exact faultEntry_visible_congr rfl

theorem hDone_ends (s : State) (i : NodeIdx) (c : Nat) : HeaderEnds ((s.inTree [] c).goto .hDone) (.ok i s) :=
  ⟨1, _, _, rfl, rfl, rfl⟩

/-- `H_TREE` with the stack l reads what the recursion still reads. -/
theorem hTree_ends (c : Nat) : ∀ (n : Nat) (s : State) (l : List StkEntry), s.restBits.length ≤ n →
    s.nnodes.toNat ≤ 513 → l.length ≤ s.nnodes.toNat → Waits l s.nnodes → HeaderEnds (s.inTree l c) (readRest l s) := by
  intro n
  induction n using Nat.strongRecOn with
  | ind n ih =>
    intro s l hbits hn hl hw
    have htick := tick_hTree (s := s.inTree l c) rfl
    have htoken : nodeToken (s.inTree l c) = (nodeToken s).mapState fun m => m.inTree l c :=
      nodeToken_commutes (inTree_keepsInput l c) s
    rw [htoken] at htick
    rw [readRest_eq hn]
    obtain ⟨leaf, m, hm, hshort, hnodes, hroom⟩ | ⟨k, m, hm⟩ := nodeToken_cases hn
    case inr =>
      rw [hm] at htick ⊢
      exact .raise rfl htick (faultEntry_inTree k m l c)
    case inl =>
      rw [hm] at htick ⊢
      have hmn : m.nnodes.toNat = s.nnodes.toNat + 1 := by rw [hnodes]; bv_omega
      have hlive := inTree_stkLive (l := l) (by omega) m c
      have hnext : ∀ (l' : List StkEntry) (s' : State), waitOrAttach (leaf, s.nnodes) (m.inTree l c) = s'.inTree l' c → l' ≠ [] →
          l'.length ≤ m.nnodes.toNat → tick .hTree (s.inTree l c) = .next (s'.inTree l' c) := by
        intro l' s' hplace hne hlen
        have hphase : treePhase (s'.inTree l' c) = .hTree := by
          refine if_neg fun h0 => hne (List.length_eq_zero_iff.mp ?_)
          have h0 : BitVec.ofNat 10 l'.length = 0#10 := h0
          have hz := congrArg BitVec.toNat h0
          rw [BitVec.toNat_ofNat, Nat.mod_eq_of_lt (by omega)] at hz
          exact hz
        rw [htick]
        change Host.Outcome.next (State.goto _ _) = _
        rw [hplace, hphase]
        rfl
      cases leaf with
      | false =>
        have hplace : waitOrAttach (false, s.nnodes) (m.inTree l c) = m.inTree ((s.nnodes, false) :: l) c := by
          change (m.inTree l c).stkSet ((s.nnodes, false) :: (m.inTree l c).stkLive) = _
          rw [hlive]
          rfl
        have hlen : ((s.nnodes, false) :: l).length ≤ m.nnodes.toNat := by rw [List.length_cons]; omega
        exact .step rfl (ih _ (lt_of_lt_of_le hshort hbits) m _ le_rfl (by omega) hlen ⟨hnodes, hw⟩)
          (hnext _ m hplace (List.cons_ne_nil _ _) hlen)
      | true =>
        obtain ⟨l', s', hattach, hlen, hrest, hsn, hends⟩ := attach_resumes l c l s.nnodes m hw
        have hplace : waitOrAttach (true, s.nnodes) (m.inTree l c) = s'.inTree l' c := by
          rw [← hattach]
          change attach (m.inTree l c).stkLive s.nnodes (m.inTree l c) = _
          rw [hlive]
        change HeaderEnds _ (resume l s.nnodes m)
        obtain ⟨rfl, i, hdone⟩ | ⟨hne, hw', hmore⟩ := hends
        · rw [hdone]
          refine .step rfl (hDone_ends s' i c) ?_
          rw [htick]
          change Host.Outcome.next (State.goto _ _) = _
          rw [hplace]
          rfl
        · rw [hmore]
          exact .step rfl (ih _ (lt_of_lt_of_le (hrest ▸ hshort) hbits) s' l' le_rfl (by rw [hsn]; omega)
            (by rw [hsn]; omega) (hw' _)) (hnext l' s' hplace hne (by omega))

/-- `H_MAGIC` reads the magic value and compares it. -/
theorem tick_hMagic {s : State} (hs : s.sstate = .run .hMagic) :
    tick .hMagic s =
      thenPhase ((needBits Config.magicBits s).bind fun w m => checkMagic w m) fun _ m => m.goto .hTree := by
  rw [tick]
  obtain ⟨w, -, -, hw⟩ | ⟨-, hw⟩ | hw := needBits_cases Config.magicBits s <;> rw [hw]
  case inr.inl => rfl
  case inr.inr => rfl
  case inl =>
    have hdecode : decode .header (bitsN 32 w.toNat) = .ok (.magic w, []) := by
      rw [← List.append_nil (bitsN 32 w.toNat), decode_header]
    have hrun : (s.advance Config.magicBits).sstate ≠ .fault := by
      rw [State.advance_sstate, hs]
      simp
    dsimp only
    rw [Res.bind_ok, runToken_ok hdecode]
    change afterToken (token (checkMagic w _)) _ = _
    obtain ⟨-, hm⟩ | ⟨-, hm⟩ := checkMagic_cases w (s.advance Config.magicBits) <;> rw [hm]
    · exact afterToken_next hrun _
    · rfl

/-- The state of HDRR in phase `H_MAGIC`. -/
def State.inMagic (s : State) (c : Nat) : State := { s with stk := [], sp := 0#10, freeCtr := c, sstate := .run .hMagic }

theorem inMagic_keepsInput (c : Nat) : KeepsInput fun s => s.inMagic c :=
  ⟨fun _ => rfl, fun _ => rfl, fun _ => rfl, fun _ => rfl, fun _ => rfl, fun _ _ => rfl, fun _ => rfl, fun _ _ _ => rfl⟩

theorem faultEntry_inMagic (k : FaultKind) (s : State) (c : Nat) :
    (faultEntry k (s.inMagic c)).visible = (faultEntry k s).visible := by
  have hgoto : s.inMagic c = State.goto { s with stk := [], sp := 0#10, freeCtr := c } .hMagic := rfl
  rw [hgoto, faultEntry_goto]
  exact faultEntry_visible_congr rfl

/-- The magic value read and compared, in HDRR. -/
def readMagic (s : State) : Res Unit := (needBits Config.magicBits s).bind fun w m => checkMagic w m

theorem readMagic_commutes {φ : State → State} (hφ : KeepsInput φ) : Commutes φ readMagic :=
  (needBits_commutes hφ _).bind fun w => checkMagic_commutes hφ w

theorem readMagic_cases (s : State) :
    (∃ m, readMagic s = .ok () m ∧ m.nnodes = s.nnodes) ∨ ∃ k m, readMagic s = .raise k m := by
  rw [readMagic]
  obtain ⟨w, -, -, hw⟩ | ⟨-, hw⟩ | hw := needBits_cases Config.magicBits s <;> rw [hw]
  · rw [Res.bind_ok]
    obtain ⟨-, hm⟩ | ⟨-, hm⟩ := checkMagic_cases w (s.advance Config.magicBits) <;> rw [hm]
    · exact .inl ⟨_, rfl, rfl⟩
    · exact .inr ⟨_, _, rfl⟩
  · exact .inr ⟨_, _, rfl⟩
  · exact .inr ⟨_, _, rfl⟩

theorem hMagic_ends {s : State} (hn : s.nnodes = 0#10) (c : Nat) :
    HeaderEnds (s.inMagic c) ((readMagic s).bind fun _ m => readTree m) := by
  have htick := tick_hMagic (s := s.inMagic c) rfl
  change _ = thenPhase (readMagic (s.inMagic c)) _ at htick
  rw [show readMagic (s.inMagic c) = (readMagic s).mapState fun m => m.inMagic c from
    readMagic_commutes (inMagic_keepsInput c) s] at htick
  obtain ⟨m, hm, hmn⟩ | ⟨k, m, hm⟩ := readMagic_cases s
  · rw [hm] at htick ⊢
    have hm0 : m.nnodes.toNat = 0 := by rw [hmn, hn]; rfl
    have hrest : readRest [] m = readTree m := by
      rw [readRest]
      cases readTree m <;> rfl
    have h := hTree_ends c _ m [] le_rfl (by omega) (Nat.zero_le _) trivial
    rw [hrest] at h
    exact .step rfl h htick
  · rw [hm] at htick ⊢
    exact .raise rfl htick (faultEntry_inMagic k m c)

/-- The root of the tree HDRR reads is node 0. -/
theorem hdrrBody_root (s : State) :
    hdrrBody s = ((readMagic s.hdrrStart).bind fun _ m => readTree m).bind fun _ m => .ok () (m.setTree 0#10) := by
  have hbody : hdrrBody s = (readMagic s.hdrrStart).bind fun _ m => (readTree m).bind fun r m => .ok () (m.setTree r) := by
    rw [hdrrBody, readMagic, Res.bind_assoc]
    rfl
  rw [hbody]
  obtain ⟨m, hm, hmn⟩ | ⟨k, m, hm⟩ := readMagic_cases s.hdrrStart
  · have hm0 : m.nnodes = 0#10 := hmn
    have hends := deserTree_ends deserLevels m (by rw [hm0]; decide) (by rw [hm0]; decide)
    rw [hm, Res.bind_ok, Res.bind_ok, readTree]
    generalize deserTree deserLevels m = r at hends
    cases hends with
    | ok => rw [Res.bind_ok, Res.bind_ok, hm0]
    | raise => rfl
  · rw [hm]
    rfl

theorem hdrr_phases {s : State} (hs : Ready s) :
    ∃ s₀ k t u, startPhases .hdrr s = some s₀ ∧ runPhases k s₀ = .next t ∧ exec .hdrr s = .next u ∧
      t.visible = u.visible := by
  obtain ⟨k, t, u, ht, hu, htu⟩ := hMagic_ends (s := s.begin.hdrrStart) rfl s.freeCtr
  rw [← hdrrBody_root, ← exec_hdrr hs] at hu
  exact ⟨_, k, t, u, rfl, ht, hu, htu⟩

/-- Settles O60: TB and DEC by the parts of their loops; HDRR by what the explicit stack leaves to the recursion. -/
theorem treeUnitPhasesEndAsCommands : Obligations.TreeUnitPhasesEndAsCommands := by
  intro s hs
  refine ⟨fun i hi => ?_, hdrr_phases hs⟩
  obtain rfl | rfl : i = .tbuild ∨ i = .decode := by simpa using hi
  · exact tbuild_phases hs
  · exact decode_phases hs

end Sys2Proof.Machine

end

/-! # COMPRESS up to its first output (44_system.md R193) -/

section

namespace Sys2Proof.Machine

/-! ## The tree of an input -/

/-- `FREQ` holds the counts of the bytes and one terminator (R131, R132). -/
def CountsBytes (bytes : List Byte) (s : State) : Prop :=
  (∀ b, b < 256 → (s.freqAt b).toNat = (bytes.map BitVec.toNat).count b) ∧ s.freqAt 256 = 1#32

/-- The tree TBUILD makes of the counts, wherever it stands in `NODE`. -/
def State.BuildsTree (s : State) (tr : Tree) : Prop :=
  ∃ b e, s.forest = .ok b ∧ b.queue = [e] ∧ ∀ st, Lists st b.nodes → treeAt st walkLevels e.node = some tr

/-- The tree COMPRESS makes of its input. -/
def CompressionTree (bytes : List Byte) (tr : Tree) : Prop := ∃ s : State, CountsBytes bytes s ∧ s.BuildsTree tr

theorem CompressionTree.unique {bytes : List Byte} {tr tr' : Tree} (h : CompressionTree bytes tr)
    (h' : CompressionTree bytes tr') : tr = tr' := by
  obtain ⟨s, ⟨hcount, heos⟩, b, e, hb, he, htree⟩ := h
  obtain ⟨s', ⟨hcount', heos'⟩, b', e', hb', he', htree'⟩ := h'
  have hcounts : s.counts = s'.counts := by
    refine State.counts_congr fun i hi => ?_
    obtain hi | rfl : i < 256 ∨ i = 256 := by omega
    · exact BitVec.eq_of_toNat_eq ((hcount i hi).trans (hcount' i hi).symm)
    · exact heos.trans heos'.symm
  rw [State.forest, ← hcounts, ← State.forest, hb, Except.ok.injEq] at hb'
  subst hb'
  obtain rfl : e = e' := by simpa using he.symm.trans he'
  have hst := lists_placeNodes [] b.nodes
  exact Option.some.inj ((htree _ hst).symm.trans (htree' _ hst))

section
variable {bytes : List Byte} {s : State} (h : CountsBytes bytes s)
include h

theorem CountsBytes.mem_counted (x : Nat) : x ∈ s.counted ↔ x = 256 ∨ ∃ b ∈ bytes, b.toNat = x := by
  have hzero : ∀ i, s.freqAt i ≠ 0#32 ↔ 0 < (s.freqAt i).toNat := fun i => by bv_omega
  rw [State.counted, List.mem_filter, List.mem_range, decide_eq_true_eq, hzero]
  constructor
  · rintro ⟨hx, hpos⟩
    obtain hx | rfl : x < 256 ∨ x = 256 := by simp only [Config.nsym] at hx; omega
    · rw [h.1 x hx, List.count_pos_iff, List.mem_map] at hpos
      exact .inr hpos
    · exact .inl rfl
  · rintro (rfl | ⟨b, hb, rfl⟩)
    · rw [h.2]
      decide
    · have hlt := b.isLt
      refine ⟨by simp only [Config.nsym]; omega, ?_⟩
      rw [h.1 _ hlt, List.count_pos_iff]
      exact List.mem_map_of_mem hb

theorem CountsBytes.counted_ne_nil : s.counted ≠ [] :=
  List.ne_nil_of_mem ((h.mem_counted 256).mpr (.inl rfl))

theorem CountsBytes.totalCount : s.totalCount = bytes.length + 1 := by
  have hsum := sum_count_range (n := 256) (l := bytes.map BitVec.toNat) fun x hx => by
    obtain ⟨b, -, rfl⟩ := List.mem_map.mp hx
    exact b.isLt
  rw [List.length_map] at hsum
  rw [State.totalCount, show Config.nsym = 256 + 1 from rfl, List.range_succ, List.map_append, List.sum_append,
    List.map_congr_left fun b hb => h.1 b (List.mem_range.mp hb), hsum]
  simp [h.2]

end

theorem State.counted_nodup (s : State) : s.counted.Nodup := List.nodup_range.filter _

/-! ## The state before the first output -/

/-- p is the state of COMPRESS, started from s, when its first output is to be written: the tree of the input and its
codes stand, the input is to be read again, the output is open and empty. -/
structure Prepared (s p : State) (tr : Tree) : Prop where
  ready : Ready p
  inv : Inv p
  holds : HoldsTree p tr
  codeValid : p.codeValid = true
  codes : p.code = tr.codeTable
  upos : p.upos = 0#32
  input : InputKept s p
  outOpen : p.oclosed = false
  outLen : p.outLen = 0#29
  pcnt : p.pcnt = 0#3
  ofInput : CompressionTree s.input tr
  distinct : tr.symbols.Nodup
  symbols : ∀ x, x ∈ tr.symbols ↔ x = 256 ∨ ∃ b ∈ s.input, b.toNat = x

theorem execSeq_next {i : Instr} {is : List Instr} {s m : State} (h : exec i s = .next m) :
    execSeq (i :: is) s = execSeq is m := by
  rw [execSeq_cons, h]
  rfl

theorem execSeq_append (is js : List Instr) (s : State) :
    execSeq (is ++ js) s = andThen (execSeq is s) (execSeq js) := by
  induction is generalizing s with
  | nil => rfl
  | cons i is ih =>
    rw [List.cons_append, execSeq_cons, execSeq_cons]
    cases exec i s with
    | next m => exact ih m
    | fault e => rfl
    | refused r => rfl

theorem InputKept.input_eq {s t : State} (h : InputKept s t) : t.input = s.input := by
  obtain ⟨hi, hl, -, -⟩ := h
  rw [State.input, hi, hl]
  rfl

/-- TBUILD on the counts of an input. -/
theorem exec_tbuild_bytes {bytes : List Byte} {s : State} (hs : Ready s) (h : CountsBytes bytes s)
    (hlen : bytes.length < 2 ^ 29) :
    ∃ n k q e tr, exec .tbuild s = .next { s with
        node := n, nnodes := k, root := e.node, pq := [e], pqLen := 1#9, seq := q, treeValid := true
        codeValid := false, done := true } ∧
      WfTree n k.toNat e.node ∧ treeAt n walkLevels e.node = some tr ∧ CompressionTree bytes tr ∧
      tr.symbols.Perm s.counted := by
  obtain ⟨b, e, hb, hsound, he, hexec⟩ := exec_tbuild_ok hs h.counted_ne_nil (by rw [h.totalCount]; omega)
  have hcard := s.counted_length_le
  obtain ⟨tr, hsym, htrees⟩ := hsound.wfTree he (s.counts_length ▸ hcard) s.counts_lt
  obtain ⟨hwf, htree⟩ := htrees _ (lists_placeNodes s.node b.nodes)
  have hn : (BitVec.ofNat 10 b.nodes.length).toNat = b.nodes.length := by
    have := hsound.nodes_length he
    rw [s.counts_length] at this
    rw [BitVec.toNat_ofNat, Nat.mod_eq_of_lt (by omega)]
  exact ⟨_, _, _, e, tr, hexec, hn.symm ▸ hwf, htree, ⟨s, h, b, e, hb, he, fun st hst => (htrees st hst).2⟩,
    s.counts_fst ▸ hsym⟩

/-- FCOUNT at the start of an operation counts the bytes of the input. -/
theorem exec_fcount_bytes {s : State} (hs : Ready s) (h0 : s.upos = 0#32) (hread : Readable s) :
    ∃ f u, exec .fcount s = .next { s with freq := f, upos := u, done := true } ∧
      CountsBytes s.input { s with freq := f, upos := u, done := true } := by
  obtain ⟨t, hexec, ht, -, hcount, heos, -⟩ := (fcountCountsSymbols s hs).1 hread
  rw [State.restSymbols_of_start h0] at hcount
  refine ⟨t.freq, t.upos, ht ▸ hexec, ?_⟩
  rw [← ht]
  exact ⟨hcount, heos⟩

/-- The commands of COMPRESS before its first output (R193). -/
def prepareSeq : List Instr := [.init, .fcount, .tbuild, .ctgen, .rewind]

/-- COMPRESS on an input that can be read comes to its first output. -/
theorem exists_prepared {s : State} (h : Inv s) (hread : Readable s) :
    ∃ p tr, execSeq prepareSeq s = .next p ∧ Prepared s p tr := by
  have hinit := exec_init_of_not_busy h.not_busy
  obtain ⟨f, u, hfcount, hcounts⟩ := exec_fcount_bytes (s := initState s) rfl rfl hread
  have hlen : (initState s).input.length < 2 ^ 29 := by
    rw [State.input, List.length_map, List.length_range]
    exact s.inLen.isLt
  obtain ⟨n, k, q, e, tr, htbuild, hwf, htree, htr, hperm⟩ := exec_tbuild_bytes (by exact rfl) hcounts hlen
  have hmem : ∀ x, x ∈ tr.symbols ↔ x = 256 ∨ ∃ b ∈ s.input, b.toNat = x := fun x =>
    hperm.mem_iff.trans (hcounts.mem_counted x)
  have hsym : ∀ x ∈ tr.symbols, x ≤ 256 := by
    intro x hx
    obtain rfl | ⟨b, -, rfl⟩ := (hmem x).mp hx
    · exact le_rfl
    · exact le_of_lt b.isLt
  have hctgen := exec_ctgen_tree (s := { initState s with
    freq := f, upos := u, node := n, nnodes := k, root := e.node, pq := [e], pqLen := 1#9, seq := q, treeValid := true
    codeValid := false, done := true }) rfl rfl htree hsym
  have hseq : execSeq prepareSeq s = _ :=
    (execSeq_next hinit).trans <| (execSeq_next hfcount).trans <| (execSeq_next htbuild).trans <|
      (execSeq_next hctgen).trans <| rewindResetsPosition _ rfl
  refine ⟨_, tr, hseq, ?_⟩
  have hinv := exec_command_inv (i := .init) rfl h hinit
  have hinv := exec_command_inv (i := .fcount) rfl hinv hfcount
  have hinv := exec_command_inv (i := .tbuild) rfl hinv htbuild
  have hinv := exec_command_inv (i := .ctgen) rfl hinv hctgen
  have hinv := exec_command_inv (i := .rewind) rfl hinv (rewindResetsPosition _ rfl)
  exact ⟨rfl, hinv, ⟨rfl, hwf, htree⟩, rfl, rfl, rfl, ⟨rfl, rfl, rfl, rfl⟩, rfl, rfl, rfl, htr,
    hperm.nodup_iff.mpr (State.counted_nodup _), hmem⟩

end Sys2Proof.Machine

end

/-! # The output of COMPRESS (44_system.md R193, 60_exceptions.md R212) -/

section

namespace Sys2Proof.Machine

open Sys2Proof.Laws (bitsN_length)

/-! ## Codes of the symbols of a tree -/

theorem Tree.exists_code {tr : Tree} : ∀ {x : Nat}, x ∈ tr.symbols → ∃ p, (x, p) ∈ tr.codes := by
  induction tr with
  | leaf y => exact fun hx => ⟨[], by simpa [Tree.codes, Tree.symbols] using hx⟩
  | node l r ihl ihr =>
    intro x hx
    obtain hx | hx := List.mem_append.mp hx
    · obtain ⟨p, hp⟩ := ihl hx
      exact ⟨false :: p, Tree.mem_codes_node.mpr (.inl ⟨p, hp, rfl⟩)⟩
    · obtain ⟨p, hp⟩ := ihr hx
      exact ⟨true :: p, Tree.mem_codes_node.mpr (.inr ⟨p, hp, rfl⟩)⟩

theorem Tree.exists_codeOf {tr : Tree} {x : Nat} (hx : x ∈ tr.symbols) : ∃ p, tr.codeOf x = some p := by
  obtain ⟨p, hp⟩ := Tree.exists_code hx
  have hmem : (x, p) ∈ tr.codes.filter fun c => c.1 == x := List.mem_filter.mpr ⟨hp, beq_self_eq_true x⟩
  rw [Tree.codeOf, List.getLast?_eq_getLast_of_ne_nil (List.ne_nil_of_mem hmem)]
  exact ⟨_, rfl⟩

/-- The code of a symbol in the stream (R92). -/
def Tree.codeBitsOf (tr : Tree) (x : Nat) : List Bool := (tr.codeOf x).getD []

theorem Tree.mem_codes_codeBitsOf {tr : Tree} {x : Nat} (hx : x ∈ tr.symbols) : (x, tr.codeBitsOf x) ∈ tr.codes := by
  obtain ⟨p, hp⟩ := Tree.exists_codeOf hx
  rw [Tree.codeBitsOf, hp]
  exact Tree.mem_codes_of_codeOf hp

theorem HoldsTree.levels_le {s : State} {tr : Tree} (h : HoldsTree s tr) : tr.levels ≤ 257 :=
  WfTree.levels_le h.2.1 h.2.2

theorem Tree.codeBitsOf_length {tr : Tree} (hlevels : tr.levels ≤ 257) {x : Nat} (hx : x ∈ tr.symbols) :
    (tr.codeBitsOf x).length ≤ 256 := by
  have hlt : (tr.codeBitsOf x).length < tr.levels := Tree.path_length_lt (Tree.mem_codes_codeBitsOf hx)
  omega

/-- CTGEN's entry of a symbol of the tree is valid and holds its code. -/
theorem Tree.codeTable_entry {tr : Tree} (hlevels : tr.levels ≤ 257) {x : Nat} (hx : x ∈ tr.symbols) :
    (codeAt tr.codeTable x).valid = true ∧ codeBits (codeAt tr.codeTable x) = tr.codeBitsOf x := by
  have hlen := Tree.codeBitsOf_length hlevels hx
  obtain ⟨p, hp⟩ := Tree.exists_codeOf hx
  rw [Tree.codeBitsOf, hp] at hlen ⊢
  rw [tr.codeAt_codeTable, hp]
  exact ⟨rfl, codeBits_entryOf hlen⟩

/-- The bits COMPRESS writes before the padding. -/
def streamBits (magic : Word) (bytes : List Byte) (tr : Tree) : List Bool :=
  bitsN 32 magic.toNat ++ tr.ser ++ (bytes.map BitVec.toNat ++ [256]).flatMap tr.codeBitsOf

/-! ## Where the output ends -/

/-- Room for the bits, or a first byte that cannot be written. -/
theorem room_or_blocked {s : State} (k : Nat) (hok : s.params.Ok) (hcap : s.outLen.toNat ≤ s.params.obufCap) :
    Room s k ∨ ∃ j, WriteBlocked s j k := by
  by_cases hbad : ∃ j, j < (s.pcnt.toNat + k) / 8 ∧
      (s.outLen.toNat + j = s.params.obufCap ∨ s.outLen.toNat + j ∈ s.params.outErr)
  · obtain ⟨hlt, hblock⟩ := Nat.find_spec hbad
    have hmin : ∀ i, i < Nat.find hbad →
        ¬(s.outLen.toNat + i = s.params.obufCap ∨ s.outLen.toNat + i ∈ s.params.outErr) := fun i hi hb =>
      Nat.find_min hbad hi ⟨by omega, hb⟩
    refine .inr ⟨Nat.find hbad, hok, hlt, ?_, fun i hi hmem => hmin i hi (.inr hmem), hblock⟩
    by_contra hgt
    exact hmin (s.params.obufCap - s.outLen.toNat) (by omega) (.inl (by omega))
  · refine .inl ⟨hok, ?_, fun j hj hmem => hbad ⟨j, hj, .inr hmem⟩⟩
    by_contra hgt
    exact hbad ⟨s.params.obufCap - s.outLen.toNat, by omega, .inl (by omega)⟩

/-- The symbol whose code completes byte j. -/
theorem exists_blocked_symbol (f : Nat → List Bool) {c j : Nat} {xs : List Nat} (h0 : c / 8 ≤ j)
    (h : j < (c + (xs.flatMap f).length) / 8) :
    ∃ pre x post, xs = pre ++ x :: post ∧ (c + (pre.flatMap f).length) / 8 ≤ j ∧
      j < (c + ((pre ++ [x]).flatMap f).length) / 8 := by
  induction xs using List.reverseRecOn with
  | nil => simp at h; omega
  | append_singleton xs x ih =>
    by_cases hxs : j < (c + (xs.flatMap f).length) / 8
    · obtain ⟨pre, y, post, rfl, hpre, hy⟩ := ih hxs
      exact ⟨pre, y, post ++ [x], by simp, hpre, hy⟩
    · exact ⟨xs, x, [], rfl, Nat.not_lt.mp hxs, h⟩

/-- From p on, the output of the bits and its close have ended in t: padded to bytes, or cut at the first byte that
cannot be written. -/
structure StreamEnds (p t : State) (bits : List Bool) : Prop where
  tables : SameTables p t
  params : t.params = p.params
  pcnt : t.pcnt = 0#3
  outcome :
    (Ready t ∧ t.done = true ∧ ∃ pad, pad < 8 ∧ t.outBits = bits ++ List.replicate pad false) ∨
    (t.sstate = .fault ∧ t.errCode = 3#3 ∧ t.outBits = bits.take (8 * t.outLen.toNat) ∧
      8 * t.outLen.toNat < bits.length ∧
      (t.outLen.toNat = p.params.obufCap ∨ t.outLen.toNat ∈ p.params.outErr))

theorem SameTables.trans {s t u : State} (h : SameTables s t) (g : SameTables t u) : SameTables s u :=
  ⟨g.treeValid.trans h.treeValid, g.codeValid.trans h.codeValid, g.root.trans h.root, g.nnodes.trans h.nnodes,
    g.node.trans h.node, g.code.trans h.code, g.freq.trans h.freq⟩

theorem exec_sameTables {i : Instr} {s t : State} (hi : i ∈ [Instr.hdrw, .encode, .decode, .flush, .rewind])
    (hs : Ready s) (h : exec i s = .next t) : SameTables s t := by
  have hc : i.context = .command ∧ i ≠ .init := by
    simp only [List.mem_cons, List.not_mem_nil, or_false] at hi
    obtain rfl | rfl | rfl | rfl | rfl := hi <;> exact ⟨rfl, by simp⟩
  have hb : SameTables s s.begin := ⟨rfl, rfl, rfl, rfl, rfl, rfl, rfl⟩
  obtain ⟨m, hm, rfl⟩ | ⟨k, m, -, hm, rfl⟩ | ⟨-, rfl⟩ := exec_ready_cases hc.1 hc.2 hs h
  · exact (hb.trans (hm.sameTables (.inl hi))).trans ⟨rfl, rfl, rfl, rfl, rfl, rfl, rfl⟩
  · exact (hb.trans (hm.sameTables (.inl hi))).trans (faultEntry_sameTables k m)
  · exact faultEntry_sameTables _ s

/-- Commands after a fault are ignored (R191). -/
theorem execSeq_of_fault {is : List Instr} {s : State} (hs : s.sstate = .fault)
    (his : ∀ i ∈ is, i.context = .command ∧ i ≠ .init) : execSeq is s = .next s := by
  induction is with
  | nil => rfl
  | cons i is ih =>
    obtain ⟨hc, hi⟩ := his i List.mem_cons_self
    rw [execSeq_next (exec_of_fault hc hi hs)]
    exact ih fun j hj => his j (List.mem_cons_of_mem _ hj)

/-- The bits cut at a byte that they go beyond. -/
theorem take_stream {as bs cs : List Bool} {n : Nat} (h : n < as.length + bs.length) :
    (as ++ bs).take n = (as ++ bs ++ cs).take n ∧ n < (as ++ bs ++ cs).length := by
  have hle : n ≤ (as ++ bs).length := by rw [List.length_append]; omega
  exact ⟨(List.take_append_of_le_length hle).symm, by rw [List.length_append, List.length_append]; omega⟩

/-! ## FLUSH, ENCODE and HDRW in turn -/

theorem flush_ends {s : State} (hs : Ready s) (h : Inv s) (hopen : s.oclosed = false) :
    ∃ t, execSeq [.flush] s = .next t ∧ StreamEnds s t s.outBits := by
  obtain ⟨hok, hpack, ⟨hcap, -⟩, -, -, -⟩ := h.streams
  have hlen := s.outBits_length
  obtain ⟨t, ht⟩ := exec_command_next (i := .flush) rfl h
  have htables := exec_sameTables (i := .flush) (by simp) hs ht
  have hparams : t.params = s.params := (exec_inputKept ht).2.2.2
  refine ⟨t, ht, ?_⟩
  obtain ⟨-, hempty, hfree, hblocked⟩ := flushClosesOutput s hs
  by_cases hp : s.pcnt = 0#3
  · obtain rfl := Host.Outcome.next.inj (ht.symm.trans (hempty hopen hp))
    exact ⟨htables, hparams, hp, .inl ⟨hs, rfl, 0, by omega, (List.append_nil _).symm⟩⟩
  · have hp8 : 0 < s.pcnt.toNat ∧ s.pcnt.toNat < 8 := ⟨by bv_omega, s.pcnt.isLt⟩
    by_cases hb : s.outLen.toNat = s.params.obufCap ∨ s.outLen.toNat ∈ s.params.outErr
    · rw [hblocked hopen hp hb, (faultEntryRecordsAndCloses.1 _ _).1 rfl] at ht
      obtain rfl := Host.Outcome.next.inj ht
      refine ⟨htables, hparams, rfl, .inr ⟨rfl, rfl, s.clearAcc_outBits, ?_, hb⟩⟩
      change 8 * s.outLen.toNat < _
      omega
    · obtain ⟨hne, hmem⟩ := not_or.mp hb
      have hroom : Room s (8 - s.pcnt.toNat) := by
        have hone : (s.pcnt.toNat + (8 - s.pcnt.toNat)) / 8 = 1 := by omega
        refine ⟨hok, by omega, fun j hj => ?_⟩
        obtain rfl : j = 0 := by omega
        exact hmem
      obtain ⟨t', ht', hbits, -⟩ := flushPadsWithZeros s hs ⟨hopen, hpack⟩ hp hroom
      obtain rfl := Host.Outcome.next.inj (ht.symm.trans ht')
      have hidle := Host.Outcome.next.inj (ht.symm.trans (hfree hopen hp hne hmem))
      have hends : t.pcnt = 0#3 ∧ Ready t ∧ t.done = true := by
        rw [hidle]
        exact ⟨rfl, hs, rfl⟩
      exact ⟨htables, hparams, hends.1, .inl ⟨hends.2.1, hends.2.2, _, by omega, hbits⟩⟩

/-- What is written to s before does not matter to how the output ends. -/
theorem StreamEnds.of_sameTables {s m t : State} {bits : List Bool} (h : StreamEnds m t bits) (hs : SameTables s m)
    (hp : m.params = s.params) : StreamEnds s t bits :=
  ⟨hs.trans h.tables, h.params.trans hp, h.pcnt, hp ▸ h.outcome⟩

theorem readable_symbols {s : State} (h : Readable s) (n : Nat) :
    BitsReadable s s.upos.toNat (8 * min n s.restSymbols.length) := by
  intro k hk
  have hlen := s.restSymbols_length
  exact h _ (by omega)

theorem encode_ends {s : State} (hs : Ready s) (h : Inv s) (hopen : s.oclosed = false) (hcv : s.codeValid = true)
    (hread : Readable s) (hvalid : ∀ x ∈ s.restSymbols ++ [256], (codeAt s.code x).valid = true) :
    ∃ t, execSeq [.encode, .flush] s = .next t ∧
      StreamEnds s t (s.outBits ++ (s.restSymbols ++ [256]).flatMap fun x => codeBits (codeAt s.code x)) := by
  obtain ⟨hok, hpack, ⟨hcap, -⟩, -, -, -⟩ := h.streams
  obtain ⟨hwrites, -, -, hcut⟩ := encodeWritesCodes s hs hcv hpack
  obtain hroom | ⟨j, hblocked⟩ := room_or_blocked
    ((s.restSymbols ++ [256]).flatMap fun x => codeBits (codeAt s.code x)).length hok hcap
  · obtain ⟨m, hexec, hbits, -, hfields, -⟩ := hwrites hread hvalid (.inl hopen) hroom
    have hm : Ready m := by rw [hfields]; exact hs
    obtain ⟨t, ht, hends⟩ := flush_ends hm (exec_command_inv (i := .encode) rfl h hexec) (by rw [hfields]; exact hopen)
    exact ⟨t, (execSeq_next hexec).trans ht,
      hbits ▸ hends.of_sameTables (exec_sameTables (by simp) hs hexec) (exec_inputKept hexec).2.2.2⟩
  · obtain ⟨-, hj, hjcap, hjfree, hjblock⟩ := hblocked
    have hpcnt := s.pcnt.isLt
    obtain ⟨pre, x, post, hsplit, hpre, hx⟩ := exists_blocked_symbol (fun x => codeBits (codeAt s.code x))
      (c := s.pcnt.toNat) (j := j) (by omega) hj
    have hsplit' : s.restSymbols ++ [256] = (pre ++ [x]) ++ post := by rw [hsplit, List.append_assoc]; rfl
    obtain ⟨t, hexec, hfields, hout, -, hbits⟩ := hcut pre post x j hopen hsplit
      (fun y hy => hvalid y (hsplit' ▸ List.mem_append_left _ hy)) (readable_symbols hread _) hpre ⟨hok, hx, hjcap, hjfree, hjblock⟩
    have hfault : t.sstate = .fault := by rw [hfields]; rfl
    have hcode : t.errCode = 3#3 := by rw [hfields]; rfl
    have hpcnt : t.pcnt = 0#3 := by rw [hfields]; rfl
    refine ⟨t, (execSeq_next hexec).trans (execSeq_of_fault hfault (by simp [Instr.context])),
      exec_sameTables (by simp) hs hexec, (exec_inputKept hexec).2.2.2, hpcnt, .inr ⟨hfault, hcode, ?_⟩⟩
    have hobits := s.outBits_length
    have htake := take_stream (as := s.outBits)
      (bs := (pre ++ [x]).flatMap fun x => codeBits (codeAt s.code x))
      (cs := post.flatMap fun x => codeBits (codeAt s.code x)) (n := 8 * (s.outLen.toNat + j)) (by omega)
    have hall : (s.restSymbols ++ [256]).flatMap (fun x => codeBits (codeAt s.code x)) =
        ((pre ++ [x]).flatMap fun x => codeBits (codeAt s.code x)) ++ post.flatMap fun x => codeBits (codeAt s.code x) := by
      rw [← List.flatMap_append, hsplit']
    rw [hall, ← List.append_assoc, hout]
    exact ⟨hbits.trans htake.1, htake.2, hjblock⟩

theorem hdrw_ends {s : State} {tr : Tree} (hs : Ready s) (h : Inv s) (hopen : s.oclosed = false)
    (hcv : s.codeValid = true) (htree : HoldsTree s tr) (hread : Readable s)
    (hvalid : ∀ x ∈ s.restSymbols ++ [256], (codeAt s.code x).valid = true) :
    ∃ t, execSeq [.hdrw, .encode, .flush] s = .next t ∧
      StreamEnds s t (s.outBits ++ (bitsN 32 s.params.magic.toNat ++ tr.ser ++
        (s.restSymbols ++ [256]).flatMap fun x => codeBits (codeAt s.code x))) := by
  obtain ⟨hok, hpack, ⟨hcap, -⟩, -, -, -⟩ := h.streams
  obtain ⟨hwrites, -, hcut⟩ := hdrwWritesHeader s tr hs htree
  obtain hroom | ⟨j, hblocked⟩ := room_or_blocked (32 + tr.ser.length) hok hcap
  · obtain ⟨m, hexec, ⟨hfields, -⟩, hbits, -⟩ := hwrites ⟨hopen, hpack⟩ hroom
    have hkept := exec_inputKept hexec
    have htables := exec_sameTables (i := .hdrw) (by simp) hs hexec
    have hst := congrArg State.sstate hfields
    have hup := congrArg State.upos hfields
    have hocl := congrArg State.oclosed hfields
    have hm : Ready m := hst.trans hs
    have hupos : m.upos = s.upos := hup
    have hrest : m.restSymbols = s.restSymbols := by
      obtain ⟨hibuf, hin, -, -⟩ := hkept
      unfold State.restSymbols State.restBits State.inBits
      rw [hibuf, hin, hupos]
    have hread' : Readable m := by
      unfold Readable
      rw [hkept.2.1, hkept.2.2.2]
      exact hread
    obtain ⟨t, ht, hends⟩ := encode_ends hm (exec_command_inv (i := .hdrw) rfl h hexec)
      (hocl.trans hopen) (htables.codeValid.trans hcv) hread'
      (by rw [hrest, htables.code]; exact hvalid)
    rw [hrest, htables.code, hbits] at hends
    simp only [List.append_assoc] at hends ⊢
    exact ⟨t, (execSeq_next hexec).trans ht, hends.of_sameTables htables hkept.2.2.2⟩
  · have hblock := hblocked
    obtain ⟨-, hj, -, -, hjblock⟩ := hblock
    obtain ⟨t, hexec, hfields, hout, -, hbits⟩ := hcut j ⟨hopen, hpack⟩ hblocked
    have hst := congrArg State.sstate hfields
    have herr := congrArg State.errCode hfields
    have hfault : t.sstate = .fault := hst
    have hcode : t.errCode = 3#3 := herr
    have hpc := congrArg State.pcnt hfields
    have hpcnt : t.pcnt = 0#3 := hpc
    refine ⟨t, (execSeq_next hexec).trans (execSeq_of_fault hfault (by simp [Instr.context])),
      exec_sameTables (by simp) hs hexec, (exec_inputKept hexec).2.2.2, hpcnt, .inr ⟨hfault, hcode, ?_⟩⟩
    have hobits := s.outBits_length
    have htake := take_stream (as := s.outBits) (bs := bitsN 32 s.params.magic.toNat ++ tr.ser)
      (cs := (s.restSymbols ++ [256]).flatMap fun x => codeBits (codeAt s.code x)) (n := 8 * (s.outLen.toNat + j))
      (by rw [List.length_append, bitsN_length]; omega)
    rw [← List.append_assoc s.outBits, hout]
    exact ⟨hbits.trans htake.1, htake.2, hjblock⟩

/-! ## COMPRESS -/

theorem compressSeq_eq (s : State) : compressSeq s = andThen (execSeq prepareSeq s) (execSeq [.hdrw, .encode, .flush]) := by
  rw [← execSeq_append]
  rfl

/-- COMPRESS on an input that can be read writes its stream, or comes to a byte that cannot be written. -/
theorem exec_compress_ends {s : State} (h : Inv s) (hread : Readable s) :
    ∃ t p tr, exec .compress s = .next t ∧ Prepared s p tr ∧
      StreamEnds p t (streamBits s.params.magic s.input tr) := by
  obtain ⟨p, tr, hprep, hp⟩ := exists_prepared h hread
  obtain ⟨hibuf, hin, -, hparams⟩ := hp.input
  have hread' : Readable p := by
    unfold Readable
    rw [hin, hparams]
    exact hread
  have hsymbols : p.restSymbols = s.input.map BitVec.toNat := by
    rw [State.restSymbols_of_start hp.upos, hp.input.input_eq]
  have hmem : ∀ x ∈ p.restSymbols ++ [256], x ∈ tr.symbols := by
    intro x hx
    rw [hsymbols] at hx
    refine (hp.symbols x).mpr ?_
    obtain hx | hx := List.mem_append.mp hx
    · obtain ⟨b, hb, rfl⟩ := List.mem_map.mp hx
      exact .inr ⟨b, hb, rfl⟩
    · exact .inl (List.mem_singleton.mp hx)
  have hlevels := hp.holds.levels_le
  obtain ⟨t, ht, hends⟩ := hdrw_ends hp.ready hp.inv hp.outOpen hp.codeValid hp.holds hread' fun x hx => by
    rw [hp.codes]
    exact (Tree.codeTable_entry hlevels (hmem x hx)).1
  have hbits : p.outBits = [] := by
    refine List.eq_nil_of_length_eq_zero ?_
    rw [State.outBits_length, hp.outLen, hp.pcnt]
    rfl
  have hcodes : ((p.restSymbols ++ [256]).flatMap fun x => codeBits (codeAt p.code x)) =
      (s.input.map BitVec.toNat ++ [256]).flatMap tr.codeBitsOf := by
    rw [← hsymbols, hp.codes]
    exact List.flatMap_congr fun x hx => (Tree.codeTable_entry hlevels (hmem x hx)).2
  rw [hbits, List.nil_append, hcodes, hparams] at hends
  refine ⟨t, p, tr, ?_, hp, hends⟩
  have hidle : ¬ s.busy = true := by simp [h.not_busy]
  rw [show exec .compress s = compressSeq s from if_neg hidle, compressSeq_eq, hprep]
  exact ht

end Sys2Proof.Machine

end

/-! # Proofs about COMPRESS (44_system.md, 30_encoding.md, 95_test_vectors.md) -/

section

namespace Sys2Proof.Machine

open Sys2Proof.Laws (bitsN_length)

/-! ## The `set IN` item (R97) -/

theorem loadBytes_inv : ∀ (bs : List Byte) (i : Nat) {s : State}, Inv s → Inv (loadBytes bs i s)
  | [], _, _, h => h
  | _ :: bs, i, _, h => loadBytes_inv bs (i + 1) (hostWrite_inv h _ _ _)

theorem State.loadInput_inv {s : State} (h : Inv s) (bs : List Byte) : Inv (s.loadInput bs) :=
  hostWrite_inv (loadBytes_inv bs 0 h) _ _ _

/-- The bytes stand from index i on; nothing else of the state changes. -/
theorem loadBytes_reads : ∀ (bs : List Byte) (i : Nat) (s : State), i + bs.length ≤ s.params.ibufCap →
    loadBytes bs i s = { s with ibuf := (loadBytes bs i s).ibuf } ∧
    (∀ j, j < i → (loadBytes bs i s).ibuf.read j = s.ibuf.read j) ∧
    ∀ j b, bs[j]? = some b → (loadBytes bs i s).ibuf.read (i + j) = b
  | [], _, _, _ => ⟨rfl, fun _ _ => rfl, fun _ _ h => by simp at h⟩
  | b :: bs, i, s, hlen => by
    rw [List.length_cons] at hlen
    have hw : hostWrite .byte (ibufBase + i) (b.setWidth 32) s = { s with ibuf := s.ibuf.write i b } := by
      rw [show ibufBase = 0x10000000 from rfl, hostWrite_ibuf _ (place_ibuf (by omega)),
        BitVec.setWidth_setWidth_of_le _ (by omega), BitVec.setWidth_eq]
    have hsplit : loadBytes (b :: bs) i s = loadBytes bs (i + 1) { s with ibuf := s.ibuf.write i b } := by
      rw [loadBytes, hw]
    obtain ⟨hframe, hbelow, habove⟩ := loadBytes_reads bs (i + 1) { s with ibuf := s.ibuf.write i b }
      (by change i + 1 + bs.length ≤ s.params.ibufCap; omega)
    rw [hsplit]
    refine ⟨hframe, fun j hj => ?_, fun j c hc => ?_⟩
    · rw [hbelow j (by omega)]
      exact (Memory.read_write s.ibuf i j b).trans (if_neg (by omega))
    · cases j with
      | zero =>
        rw [List.getElem?_cons_zero, Option.some.injEq] at hc
        rw [hbelow (i + 0) (by omega), ← hc]
        exact (Memory.read_write s.ibuf i i b).trans (if_pos rfl)
      | succ j => exact (congrArg _ (by omega)).trans (habove j c hc)

/-- `set IN` makes the bytes the input and leaves the parameters alone. -/
theorem State.loadInput_input {s : State} {bs : List Byte} (hp : s.params.Ok) (hlen : bs.length ≤ s.params.ibufCap) :
    (s.loadInput bs).input = bs ∧ (s.loadInput bs).params = s.params := by
  obtain ⟨hframe, -, hread⟩ := loadBytes_reads bs 0 s (by omega)
  obtain ⟨-, hcap, -, -⟩ := hp
  have hmax : bs.length ≤ 2 ^ 28 := le_trans hlen hcap
  have hn : (BitVec.ofNat 32 bs.length).toNat = bs.length := by
    rw [BitVec.toNat_ofNat, Nat.mod_eq_of_lt (by omega)]
  have hparams : (loadBytes bs 0 s).params = s.params := by rw [hframe]
  have hload : s.loadInput bs = { loadBytes bs 0 s with inLen := (BitVec.ofNat 32 bs.length).setWidth 29 } := by
    change writeInLen (BitVec.ofNat 32 bs.length) (loadBytes bs 0 s) = _
    exact if_pos (by rw [hn, hparams]; exact hlen)
  have hin : (s.loadInput bs).inLen.toNat = bs.length := by
    rw [hload]
    change ((BitVec.ofNat 32 bs.length).setWidth 29).toNat = _
    rw [BitVec.toNat_setWidth, hn, Nat.mod_eq_of_lt (by omega)]
  have hbuf : (s.loadInput bs).ibuf = (loadBytes bs 0 s).ibuf := by rw [hload]
  refine ⟨?_, by rw [hload]; exact hparams⟩
  rw [State.input, hin, hbuf]
  refine List.ext_getElem? fun j => ?_
  cases hj : bs[j]? with
  | none =>
    rw [List.getElem?_eq_none_iff] at hj ⊢
    simpa using hj
  | some b =>
    have hlt := lt_length_of_getElem? hj
    rw [List.getElem?_map, List.getElem?_range hlt, Option.map_some, ← hread j b hj, Nat.zero_add]

/-! ## Where COMPRESS ends (R193) -/

theorem HoldsTree.congr {s t : State} {tr : Tree} (h : HoldsTree s tr) (hst : SameTables s t) : HoldsTree t tr := by
  unfold HoldsTree State.tree
  rw [hst.treeValid, hst.node, hst.nnodes, hst.root]
  exact h

theorem readable_of_no_error {s : State} (h : s.params.inErr = []) : Readable s := fun i _ hi => by
  rw [h] at hi
  exact absurd hi (by simp)

/-- All that the statements about COMPRESS speak of: the tree, the output and the flags. -/
structure Compressed (s t : State) (tr : Tree) : Prop where
  inv : Inv t
  params : t.params = s.params
  holds : HoldsTree t tr
  ofInput : CompressionTree s.input tr
  distinct : tr.symbols.Nodup
  symbols : ∀ x, x ∈ tr.symbols ↔ x = 256 ∨ ∃ b ∈ s.input, b.toNat = x
  pcnt : t.pcnt = 0#3
  outcome :
    (t.done = true ∧ t.err = false ∧
      ∃ pad, pad < 8 ∧ t.outBits = streamBits s.params.magic s.input tr ++ List.replicate pad false) ∨
    (t.done = false ∧ t.err = true ∧ t.errCode = 3#3 ∧
      t.outBits = (streamBits s.params.magic s.input tr).take (8 * t.outLen.toNat) ∧
      8 * t.outLen.toNat < (streamBits s.params.magic s.input tr).length ∧
      (t.outLen.toNat = s.params.obufCap ∨ t.outLen.toNat ∈ s.params.outErr))

theorem exec_compress_compressed {s : State} (h : Inv s) (hread : Readable s) :
    ∃ t tr, exec .compress s = .next t ∧ Compressed s t tr := by
  obtain ⟨t, p, tr, hexec, hp, hends⟩ := exec_compress_ends h hread
  obtain ⟨-, -, -, hparams⟩ := hp.input
  have hinv : Inv t := exec_pseudo_inv (p := .compress) h hexec
  refine ⟨t, tr, hexec, hinv, hends.params.trans hparams, hp.holds.congr hends.tables, hp.ofInput, hp.distinct,
    hp.symbols, hends.pcnt, ?_⟩
  obtain ⟨hready, hdone, hpad⟩ | ⟨hfault, hcode, hbits⟩ := hends.outcome
  · exact .inl ⟨hdone, (hinv.no_fault hready).1, hpad⟩
  · obtain ⟨-, hstate, hboth⟩ := hinv.flags
    have herr : t.err = true := hstate.mpr hfault
    refine .inr ⟨?_, herr, hcode, hparams ▸ hbits⟩
    simpa using fun hdone => hboth ⟨hdone, herr⟩

theorem Compressed.outLen_le {s t : State} {tr : Tree} (h : Compressed s t tr) : t.outLen.toNat ≤ s.params.obufCap :=
  h.params ▸ h.inv.streams.lengths.1

/-- The length of the output of a COMPRESS that completes. -/
theorem Compressed.outLen_of_pad {s t : State} {tr : Tree} {bits : List Bool} {pad : Nat} (h : Compressed s t tr)
    (hb : t.outBits = bits ++ List.replicate pad false) : 8 * t.outLen.toNat = bits.length + pad := by
  have hlen := congrArg List.length hb
  rw [State.outBits_length, h.pcnt, List.length_append, List.length_replicate] at hlen
  exact hlen

theorem leaves_le_of_nodup {tr : Tree} (hnd : tr.symbols.Nodup) (hsym : ∀ x ∈ tr.symbols, x ≤ 256) :
    tr.leaves ≤ 257 := by
  have hsub : tr.symbols ⊆ List.range 257 := fun x hx => List.mem_range.mpr (Nat.lt_succ_of_le (hsym x hx))
  have hlen := (hnd.subperm hsub).length_le
  rwa [List.length_range] at hlen

theorem flatMap_length_le {f : Nat → List Bool} {k : Nat} : ∀ {xs : List Nat}, (∀ x ∈ xs, (f x).length ≤ k) →
    (xs.flatMap f).length ≤ k * xs.length
  | [], _ => Nat.zero_le _
  | x :: xs, h => by
    have hx := h x List.mem_cons_self
    have hxs := flatMap_length_le (xs := xs) fun y hy => h y (List.mem_cons_of_mem _ hy)
    rw [List.flatMap_cons, List.length_append, List.length_cons, Nat.mul_succ]
    omega

/-- R153: with codes of at most 256 bits the stream is at most this long. -/
theorem Compressed.length_le {s t : State} {tr : Tree} (h : Compressed s t tr) :
    (streamBits s.params.magic s.input tr).length ≤ 2858 + 256 * (s.input.length + 1) := by
  have hleaves := leaves_le_of_nodup h.distinct h.holds.symbols_le
  have hcodes : ((s.input.map BitVec.toNat ++ [256]).flatMap tr.codeBitsOf).length ≤
      256 * (s.input.map BitVec.toNat ++ [256]).length := by
    refine flatMap_length_le fun x hx => Tree.codeBitsOf_length h.holds.levels_le ((h.symbols x).mpr ?_)
    obtain hx | hx := List.mem_append.mp hx
    · obtain ⟨b, hb, rfl⟩ := List.mem_map.mp hx
      exact .inr ⟨b, hb, rfl⟩
    · exact .inl (List.mem_singleton.mp hx)
  rw [List.length_append, List.length_map, List.length_singleton] at hcodes
  rw [streamBits, List.length_append, List.length_append, bitsN_length, tr.ser_length]
  omega

/-- Settles O53: with no access error the output is cut only at the end of the memory. -/
theorem compressWritesStream : Obligations.CompressWritesStream := by
  intro s bytes h hlen hin hout
  obtain ⟨hinput, hparams⟩ := State.loadInput_input h.streams.params hlen
  obtain ⟨t, tr, hexec, hc⟩ := exec_compress_compressed (State.loadInput_inv h bytes)
    (readable_of_no_error (hparams ▸ hin))
  have hcap := hc.outLen_le
  have hmax := hc.length_le
  have hsymbols := hc.symbols
  have houtcome := hc.outcome
  rw [hparams] at hcap
  rw [hinput, hparams] at hmax houtcome
  rw [hinput] at hsymbols
  refine ⟨t, tr, hexec, hc.holds, hc.distinct, hsymbols, hc.pcnt, streamBits s.params.magic bytes tr, rfl, ?_⟩
  obtain ⟨hdone, herr, pad, hpad, hbits⟩ | ⟨hdone, herr, hcode, hbits, hless, hcause⟩ := houtcome
  · have hfull := hc.outLen_of_pad hbits
    exact ⟨fun _ => ⟨hdone, herr, pad, hpad, hbits⟩, fun hover => by omega, fun _ => ⟨hdone, herr⟩⟩
  · have hfull : t.outLen.toNat = s.params.obufCap := by
      rw [hout] at hcause
      exact hcause.resolve_right (by simp)
    exact ⟨fun hroom => by omega, fun _ => ⟨hdone, herr, hcode, hfull, hfull ▸ hbits⟩, fun hroom => by omega⟩

/-- Settles O54: the first byte that cannot be written is the one past the memory. -/
theorem compressFaultsOnlyForRoom : Obligations.CompressFaultsOnlyForRoom := by
  intro s h hin hout
  obtain ⟨t, tr, hexec, hc⟩ := exec_compress_compressed h (readable_of_no_error hin)
  refine ⟨t, hexec, ?_⟩
  obtain ⟨hdone, herr, -⟩ | ⟨-, -, hcode, -, -, hcause⟩ := hc.outcome
  · exact .inl ⟨hdone, herr⟩
  · rw [hout] at hcause
    exact .inr ⟨hcode, hcause.resolve_right (by simp)⟩

/-! ## The stream as bytes -/

/-- Two outputs of whole bytes with the same bits are the same bytes. -/
theorem output_eq_of_outBits {t : State} {bytes : List Byte} (ht : t.pcnt = 0#3)
    (h : t.outBits = bytes.flatMap fun b => bitsN 8 b.toNat) : t.output = bytes := by
  have hinit : (initState t).outBits = [] := List.eq_nil_of_length_eq_zero (State.outBits_length (initState t))
  have hout := output_of_outBits (s := initState t) rfl ht (bytes := bytes) (by rw [hinit]; exact h)
  exact hout

/-- An input that cannot be read ends COMPRESS in a fault. -/
theorem err_of_unreadable {s t : State} (h : Inv s) (hread : ¬ Readable s) (hexec : exec .compress s = .next t) :
    t.err = true := by
  obtain ⟨m, hm⟩ := exec_command_next (i := .fcount) rfl (initState_inv h)
  have hfault : m.sstate = .fault := by
    obtain hr | hf := ready_or_fault (i := .fcount) rfl (s := initState s) rfl hm
    · exact absurd (readable_of_fcount_completes (s := initState s) rfl rfl hm hr) hread
    · exact hf
  have hidle : ¬ s.busy = true := by simp [h.not_busy]
  have hseq : exec .compress s = execSeq [.tbuild, .ctgen, .rewind, .hdrw, .encode, .flush] m := by
    have hcompress : exec .compress s = execSeq (.init :: .fcount :: [.tbuild, .ctgen, .rewind, .hdrw, .encode, .flush]) s :=
      if_neg hidle
    rw [hcompress, execSeq_next (exec_init_of_not_busy h.not_busy), execSeq_next hm]
  rw [hseq, execSeq_of_fault hfault (by simp [Instr.context])] at hexec
  obtain rfl := Host.Outcome.next.inj hexec
  exact (exec_command_inv (i := .fcount) rfl (initState_inv h) hm).flags.2.1.mpr hfault

/-- Settles O58: the tree is that of the counts, and the bits are those of the magic value, the input and the tree. -/
theorem streamDependsOnInputOnly : Obligations.StreamDependsOnInputOnly := by
  have compressed : ∀ {s t : State}, Inv s → exec .compress s = .next t → t.err = false →
      ∃ tr pad, Compressed s t tr ∧ pad < 8 ∧
        t.outBits = streamBits s.params.magic s.input tr ++ List.replicate pad false := by
    intro s t h hexec herr
    have hread : Readable s := by
      by_contra hread
      rw [err_of_unreadable h hread hexec] at herr
      exact absurd herr (by simp)
    obtain ⟨t', tr, hexec', hc⟩ := exec_compress_compressed h hread
    obtain rfl := Host.Outcome.next.inj (hexec.symm.trans hexec')
    obtain ⟨-, -, pad, hpad, hbits⟩ | ⟨-, herr', -⟩ := hc.outcome
    · exact ⟨tr, pad, hc, hpad, hbits⟩
    · rw [herr'] at herr
      exact absurd herr (by simp)
  intro s s' t t' h h' hmagic hinput hexec hexec' herr herr'
  obtain ⟨tr, pad, hc, hpad, hbits⟩ := compressed h hexec herr
  obtain ⟨tr', pad', hc', hpad', hbits'⟩ := compressed h' hexec' herr'
  obtain rfl : tr = tr' := hc.ofInput.unique (hinput ▸ hc'.ofInput)
  rw [← hmagic, ← hinput] at hbits'
  have hlen := hc.outLen_of_pad hbits
  have hlen' := hc'.outLen_of_pad hbits'
  obtain rfl : pad = pad' := by omega
  refine output_eq_of_outBits hc.pcnt ?_
  rw [hbits, ← hbits', State.outBits_of_bytes hc'.pcnt]

/-! ## The empty input (R141) -/

theorem bitsN_add (n m v : Nat) : bitsN (n + m) v = bitsN n (v / 2 ^ m) ++ bitsN m v := by
  induction n with
  | zero => rw [Nat.zero_add]; rfl
  | succ n ih =>
    rw [Nat.add_right_comm, bitsN, ih, bitsN, Nat.testBit_div_two_pow]
    rfl

theorem bitsN_byte (w : Word) (k : Nat) : bitsN 8 (w.extractLsb' k 8).toNat = bitsN 8 (w.toNat / 2 ^ k) := by
  rw [BitVec.extractLsb'_toNat, Nat.shiftRight_eq_div_pow, bitsN_mod_two_pow _ le_rfl]

theorem magic_bytes (w : Word) :
    bitsN 32 w.toNat = [w.extractLsb' 24 8, w.extractLsb' 16 8, w.extractLsb' 8 8, w.extractLsb' 0 8].flatMap
      fun b => bitsN 8 b.toNat := by
  simp only [List.flatMap_cons, List.flatMap_nil, bitsN_byte, List.append_nil]
  rw [bitsN_add 8 24, bitsN_add 8 16, bitsN_add 8 8, Nat.pow_zero, Nat.div_one]

theorem Tree.symbols_ne_nil (tr : Tree) : tr.symbols ≠ [] := by
  have := tr.leaves_pos
  rw [Tree.leaves] at this
  exact List.ne_nil_of_length_pos this

theorem Tree.eq_leaf_of_symbols {tr : Tree} (hnd : tr.symbols.Nodup) {x : Nat} (h : ∀ y ∈ tr.symbols, y = x) :
    tr = .leaf x := by
  cases tr with
  | leaf y => rw [h y (List.mem_singleton_self y)]
  | node l r =>
    obtain ⟨a, ha⟩ := List.exists_mem_of_ne_nil _ l.symbols_ne_nil
    obtain ⟨b, hb⟩ := List.exists_mem_of_ne_nil _ r.symbols_ne_nil
    have hab : a = b := (h a (List.mem_append_left _ ha)).trans (h b (List.mem_append_right _ hb)).symm
    exact absurd hab ((List.nodup_append.mp hnd).2.2 a ha b hb)

/-- Settles O57: the tree is the leaf of the terminator, whose code is empty. -/
theorem emptyInputCompresses : Obligations.EmptyInputCompresses := by
  intro s h hin hout hcap
  have hlen : s.inLen.toNat = 0 := by rw [hin]; rfl
  have hinput : s.input = [] := by rw [State.input, hlen]; rfl
  obtain ⟨t, tr, hexec, hc⟩ := exec_compress_compressed h fun i hi => by omega
  have hsymbols := hc.symbols
  have houtcome := hc.outcome
  rw [hinput] at hsymbols houtcome
  obtain rfl : tr = .leaf 256 := Tree.eq_leaf_of_symbols hc.distinct fun y hy => by simpa using (hsymbols y).mp hy
  have hbits : streamBits s.params.magic [] (.leaf 256) = bitsN 32 s.params.magic.toNat ++ true :: bitsN 9 256 :=
    List.append_nil _
  have hbitsLen : (streamBits s.params.magic [] (.leaf 256)).length = 42 := by
    rw [hbits, List.length_append, bitsN_length]
    rfl
  obtain ⟨hdone, herr, pad, hpad, hbits'⟩ | ⟨-, -, -, -, hless, hcause⟩ := houtcome
  · have hfull := hc.outLen_of_pad hbits'
    obtain rfl : pad = 6 := by omega
    refine ⟨t, hexec, hdone, herr, hc.holds.2.2, output_eq_of_outBits hc.pcnt ?_⟩
    rw [hbits', hbits, magic_bytes, List.append_assoc]
    rfl
  · rw [hout] at hcause
    have := hcause.resolve_right (by simp)
    omega

end Sys2Proof.Machine

end

/-! # Proofs about DECOMPRESS (44_system.md R194, 43_stream.md R181) -/

section

namespace Sys2Proof.Machine

open Sys2Proof.Laws (bitsN_length)

/-- HDRR on a header read from the start of an operation: the tree stands, the rest of the input is to be read. -/
theorem exec_hdrr_header {s : State} {tr : Tree} {rest : List Bool} (hread : Readable s) (hsize : tr.size ≤ 513)
    (hsym : ∀ x ∈ tr.symbols, x ≤ 256) (hbits : s.inBits = bitsN 32 s.params.magic.toNat ++ (tr.ser ++ rest)) :
    ∃ d, exec .hdrr (initState s) = .next d ∧ Ready d ∧ d.treeValid = true ∧ d.tree = some tr ∧ d.restBits = rest ∧
      d.oclosed = false ∧ d.pcnt = 0#3 ∧ d.outLen = 0#29 ∧ d.params = s.params ∧ d.inLen = s.inLen := by
  obtain ⟨m, hexec, htr⟩ := exec_hdrr_tree (s := initState s) rfl hread hsize hsym hbits
  have hstart : (initState s).treeBitsStart.restBits = tr.ser ++ rest := by
    have hbits0 : (initState s).begin.hdrrStart.restBits = bitsN 32 s.params.magic.toNat ++ (tr.ser ++ rest) := hbits
    exact restBits_advance_of_bits (by omega) (bitsN_length 32 _) hbits0
  have hrest : m.restBits = rest := htr.restBits hstart
  have hf := htr.fields
  refine ⟨_, hexec, ?_, rfl, htr.state_tree hsize hsym, hrest, ?_, ?_, ?_, ?_, ?_⟩
  all_goals
    rw [hf]
    rfl

/-- DECODE and FLUSH on codes and a terminator, with room for the symbols. -/
theorem exec_decode_flush {s : State} {tr : Tree} {cs : List (Nat × List Bool)} {e rest : List Bool} (hs : Ready s)
    (hinv : Inv s) (hvalid : s.treeValid = true) (htree : s.tree = some tr) (hopen : s.oclosed = false)
    (hpcnt : s.pcnt = 0#3) (hread : Readable s) (hcs : ∀ c ∈ cs, c ∈ tr.codes ∧ c.1 ≠ 256) (he : (256, e) ∈ tr.codes)
    (hbits : s.restBits = cs.flatMap Prod.snd ++ e ++ rest) (hroom : Room s (8 * cs.length)) :
    ∃ t, execSeq [.decode, .flush] s = .next t ∧ Ready t ∧ t.done = true ∧ t.pcnt = 0#3 ∧
      t.outBits = s.outBits ++ emitted cs ∧ t.tree = some tr := by
  have hlen := congrArg List.length hbits
  rw [State.restBits_length, List.length_append] at hlen
  have hreadable : BitsReadable s s.upos.toNat (cs.flatMap Prod.snd ++ e).length := fun k hk => hread _ (by omega)
  obtain ⟨m, hexec, hto, -⟩ := exec_decode_ok hs hvalid htree hcs he hbits hreadable (.inl hopen) hroom.writes_emitted
  have hcap : s.begin.outLen.toNat ≤ s.begin.params.obufCap := hinv.streams.lengths.1
  have hok : s.begin.params.Ok := hinv.streams.params
  have hmp : m.pcnt = 0#3 := (hto.counts hok hcap).1.trans hpcnt
  have hm : Ready { m with done := true } := hto.sstate.trans hs
  have hflush := (flushClosesOutput { m with done := true } hm).2.1 (hto.oclosed.trans hopen) hmp
  refine ⟨_, (execSeq_next hexec).trans hflush, hm, rfl, hmp, hto.outBits hok hcap, ?_⟩
  have htree' : m.tree = s.tree := by
    rw [State.tree, State.tree, hto.node, hto.root]
    rfl
  exact htree'.trans htree

/-- Settles O55: HDRR reads the tree, DECODE the codes up to the terminator. -/
theorem decompressReadsStream : Obligations.DecompressReadsStream := by
  intro s tr cs e rest h hin hout hsize hsym hcs he hbits hroom
  have hinit := initState_inv h
  simp only [List.append_assoc] at hbits
  obtain ⟨d, hhdrr, hd, hvalid, htree, hrest, hopen, hpcnt, hlen, hparams, -⟩ :=
    exec_hdrr_header (readable_of_no_error hin) hsize hsym hbits
  have hdinv := exec_command_inv (i := .hdrr) rfl hinit hhdrr
  have hroom' : Room d (8 * cs.length) := by
    have hzero : d.outLen.toNat = 0 ∧ d.pcnt.toNat = 0 := by rw [hlen, hpcnt]; exact ⟨rfl, rfl⟩
    refine ⟨hdinv.streams.params, ?_, fun j _ hj => ?_⟩
    · rw [hparams]
      omega
    · rw [hparams, hout] at hj
      exact absurd hj (by simp)
  obtain ⟨t, hexec, ht, hdone, htp, htbits, httree⟩ := exec_decode_flush hd hdinv hvalid htree hopen hpcnt
    (readable_of_no_error (hparams ▸ hin)) hcs he (by rw [hrest, List.append_assoc]) hroom'
  have hidle : ¬ s.busy = true := by simp [h.not_busy]
  have hdecompress : exec .decompress s = .next t := by
    have hseq : exec .decompress s = execSeq [.init, .hdrr, .decode, .flush] s := if_neg hidle
    rw [hseq, execSeq_next (exec_init_of_not_busy h.not_busy), execSeq_next hhdrr, hexec]
  have htinv := exec_pseudo_inv (p := .decompress) h hdecompress
  have hd0 : d.outBits = [] := by
    refine List.eq_nil_of_length_eq_zero ?_
    rw [State.outBits_length, hlen, hpcnt]
    rfl
  refine ⟨t, hdecompress, hdone, (htinv.no_fault ht).1, output_eq_of_outBits htp ?_, httree⟩
  rw [htbits, hd0, List.nil_append, emitted_bytes]

theorem State.inBits_of_bytes (s : State) : s.inBits = s.input.flatMap fun b => bitsN 8 b.toNat := by
  rw [State.inBits, State.input, List.flatMap_map]
  rfl

/-- The codes of bytes in a stream. -/
def byteCodes (tr : Tree) (bytes : List Byte) : List (Nat × List Bool) :=
  bytes.map fun b => (b.toNat, tr.codeBitsOf b.toNat)

theorem byteCodes_bits (tr : Tree) (bytes : List Byte) :
    (byteCodes tr bytes).flatMap Prod.snd ++ tr.codeBitsOf 256 =
      (bytes.map BitVec.toNat ++ [256]).flatMap tr.codeBitsOf := by
  rw [byteCodes, List.flatMap_append, List.flatMap_singleton, List.flatMap_map, List.flatMap_map]

theorem byteCodes_symbols (tr : Tree) (bytes : List Byte) :
    ((byteCodes tr bytes).map fun c => BitVec.ofNat 8 c.1) = bytes := by
  rw [byteCodes, List.map_map]
  refine (List.map_congr_left fun b _ => ?_).trans (List.map_id bytes)
  exact (BitVec.ofNat_toNat 8 b).trans (BitVec.setWidth_eq b)

/-- Settles O56: the output of COMPRESS, as the input, is a stream of the bytes. -/
theorem roundTripGivesInputBack : Obligations.RoundTripGivesInputBack := by
  intro s t bytes h hlen hin hout hroom hexec herr hfit
  obtain ⟨hinput, hparams⟩ := State.loadInput_input h.streams.params hlen
  obtain ⟨t', tr, hexec', hc⟩ := exec_compress_compressed (State.loadInput_inv h bytes)
    (readable_of_no_error (hparams ▸ hin))
  obtain rfl := Host.Outcome.next.inj (hexec.symm.trans hexec')
  obtain ⟨-, -, pad, -, hbits⟩ | ⟨-, herr', -⟩ := hc.outcome
  case inr => rw [herr'] at herr; exact absurd herr (by simp)
  case inl =>
    have htparams : t.params = s.params := hc.params.trans hparams
    obtain ⟨hcopy, hcopyParams⟩ := State.loadInput_input (s := t) (bs := t.output) (htparams ▸ h.streams.params)
      (by rw [State.output, List.length_map, List.length_range, htparams]; exact hfit)
    have hsymbols := hc.symbols
    rw [hinput] at hsymbols
    rw [hinput, hparams] at hbits
    have hmem : ∀ b ∈ bytes, b.toNat ∈ tr.symbols := fun b hb => (hsymbols _).mpr (.inr ⟨b, hb, rfl⟩)
    have hallParams : t.copyOutputToInput.params = s.params := hcopyParams.trans htparams
    have hstream : t.copyOutputToInput.inBits = bitsN 32 t.copyOutputToInput.params.magic.toNat ++ tr.ser ++
        (byteCodes tr bytes).flatMap Prod.snd ++ tr.codeBitsOf 256 ++ List.replicate pad false := by
      have hinBits : t.copyOutputToInput.inBits = t.outBits := by
        rw [State.inBits_of_bytes, State.outBits_of_bytes hc.pcnt]
        exact congrArg _ hcopy
      rw [hinBits, hbits, hallParams, streamBits, ← byteCodes_bits]
      simp only [List.append_assoc]
    obtain ⟨u, hu, hdone, huerr, huout, -⟩ := decompressReadsStream t.copyOutputToInput tr (byteCodes tr bytes)
      (tr.codeBitsOf 256) (List.replicate pad false) (State.loadInput_inv hc.inv _) (hallParams ▸ hin)
      (hallParams ▸ hout) hc.holds.size_le hc.holds.symbols_le
      (fun c hcmem => by
        obtain ⟨b, hb, rfl⟩ := List.mem_map.mp hcmem
        exact ⟨Tree.mem_codes_codeBitsOf (hmem b hb), ne_of_lt b.isLt⟩)
      (Tree.mem_codes_codeBitsOf ((hsymbols 256).mpr (.inl rfl))) hstream
      (by rw [byteCodes, List.length_map, hallParams]; exact hroom)
    exact ⟨u, hu, huerr, hdone, huout.trans (byteCodes_symbols tr bytes)⟩

end Sys2Proof.Machine

end
